-- ==== Sys2Proof/Word.lean ====
section
/-! DEFINITION. The word types of the block: host registers are 32 bits wide (10_state.md R32),
data-memory words 16 bits (20_memory.md R80). -/

namespace Sys2Proof

/-- A host register, a command word, or a 32-bit value. -/
abbrev Word32 := BitVec 32

/-- A data-memory word, a sample, a coefficient, an index. -/
abbrev Word16 := BitVec 16

/-- One byte cell of the model's memory list. -/
abbrev Byte := BitVec 8

end Sys2Proof
end

