-- ==== Sys2Proof/Config.lean ====
section
/-! DEFINITION. What an implementation fixes (00_scope.md R9): the frame modes and context kinds, the
parameters the spec gives a default for (`Params`, an argument of every run, notes/assumptions/8.md), and the
constant tables and arithmetic functions it gives no contents for (opaque constants without a body,
notes/assumptions/9.md to 15.md). -/

namespace Sys2Proof

/-- The frame mode (00_scope.md R6): A is 20 ms, B is 30 ms. -/
inductive Mode where
  | a
  | b
  deriving DecidableEq, Repr, Inhabited

/-- The kind of a channel context (10_state.md R51). -/
inductive CtxKind where
  | encoder
  | decoder
  deriving DecidableEq, Repr, Inhabited

/-- The LSF set a row of an interpolation table names (10_state.md R60: old, set0, set1). -/
inductive LsfSel where
  | old
  | set0
  | set1
  deriving DecidableEq, Repr, Inhabited

/-- One segment of a layout table (46_bitstream.md R402): bits `hi` down to `lo` of field `f`. -/
structure Segment where
  f : Nat
  hi : Nat
  lo : Nat
  deriving DecidableEq, Repr

/-! ### Parameters with a default (00_scope.md R9) -/

/-- The parameters of one frame mode (44_spectral_pipelines.md R332; 46_bitstream.md R401, R402). -/
structure FrameParams where
  /-- `N_LSFSET`: LSF sets of a frame. -/
  nLsfSet : Nat
  /-- `START_W`: width of the start index. -/
  startW : Nat
  /-- `START_MAX`: largest legal start index. -/
  startMax : Nat
  /-- `N_STATE`: state sample indices of a frame. -/
  nState : Nat
  /-- `CB_W`: for each codebook-coded vector the widths of its three codebook indices, so that `N_CBVEC` is
  its length. -/
  cbW : List (Nat × Nat × Nat)
  /-- `LAYOUT`: the segments of the coded frame; `none` when no table is supplied (R402). -/
  layout : Option (List Segment)
  deriving DecidableEq, Repr

/-- `PLC_MIX` (47_plc.md R430): the default map with its thresholds, or any map of `0..32767`, listed. -/
inductive PlcMix where
  | thresholds
  | table (levels : List Nat)
  deriving DecidableEq, Repr

/-- The parameters the spec gives a default for. -/
structure Params where
  /-- `DMEM_WORDS` (20_memory.md R80, decision D5). -/
  dmemWords : Nat
  /-- `NCTX` (10_state.md R50, decision D35). -/
  nctx : Nat
  /-- `ID_VALUE` (10_state.md R32, decision D46). -/
  idValue : Word32
  /-- The parameters of mode A. -/
  frameA : FrameParams
  /-- The parameters of mode B. -/
  frameB : FrameParams
  /-- `CB_LMEM_MAX` (45_codebook.md R350). -/
  cbLmemMax : Nat
  /-- `GAIN_SCALE_MIN`, Q14 (45_codebook.md R355). -/
  gainScaleMin : Int
  /-- `LSF_CLAMP_LAST` (43_lsf.md R300). -/
  lsfClampLast : Bool
  /-- `PLC_LAG_MIN` (47_plc.md R430, as those that follow). -/
  plcLagMin : Nat
  /-- `PLC_LAG_MAX`. -/
  plcLagMax : Nat
  /-- `PLC_CORR_LEN`. -/
  plcCorrLen : Nat
  /-- `PLC_GAIN_LVL[0..3]`, Q15. -/
  plcGainLvl : Vector Int 4
  /-- `PLC_NOISE_THR`. -/
  plcNoiseThr : Int
  /-- `PLC_MIX`. -/
  plcMix : PlcMix
  /-- `LCG_A`. -/
  lcgA : Int
  /-- `LCG_C`. -/
  lcgC : Int
  /-- `SEED_INIT`. -/
  seedInit : Word16
  /-- `LAG_INIT`. -/
  lagInit : Nat
  deriving DecidableEq, Repr

/-- The parameters of a frame mode. -/
def Params.frame (p : Params) : Mode → FrameParams
  | .a => p.frameA
  | .b => p.frameB

/-- The spec's defaults (93_implementation_defined.md section 2). `CB_W` is 8, 7, 7 for every vector. -/
def Params.default : Params :=
  { dmemWords := 8192
    nctx := 4
    idValue := 0x494C4243
    frameA := { nLsfSet := 1, startW := 2, startMax := 3, nState := 57, cbW := List.replicate 3 (8, 7, 7)
                layout := none }
    frameB := { nLsfSet := 2, startW := 3, startMax := 5, nState := 58, cbW := List.replicate 5 (8, 7, 7)
                layout := none }
    cbLmemMax := 256
    gainScaleMin := 1638
    lsfClampLast := false
    plcLagMin := 20
    plcLagMax := 119
    plcCorrLen := 80
    plcGainLvl := #v[32767, 29491, 16384, 0]
    plcNoiseThr := 1000
    plcMix := .thresholds
    lcgA := 31821
    lcgC := 13849
    seedInit := 777
    lagInit := 20 }

namespace Config

/-! ### Frame modes (00_scope.md R6, R7; 44_spectral_pipelines.md R332) -/

/-- `FRAME_LEN`: samples of a frame. -/
def frameLen : Mode → Nat
  | .a => 160
  | .b => 240

/-- `FRAME_BYTES`: bytes of a coded frame (46_bitstream.md R400). -/
def frameBytes : Mode → Nat
  | .a => 38
  | .b => 50

/-- `NSUB`: sub-frames of a frame (decision D13). -/
def nsub : Mode → Nat
  | .a => 4
  | .b => 6

/-! ### Tables without contents in the spec (10_state.md R60): free values -/

/-- `ANA_WIN[0..1]`, 240 entries each, Q14. -/
opaque anaWin : Vector (Vector Word16 240) 2

/-- `LSF_CB1`: 64 entries of 3 coefficients, Q13. -/
opaque lsfCb1 : Vector (Vector Word16 3) 64

/-- `LSF_CB2`: 128 entries of 3 coefficients, Q13. -/
opaque lsfCb2 : Vector (Vector Word16 3) 128

/-- `LSF_CB3`: 128 entries of 4 coefficients, Q13. -/
opaque lsfCb3 : Vector (Vector Word16 4) 128

/-- `LSF_MEAN`: the fixed fallback mean LSF vector, Q13. -/
opaque lsfMean : Vector Word16 10

/-- `LSF_EPS`, Q13. -/
opaque lsfEps : Word16

/-- `LSF_EPS2`, Q13. -/
opaque lsfEps2 : Word16

/-- `LSF_MIN`, Q13. -/
opaque lsfMin : Word16

/-- `LSF_MAX`, Q13. -/
opaque lsfMax : Word16

/-- Row `j` of `INTERP_A` or `INTERP_B` as drawn; `interpRow` (Machine/Rom.lean) keeps it to the rows
10_state.md R60 and 44_spectral_pipelines.md R332 admit. -/
opaque interpRaw : Mode → Nat → LsfSel × LsfSel × Word16

/-- `CHIRP_SYN`, 11 entries, Q15. -/
opaque chirpSyn : Vector Word16 11

/-- `CHIRP_WGT`, 11 entries, Q15. -/
opaque chirpWgt : Vector Word16 11

/-- `GRID_N - 1`: the grid has at least one interval, and a strictly decreasing 16-bit grid has at most
65535. -/
opaque gridNRaw : Fin 65535

/-- `COS_GRID` as drawn; `cosGrid` (Machine/Rom.lean) keeps it strictly decreasing. -/
opaque cosGridRaw : Nat → Word16

/-- `GAIN_CB5` as drawn; `gainCb5` (Machine/Rom.lean) keeps it strictly increasing and non-negative. -/
opaque gainCb5Raw : Vector Word16 32

/-- `GAIN_CB4` as drawn; `gainCb4` (Machine/Rom.lean) keeps it strictly increasing. -/
opaque gainCb4Raw : Vector Word16 16

/-- `GAIN_CB3` as drawn; `gainCb3` (Machine/Rom.lean) keeps it strictly increasing. -/
opaque gainCb3Raw : Vector Word16 8

/-- `HP_NCOEF`: entries of each high-pass coefficient table. -/
opaque hpNcoef : Nat

/-- `HP_COEF[k]`, entry by entry. -/
opaque hpCoefEntry : CtxKind → Nat → Word16

/-! ### Arithmetic the spec describes but does not give bit-exactly (00_scope.md R9): free functions -/

/-- `HP_ACC(k, HP_COEF[k], xi, x1, x2, y1, y2)`: total, to mathematical integers (41_filters.md R203;
notes/assumptions/11.md). -/
opaque hpAcc : CtxKind → List Int → Int → Int → Int → Int → Int → Int

/-- The coefficients `a_1 .. a_10` of `LEV_ARITH` as drawn (42_lpc.md R251). -/
opaque levRawA : List Int → Vector Word16 10

/-- The reflection coefficients `K_1 .. K_10` of `LEV_ARITH` as drawn (42_lpc.md R251). -/
opaque levRawK : List Int → Vector Word16 10

/-- `CHEB_EVAL(F, x)`: the 32-bit value of the Chebyshev form of `F` at the cosine `x` (42_lpc.md R262). -/
opaque chebEval : List Int → Int → Word32

/-- `LSP2LSF_FN` as drawn; `lsp2lsf` (Machine/Rom.lean) keeps it monotone (42_lpc.md R263). -/
opaque lsp2lsfRaw : Int → Word16

/-- The values `a_1 .. a_10` of `LSF2A_FN`; its first value is 4096 (42_lpc.md R270). -/
opaque lsf2aRaw : List Int → Vector Word16 10

/-- `CB_AUG(g, lMem, k)`: the `k`-th interpolated lag, 40 samples (45_codebook.md R351). -/
opaque cbAug : List Int → Nat → Nat → Vector Word16 40

/-- `CB_SMOOTH(h)`, sample `n` of it (45_codebook.md R351). -/
opaque cbSmoothAt : List Int → Nat → Word16

/-! ### Unspecified values of host reads (70_reset_and_hazards.md R521) -/

/-- The `n`-th unspecified 32-bit value a host read draws while a command is under way. -/
opaque busyRead : Nat → Word32

end Config
end Sys2Proof
end

