-- ==== Sys2Proof/Syntax.lean ====
section
/-! DEFINITION. The commands of the block, one constructor for each row of the opcode map
(30_encoding.md R115). The operands in A0..A7 are no part of the command word (R110); a constructor
carries the fields of the word its opcode uses (R111, R115). -/

namespace Sys2Proof

/-- DIR, bit 13 (30_encoding.md R111): 0 right, 1 left. -/
inductive ShiftDir where
  | right
  | left
  deriving DecidableEq, Repr, Inhabited

/-- RND, bit 14 (30_encoding.md R111): 0 floor, 1 "+half, then shift". -/
inductive Rounding where
  | floor
  | half
  deriving DecidableEq, Repr, Inhabited

/-- X of BWEXP (41_filters.md R204): 0 is CHIRP_SYN, 1 is CHIRP_WGT. -/
inductive ChirpSel where
  | syn
  | wgt
  deriving DecidableEq, Repr, Inhabited

/-- X of CB_CONSTRUCT (45_codebook.md R370): 1 is a backward-coded vector. -/
inductive CbDir where
  | forward
  | backward
  deriving DecidableEq, Repr, Inhabited

/-- A command. `sh` is the SH field, `ctx` the CTX field, `stg` the STG field. -/
inductive Instr where
  | nop
  | sat16
  | abs16
  | abs32
  | adds16
  | subs16
  | adds32
  | subs32
  | mul16 (sh : BitVec 5) (dir : ShiftDir) (rnd : Rounding)
  | shift32 (sh : BitVec 5) (dir : ShiftDir) (rnd : Rounding)
  | shift16 (sh : BitVec 5) (dir : ShiftDir) (rnd : Rounding)
  | normw16
  | normw32
  | normu32
  | sizebits
  | vmaxabs16
  | dotsc (sh : BitVec 5) (dir : ShiftDir)
  | vscale (sh : BitVec 5) (dir : ShiftDir) (rnd : Rounding)
  | vmul (sh : BitVec 5) (dir : ShiftDir) (rnd : Rounding)
  | filtMa
  | filtAr
  | hpFilt (ctx : BitVec 4)
  | bwexp (table : ChirpSel)
  | autocorr
  | levinson
  | a2lsf
  | lsf2a
  | lsfQuant
  | lsfDequant
  | lsfStab
  | lsfInterp
  | specAna (ctx : BitVec 4)
  | specSyn (ctx : BitVec 4)
  | acbSearch
  | bcbSearch
  | cbConstruct (dir : CbDir)
  | gainQuant (stg : BitVec 2)
  | gainDequant (stg : BitVec 2)
  | pack (mode : Mode)
  | unpack (ctx : BitVec 4)
  | plcGood (ctx : BitVec 4)
  | plcLost (ctx : BitVec 4)
  | chOpen (ctx : BitVec 4) (kind : CtxKind) (mode : Mode)
  | chClose (ctx : BitVec 4)
  deriving DecidableEq, Repr

end Sys2Proof
end

