-- ==== Sys2Proof/WellFormed.lean ====
section
/-! DEFINITION. Which commands have an encoding. The types of the fields carry every bound but one:
STG = 3 is reserved (30_encoding.md R116, R117). -/

namespace Sys2Proof

/-- The command is one the encoding admits: STG names one of the stages 0, 1, 2. -/
def Instr.wellFormed : Instr → Bool
  | .gainQuant stg => stg != 3
  | .gainDequant stg => stg != 3
  | .nop | .sat16 | .abs16 | .abs32 | .adds16 | .subs16 | .adds32 | .subs32 | .mul16 _ _ _
  | .shift32 _ _ _ | .shift16 _ _ _ | .normw16 | .normw32 | .normu32 | .sizebits | .vmaxabs16
  | .dotsc _ _ | .vscale _ _ _ | .vmul _ _ _ | .filtMa | .filtAr | .hpFilt _ | .bwexp _
  | .autocorr | .levinson | .a2lsf | .lsf2a | .lsfQuant | .lsfDequant | .lsfStab | .lsfInterp
  | .specAna _ | .specSyn _ | .acbSearch | .bcbSearch | .cbConstruct _ | .pack _ | .unpack _
  | .plcGood _ | .plcLost _ | .chOpen _ _ _ | .chClose _ => true

end Sys2Proof
end

