-- ==== Sys2Proof/Decode.lean ====
section
/-! DEFINITION. The command decoder and, after it, the encoder, both written from the field table and the
opcode map of 30_encoding.md (R111, R112, R115, R116). -/

namespace Sys2Proof

/-! ### Fields of the command word (30_encoding.md R111) -/

/-- Bit `i` of a command word. -/
def wordBit (w : Word32) (i : Nat) : Bool := w.getLsbD i

/-- OPC, bits 7:0. -/
def fieldOpc (w : Word32) : BitVec 8 := w.extractLsb' 0 8

/-- SH, bits 12:8. -/
def fieldSh (w : Word32) : BitVec 5 := w.extractLsb' 8 5

/-- DIR, bit 13: 0 right, 1 left. -/
def fieldDir (w : Word32) : ShiftDir := if wordBit w 13 then .left else .right

/-- RND, bit 14: 0 floor, 1 "+half, then shift". -/
def fieldRnd (w : Word32) : Rounding := if wordBit w 14 then .half else .floor

/-- X, bit 15, of CH_OPEN: 0 encoder, 1 decoder. -/
def fieldKind (w : Word32) : CtxKind := if wordBit w 15 then .decoder else .encoder

/-- X, bit 15, of BWEXP: 0 CHIRP_SYN, 1 CHIRP_WGT. -/
def fieldChirp (w : Word32) : ChirpSel := if wordBit w 15 then .wgt else .syn

/-- X, bit 15, of CB_CONSTRUCT: 1 backward. -/
def fieldCbDir (w : Word32) : CbDir := if wordBit w 15 then .backward else .forward

/-- CTX, bits 19:16. -/
def fieldCtx (w : Word32) : BitVec 4 := w.extractLsb' 16 4

/-- STG, bits 21:20. -/
def fieldStg (w : Word32) : BitVec 2 := w.extractLsb' 20 2

/-- MODE, bit 22: 0 mode A, 1 mode B. -/
def fieldMode (w : Word32) : Mode := if wordBit w 22 then .b else .a

/-! ### Masks of the used fields (30_encoding.md R116) -/

def maskSh : Word32 := 0x00001F00
def maskDir : Word32 := 0x00002000
def maskRnd : Word32 := 0x00004000
def maskX : Word32 := 0x00008000
def maskCtx : Word32 := 0x000F0000
def maskStg : Word32 := 0x00300000
def maskMode : Word32 := 0x00400000

/-! ### Decoder -/

/-- Why a command word names no command: the decoder rejects by name (30_encoding.md R117). -/
inductive DecodeError where
  /-- The opcode is unassigned (R115): the command ends with ERR_ILLEGAL. -/
  | illegal
  /-- A reserved bit, an unused field, or STG = 3 (R112, R116): the command ends with ERR_RSVD. -/
  | reserved
  deriving DecidableEq, Repr

/-- The row of the opcode map that OPC selects: the fields it uses, and its command (R115). -/
def opcodeRow (w : Word32) : Option (Word32 × Instr) :=
  match (fieldOpc w).toNat with
  | 0x00 => some (0, .nop)
  | 0x01 => some (0, .sat16)
  | 0x02 => some (0, .abs16)
  | 0x03 => some (0, .abs32)
  | 0x04 => some (0, .adds16)
  | 0x05 => some (0, .subs16)
  | 0x06 => some (0, .adds32)
  | 0x07 => some (0, .subs32)
  | 0x08 => some (maskSh ||| maskDir ||| maskRnd, .mul16 (fieldSh w) (fieldDir w) (fieldRnd w))
  | 0x09 => some (maskSh ||| maskDir ||| maskRnd, .shift32 (fieldSh w) (fieldDir w) (fieldRnd w))
  | 0x0A => some (maskSh ||| maskDir ||| maskRnd, .shift16 (fieldSh w) (fieldDir w) (fieldRnd w))
  | 0x0B => some (0, .normw16)
  | 0x0C => some (0, .normw32)
  | 0x0D => some (0, .normu32)
  | 0x0E => some (0, .sizebits)
  | 0x10 => some (0, .vmaxabs16)
  | 0x11 => some (maskSh ||| maskDir, .dotsc (fieldSh w) (fieldDir w))
  | 0x12 => some (maskSh ||| maskDir ||| maskRnd, .vscale (fieldSh w) (fieldDir w) (fieldRnd w))
  | 0x13 => some (maskSh ||| maskDir ||| maskRnd, .vmul (fieldSh w) (fieldDir w) (fieldRnd w))
  | 0x20 => some (0, .filtMa)
  | 0x21 => some (0, .filtAr)
  | 0x22 => some (maskCtx, .hpFilt (fieldCtx w))
  | 0x23 => some (maskX, .bwexp (fieldChirp w))
  | 0x30 => some (0, .autocorr)
  | 0x31 => some (0, .levinson)
  | 0x32 => some (0, .a2lsf)
  | 0x33 => some (0, .lsf2a)
  | 0x40 => some (0, .lsfQuant)
  | 0x41 => some (0, .lsfDequant)
  | 0x42 => some (0, .lsfStab)
  | 0x43 => some (0, .lsfInterp)
  | 0x48 => some (maskCtx, .specAna (fieldCtx w))
  | 0x49 => some (maskCtx, .specSyn (fieldCtx w))
  | 0x50 => some (0, .acbSearch)
  | 0x51 => some (0, .bcbSearch)
  | 0x52 => some (maskX, .cbConstruct (fieldCbDir w))
  | 0x53 => some (maskStg, .gainQuant (fieldStg w))
  | 0x54 => some (maskStg, .gainDequant (fieldStg w))
  | 0x60 => some (maskMode, .pack (fieldMode w))
  | 0x61 => some (maskCtx, .unpack (fieldCtx w))
  | 0x70 => some (maskCtx, .plcGood (fieldCtx w))
  | 0x71 => some (maskCtx, .plcLost (fieldCtx w))
  | 0x7E => some (maskX ||| maskCtx ||| maskMode, .chOpen (fieldCtx w) (fieldKind w) (fieldMode w))
  | 0x7F => some (maskCtx, .chClose (fieldCtx w))
  | _ => none

/-- The command a word names: OPC assigned, else illegal; `(w & mask(op)) = op` and STG legal, else
reserved (R116, R117). -/
def decode (w : Word32) : Except DecodeError Instr :=
  match opcodeRow w with
  | none => .error .illegal
  | some (used, i) =>
    if w &&& ~~~used = (fieldOpc w).setWidth 32 && i.wellFormed then .ok i else .error .reserved

/-! ### Encoder -/

/-- A one-bit field at bit `i`. -/
def putBit (i : Nat) (b : Bool) : Word32 := if b then BitVec.twoPow 32 i else 0

def putSh (sh : BitVec 5) : Word32 := sh.setWidth 32 <<< 8
def putDir (d : ShiftDir) : Word32 := putBit 13 (d == .left)
def putRnd (r : Rounding) : Word32 := putBit 14 (r == .half)
def putKind (k : CtxKind) : Word32 := putBit 15 (k == .decoder)
def putChirp (t : ChirpSel) : Word32 := putBit 15 (t == .wgt)
def putCbDir (d : CbDir) : Word32 := putBit 15 (d == .backward)
def putCtx (c : BitVec 4) : Word32 := c.setWidth 32 <<< 16
def putStg (t : BitVec 2) : Word32 := t.setWidth 32 <<< 20
def putMode (m : Mode) : Word32 := putBit 22 (m == .b)

/-- The command word of a command (R111, R115). -/
def encode : Instr → Word32
  | .nop => 0x00
  | .sat16 => 0x01
  | .abs16 => 0x02
  | .abs32 => 0x03
  | .adds16 => 0x04
  | .subs16 => 0x05
  | .adds32 => 0x06
  | .subs32 => 0x07
  | .mul16 sh dir rnd => 0x08 ||| putSh sh ||| putDir dir ||| putRnd rnd
  | .shift32 sh dir rnd => 0x09 ||| putSh sh ||| putDir dir ||| putRnd rnd
  | .shift16 sh dir rnd => 0x0A ||| putSh sh ||| putDir dir ||| putRnd rnd
  | .normw16 => 0x0B
  | .normw32 => 0x0C
  | .normu32 => 0x0D
  | .sizebits => 0x0E
  | .vmaxabs16 => 0x10
  | .dotsc sh dir => 0x11 ||| putSh sh ||| putDir dir
  | .vscale sh dir rnd => 0x12 ||| putSh sh ||| putDir dir ||| putRnd rnd
  | .vmul sh dir rnd => 0x13 ||| putSh sh ||| putDir dir ||| putRnd rnd
  | .filtMa => 0x20
  | .filtAr => 0x21
  | .hpFilt ctx => 0x22 ||| putCtx ctx
  | .bwexp table => 0x23 ||| putChirp table
  | .autocorr => 0x30
  | .levinson => 0x31
  | .a2lsf => 0x32
  | .lsf2a => 0x33
  | .lsfQuant => 0x40
  | .lsfDequant => 0x41
  | .lsfStab => 0x42
  | .lsfInterp => 0x43
  | .specAna ctx => 0x48 ||| putCtx ctx
  | .specSyn ctx => 0x49 ||| putCtx ctx
  | .acbSearch => 0x50
  | .bcbSearch => 0x51
  | .cbConstruct dir => 0x52 ||| putCbDir dir
  | .gainQuant stg => 0x53 ||| putStg stg
  | .gainDequant stg => 0x54 ||| putStg stg
  | .pack mode => 0x60 ||| putMode mode
  | .unpack ctx => 0x61 ||| putCtx ctx
  | .plcGood ctx => 0x70 ||| putCtx ctx
  | .plcLost ctx => 0x71 ||| putCtx ctx
  | .chOpen ctx kind mode => 0x7E ||| putCtx ctx ||| putKind kind ||| putMode mode
  | .chClose ctx => 0x7F ||| putCtx ctx

/-- The opcode of a command (R115). -/
def Instr.opcode : Instr → BitVec 8
  | .nop => 0x00
  | .sat16 => 0x01
  | .abs16 => 0x02
  | .abs32 => 0x03
  | .adds16 => 0x04
  | .subs16 => 0x05
  | .adds32 => 0x06
  | .subs32 => 0x07
  | .mul16 _ _ _ => 0x08
  | .shift32 _ _ _ => 0x09
  | .shift16 _ _ _ => 0x0A
  | .normw16 => 0x0B
  | .normw32 => 0x0C
  | .normu32 => 0x0D
  | .sizebits => 0x0E
  | .vmaxabs16 => 0x10
  | .dotsc _ _ => 0x11
  | .vscale _ _ _ => 0x12
  | .vmul _ _ _ => 0x13
  | .filtMa => 0x20
  | .filtAr => 0x21
  | .hpFilt _ => 0x22
  | .bwexp _ => 0x23
  | .autocorr => 0x30
  | .levinson => 0x31
  | .a2lsf => 0x32
  | .lsf2a => 0x33
  | .lsfQuant => 0x40
  | .lsfDequant => 0x41
  | .lsfStab => 0x42
  | .lsfInterp => 0x43
  | .specAna _ => 0x48
  | .specSyn _ => 0x49
  | .acbSearch => 0x50
  | .bcbSearch => 0x51
  | .cbConstruct _ => 0x52
  | .gainQuant _ => 0x53
  | .gainDequant _ => 0x54
  | .pack _ => 0x60
  | .unpack _ => 0x61
  | .plcGood _ => 0x70
  | .plcLost _ => 0x71
  | .chOpen _ _ _ => 0x7E
  | .chClose _ => 0x7F

/-- The instruction the decoder reads from a word of the opcode table: a command is one 32-bit word
(R110), so every bit at or above `nbits` is 0, and no row is longer than 32 bits. -/
def decodeTableWord (nbits w : Nat) : Option Instr :=
  if nbits ≤ 32 then
    match decode (BitVec.ofNat 32 (w % 2 ^ nbits)) with
    | .ok i => some i
    | .error _ => none
  else none

end Sys2Proof
end

