-- ==== Sys2Proof/Machine/State.lean ====
section
/-! DEFINITION. The state of the block (10_state.md, 20_memory.md, 70_reset_and_hazards.md R510) as plain
data, with the two agents' turns beside it (notes/assumptions/1.md). -/

namespace Sys2Proof.Machine

/-! ### Completion codes and STATUS -/

/-- The completion codes of a command (60_exceptions.md R470). Codes 9 to 255 are never written. -/
inductive ErrCode where
  /-- 0: the command completed. -/
  | ok
  /-- 1: OPC is unassigned. -/
  | errIllegal
  /-- 2: a reserved bit, an unused field or STG = 3. -/
  | errRsvd
  /-- 3: the context number, its openness or its kind. -/
  | errCtx
  /-- 4: an argument register. -/
  | errArg
  /-- 5: a region outside the data memory. -/
  | errAddr
  /-- 6: an output region overlapping another region. -/
  | errAlias
  /-- 7: a value read that its use does not admit. -/
  | errVal
  /-- 8: UNPACK's byte count. -/
  | errFormat
  deriving DecidableEq, Repr, Inhabited

/-- The fields of STATUS (10_state.md R36). Its reserved bits read 0 and have no storage. -/
structure Status where
  busy : Bool
  done : Bool
  unstable : Bool
  biterr : Bool
  noiseonly : Bool
  err : ErrCode
  hostviol : Bool
  deriving DecidableEq, Repr

/-! ### Memory -/

/-- The data memory: a list of byte cells (notes/assumptions/4.md). Word `a` of DMEM is the cells
`2 * a` (bits [7:0]) and `2 * a + 1` (bits [15:8]); a cell the list lacks reads `Memory.unwritten`. -/
abbrev Memory := List Host.Cell

/-! ### Channel contexts -/

/-- The fields of an open channel context (10_state.md R51, R52). A closed context holds no value (R53),
so it is the absence of one of these. -/
structure Ctx where
  /-- 0 encoder, 1 decoder. -/
  kind : CtxKind
  /-- 0 mode A, 1 mode B. -/
  mode : Mode
  /-- `hp_x[0]`: x[n-1]. -/
  hpX0 : Word16
  /-- `hp_x[1]`: x[n-2]. -/
  hpX1 : Word16
  /-- `hp_y[0]`: y[n-1] in the accumulator domain. -/
  hpY0 : Word32
  /-- `hp_y[1]`: y[n-2] in the accumulator domain. -/
  hpY1 : Word32
  /-- `lsf_old`. -/
  lsfOld : Vector Word16 10
  /-- `lsf_old_u`. -/
  lsfOldU : Vector Word16 10
  /-- `ana_hist`. -/
  anaHist : Vector Word16 240
  /-- `prev_res`. -/
  prevRes : Vector Word16 240
  /-- `prev_lpc`. -/
  prevLpc : Vector Word16 11
  /-- `seed`. -/
  seed : Word16
  /-- `lag`. -/
  lag : Word16
  /-- `per`. -/
  per : Word16
  /-- `loss_cnt`, unsigned. -/
  lossCnt : Word16
  deriving DecidableEq, Repr

/-! ### The host's side -/

/-- One access of the host to the register map (10_state.md R32): byte offset, width in bits, and for a
write the value. -/
inductive HostAccess where
  | read (offset width : Nat)
  | write (offset width : Nat) (value : Word32)
  deriving DecidableEq, Repr

/-- Which agent makes the next step (notes/assumptions/1.md). -/
inductive Turn where
  /-- The host makes one access. -/
  | host (a : HostAccess)
  /-- The engine runs the command under way, if there is one. -/
  | engine
  deriving DecidableEq, Repr

/-! ### The state -/

/-- The state of the block. `params`, `turns`, `rdata` and `draws` are the model's own (INVENTORY.md). -/
structure State where
  /-- The block's parameters (00_scope.md R9): the argument of the run, which no step changes
  (notes/assumptions/8.md). -/
  params : Params
  /-- CMD: the last command word accepted (10_state.md R32, R35). -/
  cmd : Word32
  /-- STATUS (R36). -/
  status : Status
  /-- ERRINFO (R37). -/
  errinfo : Word32
  /-- A0..A7 (R33). -/
  args : Vector Word32 8
  /-- RES0 (R34). -/
  res0 : Word32
  /-- RES1 (R34). -/
  res1 : Word32
  /-- DADDR, bits [15:0] (R32; 20_memory.md R84). -/
  daddr : Word16
  /-- DMEM (20_memory.md R80). -/
  dmem : Memory
  /-- The channel contexts; `none` is closed (R50, R53). CTXOPEN is a view of it. Of the 16 that CMD.CTX can
  name, the first `NCTX` are there; nothing reads or writes the others. -/
  ctxs : Vector (Option Ctx) 16
  /-- The turns still to come; with none left the engine steps. -/
  turns : List Turn
  /-- What the host's last read returned. -/
  rdata : Word32
  /-- How many unspecified values host reads have drawn (70_reset_and_hazards.md R521). -/
  draws : Nat
  deriving DecidableEq, Repr

/-! ### Outcomes -/

/-- Why the machine would stop with a fault: it never does. An error ends one command with a completion
code and the engine goes on (60_exceptions.md R472, R480), so this type has no constructor; safe
(notes/assumptions/25.md). -/
inductive Fault where
  deriving DecidableEq, Repr

/-- Why a step would be refused. -/
inductive Refusal where
  /-- Raised by `exec`'s arm of an instruction that has no meaning yet; no arm raises it now. Safe: a
  claim about a next state cannot rest on it. -/
  | notModelled (mnemonic : String)
  deriving DecidableEq, Repr

/-- The outcome of one step of this machine. -/
abbrev StepOutcome := Host.Outcome State Fault Refusal

/-! ### Reset -/

/-- STATUS after reset: all fields 0 (70_reset_and_hazards.md R510). -/
def Status.reset : Status :=
  { busy := false, done := false, unstable := false, biterr := false, noiseonly := false
    err := .ok, hostviol := false }

/-- The state right after reset of a block with the parameters `p`, its data memory holding the draw `m`
(70_reset_and_hazards.md R510: each word holds an arbitrary value, which a model draws;
notes/assumptions/3.md, 8.md). -/
def State.resetDrawn (p : Params) (m : Memory) : State :=
  { params := p
    cmd := 0
    status := Status.reset
    errinfo := 0
    args := Vector.replicate 8 0
    res0 := 0
    res1 := 0
    daddr := 0
    dmem := m
    ctxs := Vector.replicate 16 none
    turns := []
    rdata := 0
    draws := 0 }

/-- The state right after reset, with the spec's default parameters and nothing listed in the data memory. -/
def State.reset : State := State.resetDrawn Params.default []

end Sys2Proof.Machine
end

