-- ==== Sys2Proof/Machine/Flags.lean ====
section
/-! DEFINITION. STATUS: its bits as the host reads them, and every update of them (10_state.md R35, R36;
60_exceptions.md R472, R476). The block has no other flags. -/

namespace Sys2Proof.Machine

/-- The number of a completion code (60_exceptions.md R470). -/
def ErrCode.code : ErrCode → BitVec 8
  | .ok => 0
  | .errIllegal => 1
  | .errRsvd => 2
  | .errCtx => 3
  | .errArg => 4
  | .errAddr => 5
  | .errAlias => 6
  | .errVal => 7
  | .errFormat => 8

/-- Bit `i` of a host register, set or clear. -/
def bitAt (i : Nat) (b : Bool) : Word32 := if b then BitVec.twoPow 32 i else 0

/-- STATUS as the host reads it (10_state.md R36): reserved bits read 0. -/
def Status.word (st : Status) : Word32 :=
  bitAt 0 st.busy ||| bitAt 1 st.done ||| bitAt 2 st.unstable ||| bitAt 3 st.biterr |||
    bitAt 4 st.noiseonly ||| (st.err.code.setWidth 32 <<< 8) ||| bitAt 16 st.hostviol

/-- STATUS when a CMD write is accepted (R35): BUSY set; DONE, ERR, UNSTABLE, BITERR and NOISEONLY
cleared; HOSTVIOL kept. -/
def Status.accepted (st : Status) : Status :=
  { busy := true, done := false, unstable := false, biterr := false, noiseonly := false
    err := .ok, hostviol := st.hostviol }

/-- STATUS when a command ends with completion code `c` (R35; 60_exceptions.md R470, R472): BUSY cleared,
DONE set, ERR written. -/
def Status.ended (st : Status) (c : ErrCode) : Status :=
  { st with busy := false, done := true, err := c }

/-- "set UNSTABLE". -/
def State.setUnstable (s : State) : State := { s with status := { s.status with unstable := true } }

/-- "set BITERR". -/
def State.setBiterr (s : State) : State := { s with status := { s.status with biterr := true } }

/-- "set NOISEONLY". -/
def State.setNoiseonly (s : State) : State := { s with status := { s.status with noiseonly := true } }

/-- "set STATUS.HOSTVIOL" (60_exceptions.md R476). -/
def State.setHostviol (s : State) : State := { s with status := { s.status with hostviol := true } }

/-- A host write of 1 to bit 16 of STATUS (10_state.md R36). -/
def State.clearHostviol (s : State) : State := { s with status := { s.status with hostviol := false } }

/-- An update made only if `b` holds. -/
def State.updateIf (s : State) (b : Bool) (f : State → State) : State := if b then f s else s

end Sys2Proof.Machine
end

