-- ==== Sys2Proof/Machine/Arith.lean ====
section
/-! DEFINITION. The fixed-point primitives on mathematical integers (00_scope.md R10 to R12; 30_encoding.md
R114; 40_fixed_point.md R159), and the small list operations the command rules are written in. -/

namespace Sys2Proof.Machine

/-! ### Narrowing (00_scope.md R11) -/

/-- `clamp(v, lo, hi) = min(hi, max(lo, v))`. -/
def clamp (v lo hi : Int) : Int := min hi (max lo v)

/-- `sat16`. -/
def sat16 (v : Int) : Int := clamp v (-32768) 32767

/-- `sat32`. -/
def sat32 (v : Int) : Int := clamp v (-2147483648) 2147483647

/-- `wrap16`. -/
def wrap16 (v : Int) : Int := (v + 32768) % 65536 - 32768

/-- `wrap32`; no command rule uses it. -/
def wrap32 (v : Int) : Int := (v + 2147483648) % 4294967296 - 2147483648

/-- The magnitude of an integer. -/
def magnitude (v : Int) : Int := v.natAbs

/-! ### Shifts (00_scope.md R12; 30_encoding.md R114) -/

/-- `v >> s = floor(v / 2^s)`. -/
def asr (v : Int) (s : Nat) : Int := v / 2 ^ s

/-- `v << s = v * 2^s`. -/
def shl (v : Int) (s : Nat) : Int := v * 2 ^ s

/-- `rshr`: "+half, then shift"; by 0 it is the identity. -/
def rshr (v : Int) : Nat → Int
  | 0 => v
  | s + 1 => asr (v + 2 ^ s) (s + 1)

/-- `shft(v, SH, DIR, RND)`. A left shift does not look at RND. -/
def shft (v : Int) (sh : Nat) (dir : ShiftDir) (rnd : Rounding) : Int :=
  match dir, rnd with
  | .left, _ => shl v sh
  | .right, .half => rshr v sh
  | .right, .floor => asr v sh

/-! ### Bit lengths (40_fixed_point.md R159, R152, R153) -/

/-- `bitlen(v)`: the least `b` with `v < 2^b`. -/
def bitlen (v : Nat) : Nat := if v = 0 then 0 else v.log2 + 1

/-- The bits of an `n + 1`-bit signed value that repeat its sign: 0 for 0, else `n - bitlen` of the value
or, if it is negative, of its bitwise NOT. -/
def normShift (n : Nat) (v : Int) : Nat :=
  if v = 0 then 0
  else n - bitlen (if v < 0 then (-v - 1).toNat else v.toNat)

/-! ### Lists of integers -/

/-- Entry `i` of a list; 0 beyond its end, which no command rule reaches (10_state.md R61). -/
def nth (l : List Int) (i : Nat) : Int := l.getD i 0

/-- The list `f 0, ..., f (n-1)`. -/
def tabulate (n : Nat) (f : Nat → Int) : List Int := (List.range n).map f

/-- The sum over `i` in `0..n-1` of `f i`. -/
def sumTo (n : Nat) (f : Nat → Int) : Int := (tabulate n f).sum

/-- The least `i` in `0..n-1` at which `f` is smallest; 0 when `n` is 0 (43_lsf.md R290, 45_codebook.md
R355: ties go to the lower index). -/
def argMin (f : Nat → Int) : Nat → Nat
  | 0 => 0
  | 1 => 0
  | n + 1 => let b := argMin f n; if f n < f b then n else b

/-- A list cut or padded with `d` to length `n`. -/
def fitList {α : Type} (d : α) : Nat → List α → List α
  | 0, _ => []
  | n + 1, [] => d :: fitList d n []
  | n + 1, x :: xs => x :: fitList d n xs

theorem fitList_length {α : Type} (d : α) : ∀ (n : Nat) (l : List α), (fitList d n l).length = n
  | 0, _ => rfl
  | n + 1, [] => by simp [fitList, fitList_length d n]
  | n + 1, _ :: xs => by simp [fitList, fitList_length d n xs]

/-- A list as `n` 16-bit words: the way a context field is written. -/
def words (n : Nat) (l : List Int) : Vector Word16 n :=
  ⟨⟨(fitList 0 n l).map (BitVec.ofInt 16)⟩, by simp [fitList_length]⟩

/-- `n` 16-bit words as signed integers: the way a context field or a table is read. -/
def ints {n : Nat} (v : Vector Word16 n) : List Int := v.toArray.toList.map BitVec.toInt

end Sys2Proof.Machine
end

