-- ==== Sys2Proof/Machine/Rom.lean ====
section
/-! DEFINITION. Reading the constant tables and the parameters that the spec leaves open, each kept to the
constraint its rule states (10_state.md R60; 42_lpc.md R251, R262, R263, R270; 44_spectral_pipelines.md
R332; 45_codebook.md R351, R352). The free value is the raw constant of Config; where the raw value breaks
the constraint the machine uses a fixed admissible one, so the value in use ranges over exactly the
admissible ones (notes/assumptions/9.md). -/

namespace Sys2Proof.Machine

/-- `raw` if it meets the constraint, else `dflt`, which does. -/
def admitted {α : Type} (ok : α → Bool) (dflt raw : α) : α := if ok raw then raw else dflt

/-- `f 0, ..., f n` rises strictly. -/
def risesTo (n : Nat) (f : Nat → Int) : Bool := (List.range n).all fun i => f i < f (i + 1)

/-- A table of integers rises strictly. -/
def rises (t : List Int) : Bool := risesTo (t.length - 1) (nth t)

/-! ### Tables -/

/-- `ANA_WIN[s]` (10_state.md R60). -/
def anaWindow (s : Nat) : List Int := ints (Config.anaWin.toArray.toList.getD s (words 240 []))

/-- `LSF_CB1`, entry by entry. -/
def lsfCb1 : List (List Int) := Config.lsfCb1.toArray.toList.map ints

/-- `LSF_CB2`. -/
def lsfCb2 : List (List Int) := Config.lsfCb2.toArray.toList.map ints

/-- `LSF_CB3`. -/
def lsfCb3 : List (List Int) := Config.lsfCb3.toArray.toList.map ints

/-- `LSF_MEAN`. -/
def lsfMean : List Int := ints Config.lsfMean

/-- `CHIRP_SYN` or `CHIRP_WGT` (41_filters.md R204). -/
def chirp : ChirpSel → List Int
  | .syn => ints Config.chirpSyn
  | .wgt => ints Config.chirpWgt

/-- `HP_COEF[k]`. -/
def hpCoef (k : CtxKind) : List Int :=
  tabulate Config.hpNcoef fun i => (Config.hpCoefEntry k i).toInt

/-- `GRID_N`. -/
def gridN : Nat := Config.gridNRaw.val + 1

/-- `COS_GRID`, strictly decreasing (42_lpc.md R262). -/
def cosGrid : Nat → Int :=
  admitted (fun f => risesTo gridN fun j => -f j) (fun j => 32767 - j)
    (fun j => (Config.cosGridRaw j).toInt)

/-- `GAIN_CB5`: 32 levels, strictly increasing, none negative (45_codebook.md R352). -/
def gainCb5 : List Int :=
  admitted (fun t => rises t && decide (0 ≤ nth t 0)) (tabulate 32 fun i => i) (ints Config.gainCb5Raw)

/-- `GAIN_CB4`: 16 levels, strictly increasing. -/
def gainCb4 : List Int := admitted rises (tabulate 16 fun i => i) (ints Config.gainCb4Raw)

/-- `GAIN_CB3`: 8 levels, strictly increasing. -/
def gainCb3 : List Int := admitted rises (tabulate 8 fun i => i) (ints Config.gainCb3Raw)

/-- A row of an interpolation table (44_spectral_pipelines.md R332): the "from" set, the "to" set and the
Q14 weight of the "from" set. -/
structure InterpRow where
  src : LsfSel
  dst : LsfSel
  w : Int
  deriving DecidableEq, Repr

/-- A set that a row of a mode's table may name, in a mode with `nSets` sets: `old`, or a set below
`N_LSFSET(mode)` (44_spectral_pipelines.md R332); `INTERP_A` names `old` and `set0` alone, however many sets mode A
has (10_state.md R60). -/
def selAdmitted (m : Mode) (nSets : Nat) : LsfSel → Bool
  | .old => true
  | .set0 => 0 < nSets
  | .set1 => m = .b && 1 < nSets

/-- Row `j` of `INTERP_A` or `INTERP_B`: sets the table may name, weight in `0..16384`
(notes/assumptions/15.md). -/
def interpRow (p : Params) (m : Mode) (j : Nat) : InterpRow :=
  admitted (fun r => selAdmitted m (p.frame m).nLsfSet r.src && selAdmitted m (p.frame m).nLsfSet r.dst &&
       decide (0 ≤ r.w) && decide (r.w ≤ 16384))
    { src := .old, dst := .old, w := 0 }
    { src := (Config.interpRaw m j).1, dst := (Config.interpRaw m j).2.1
      w := (Config.interpRaw m j).2.2.toInt }

/-! ### Arithmetic parameters -/

/-- What `LEV_ARITH` returns: `a` the 11 coefficients, `k` the 10 reflection coefficients, `fail` 0 or the
1-based index of the first reflection coefficient whose magnitude exceeds 32750. -/
structure LevResult where
  a : List Int
  k : List Int
  fail : Nat
  deriving DecidableEq, Repr

/-- The 1-based index of the first entry whose magnitude exceeds `LEV_KMAX` = 32750, from index `i` on; 0
when there is none (42_lpc.md R251, R252). -/
def firstUnstable : Nat → List Int → Nat
  | _, [] => 0
  | i, k :: ks => if 32750 < magnitude k then i else firstUnstable (i + 1) ks

/-- `LEV_ARITH` (42_lpc.md R251): `A[0] = 4096`; `fail` is the test on the computed coefficients; with
`R[1..10]` all 0 it returns the identity filter, zero reflection coefficients and no failure
(notes/assumptions/10.md). -/
def levArith (r : List Int) : LevResult :=
  let zero := r.tail.all (· == 0)
  let k := if zero then tabulate 10 fun _ => 0 else ints (Config.levRawK r)
  let a := if zero then tabulate 10 fun _ => 0 else ints (Config.levRawA r)
  { a := 4096 :: a, k := k, fail := firstUnstable 1 k }

/-- `CHEB_EVAL` (notes/assumptions/12.md). -/
def chebEval (f : List Int) (x : Int) : Int := (Config.chebEval f x).toInt

/-- `LSP2LSF_FN`, monotone non-increasing over the Q15 cosines (42_lpc.md R263). -/
def lsp2lsf : Int → Int :=
  admitted (fun f => (List.range 65535).all fun j => f ((j : Int) - 32767) ≤ f ((j : Int) - 32768))
    (fun _ => 0) (fun x => (Config.lsp2lsfRaw x).toInt)

/-- `LSF2A_FN`: 11 values, the first 4096 (42_lpc.md R270; notes/assumptions/13.md). -/
def lsf2aFn (f : List Int) : List Int := 4096 :: ints (Config.lsf2aRaw f)

/-- `CB_AUG(g, lMem, k)` (45_codebook.md R351; notes/assumptions/14.md). -/
def cbAug (g : List Int) (lMem k : Nat) : List Int := ints (Config.cbAug g lMem k)

/-- `CB_SMOOTH(h)`: as many samples as `h` has (45_codebook.md R351). -/
def cbSmooth (h : List Int) : List Int :=
  tabulate h.length fun n => (Config.cbSmoothAt h n).toInt

end Sys2Proof.Machine
end

