-- ==== Sys2Proof/Machine/Ops.lean ====
section
/-! DEFINITION. The named operations on the state: the data memory (20_memory.md R80, R85, R86), the result
registers (10_state.md R34), the channel contexts (R50 to R53), ending a command with an error or with
success (60_exceptions.md R472, R473), and starting the next one (10_state.md R35), which is the block's
return from error handling (60_exceptions.md R480). -/

namespace Sys2Proof.Machine

/-! ### Byte cells -/

/-- What a cell the list lacks reads as (notes/assumptions/3.md). -/
def Memory.unwritten : Byte := 0

/-- The canonical form: addresses strictly rising, and no cell equal to what an unlisted one reads as. -/
abbrev Memory.wf (m : Memory) : Prop :=
  m.Pairwise (fun c d => c.1 < d.1) ∧ ∀ c ∈ m, c.2 ≠ Memory.unwritten

/-- No cell lies outside a data memory of `n` words (20_memory.md R80). -/
abbrev Memory.inSpace (m : Memory) (n : Nat) : Prop := ∀ c ∈ m, c.1 < 2 * n

/-- The byte of cell `k`. -/
def Memory.byteAt : Memory → Nat → Byte
  | [], _ => Memory.unwritten
  | (a, v) :: cs, k => if a = k then v else Memory.byteAt cs k

/-- A cell put where its address belongs. -/
def Memory.insertCell : Memory → Nat → Byte → Memory
  | [], k, v => [(k, v)]
  | (a, w) :: cs, k, v => if k < a then (k, v) :: (a, w) :: cs else (a, w) :: Memory.insertCell cs k v

/-- The memory with cell `k` holding `v`: the cell is taken out, and put back unless `v` is what an
unlisted cell reads as. -/
def Memory.setByte (m : Memory) (k : Nat) (v : Byte) : Memory :=
  let rest := m.filter fun c => c.1 ≠ k
  if v = Memory.unwritten then rest else Memory.insertCell rest k v

/-! ### Words of DMEM -/

/-- Word `a` of DMEM. -/
def Memory.readWord (m : Memory) (a : Nat) : Word16 :=
  m.byteAt (2 * a + 1) ++ m.byteAt (2 * a)

/-- DMEM with word `a` holding `v`. -/
def Memory.writeWord (m : Memory) (a : Nat) (v : Word16) : Memory :=
  (m.setByte (2 * a) (v.extractLsb' 0 8)).setByte (2 * a + 1) (v.extractLsb' 8 8)

/-- `MemRead(a, 1)`: word `a` as i16 (00_scope.md R14). -/
def Memory.readI16 (m : Memory) (a : Nat) : Int := (m.readWord a).toInt

/-- `MemRead(a, 2)`: the i32 in words `a` (low half) and `a + 1` (high half) (20_memory.md R85). -/
def Memory.readI32 (m : Memory) (a : Nat) : Int := (m.readWord (a + 1) ++ m.readWord a).toInt

/-- `Vec(a, n)`: the words `a .. a+n-1` as i16 (R14). -/
def Memory.readVec (m : Memory) (a n : Nat) : List Int := tabulate n fun i => m.readI16 (a + i)

/-- `VecW(a, n, list)`: the values written from word `a` on (R14). -/
def Memory.writeVec : Memory → Nat → List Int → Memory
  | m, _, [] => m
  | m, a, v :: vs => Memory.writeVec (m.writeWord a (BitVec.ofInt 16 v)) (a + 1) vs

/-- 32-bit values as the words that hold them, low half first: `MemWrite(a + 2i, 2, v_i)` in order
(20_memory.md R85). -/
def halves : List Int → List Int
  | [] => []
  | v :: vs => v % 65536 :: (v / 65536) % 65536 :: halves vs

/-! ### The state's data memory and result registers -/

/-- `VecW` on the state. -/
def State.writeVec (s : State) (a : Nat) (l : List Int) : State :=
  { s with dmem := s.dmem.writeVec a l }

/-- `RES0 <- v`, sign-extended to 32 bits (10_state.md R34; 40_fixed_point.md R140). -/
def State.setRes0 (s : State) (v : Int) : State := { s with res0 := BitVec.ofInt 32 v }

/-- `RES1 <- v`. -/
def State.setRes1 (s : State) (v : Int) : State := { s with res1 := BitVec.ofInt 32 v }

/-! ### Channel contexts (10_state.md R50 to R53) -/

/-- Context `c`: `none` when it is closed (notes/assumptions/24.md) or there is no such context. -/
def State.ctxAt (s : State) (c : Nat) : Option Ctx :=
  if c < s.params.nctx then s.ctxs.toArray.toList.getD c none else none

/-- Slot `c` opened with the given fields, or closed. -/
def State.setCtx (s : State) (c : Nat) (v : Option Ctx) : State :=
  { s with ctxs := s.ctxs.setIfInBounds c v }

/-- CTXOPEN: bit `c` is 1 when context `c` is open (R32). -/
def State.ctxopen (s : State) : Word32 :=
  (List.range s.params.nctx).foldl (fun w c => w ||| bitAt c (s.ctxAt c).isSome) 0

/-! ### Ending and starting a command -/

/-- A failed check: the completion code and the `info` of ERRINFO (60_exceptions.md R472). -/
structure CmdError where
  code : ErrCode
  info : BitVec 4
  deriving DecidableEq, Repr

/-- `raise <Error>(info)` (60_exceptions.md R472): ERR and ERRINFO are written, BUSY cleared, DONE set, and
nothing else changes. -/
def raise (e : CmdError) (s : State) : State :=
  { s with status := s.status.ended e.code, errinfo := e.info.setWidth 32 }

/-- The successful end of a command: ERR = 0, ERRINFO = 0, BUSY cleared, DONE set (10_state.md R35, R37;
60_exceptions.md R470, R473; notes/assumptions/22.md). -/
def complete (s : State) : State :=
  { s with status := s.status.ended .ok, errinfo := 0 }

/-- An accepted write of CMD (10_state.md R35): the word is latched, BUSY set, the last command's report
cleared. -/
def acceptCmd (w : Word32) (s : State) : State :=
  { s with cmd := w, status := s.status.accepted, errinfo := 0 }

end Sys2Proof.Machine
end

