-- ==== Sys2Proof/Machine/Operands.lean ====
section
/-! DEFINITION. Operand assembly from A0..A7 (10_state.md R33; 30_encoding.md R114; 40_fixed_point.md R140)
and the checks every command makes before its body, in the spec's order (20_memory.md R90, R94;
60_exceptions.md R471, R475). -/

namespace Sys2Proof.Machine

/-- The number of an argument register. -/
abbrev ArgNo := Fin 8

/-! ### Operand forms -/

/-- `A[k]`, all 32 bits. -/
def State.arg (s : State) (k : ArgNo) : Word32 := s.args[k]

/-- An address, length, order or count: `A[k][15:0]`, zero-extended (10_state.md R33). -/
def State.argLow (s : State) (k : ArgNo) : Nat := ((s.arg k).extractLsb' 0 16).toNat

/-- `A[k][31:16]` is 0, as an address or a length requires. -/
def State.argUpperClear (s : State) (k : ArgNo) : Bool := (s.arg k).extractLsb' 16 16 == 0

/-- A scalar read as "low 16 bits": `sext_16(A[k][15:0])`. -/
def State.argI16 (s : State) (k : ArgNo) : Int := ((s.arg k).extractLsb' 0 16).toInt

/-- A scalar read as `i32`. -/
def State.argI32 (s : State) (k : ArgNo) : Int := (s.arg k).toInt

/-- `A0` read as `u32` (40_fixed_point.md R154). -/
def State.argU32 (s : State) (k : ArgNo) : Nat := (s.arg k).toNat

/-! ### Argument checks (60_exceptions.md R471, R475 step 5) -/

/-- ERR_ARG for register `k`. -/
def argError (k : ArgNo) : CmdError := { code := .errArg, info := BitVec.ofNat 4 k }

/-- Register `k` holds an address or a length within its range: bits [31:16] are 0 and `ok` holds. -/
def State.checkArg (s : State) (k : ArgNo) (ok : Bool := true) : Option CmdError :=
  if s.argUpperClear k && ok then none else some (argError k)

/-! ### Regions (20_memory.md R90, R94) -/

/-- A region of DMEM a command names: the register that holds its address, the address, the words of
history before it (41_filters.md R200), its length, whether the command writes it, and the registers of
the input regions it may be in place with. -/
structure Region where
  reg : ArgNo
  addr : Nat
  hist : Nat := 0
  len : Nat
  isOut : Bool := false
  inPlace : List ArgNo := []
  deriving DecidableEq, Repr

/-- An input region: `len` words from the address in register `k`. -/
def State.input (s : State) (k : ArgNo) (len : Nat) (hist : Nat := 0) : Region :=
  { reg := k, addr := s.argLow k, hist := hist, len := len }

/-- An output region, in place allowed with the input regions of the registers listed. -/
def State.output (s : State) (k : ArgNo) (len : Nat) (inPlace : List ArgNo := []) (hist : Nat := 0) :
    Region :=
  { reg := k, addr := s.argLow k, hist := hist, len := len, isOut := true, inPlace := inPlace }

/-- The region lies in `[0, words)`, computed without wrap-around; a region without words always does
(20_memory.md R90; 41_filters.md R201, R202 for the history). -/
def Region.fits (words : Nat) (r : Region) : Bool :=
  r.hist ≤ r.addr && (r.hist + r.len == 0 || r.addr + r.len ≤ words)

/-- The two regions share a word (20_memory.md R94), history included (notes/assumptions/17.md). -/
def Region.overlaps (r q : Region) : Bool :=
  max (r.addr - r.hist) (q.addr - q.hist) < min (r.addr + r.len) (q.addr + q.len)

/-- Output `o` is in place with input `i`: the rule allows it, and the two start at the same address and
have the same length (20_memory.md R94). -/
def Region.inPlaceWith (o i : Region) : Bool :=
  o.inPlace.contains i.reg && o.addr == i.addr && o.len == i.len

/-- The output register a pair of regions is reported by, if the pair is refused (R94; 60_exceptions.md
R475 step 7): the lower-numbered one if both are outputs. -/
def pairConflict (r q : Region) : Option ArgNo :=
  if !r.overlaps q then none
  else if r.isOut && q.isOut then some (min r.reg q.reg)
  else if r.isOut then (if r.inPlaceWith q then none else some r.reg)
  else if q.isOut then (if q.inPlaceWith r then none else some q.reg)
  else none

/-- The output registers of all refused pairs. -/
def conflicts : List Region → List ArgNo
  | [] => []
  | r :: rs => rs.filterMap (pairConflict r) ++ conflicts rs

/-- ERR_ADDR for the first region, in register order, that does not fit (60_exceptions.md R475 step 6). -/
def checkRegion (words : Nat) (r : Region) : Option CmdError :=
  if r.fits words then none else some { code := .errAddr, info := BitVec.ofNat 4 r.reg }

/-- ERR_ALIAS when a pair of regions is refused (R475 step 7), reporting the first such register
(10_state.md R37; notes/assumptions/16.md). -/
def checkPairs (rs : List Region) : Option CmdError :=
  match (conflicts rs).min? with
  | none => none
  | some k => some { code := .errAlias, info := BitVec.ofNat 4 k }

/-- ERR_VAL reported by register `k` unless `ok` holds (R475 step 8). -/
def checkVal (k : ArgNo) (ok : Bool) : Option CmdError :=
  if ok then none else some { code := .errVal, info := BitVec.ofNat 4 k }

/-! ### The checks in order -/

/-- The first failing check of a list. -/
def firstError : List (Option CmdError) → Option CmdError
  | [] => none
  | some e :: _ => some e
  | none :: cs => firstError cs

/-- Steps 5 to 9 of 60_exceptions.md R475: the argument checks, then the regions, then the pairs of
regions, then the values read, then the body and the successful end. -/
def runChecked (s : State) (args : List (Option CmdError)) (regions : List Region)
    (vals : List (Option CmdError)) (body : State) : StepOutcome :=
  match firstError (args ++ regions.map (checkRegion s.params.dmemWords) ++ [checkPairs regions] ++ vals) with
  | some e => .next (raise e s)
  | none => .next (complete body)

/-- ERR_CTX, `ERRINFO = 0xF` (R475 step 3). -/
def ctxError : CmdError := { code := .errCtx, info := 0xF }

/-- Step 3 of R475 for a command on an open context: `CTX < NCTX`, the context open, and of the kind the
rule names, if it names one; then the rest of the command. -/
def withCtx (s : State) (c : BitVec 4) (kind : Option CtxKind) (k : Ctx → StepOutcome) : StepOutcome :=
  match s.ctxAt c.toNat with
  | none => .next (raise ctxError s)
  | some x =>
    if kind.all (· == x.kind) then k x else .next (raise ctxError s)

end Sys2Proof.Machine
end

