-- ==== Sys2Proof/Machine/Bitstream.lean ====
section
/-! DEFINITION. The bitstream codec (46_bitstream.md R400 to R415; 20_memory.md R86, R87). -/

namespace Sys2Proof.Machine

/-! ### The coded frame -/

/-- `W(M, f)`: the width of each field, in canonical order (R401). -/
def fieldWidths (p : Params) (m : Mode) : List Nat :=
  (List.replicate (p.frame m).nLsfSet [6, 7, 7]).flatten ++
    [(p.frame m).startW, 1, 6] ++
    List.replicate (p.frame m).nState 3 ++
    (p.frame m).cbW.flatMap (fun w => [w.1, w.2.1, w.2.2]) ++
    (List.replicate (p.frame m).cbW.length [5, 4, 3]).flatten

/-- `NF(M)`: the number of fields (R401). -/
def fieldCount (p : Params) (m : Mode) : Nat := (fieldWidths p m).length

/-- The position of the start index among the fields (R401). -/
def startField (p : Params) (m : Mode) : Nat := 3 * (p.frame m).nLsfSet

/-- The layout when no table is supplied: one segment a field in canonical order (R402). -/
def canonicalLayout (widths : List Nat) : List Segment :=
  widths.zipIdx.map fun w => { f := w.2, hi := w.1 - 1, lo := 0 }

/-- `LAYOUT_M` (R402). -/
def layout (p : Params) (m : Mode) : List Segment :=
  (p.frame m).layout.getD (canonicalLayout (fieldWidths p m))

/-- The field bits a segment places, bit `hi` first (R402). -/
def Segment.bits (g : Segment) : List (Nat × Nat) :=
  ((List.range (g.hi + 1 - g.lo)).map fun i => (g.f, g.lo + i)).reverse

/-- The field bit at each frame bit, from frame bit 0 (R402). -/
def layoutBits (l : List Segment) : List (Nat × Nat) := l.flatMap Segment.bits

/-- `FPOS(f, b)`: the frame bit at which bit `b` of field `f` is placed (R402). -/
def framePos (l : List Segment) (f b : Nat) : Nat := (layoutBits l).idxOf (f, b)

/-! ### Packing (R405) -/

/-- The frame bits of a field vector; those after the last segment are padding, 0. -/
def frameBits (l : List Segment) (fields : List Nat) (p : Nat) : Bool :=
  match (layoutBits l)[p]? with
  | none => false
  | some (f, b) => (fields.getD f 0).testBit b

/-- Byte `k` of a frame: frame bit `8k + i` is bit `7 - i` (20_memory.md R87). -/
def frameByte (bits : Nat → Bool) (k : Nat) : Int :=
  sumTo 8 fun i => if bits (8 * k + i) then 2 ^ (7 - i) else 0

/-- The bytes of a field vector (R405). -/
def packFields (l : List Segment) (nBytes : Nat) (fields : List Nat) : List Int :=
  tabulate nBytes (frameByte (frameBits l fields))

/-- Every field fits its width (R405). -/
def fieldsFit (widths fields : List Nat) : Bool :=
  (List.zipWith (fun w u => decide (u < 2 ^ w)) widths fields).all id

/-- `n` words of DMEM as u16. -/
def Memory.readU16s (m : Memory) (a n : Nat) : List Nat :=
  (List.range n).map fun i => (m.readWord (a + i)).toNat

/-- PACK (R405). A field wider than its width is ERR_VAL, reported by A0. -/
def execPack (mode : Mode) (s : State) : StepOutcome :=
  let fields := s.dmem.readU16s (s.argLow 0) (fieldCount s.params mode)
  let nBytes := Config.frameBytes mode
  runChecked s [s.checkArg 0, s.checkArg 1] [s.input 0 (fieldCount s.params mode), s.output 1 nBytes]
    [checkVal 0 (fieldsFit (fieldWidths s.params mode) fields)]
    ((s.writeVec (s.argLow 1) (packFields (layout s.params mode) nBytes fields)).setRes0 nBytes)

/-! ### Unpacking (R410) -/

/-- Frame bit `p` of a byte buffer; bits [15:8] of its words are ignored (20_memory.md R86, R87). -/
def bufferBit (words : List Nat) (p : Nat) : Bool := (words.getD (p / 8) 0).testBit (7 - p % 8)

/-- Field `f` of a frame: the sum of its bits at their places (R410). -/
def unpackField (l : List Segment) (bits : Nat → Bool) (f w : Nat) : Int :=
  sumTo w fun b => if bits (framePos l f b) then 2 ^ b else 0

/-- The field vector of a frame (R410). -/
def unpackFields (l : List Segment) (widths : List Nat) (words : List Nat) : List Int :=
  widths.zipIdx.map fun p => unpackField l (bufferBit words) p.2 p.1

/-- The mode a byte count stands for (R410). -/
def modeOfLength (len : Nat) : Option Mode :=
  if len = Config.frameBytes .a then some .a
  else if len = Config.frameBytes .b then some .b
  else none

/-- The value of a mode bit: 0 A, 1 B. -/
def modeBit : Mode → Int
  | .a => 0
  | .b => 1

/-- ERR_FORMAT, `ERRINFO = 1` (60_exceptions.md R475 step 4). -/
def formatError : CmdError := { code := .errFormat, info := 1 }

/-- The start index is in the legal range of the mode (R412). -/
def startLegal (p : Params) (m : Mode) (fields : List Int) : Bool :=
  decide (1 ≤ nth fields (startField p m) ∧ nth fields (startField p m) ≤ (p.frame m).startMax)

/-- UNPACK (R410, R412), on an open decoder context. The byte count is all of A1; a count of 0 completes
at once with BITERR; a count of another mode than the context's is ERR_FORMAT (90_conflicts.md C3). -/
def execUnpack (ctx : BitVec 4) (s : State) : StepOutcome :=
  withCtx s ctx (some .decoder) fun x =>
    let len := s.argU32 1
    if len = 0 then .next (complete (s.setBiterr.setRes0 (modeBit x.mode)))
    else if modeOfLength len ≠ some x.mode then .next (raise formatError s)
    else
      let m := x.mode
      let fields := unpackFields (layout s.params m) (fieldWidths s.params m)
        (s.dmem.readU16s (s.argLow 0) len)
      runChecked s [s.checkArg 0, s.checkArg 2] [s.input 0 len, s.output 2 (fieldCount s.params m)] []
        (((s.writeVec (s.argLow 2) fields).setRes0 (modeBit m)).updateIf (!startLegal s.params m fields)
          State.setBiterr)

end Sys2Proof.Machine
end

