-- ==== Sys2Proof/Machine/Codebook.lean ====
section
/-! DEFINITION. The codebook engine (45_codebook.md R350 to R380). -/

namespace Sys2Proof.Machine

/-! ### The codebook -/

/-- What the codebook engine takes from outside its rules: `CB_AUG`, `CB_SMOOTH`, the gain tables and
`GAIN_SCALE_MIN` (R351, R352, R355). -/
structure CbParams where
  aug : List Int → Nat → Nat → List Int
  smooth : List Int → List Int
  gain5 : List Int
  gain4 : List Int
  gain3 : List Int
  scaleMin : Int

/-- The parameters in use. -/
def cbParams (p : Params) : CbParams :=
  { aug := cbAug, smooth := cbSmooth, gain5 := gainCb5, gain4 := gainCb4, gain3 := gainCb3
    scaleMin := p.gainScaleMin }

/-- `AUG(lT)`: 20 interpolated lags for 40-sample vectors (R350). -/
def augCount (lT : Nat) : Nat := if lT = 40 then 20 else 0

/-- `B`: the size of one section (R350). -/
def sectionSize (lMem lT : Nat) : Nat := (lMem - lT + 1) + augCount lT

/-- `NCB = 2B` (R350). -/
def codebookSize (lMem lT : Nat) : Nat := 2 * sectionSize lMem lT

/-- `CBSEC(g, i)` (R351): an integer lag, or an interpolated one. -/
def sectionVector (P : CbParams) (g : List Int) (lMem lT i : Nat) : List Int :=
  if i ≤ lMem - lT then (g.drop (lMem - lT - i)).take lT
  else P.aug g lMem (i - (lMem - lT + 1))

/-- `CBVEC(h, lMem, lT, i)` (R351): the base section, then the filtered section. -/
def cbVector (P : CbParams) (h : List Int) (lMem lT i : Nat) : List Int :=
  if i < sectionSize lMem lT then sectionVector P h lMem lT i
  else sectionVector P (P.smooth h) lMem lT (i - sectionSize lMem lT)

/-- The gain table of stage `t` (R352). -/
def CbParams.gains (P : CbParams) : Nat → List Int
  | 0 => P.gain5
  | 1 => P.gain4
  | _ => P.gain3

/-- `S_t`: how many indices stage `t` searches, for an index width `w` (R352). -/
def stageSize (lMem lT w : Nat) : Nat := min (codebookSize lMem lT) (2 ^ w)

/-! ### Stage search -/

/-- The exact inner product of two vectors. -/
def dot (x y : List Int) : Int := (List.zipWith (· * ·) x y).sum

/-- A candidate of the search: its index, correlation and energy (R353). -/
structure Candidate where
  i : Nat
  c : Int
  e : Int
  deriving DecidableEq, Repr

/-- Candidate `i` (R353): in stage 0 a negative correlation is clamped to 0. -/
def candidate (P : CbParams) (h : List Int) (lMem lT : Nat) (tgt : List Int) (t i : Nat) : Candidate :=
  let v := cbVector P h lMem lT i
  { i := i, c := if t = 0 then max (dot tgt v) 0 else dot tgt v, e := dot v v }

/-- The better of the best candidate so far and the next one (R353): a zero vector is never chosen, the
criterion c²/e is compared exactly, ties keep the earlier one. -/
def better : Option Candidate → Candidate → Option Candidate
  | none, x => if x.e = 0 then none else some x
  | some b, x => if x.e ≠ 0 ∧ x.c ^ 2 * b.e > b.c ^ 2 * x.e then some x else some b

/-- The coarse search over a list of candidates (R353). -/
def coarseBest (cs : List Candidate) : Option Candidate := cs.foldl better none

/-- The refinement in the ±17 window around the coarse best, with the same criterion and energies
(R354). -/
def refineBest (cs : List Candidate) : Option Candidate → Option Candidate
  | none => none
  | some b => (cs.filter fun x => x.i ≤ b.i + 17 && b.i ≤ x.i + 17).foldl better (some b)

/-- `STAGE` (R353, R354): the index, and the raw gain in Q14 rounded toward zero. -/
def stageSearch (P : CbParams) (h : List Int) (lMem lT : Nat) (tgt : List Int) (t w : Nat) : Nat × Int :=
  let cs := (List.range (stageSize lMem lT w)).map (candidate P h lMem lT tgt t)
  match refineBest cs (coarseBest cs) with
  | none => (0, 0)
  | some b => (b.i, Int.tdiv (b.c * 16384) b.e)

/-! ### Gains -/

/-- `lev(k)` of R355, and `GDQ(k, sc, T)` of R380: the same level, not narrowed
(notes/assumptions/19.md). -/
def gainLevel (scaleMin : Int) (table : List Int) (sc : Int) (k : Nat) : Int :=
  rshr (max (magnitude sc) scaleMin * nth table k) 14

/-- `GQ(g, sc, T)` (R355): the index of the nearest level, the lower of equals, and that level. -/
def gainQuantise (scaleMin : Int) (table : List Int) (g sc : Int) : Nat × Int :=
  let k := argMin (fun k => magnitude (g - gainLevel scaleMin table sc k)) table.length
  (k, gainLevel scaleMin table sc k)

/-! ### Three-stage search -/

/-- What a stage leaves: index, raw gain, gain index, quantised gain. -/
structure StageResult where
  idx : Nat
  craw : Int
  gidx : Nat
  gq : Int
  deriving DecidableEq, Repr

/-- One stage of the search (R356): the stage search, then the gain. -/
def runStage (P : CbParams) (h : List Int) (lMem lT : Nat) (tgt : List Int) (sc : Int) (t w : Nat) :
    StageResult :=
  let r := stageSearch P h lMem lT tgt t w
  let q := gainQuantise P.scaleMin (P.gains t) r.2 sc
  { idx := r.1, craw := r.2, gidx := q.1, gq := q.2 }

/-- The next stage's target: the target less the scaled vector (R356). -/
def nextTarget (P : CbParams) (h : List Int) (lMem lT : Nat) (tgt : List Int) (r : StageResult) : List Int :=
  List.zipWith (fun x v => sat16 (x - rshr (r.gq * v) 14)) tgt (cbVector P h lMem lT r.idx)

/-- `y_k` of R357: the coded vector with stage-0 gain index `k`. -/
def codedWith (P : CbParams) (v0 v1 v2 : List Int) (g1 g2 : Int) (lT k : Nat) : List Int :=
  tabulate lT fun n =>
    sat16 (rshr (rshr (16384 * nth P.gain5 k) 14 * nth v0 n) 14 + rshr (g1 * nth v1 n) 14 +
      rshr (g2 * nth v2 n) 14)

/-- The final gain correction `GAINFIX` (R357): the largest admissible stage-0 gain index. -/
def gainFix (P : CbParams) (h : List Int) (lMem lT : Nat) (tgt : List Int) (r0 r1 r2 : StageResult) : Nat :=
  let et := dot tgt tgt
  let y := codedWith P (cbVector P h lMem lT r0.idx) (cbVector P h lMem lT r1.idx)
    (cbVector P h lMem lT r2.idx) r1.gq r2.gq lT
  let cand := (List.range 32).filter fun k =>
    decide (r0.gidx ≤ k ∧ dot (y k) (y k) ≤ et ∧ nth P.gain5 k < 2 * r0.craw)
  cand.getLast?.getD r0.gidx

/-- What a search returns: three codebook indices, three gain indices. -/
structure SearchResult where
  idx : List Int
  gidx : List Int
  deriving DecidableEq, Repr

/-- `CBSEARCH` (R356). -/
def cbSearch (P : CbParams) (h : List Int) (lMem lT : Nat) (tgt : List Int) (w0 w1 w2 : Nat) : SearchResult :=
  let r0 := runStage P h lMem lT tgt 16384 0 w0
  let tgt1 := nextTarget P h lMem lT tgt r0
  let r1 := runStage P h lMem lT tgt1 r0.gq 1 w1
  let tgt2 := nextTarget P h lMem lT tgt1 r1
  let r2 := runStage P h lMem lT tgt2 r1.gq 2 w2
  { idx := [(r0.idx : Int), (r1.idx : Int), (r2.idx : Int)]
    gidx := [(gainFix P h lMem lT tgt r0 r1 r2 : Int), (r1.gidx : Int), (r2.gidx : Int)] }

/-! ### Commands -/

/-- The index width of stage `t`, byte `t` of A6 (R360). -/
def State.stageWidth (s : State) (t : Nat) : Nat := ((s.arg 6).extractLsb' (8 * t) 8).toNat

/-- A6 holds three widths in `1..8`, and `A6[31:24] = 0` (R360). -/
def State.checkWidths (s : State) : Option CmdError :=
  if (s.arg 6).extractLsb' 24 8 = 0 ∧
      (1 ≤ s.stageWidth 0 ∧ s.stageWidth 0 ≤ 8) ∧ (1 ≤ s.stageWidth 1 ∧ s.stageWidth 1 ≤ 8) ∧
      (1 ≤ s.stageWidth 2 ∧ s.stageWidth 2 ≤ 8) then none
  else some (argError 6)

/-- `lMem` in `lT..CB_LMEM_MAX` (R350; notes/assumptions/21.md). -/
def lMemOk (p : Params) (lMem lT : Nat) : Bool := lT ≤ lMem && lMem ≤ p.cbLmemMax

/-- `lT` in `1..80` (R350). -/
def lTOk (lT : Nat) : Bool := 1 ≤ lT && lT ≤ 80

/-- A codebook search (R360, R365): the history and the target as given to the search by `order`. -/
def searchCommand (order : List Int → List Int) (s : State) : StepOutcome :=
  let lMem := s.argLow 1
  let lT := s.argLow 3
  let r := cbSearch (cbParams s.params) (order (s.dmem.readVec (s.argLow 0) lMem)) lMem lT
    (order (s.dmem.readVec (s.argLow 2) lT)) (s.stageWidth 0) (s.stageWidth 1) (s.stageWidth 2)
  runChecked s
    [s.checkArg 0, s.checkArg 1 (lMemOk s.params lMem lT), s.checkArg 2, s.checkArg 3 (lTOk lT), s.checkArg 4,
      s.checkArg 5, s.checkWidths]
    [s.input 0 lMem, s.input 2 lT, s.output 4 3, s.output 5 3] []
    ((((s.writeVec (s.argLow 4) r.idx).writeVec (s.argLow 5) r.gidx).setRes0 (codebookSize lMem lT)).setRes1
      (nth (cbParams s.params).gain5 (nth r.gidx 0).toNat))

/-- ACB_SEARCH (R360). -/
def execAcbSearch (s : State) : StepOutcome := searchCommand id s

/-- BCB_SEARCH (R365): the search in reversed time. -/
def execBcbSearch (s : State) : StepOutcome := searchCommand List.reverse s

/-- The vector three index and gain pairs rebuild (R370); `g` is the history. -/
def cbRebuild (P : CbParams) (g : List Int) (lMem lT : Nat) (idx gidx : List Int) : List Int :=
  let q0 := gainLevel P.scaleMin P.gain5 16384 (nth gidx 0).toNat
  let q1 := gainLevel P.scaleMin P.gain4 q0 (nth gidx 1).toNat
  let q2 := gainLevel P.scaleMin P.gain3 q1 (nth gidx 2).toNat
  tabulate lT fun n =>
    sat16 (rshr (q0 * nth (cbVector P g lMem lT (nth idx 0).toNat) n) 14 +
      rshr (q1 * nth (cbVector P g lMem lT (nth idx 1).toNat) n) 14 +
      rshr (q2 * nth (cbVector P g lMem lT (nth idx 2).toNat) n) 14)

/-- Time order of a codebook-coded vector (R370). -/
def timeOrder : CbDir → List Int → List Int
  | .forward, l => l
  | .backward, l => l.reverse

/-- The gain levels of stage `t` (R352). -/
def gainCount : Nat → Int
  | 0 => 32
  | 1 => 16
  | _ => 8

/-- CB_CONSTRUCT (R370). The values are checked stage by stage (notes/assumptions/18.md). -/
def execCbConstruct (dir : CbDir) (s : State) : StepOutcome :=
  let lMem := s.argLow 1
  let lT := s.argLow 5
  let idx := s.dmem.readVec (s.argLow 2) 3
  let gidx := s.dmem.readVec (s.argLow 3) 3
  let idxOk := fun t => decide (0 ≤ nth idx t ∧ nth idx t < stageSize lMem lT (s.stageWidth t))
  let gidxOk := fun t => decide (0 ≤ nth gidx t ∧ nth gidx t < gainCount t)
  runChecked s
    [s.checkArg 0, s.checkArg 1 (lMemOk s.params lMem lT), s.checkArg 2, s.checkArg 3, s.checkArg 4,
      s.checkArg 5 (lTOk lT), s.checkWidths]
    [s.input 0 lMem, s.input 2 3, s.input 3 3, s.output 4 lT]
    [checkVal 2 (idxOk 0), checkVal 3 (gidxOk 0), checkVal 2 (idxOk 1), checkVal 3 (gidxOk 1),
      checkVal 2 (idxOk 2), checkVal 3 (gidxOk 2)]
    (s.writeVec (s.argLow 4)
      (timeOrder dir (cbRebuild (cbParams s.params) (timeOrder dir (s.dmem.readVec (s.argLow 0) lMem)) lMem lT idx gidx)))

/-- ERR_RSVD, `ERRINFO = 0xF` (60_exceptions.md R475 step 2). -/
def rsvdError : CmdError := { code := .errRsvd, info := 0xF }

/-- GAIN_QUANT (R375). STG = 3 is ERR_RSVD (30_encoding.md R116); the decoder never yields it
(notes/assumptions/23.md). -/
def execGainQuant (stg : BitVec 2) (s : State) : StepOutcome :=
  if stg = 3 then .next (raise rsvdError s)
  else
    let q := gainQuantise (cbParams s.params).scaleMin ((cbParams s.params).gains stg.toNat) (s.argI32 0) (s.argI16 1)
    runChecked s [s.checkArg 1] [] [] ((s.setRes0 q.1).setRes1 q.2)

/-- GAIN_DEQUANT (R380). DEDUCED: bits [31:16] of A0, the index, and of A1, the scale, must both be 0, else ERR_ARG;
R380 says only "`ERR_ARG` (upper bits)" (notes/assumptions/30.md). -/
def execGainDequant (stg : BitVec 2) (s : State) : StepOutcome :=
  if stg = 3 then .next (raise rsvdError s)
  else
    let k := s.argLow 0
    runChecked s [s.checkArg 0, s.checkArg 1] []
      [checkVal 0 (decide ((k : Int) < gainCount stg.toNat))]
      (s.setRes0 (gainLevel (cbParams s.params).scaleMin ((cbParams s.params).gains stg.toNat) (s.argI16 1) k))

end Sys2Proof.Machine
end

