-- ==== Sys2Proof/Machine/Concealment.lean ====
section
/-! DEFINITION. Loss concealment (47_plc.md R430 to R440). -/

namespace Sys2Proof.Machine

/-- `PLC_MIX(per)` (R430). The default is 0 up to 0.4, 1 above 0.7 and linear between, in Q15. -/
def plcMix (mix : PlcMix) (per : Int) : Int :=
  match mix with
  | .thresholds =>
    if per ≤ 13107 then 0
    else if per > 22938 then 32768
    else (per - 13107) * 32768 / 9831
  | .table levels => levels.getD per.toNat 0

/-! ### Pitch estimation (R431) -/

/-- A lag with its correlation and the product of its energies. -/
structure LagScore where
  lag : Nat
  c : Int
  ee : Int
  deriving DecidableEq, Repr

/-- Lag `l` over the sequence `z` (R431); `none` unless the correlation and both energies are positive. -/
def lagScore (p : Params) (z : List Int) (l : Nat) : Option LagScore :=
  let x := (z.drop (z.length - p.plcCorrLen)).take p.plcCorrLen
  let y := (z.drop (z.length - p.plcCorrLen - l)).take p.plcCorrLen
  let c := dot x y
  if 0 < c ∧ 0 < dot x x ∧ 0 < dot y y then some { lag := l, c := c, ee := dot x x * dot y y } else none

/-- The better of the best lag so far and the next (R431): exact, ties keep the lower lag. -/
def betterLag : Option LagScore → Option LagScore → Option LagScore
  | b, none => b
  | none, some x => some x
  | some b, some x => if x.c ^ 2 * b.ee > b.c ^ 2 * x.ee then some x else some b

/-- `PEST(z)` (R431): the lag, if any correlation is positive, and the periodicity in Q15. -/
def pitchEstimate (p : Params) (z : List Int) : Option Nat × Int :=
  let lags := (List.range (p.plcLagMax + 1 - p.plcLagMin)).map (· + p.plcLagMin)
  match (lags.map (lagScore p z)).foldl betterLag none with
  | none => (none, 0)
  | some b => (some b.lag, min 32767 (32768 * b.c ^ 2 / b.ee))

/-! ### Concealment synthesis (R432) -/

/-- One step of the linear-congruential generator. -/
def lcgStep (p : Params) (seed : Int) : Int := wrap16 (seed * p.lcgA + p.lcgC)

/-- The noise lag of a seed, in `[53, 116]`. -/
def noiseLag (seed : Int) : Nat := 53 + (seed % 64).toNat

/-- The noise `q[n..]` for `k` more samples, and the seed it leaves. `past` holds `q[n-1], ..., q[0]`. -/
def noise (p : Params) (pr : List Int) (len : Nat) : Nat → Nat → Int → List Int → List Int × Int
  | 0, _, seed, past => (past.reverse, seed)
  | k + 1, n, seed, past =>
    let seed' := lcgStep p seed
    let rl := noiseLag seed'
    let q := if n < rl then nth pr (len + n - rl) else nth past (rl - 1)
    noise p pr len k (n + 1) seed' (q :: past)

/-- What the synthesis returns (R432). -/
structure Concealed where
  out : List Int
  seed : Int
  gain : Int
  pitchWeight : Int
  noiseOnly : Bool
  deriving DecidableEq, Repr

/-- `SYNTH(pr, L, per, seed, k)` (R432), from a previous residual of `N` samples. -/
def conceal (p : Params) (pr : List Int) (lag : Nat) (per seed : Int) (k : Nat) : Concealed :=
  let len := pr.length
  let g := p.plcGainLvl[min k 3]
  let pf := plcMix p.plcMix per
  let q := noise p pr len len 0 seed []
  let e := tabulate len fun n =>
    rshr (pf * nth pr (len - lag + n % lag) + (32768 - pf) * nth q.1 n) 15
  let noiseOnly := decide (dot e e * p.plcNoiseThr < dot pr pr)
  { out := (if noiseOnly then q.1 else e).map fun v => sat16 (rshr (g * v) 15)
    seed := q.2, gain := g, pitchWeight := pf, noiseOnly := noiseOnly }

/-! ### Commands -/

/-- The first `N` entries of a context's previous residual. -/
def Ctx.residual (x : Ctx) : List Int := (ints x.prevRes).take (Config.frameLen x.mode)

/-- The context with those entries written and the rest kept. -/
def Ctx.setResidual (x : Ctx) (r : List Int) : Ctx :=
  { x with prevRes := words 240 (r ++ (ints x.prevRes).drop r.length) }

/-- The context after a good frame (R435). -/
def Ctx.goodFrame (p : Params) (x : Ctx) (r lp : List Int) : Ctx :=
  let e := pitchEstimate p (x.residual ++ r)
  { x.setResidual r with
    lag := (e.1.map (BitVec.ofNat 16)).getD x.lag
    per := BitVec.ofInt 16 e.2
    prevLpc := words 11 lp
    lossCnt := 0 }

/-- The concealment a context would give now (R435, R440). -/
def Ctx.conceal (p : Params) (x : Ctx) : Concealed :=
  Sys2Proof.Machine.conceal p x.residual x.lag.toInt.toNat x.per.toInt x.seed.toInt x.lossCnt.toNat

/-- The context after a lost frame (R440). -/
def Ctx.lostFrame (p : Params) (x : Ctx) : Ctx :=
  { x.setResidual (x.conceal p).out with
    seed := BitVec.ofInt 16 (x.conceal p).seed
    lossCnt := BitVec.ofNat 16 (min (x.lossCnt.toNat + 1) 65535) }

/-- PLC_GOOD (R435), on an open decoder context. The candidate does not update the seed. -/
def execPlcGood (ctx : BitVec 4) (s : State) : StepOutcome :=
  withCtx s ctx (some .decoder) fun x =>
    let n := Config.frameLen x.mode
    let x' := x.goodFrame s.params (s.dmem.readVec (s.argLow 0) n) (s.dmem.readVec (s.argLow 1) 11)
    runChecked s [s.checkArg 0, s.checkArg 1, s.checkArg 2]
      [s.input 0 n, s.input 1 11, s.output 2 n] []
      ((((s.writeVec (s.argLow 2) (x'.conceal s.params).out).setCtx ctx.toNat (some x')).setRes0 x'.lag.toInt).setRes1
        x'.per.toInt)

/-- PLC_LOST (R440), on an open decoder context. -/
def execPlcLost (ctx : BitVec 4) (s : State) : StepOutcome :=
  withCtx s ctx (some .decoder) fun x =>
    let n := Config.frameLen x.mode
    let r := x.conceal s.params
    runChecked s [s.checkArg 0, s.checkArg 1] [s.output 0 n, s.output 1 11] []
      ((((((s.writeVec (s.argLow 0) r.out).writeVec (s.argLow 1) (ints x.prevLpc)).setCtx ctx.toNat
        (some (x.lostFrame s.params))).setRes0 r.gain).setRes1 r.pitchWeight).updateIf r.noiseOnly State.setNoiseonly)

end Sys2Proof.Machine
end

