-- ==== Sys2Proof/Machine/Control.lean ====
section
/-! DEFINITION. Block control: opening and closing a channel context (40_fixed_point.md R180, R181). -/

namespace Sys2Proof.Machine

/-- The fields of a context that has just been opened (R180; 10_state.md R51, R52). -/
def Ctx.fresh (p : Params) (kind : CtxKind) (mode : Mode) : Ctx :=
  { kind := kind
    mode := mode
    hpX0 := 0
    hpX1 := 0
    hpY0 := 0
    hpY1 := 0
    lsfOld := Config.lsfMean
    lsfOldU := Config.lsfMean
    anaHist := Vector.replicate 240 0
    prevRes := Vector.replicate 240 0
    prevLpc := words 11 [4096]
    seed := p.seedInit
    lag := BitVec.ofNat 16 p.lagInit
    per := 0
    lossCnt := 0 }

/-- CH_OPEN (R180): `c < NCTX` and the context closed, else ERR_CTX. -/
def execChOpen (ctx : BitVec 4) (kind : CtxKind) (mode : Mode) (s : State) : StepOutcome :=
  if ctx.toNat < s.params.nctx ∧ s.ctxAt ctx.toNat = none then
    .next (complete (s.setCtx ctx.toNat (some (Ctx.fresh s.params kind mode))))
  else .next (raise ctxError s)

/-- CH_CLOSE (R181): the context then holds no value. -/
def execChClose (ctx : BitVec 4) (s : State) : StepOutcome :=
  withCtx s ctx none fun _ => .next (complete (s.setCtx ctx.toNat none))

end Sys2Proof.Machine
end

