-- ==== Sys2Proof/Machine/Filters.lean ====
section
/-! DEFINITION. The filters (41_filters.md R200 to R205). -/

namespace Sys2Proof.Machine

/-- The working-domain bound of the Q12 filters, 2^27 (R200). -/
def lpcBound : Int := 134217728

/-- An accumulator clamped to ±2^27, descaled by 12 bits and narrowed (R200). -/
def lpcDescale (acc : Int) : Int := sat16 (rshr (clamp acc (-lpcBound) lpcBound) 12)

/-- The moving-average filter (R201): `sig` is the history of `m` samples and then the `n` input
samples; `b` the coefficients `b[0..m]`. -/
def filterMa (b sig : List Int) (m n : Nat) : List Int :=
  tabulate n fun i => lpcDescale (sumTo (m + 1) fun k => nth b k * nth sig (m + i - k))

/-- FILT_MA (R201). The order is checked as a length is (notes/assumptions/20.md). -/
def execFiltMa (s : State) : StepOutcome :=
  let n := s.argLow 2
  let m := s.argLow 4
  runChecked s
    [s.checkArg 0, s.checkArg 1, s.checkArg 2, s.checkArg 3, s.checkArg 4 (m ≤ 31)]
    [s.input 0 n m, s.output 1 n [0], s.input 3 (m + 1)] []
    (s.writeVec (s.argLow 1)
      (filterMa (s.dmem.readVec (s.argLow 3) (m + 1)) (s.dmem.readVec (s.argLow 0 - m) (m + n)) m n))

/-- One output of the all-pole filter (R202): `past` holds the earlier outputs, the latest first. -/
def arOutput (a : List Int) (m : Nat) (past : List Int) (x : Int) : Int :=
  lpcDescale (nth a 0 * x - sumTo m fun k => nth a (k + 1) * nth past k)

/-- The all-pole filter (R202): each output, narrowed, is fed back. -/
def filterAr (a : List Int) (m : Nat) : List Int → List Int → List Int
  | _, [] => []
  | past, x :: xs => arOutput a m past x :: filterAr a m (arOutput a m past x :: past) xs

/-- FILT_AR (R202). The coefficients may overlap neither the outputs nor their history. -/
def execFiltAr (s : State) : StepOutcome :=
  let n := s.argLow 2
  let m := s.argLow 4
  runChecked s
    [s.checkArg 0, s.checkArg 1, s.checkArg 2, s.checkArg 3, s.checkArg 4 (m ≤ 31)]
    [s.input 0 n, s.output 1 n [0] m, s.input 3 (m + 1)] []
    (s.writeVec (s.argLow 1)
      (filterAr (s.dmem.readVec (s.argLow 3) (m + 1)) m
        (s.dmem.readVec (s.argLow 1 - m) m).reverse (s.dmem.readVec (s.argLow 0) n)))

/-- The bound of the high-pass accumulator, 2^28 (R203). -/
def hpBound : Int := 268435456

/-- The high-pass memory: x[n-1], x[n-2], y[n-1], y[n-2] (10_state.md R51). -/
structure HpMem where
  x0 : Int
  x1 : Int
  y0 : Int
  y1 : Int
  deriving DecidableEq, Repr

/-- The high-pass filter over a list of samples (R203): the outputs and the memory it leaves. `acc` is
`HP_ACC` with its table. -/
def hpFilter (acc : Int → Int → Int → Int → Int → Int) : HpMem → List Int → List Int × HpMem
  | h, [] => ([], h)
  | h, x :: xs =>
    let v := clamp (acc x h.x0 h.x1 h.y0 h.y1) (-hpBound) hpBound
    let r := hpFilter acc { x0 := x, x1 := h.x0, y0 := v, y1 := h.y0 } xs
    (sat16 (rshr v 13) :: r.1, r.2)

/-- The high-pass memory of a context. -/
def Ctx.hpMem (x : Ctx) : HpMem :=
  { x0 := x.hpX0.toInt, x1 := x.hpX1.toInt, y0 := x.hpY0.toInt, y1 := x.hpY1.toInt }

/-- A context with another high-pass memory. -/
def Ctx.setHpMem (x : Ctx) (h : HpMem) : Ctx :=
  { x with
    hpX0 := BitVec.ofInt 16 h.x0, hpX1 := BitVec.ofInt 16 h.x1
    hpY0 := BitVec.ofInt 32 h.y0, hpY1 := BitVec.ofInt 32 h.y1 }

/-- HP_FILT (R203), on an open context of either kind. -/
def execHpFilt (ctx : BitVec 4) (s : State) : StepOutcome :=
  withCtx s ctx none fun x =>
    let n := s.argLow 2
    let r := hpFilter (Config.hpAcc x.kind (hpCoef x.kind)) x.hpMem (s.dmem.readVec (s.argLow 0) n)
    runChecked s [s.checkArg 0, s.checkArg 1, s.checkArg 2] [s.input 0 n, s.output 1 n [0]] []
      ((s.writeVec (s.argLow 1) r.1).setCtx ctx.toNat (some (x.setHpMem r.2)))

/-- Bandwidth expansion of a coefficient set by a chirp table (R204). -/
def expand (t a : List Int) : List Int := tabulate 11 fun i => sat16 (rshr (nth a i * nth t i) 15)

/-- BWEXP (R204). -/
def execBwexp (table : ChirpSel) (s : State) : StepOutcome :=
  runChecked s [s.checkArg 0, s.checkArg 1] [s.input 0 11, s.output 1 11 [0]] []
    (s.writeVec (s.argLow 1) (expand (chirp table) (s.dmem.readVec (s.argLow 0) 11)))

end Sys2Proof.Machine
end

