-- ==== Sys2Proof/Machine/VectorOps.lean ====
section
/-! DEFINITION. The vector commands (40_fixed_point.md R160 to R163). -/

namespace Sys2Proof.Machine

/-- The largest magnitude of a vector, not narrowed; 0 for the empty vector (R160). -/
def maxMagnitude (xs : List Int) : Int := xs.foldl (fun m x => max m (magnitude x)) 0

/-- The least index at which the magnitude is `m`. -/
def firstMagnitude (xs : List Int) (m : Int) : Nat := xs.findIdx fun x => magnitude x == m

/-- VMAXABS16 (R160). An empty vector gives 0, 0. -/
def execVmaxabs16 (s : State) : StepOutcome :=
  let n := s.argLow 1
  let xs := s.dmem.readVec (s.argLow 0) n
  let m := maxMagnitude xs
  runChecked s [s.checkArg 0, s.checkArg 1] [s.input 0 n] []
    ((s.setRes0 (min m 32767)).setRes1 (if n = 0 then 0 else firstMagnitude xs m))

/-- The term of a product in DOTSC (R161): a right shift floors, a left shift saturates to 32 bits. -/
def dotTerm (sh : Nat) (dir : ShiftDir) (p : Int) : Int :=
  match dir with
  | .right => asr p sh
  | .left => sat32 (shl p sh)

/-- The dot product of DOTSC (R161), saturating at every step in index order. -/
def dotScaled (sh : Nat) (dir : ShiftDir) (acc : Int) : List Int → List Int → Int
  | x :: xs, y :: ys => dotScaled sh dir (sat32 (acc + dotTerm sh dir (x * y))) xs ys
  | _, _ => acc

/-- DOTSC (R161). -/
def execDotsc (sh : BitVec 5) (dir : ShiftDir) (s : State) : StepOutcome :=
  let n := s.argLow 2
  runChecked s [s.checkArg 0, s.checkArg 1, s.checkArg 2] [s.input 0 n, s.input 1 n] []
    (s.setRes0 (dotScaled sh.toNat dir 0 (s.dmem.readVec (s.argLow 0) n) (s.dmem.readVec (s.argLow 1) n)))

/-- One product of VSCALE or VMUL, shifted and narrowed (R162, R163). -/
def scaledProduct (sh : Nat) (dir : ShiftDir) (rnd : Rounding) (x y : Int) : Int :=
  sat16 (shft (x * y) sh dir rnd)

/-- VSCALE (R162). -/
def execVscale (sh : BitVec 5) (dir : ShiftDir) (rnd : Rounding) (s : State) : StepOutcome :=
  let n := s.argLow 2
  let g := s.argI16 3
  runChecked s [s.checkArg 0, s.checkArg 1, s.checkArg 2] [s.input 0 n, s.output 1 n [0]] []
    (s.writeVec (s.argLow 1)
      ((s.dmem.readVec (s.argLow 0) n).map fun x => scaledProduct sh.toNat dir rnd x g))

/-- VMUL (R163). -/
def execVmul (sh : BitVec 5) (dir : ShiftDir) (rnd : Rounding) (s : State) : StepOutcome :=
  let n := s.argLow 3
  runChecked s [s.checkArg 0, s.checkArg 1, s.checkArg 2, s.checkArg 3]
    [s.input 0 n, s.input 1 n, s.output 2 n [0, 1]] []
    (s.writeVec (s.argLow 2)
      (List.zipWith (scaledProduct sh.toNat dir rnd)
        (s.dmem.readVec (s.argLow 0) n) (s.dmem.readVec (s.argLow 1) n)))

end Sys2Proof.Machine
end

