-- ==== Sys2Proof/Machine/Lpc.lean ====
section
/-! DEFINITION. The linear-prediction engine (42_lpc.md R240 to R270). -/

namespace Sys2Proof.Machine

/-! ### Autocorrelation -/

/-- The automatic scale factor `AC_SCALE` of `n` samples (R241). -/
def acScale (xs : List Int) : Nat :=
  let smax := min 32767 (maxMagnitude xs)
  if smax = 0 then 0
  else bitlen xs.length - normShift 31 (smax * smax)

/-- The autocorrelation at lag `k` with scale `s` (R240): terms beyond the end are absent. -/
def acLag (xs : List Int) (s k : Nat) : Int :=
  (List.zipWith (fun x y => asr (x * y) s) xs (xs.drop k)).sum

/-- The scaled autocorrelation at lags `0..m` (R240). -/
def autocorr (xs : List Int) (m : Nat) : List Int := tabulate (m + 1) (acLag xs (acScale xs))

/-- AUTOCORR (R240). -/
def execAutocorr (s : State) : StepOutcome :=
  let n := s.argLow 1
  let m := s.argLow 3
  let xs := s.dmem.readVec (s.argLow 0) n
  runChecked s
    [s.checkArg 0, s.checkArg 1 (1 ≤ n && n ≤ 4096), s.checkArg 2, s.checkArg 3 (m ≤ 10)]
    [s.input 0 n, s.output 2 (2 * (m + 1))] []
    ((s.writeVec (s.argLow 2) (halves (autocorr xs m))).setRes0 (acScale xs))

/-! ### Levinson-Durbin -/

/-- The identity filter in Q12 (R253). -/
def identityFilter : List Int := 4096 :: tabulate 10 fun _ => 0

/-- What LEVINSON writes: the coefficients, the reflection coefficients, and whether the recursion was
stable. -/
structure Levinson where
  a : List Int
  k : List Int
  stable : Bool
  deriving DecidableEq, Repr

/-- The outcome `unstable(i)` (R250): the identity filter, and the reflection coefficients up to the
failing one. -/
def unstableAt (i : Nat) (k : List Int) : Levinson :=
  { a := identityFilter, k := tabulate 10 fun j => if j < i then nth k j else 0, stable := false }

/-- The Levinson-Durbin step (R250): `R[0] <= 0` is unstable at 0, a failing recursion unstable at the
index of the first reflection coefficient beyond the threshold. -/
def levinson (r : List Int) : Levinson :=
  if nth r 0 ≤ 0 then unstableAt 0 []
  else
    let q := levArith r
    if q.fail = 0 then { a := q.a, k := q.k, stable := true } else unstableAt q.fail q.k

/-- LEVINSON (R250). Instability is no error: UNSTABLE is set and RES0 is 0. -/
def execLevinson (s : State) : StepOutcome :=
  let r := tabulate 11 fun i => s.dmem.readI32 (s.argLow 0 + 2 * i)
  let q := levinson r
  runChecked s [s.checkArg 0, s.checkArg 1, s.checkArg 2]
    [s.input 0 22, s.output 1 11, s.output 2 10] []
    ((((s.writeVec (s.argLow 1) q.a).writeVec (s.argLow 2) q.k).updateIf (!q.stable) State.setUnstable).setRes0
      (if q.stable then 1 else 0))

/-! ### LPC to LSF -/

/-- The sum polynomial without its trivial root (R261). -/
def sumPoly (a : List Int) : Nat → Int
  | 0 => 4096
  | i + 1 => nth a (i + 1) + nth a (10 - i) - sumPoly a i

/-- The difference polynomial without its trivial root (R261). -/
def diffPoly (a : List Int) : Nat → Int
  | 0 => 4096
  | i + 1 => nth a (i + 1) - nth a (10 - i) + diffPoly a i

/-- A bracket of the root search: the two ends and the values there. -/
structure Bracket where
  xlo : Int
  ylo : Int
  xhi : Int
  yhi : Int
  deriving DecidableEq, Repr

/-- One bisection (R262). -/
def bisect (f : Int → Int) (b : Bracket) : Bracket :=
  let xm := asr (b.xlo + b.xhi) 1
  let ym := f xm
  if b.ylo * ym ≤ 0 then { b with xhi := xm, yhi := ym } else { b with xlo := xm, ylo := ym }

/-- The root a bracket ends in: 4 bisections, then linear interpolation with floor division (R262). -/
def refineRoot (f : Int → Int) (b : Bracket) : Int :=
  let c := bisect f (bisect f (bisect f (bisect f b)))
  if c.yhi = c.ylo then c.xlo
  else c.xlo - Int.fdiv (c.ylo * (c.xhi - c.xlo)) (c.yhi - c.ylo)

/-- The grid search (R262). `f` is the polynomial searched now and `g` the other one, `xlo` and `ylo` the
point reached, `j` the grid interval, `lsp` the roots found so far, the latest first. Every round finds a
root or passes to the next interval, so `10 + GRID_N` rounds are enough (notes/assumptions/27.md). -/
def rootSearch (grid : Nat → Int) (gridLen : Nat) :
    Nat → (Int → Int) → (Int → Int) → Int → Int → Nat → List Int → List Int
  | 0, _, _, _, _, _, lsp => lsp
  | fuel + 1, f, g, xlo, ylo, j, lsp =>
    if lsp.length < 10 ∧ j < gridLen then
      let xhi := grid (j + 1)
      let yhi := f xhi
      if ylo * yhi ≤ 0 then
        let x := refineRoot f { xlo := xlo, ylo := ylo, xhi := xhi, yhi := yhi }
        rootSearch grid gridLen fuel g f x (g x) j (x :: lsp)
      else rootSearch grid gridLen fuel f g xhi yhi (j + 1) lsp
    else lsp

/-- `ROOTS(P, Q)` (R262): the roots found, in order. -/
def roots (p q : List Int) : List Int :=
  (rootSearch cosGrid gridN (10 + gridN) (chebEval p) (chebEval q) (cosGrid 0) (chebEval p (cosGrid 0)) 0
    []).reverse

/-- LPC to LSF (R260): the LSFs, or the fallback mean vector below 10 roots, and the roots found. -/
def lpcToLsf (a : List Int) : List Int × Nat :=
  let lsp := roots (tabulate 6 (sumPoly a)) (tabulate 6 (diffPoly a))
  (if lsp.length < 10 then lsfMean else lsp.map lsp2lsf, lsp.length)

/-- A2LSF (R260). -/
def execA2lsf (s : State) : StepOutcome :=
  let r := lpcToLsf (s.dmem.readVec (s.argLow 0) 11)
  runChecked s [s.checkArg 0, s.checkArg 1] [s.input 0 11, s.output 1 10] []
    ((s.writeVec (s.argLow 1) r.1).setRes0 r.2)

/-! ### LSF to LPC -/

/-- LSF2A (R270). -/
def execLsf2a (s : State) : StepOutcome :=
  runChecked s [s.checkArg 0, s.checkArg 1] [s.input 0 10, s.output 1 11] []
    (s.writeVec (s.argLow 1) (lsf2aFn (s.dmem.readVec (s.argLow 0) 10)))

end Sys2Proof.Machine
end

