-- ==== Sys2Proof/Machine/Lsf.lean ====
section
/-! DEFINITION. LSF quantisation (43_lsf.md R290 to R310). -/

namespace Sys2Proof.Machine

/-! ### Split vector quantisation -/

/-- The squared error of a codebook entry against a vector (R290), exact and unweighted. -/
def splitError (f entry : List Int) : Int :=
  (List.zipWith (fun x y => (x - y) * (x - y)) f entry).sum

/-- Entry `c` of a split codebook. -/
def cbEntry (cb : List (List Int)) (c : Nat) : List Int := cb.getD c []

/-- The index of the nearest entry, the lowest of equals (R290). -/
def nearest (cb : List (List Int)) (f : List Int) : Nat :=
  argMin (fun c => splitError f (cbEntry cb c)) cb.length

/-- The quantised LSF set and its three indices, for given split codebooks of sizes 3, 3, 4 (R290,
R291). -/
def quantSplits (cb1 cb2 cb3 : List (List Int)) (f : List Int) : List Int × List Int :=
  let i0 := nearest cb1 (f.take 3)
  let i1 := nearest cb2 ((f.drop 3).take 3)
  let i2 := nearest cb3 ((f.drop 6).take 4)
  (cbEntry cb1 i0 ++ cbEntry cb2 i1 ++ cbEntry cb3 i2, [(i0 : Int), (i1 : Int), (i2 : Int)])

/-- LSF_QUANT's computation (R290). -/
def lsfQuant (f : List Int) : List Int × List Int := quantSplits lsfCb1 lsfCb2 lsfCb3 f

/-- LSF_QUANT (R290): in place is allowed for `q = f`. -/
def execLsfQuant (s : State) : StepOutcome :=
  let r := lsfQuant (s.dmem.readVec (s.argLow 0) 10)
  runChecked s [s.checkArg 0, s.checkArg 1, s.checkArg 2]
    [s.input 0 10, s.output 1 10 [0], s.output 2 3] []
    ((s.writeVec (s.argLow 1) r.1).writeVec (s.argLow 2) r.2)

/-- The size of the codebook of split 0, 1 or 2 (R291). -/
def splitSize (i : Nat) : Int := if i % 3 = 0 then 64 else 128

/-- The index words of one or more LSF sets are each in their tables (R295). -/
def indicesInRange (ix : List Int) : Bool :=
  (List.range ix.length).all fun i => decide (0 ≤ nth ix i ∧ nth ix i < splitSize i)

/-- The LSF set three indices name, by direct table lookup (R295). -/
def lsfDequant (ix : List Int) : List Int :=
  cbEntry lsfCb1 (nth ix 0).toNat ++ cbEntry lsfCb2 (nth ix 1).toNat ++ cbEntry lsfCb3 (nth ix 2).toNat

/-- LSF_DEQUANT (R295). -/
def execLsfDequant (s : State) : StepOutcome :=
  let ix := s.dmem.readVec (s.argLow 0) 3
  runChecked s [s.checkArg 0, s.checkArg 1] [s.input 0 3, s.output 1 10]
    [checkVal 0 (indicesInRange ix)]
    (s.writeVec (s.argLow 1) (lsfDequant ix))

/-! ### The stability pass -/

/-- The constants of the stability pass (R300). -/
structure StabParams where
  eps : Int
  eps2 : Int
  lo : Int
  hi : Int
  clampLast : Bool
  deriving DecidableEq, Repr

/-- The working copy of the stability pass and its change flag. -/
abbrev Stab := List Int × Bool

/-- `v[p]` clamped to the global bounds (R300). -/
def stabClamp (P : StabParams) (p : Nat) (w : Stab) : Stab :=
  let w := if nth w.1 p < P.lo then (w.1.set p P.lo, true) else w
  if nth w.1 p > P.hi then (w.1.set p P.hi, true) else w

/-- The separation of `v[p]` and `v[p+1]` (R300): a crossed pair is swapped and spread, a close one
spread. -/
def stabSpread (P : StabParams) (p : Nat) (w : Stab) : Stab :=
  let x := nth w.1 p
  let y := nth w.1 (p + 1)
  if y - x < P.eps then
    if y < x then ((w.1.set (p + 1) (sat16 (x + P.eps2))).set p (sat16 (y - P.eps2)), true)
    else ((w.1.set p (sat16 (x - P.eps2))).set (p + 1) (sat16 (y + P.eps2)), true)
  else w

/-- One set of one pass: coefficients 0 to 8, and the last one's clamp if it is included (R300). -/
def stabSet (P : StabParams) (w : Stab) (set : Nat) : Stab :=
  let w := (List.range 9).foldl (fun w m => stabClamp P (10 * set + m) (stabSpread P (10 * set + m) w)) w
  if P.clampLast then stabClamp P (10 * set + 9) w else w

/-- One pass over `ns` sets. -/
def stabPass (P : StabParams) (ns : Nat) (w : Stab) : Stab := (List.range ns).foldl (stabSet P) w

/-- The stability pass, applied twice (R300). -/
def stabilise (P : StabParams) (ns : Nat) (v : List Int) : Stab :=
  stabPass P ns (stabPass P ns (v, false))

/-- The constants in use. -/
def stabParams (p : Params) : StabParams :=
  { eps := Config.lsfEps.toInt, eps2 := Config.lsfEps2.toInt, lo := Config.lsfMin.toInt
    hi := Config.lsfMax.toInt, clampLast := p.lsfClampLast }

/-- LSF_STAB (R300). -/
def execLsfStab (s : State) : StepOutcome :=
  let ns := s.argLow 2
  let r := stabilise (stabParams s.params) ns (s.dmem.readVec (s.argLow 0) (10 * ns))
  runChecked s [s.checkArg 0, s.checkArg 1, s.checkArg 2 (ns == 1 || ns == 2)]
    [s.input 0 (10 * ns), s.output 1 (10 * ns) [0]] []
    ((s.writeVec (s.argLow 1) r.1).setRes0 (if r.2 then 1 else 0))

/-! ### Interpolation -/

/-- The weighted blend of two LSF sets (R310): `w` weighs the first. -/
def lsfBlend (w : Int) (fa fb : List Int) : List Int :=
  tabulate 10 fun i => sat16 (rshr (w * nth fa i + (16384 - w) * nth fb i) 14)

/-- LSF_INTERP (R310). The weight is the low 16 bits of A3 and lies in `0..16384`. -/
def execLsfInterp (s : State) : StepOutcome :=
  let w := s.argI16 3
  runChecked s
    [s.checkArg 0, s.checkArg 1, s.checkArg 2, if 0 ≤ w ∧ w ≤ 16384 then none else some (argError 3)]
    [s.input 0 10, s.input 1 10, s.output 2 10 [0, 1]] []
    (s.writeVec (s.argLow 2)
      (lsfBlend w (s.dmem.readVec (s.argLow 0) 10) (s.dmem.readVec (s.argLow 1) 10)))

end Sys2Proof.Machine
end

