-- ==== Sys2Proof/Machine/Scalar.lean ====
section
/-! DEFINITION. The scalar commands (40_fixed_point.md R140 to R155). They read A0 and A1, write RES0, touch
neither DMEM nor a context, and no check of theirs can fail once the word is decoded (R140). -/

namespace Sys2Proof.Machine

/-- A scalar command: `RES0 <- v`, and the command ends. -/
def scalar (s : State) (v : Int) : StepOutcome := .next (complete (s.setRes0 v))

/-- NOP (R141). -/
def execNop (s : State) : StepOutcome := .next (complete s)

/-- SAT16 (R142). -/
def execSat16 (s : State) : StepOutcome := scalar s (sat16 (s.argI32 0))

/-- ABS16 (R143). -/
def execAbs16 (s : State) : StepOutcome := scalar s (sat16 (magnitude (s.argI16 0)))

/-- ABS32 (R144). -/
def execAbs32 (s : State) : StepOutcome := scalar s (sat32 (magnitude (s.argI32 0)))

/-- ADDS16 (R145). -/
def execAdds16 (s : State) : StepOutcome := scalar s (sat16 (s.argI16 0 + s.argI16 1))

/-- SUBS16 (R146). -/
def execSubs16 (s : State) : StepOutcome := scalar s (sat16 (s.argI16 0 - s.argI16 1))

/-- ADDS32 (R147). -/
def execAdds32 (s : State) : StepOutcome := scalar s (sat32 (s.argI32 0 + s.argI32 1))

/-- SUBS32 (R148). -/
def execSubs32 (s : State) : StepOutcome := scalar s (sat32 (s.argI32 0 - s.argI32 1))

/-- MUL16 (R149). -/
def execMul16 (sh : BitVec 5) (dir : ShiftDir) (rnd : Rounding) (s : State) : StepOutcome :=
  scalar s (sat32 (shft (s.argI16 0 * s.argI16 1) sh.toNat dir rnd))

/-- SHIFT32 (R150). -/
def execShift32 (sh : BitVec 5) (dir : ShiftDir) (rnd : Rounding) (s : State) : StepOutcome :=
  scalar s (sat32 (shft (s.argI32 0) sh.toNat dir rnd))

/-- SHIFT16 (R151). -/
def execShift16 (sh : BitVec 5) (dir : ShiftDir) (rnd : Rounding) (s : State) : StepOutcome :=
  scalar s (sat16 (shft (s.argI16 0) sh.toNat dir rnd))

/-- NORMW16 (R152). -/
def execNormw16 (s : State) : StepOutcome := scalar s (normShift 15 (s.argI16 0))

/-- NORMW32 (R153). -/
def execNormw32 (s : State) : StepOutcome := scalar s (normShift 31 (s.argI32 0))

/-- The normalisation shift of an unsigned 32-bit value: its leading zeros, 0 for 0 (R154). -/
def normU32 (u : Nat) : Nat := if u = 0 then 0 else 32 - bitlen u

/-- NORMU32 (R154). -/
def execNormu32 (s : State) : StepOutcome := scalar s (normU32 (s.argU32 0))

/-- SIZEBITS (R155). -/
def execSizebits (s : State) : StepOutcome := scalar s (bitlen (s.argU32 0))

end Sys2Proof.Machine
end

