-- ==== Sys2Proof/Machine/Spectral.lean ====
section
/-! DEFINITION. The spectral pipelines (44_spectral_pipelines.md R330 to R340), each the composition of
the unit commands' computations (R331). -/

namespace Sys2Proof.Machine

/-! ### Encoder -/

/-- The windowed analysis buffer of LSF set `i` (R330, the step VMUL.sh=14.r). -/
def windowed (win : List Int) (i : Nat) : List Int :=
  tabulate 240 fun j => sat16 (rshr (nth win j * nth (anaWindow i) j) 14)

/-- What the analysis of one LSF set gives: stability, unquantised LSFs, roots found, quantised LSFs,
indices. -/
structure SetAnalysis where
  stable : Bool
  lu : List Int
  nroots : Nat
  lq : List Int
  idx : List Int
  deriving DecidableEq, Repr

/-- The analysis of LSF set `i` (R330): window, AUTOCORR, LEVINSON, A2LSF, LSF_QUANT. -/
def analyseSet (win : List Int) (i : Nat) : SetAnalysis :=
  let lev := levinson (autocorr (windowed win i) 10)
  let l := lpcToLsf lev.a
  let q := lsfQuant l.1
  { stable := lev.stable, lu := l.1, nroots := l.2, lq := q.1, idx := q.2 }

/-- The LSF set a row of the interpolation table names: the old one, or set `s` of the frame's sets, which
stand one after another. -/
def selectSet (old sets : List Int) : LsfSel → List Int
  | .old => old
  | .set0 => sets.take 10
  | .set1 => (sets.drop 10).take 10

/-- The coefficient sets of a frame (R330, R340): each row of the interpolation table blends two LSF sets,
which become coefficients and are expanded. -/
def coefSets (p : Params) (m : Mode) (t : ChirpSel) (old sets : List Int) : List Int :=
  (List.range (Config.nsub m)).flatMap fun j =>
    let r := interpRow p m j
    expand (chirp t) (lsf2aFn (lsfBlend r.w (selectSet old sets r.src) (selectSet old sets r.dst)))

/-- The last LSF set of a frame. -/
def lastSet (p : Params) (m : Mode) (sets : List Int) : List Int :=
  (sets.drop (10 * ((p.frame m).nLsfSet - 1))).take 10

/-- The mask with bit `i` set for each list entry `i` that is true (R330: umask, fmask). -/
def maskOf : List Bool → Int
  | [] => 0
  | b :: bs => (if b then 1 else 0) + 2 * maskOf bs

/-- What SPEC_ANA computes (R330). -/
structure Analysis where
  hist : List Int
  idx : List Int
  syn : List Int
  wgt : List Int
  lq : List Int
  lu : List Int
  umask : Int
  fmask : Int
  deriving DecidableEq, Repr

/-- The spectral analysis of one frame on a context (R330). -/
def Ctx.analyse (p : Params) (x : Ctx) (frame : List Int) : Analysis :=
  let m := x.mode
  let win := ((ints x.anaHist ++ frame).drop frame.length).take 240
  let sets := (List.range ((p.frame m).nLsfSet)).map (analyseSet win)
  let lu := sets.flatMap (·.lu)
  let lq := (stabilise (stabParams p) ((p.frame m).nLsfSet) (sets.flatMap (·.lq))).1
  { hist := win
    idx := sets.flatMap (·.idx)
    syn := coefSets p m .syn (ints x.lsfOld) lq
    wgt := coefSets p m .wgt (ints x.lsfOldU) lu
    lq := lastSet p m lq
    lu := lastSet p m lu
    umask := maskOf (sets.map fun a => !a.stable)
    fmask := maskOf (sets.map fun a => decide (a.nroots < 10)) }

/-- The context after SPEC_ANA (R330). -/
def Ctx.analysed (x : Ctx) (r : Analysis) : Ctx :=
  { x with anaHist := words 240 r.hist, lsfOld := words 10 r.lq, lsfOldU := words 10 r.lu }

/-- SPEC_ANA (R330), on an open encoder context. -/
def execSpecAna (ctx : BitVec 4) (s : State) : StepOutcome :=
  withCtx s ctx (some .encoder) fun x =>
    let n := Config.frameLen x.mode
    let ns := (s.params.frame x.mode).nLsfSet
    let nb := Config.nsub x.mode
    let r := x.analyse s.params (s.dmem.readVec (s.argLow 0) n)
    runChecked s [s.checkArg 0, s.checkArg 1, s.checkArg 2, s.checkArg 3]
      [s.input 0 n, s.output 1 (3 * ns), s.output 2 (11 * nb), s.output 3 (11 * nb)] []
      (((((((s.writeVec (s.argLow 1) r.idx).writeVec (s.argLow 2) r.syn).writeVec (s.argLow 3) r.wgt).setCtx
        ctx.toNat (some (x.analysed r))).setRes0 r.umask).setRes1 r.fmask).updateIf (r.umask != 0)
        State.setUnstable)

/-! ### Decoder -/

/-- What SPEC_SYN computes (R340). -/
structure Synthesis where
  syn : List Int
  lq : List Int
  change : Bool
  deriving DecidableEq, Repr

/-- The spectral reconstruction of one frame on a context from its index words (R340). -/
def Ctx.synthesise (p : Params) (x : Ctx) (ix : List Int) : Synthesis :=
  let m := x.mode
  let sets := (List.range ((p.frame m).nLsfSet)).flatMap fun i => lsfDequant (ix.drop (3 * i))
  let st := stabilise (stabParams p) ((p.frame m).nLsfSet) sets
  { syn := coefSets p m .syn (ints x.lsfOld) st.1, lq := lastSet p m st.1, change := st.2 }

/-- The context after SPEC_SYN (R340). -/
def Ctx.synthesised (x : Ctx) (r : Synthesis) : Ctx := { x with lsfOld := words 10 r.lq }

/-- SPEC_SYN (R340), on an open decoder context. -/
def execSpecSyn (ctx : BitVec 4) (s : State) : StepOutcome :=
  withCtx s ctx (some .decoder) fun x =>
    let ns := (s.params.frame x.mode).nLsfSet
    let ix := s.dmem.readVec (s.argLow 0) (3 * ns)
    let r := x.synthesise s.params ix
    runChecked s [s.checkArg 0, s.checkArg 1]
      [s.input 0 (3 * ns), s.output 1 (11 * Config.nsub x.mode)] [checkVal 0 (indicesInRange ix)]
      (((s.writeVec (s.argLow 1) r.syn).setCtx ctx.toNat (some (x.synthesised r))).setRes0
        (if r.change then 1 else 0))

end Sys2Proof.Machine
end

