-- ==== Sys2Proof/Machine/Dispatch.lean ====
section
/-! DEFINITION. The meaning of each command, one arm for each row of the opcode map (30_encoding.md R115). -/

namespace Sys2Proof.Machine

def exec (i : Instr) (s : State) : Host.Outcome State Fault Refusal :=
  match i with
  | .nop => Sys2Proof.Machine.execNop s
  | .sat16 => Sys2Proof.Machine.execSat16 s
  | .abs16 => Sys2Proof.Machine.execAbs16 s
  | .abs32 => Sys2Proof.Machine.execAbs32 s
  | .adds16 => Sys2Proof.Machine.execAdds16 s
  | .subs16 => Sys2Proof.Machine.execSubs16 s
  | .adds32 => Sys2Proof.Machine.execAdds32 s
  | .subs32 => Sys2Proof.Machine.execSubs32 s
  | .mul16 sh dir rnd => Sys2Proof.Machine.execMul16 sh dir rnd s
  | .shift32 sh dir rnd => Sys2Proof.Machine.execShift32 sh dir rnd s
  | .shift16 sh dir rnd => Sys2Proof.Machine.execShift16 sh dir rnd s
  | .normw16 => Sys2Proof.Machine.execNormw16 s
  | .normw32 => Sys2Proof.Machine.execNormw32 s
  | .normu32 => Sys2Proof.Machine.execNormu32 s
  | .sizebits => Sys2Proof.Machine.execSizebits s
  | .vmaxabs16 => Sys2Proof.Machine.execVmaxabs16 s
  | .dotsc sh dir => Sys2Proof.Machine.execDotsc sh dir s
  | .vscale sh dir rnd => Sys2Proof.Machine.execVscale sh dir rnd s
  | .vmul sh dir rnd => Sys2Proof.Machine.execVmul sh dir rnd s
  | .filtMa => Sys2Proof.Machine.execFiltMa s
  | .filtAr => Sys2Proof.Machine.execFiltAr s
  | .hpFilt ctx => Sys2Proof.Machine.execHpFilt ctx s
  | .bwexp table => Sys2Proof.Machine.execBwexp table s
  | .autocorr => Sys2Proof.Machine.execAutocorr s
  | .levinson => Sys2Proof.Machine.execLevinson s
  | .a2lsf => Sys2Proof.Machine.execA2lsf s
  | .lsf2a => Sys2Proof.Machine.execLsf2a s
  | .lsfQuant => Sys2Proof.Machine.execLsfQuant s
  | .lsfDequant => Sys2Proof.Machine.execLsfDequant s
  | .lsfStab => Sys2Proof.Machine.execLsfStab s
  | .lsfInterp => Sys2Proof.Machine.execLsfInterp s
  | .specAna ctx => Sys2Proof.Machine.execSpecAna ctx s
  | .specSyn ctx => Sys2Proof.Machine.execSpecSyn ctx s
  | .acbSearch => Sys2Proof.Machine.execAcbSearch s
  | .bcbSearch => Sys2Proof.Machine.execBcbSearch s
  | .cbConstruct dir => Sys2Proof.Machine.execCbConstruct dir s
  | .gainQuant stg => Sys2Proof.Machine.execGainQuant stg s
  | .gainDequant stg => Sys2Proof.Machine.execGainDequant stg s
  | .pack mode => Sys2Proof.Machine.execPack mode s
  | .unpack ctx => Sys2Proof.Machine.execUnpack ctx s
  | .plcGood ctx => Sys2Proof.Machine.execPlcGood ctx s
  | .plcLost ctx => Sys2Proof.Machine.execPlcLost ctx s
  | .chOpen ctx kind mode => Sys2Proof.Machine.execChOpen ctx kind mode s
  | .chClose ctx => Sys2Proof.Machine.execChClose ctx s

end Sys2Proof.Machine
end

