-- ==== Sys2Proof/Machine/HostBus.lean ====
section
/-! DEFINITION. The host's accesses to the register map (10_state.md R32 to R37; 20_memory.md R84, R92;
60_exceptions.md R476; 70_reset_and_hazards.md R520, R521). -/

namespace Sys2Proof.Machine

/-- The registers of the map (10_state.md R32). -/
inductive HostReg where
  | id
  | cmd
  | status
  | errinfo
  | arg (k : ArgNo)
  | res0
  | res1
  | daddr
  | ddata
  | ctxopen
  deriving DecidableEq, Repr

/-- The register at a byte offset; `none` at a reserved or a misaligned one (R32). -/
def hostRegAt : Nat → Option HostReg
  | 0x00 => some .id
  | 0x04 => some .cmd
  | 0x08 => some .status
  | 0x0C => some .errinfo
  | 0x10 => some (.arg 0)
  | 0x14 => some (.arg 1)
  | 0x18 => some (.arg 2)
  | 0x1C => some (.arg 3)
  | 0x20 => some (.arg 4)
  | 0x24 => some (.arg 5)
  | 0x28 => some (.arg 6)
  | 0x2C => some (.arg 7)
  | 0x30 => some .res0
  | 0x34 => some .res1
  | 0x38 => some .daddr
  | 0x3C => some .ddata
  | 0x40 => some .ctxopen
  | _ => none

/-- The register an access reaches: only an aligned 32-bit access to a listed offset reaches one (R32;
notes/assumptions/26.md). -/
def accessedReg (offset width : Nat) : Option HostReg := if width = 32 then hostRegAt offset else none

/-- The host's read returns `v` (notes/assumptions/6.md). -/
def State.answer (s : State) (v : Word32) : State := { s with rdata := v }

/-- The host's read returns an unspecified value, drawn anew (70_reset_and_hazards.md R521;
notes/assumptions/5.md). -/
def State.answerDrawn (s : State) : State :=
  { s with rdata := Config.busyRead s.draws, draws := s.draws + 1 }

/-- `DADDR <- (DADDR + 1) mod 2^16` (20_memory.md R84). -/
def State.stepDaddr (s : State) : State := { s with daddr := s.daddr + 1 }

/-- A read of DDATA with no command under way (20_memory.md R84). -/
def readDdata (s : State) : State :=
  if s.daddr.toNat < s.params.dmemWords then
    (s.answer ((s.dmem.readWord s.daddr.toNat).setWidth 32)).stepDaddr
  else (s.answer 0).setHostviol

/-- A read of a register with no command under way (10_state.md R32 to R37). -/
def readIdle (r : HostReg) (s : State) : State :=
  match r with
  | .id => s.answer s.params.idValue
  | .cmd => s.answer s.cmd
  | .status => s.answer s.status.word
  | .errinfo => s.answer s.errinfo
  | .arg k => s.answer (s.arg k)
  | .res0 => s.answer s.res0
  | .res1 => s.answer s.res1
  | .daddr => s.answer (s.daddr.setWidth 32)
  | .ddata => readDdata s
  | .ctxopen => s.answer s.ctxopen

/-- A read of a register while a command is under way (70_reset_and_hazards.md R521). -/
def readBusy (r : HostReg) (s : State) : State :=
  match r with
  | .id => s.answer s.params.idValue
  | .cmd => s.answer s.cmd
  | .status => s.answer s.status.word
  | .arg k => s.answer (s.arg k)
  | .daddr => s.answer (s.daddr.setWidth 32)
  | .errinfo => s.answerDrawn
  | .res0 => s.answerDrawn
  | .res1 => s.answerDrawn
  | .ctxopen => s.answerDrawn
  | .ddata => s.answerDrawn.setHostviol

/-- A host read (10_state.md R32). A refused one returns 0 and sets HOSTVIOL (notes/assumptions/7.md). -/
def hostRead (offset width : Nat) (s : State) : State :=
  match accessedReg offset width with
  | none => (s.answer 0).setHostviol
  | some r => if s.status.busy then readBusy r s else readIdle r s

/-- A write to STATUS (10_state.md R36): 1 to bit 16 clears HOSTVIOL, all else is ignored. -/
def writeStatus (v : Word32) (s : State) : State := s.updateIf (v.getLsbD 16) State.clearHostviol

/-- A write to DDATA with no command under way (20_memory.md R84). -/
def writeDdata (v : Word32) (s : State) : State :=
  if s.daddr.toNat < s.params.dmemWords then
    { s with dmem := s.dmem.writeWord s.daddr.toNat (v.extractLsb' 0 16) }.stepDaddr
  else s.setHostviol

/-- A write to a register with no command under way (10_state.md R32, R33, R35). -/
def writeIdle (r : HostReg) (v : Word32) (s : State) : State :=
  match r with
  | .cmd => acceptCmd v s
  | .status => writeStatus v s
  | .arg k => { s with args := s.args.set k v }
  | .daddr => { s with daddr := v.extractLsb' 0 16 }
  | .ddata => writeDdata v s
  | .id => s.setHostviol
  | .errinfo => s.setHostviol
  | .res0 => s.setHostviol
  | .res1 => s.setHostviol
  | .ctxopen => s.setHostviol

/-- A write to a register while a command is under way (70_reset_and_hazards.md R520): only STATUS takes
it. -/
def writeBusy (r : HostReg) (v : Word32) (s : State) : State :=
  match r with
  | .status => writeStatus v s
  | .cmd => s.setHostviol
  | .arg _ => s.setHostviol
  | .daddr => s.setHostviol
  | .ddata => s.setHostviol
  | .id => s.setHostviol
  | .errinfo => s.setHostviol
  | .res0 => s.setHostviol
  | .res1 => s.setHostviol
  | .ctxopen => s.setHostviol

/-- A host write (10_state.md R32). -/
def hostWrite (offset width : Nat) (v : Word32) (s : State) : State :=
  match accessedReg offset width with
  | none => s.setHostviol
  | some r => if s.status.busy then writeBusy r v s else writeIdle r v s

/-- One access of the host. -/
def hostAccess (a : HostAccess) (s : State) : State :=
  match a with
  | .read offset width => hostRead offset width s
  | .write offset width v => hostWrite offset width v s

end Sys2Proof.Machine
end

