-- ==== Sys2Proof/Machine/Engine.lean ====
section
/-! DEFINITION. The engine's turn: it runs the command under way (10_state.md R30, R35; 30_encoding.md
R117; 60_exceptions.md R475 steps 1 and 2). -/

namespace Sys2Proof.Machine

/-- How a command word that names no command ends, `ERRINFO = 0xF` (60_exceptions.md R475). -/
def decodeError : DecodeError → CmdError
  | .illegal => { code := .errIllegal, info := 0xF }
  | .reserved => { code := .errRsvd, info := 0xF }

/-- The engine runs the command in CMD from its start to its end. -/
def runCommand (s : State) : StepOutcome :=
  match decode s.cmd with
  | .ok i => exec i s
  | .error e => .next (raise (decodeError e) s)

/-- The engine's turn: with no command under way it does nothing (10_state.md R30; 60_exceptions.md
R490). -/
def engineTurn (s : State) : StepOutcome := if s.status.busy then runCommand s else .next s

/-- The next turn, taken by the agent whose turn it is (notes/assumptions/1.md). -/
def takeTurn (s : State) : StepOutcome :=
  match s.turns with
  | [] => engineTurn s
  | .engine :: rest => engineTurn { s with turns := rest }
  | .host a :: rest => .next (hostAccess a { s with turns := rest })

/-- The host's accepted write of the command word `w`, with the engine's turn next: what the next step
fetches and runs (10_state.md R35; notes/assumptions/2.md). -/
def startCommand (w : Word32) (s : State) : State :=
  { acceptCmd w s with turns := .engine :: s.turns }

end Sys2Proof.Machine
end

