-- ==== Sys2Proof/Machine/Step.lean ====
section
/-! DEFINITION. One step of the machine, and the placing of an instruction where the next step runs it. -/

namespace Sys2Proof.Machine

/-- One step: one turn of the host or of the engine. -/
def step (s : State) : Host.Outcome State Fault Refusal := takeTurn s

/-- `s` with the instruction of `nbits` bits `w` as the command the very next step runs: the block fetches
nothing, a command is what the host writes to CMD (10_state.md R31, R35; notes/assumptions/2.md). Every bit
at or above `nbits` is 0. -/
def State.withFetchWord (s : State) (nbits w : Nat) : State :=
  startCommand (BitVec.ofNat 32 (w % 2 ^ nbits)) s

end Sys2Proof.Machine
end

