-- ==== Sys2Proof/Safety.lean ====
section
/-! DEFINITION. The vocabulary of the claims: operands and regions as the spec speaks of them, the state a
command ends in, what it leaves unchanged, and the invariants of the machine. -/

namespace Sys2Proof.Machine

/-! ### Operands and regions -/

/-- `A[k]` holds the address or length `v`, its bits [31:16] 0 (10_state.md R33). -/
abbrev argIs (s : State) (k : ArgNo) (v : Nat) : Prop := (s.args[k]).toNat = v ∧ v < 65536

/-- A 16-bit scalar operand: the low 16 bits of `A[k]`, sign-extended (40_fixed_point.md R140). -/
abbrev arg16 (s : State) (k : ArgNo) : Int := ((s.args[k]).setWidth 16).toInt

/-- A 32-bit scalar operand: `A[k]` as `i32` (40_fixed_point.md R140). -/
abbrev arg32 (s : State) (k : ArgNo) : Int := (s.args[k]).toInt

/-- The region of `n` words at `a` lies in the data memory (20_memory.md R90). -/
abbrev fits (s : State) (a n : Nat) : Prop := n = 0 ∨ a + n ≤ s.params.dmemWords

/-- The regions of `n` words at `a` and `m` words at `b` share no word (20_memory.md R94). -/
abbrev apart (a n b m : Nat) : Prop := n = 0 ∨ m = 0 ∨ a + n ≤ b ∨ b + m ≤ a

/-- Byte cell `k` lies outside the region of `n` words at `a` (notes/assumptions/4.md). -/
abbrev outside (a n k : Nat) : Prop := k < 2 * a ∨ 2 * (a + n) ≤ k

/-- Every byte of memory outside the region of `n` words at `a` is as before. -/
def sameOutside (m m' : Memory) (a n : Nat) : Prop := ∀ k, outside a n k → m'.byteAt k = m.byteAt k

/-- Every byte outside both regions is as before. -/
def sameOutside2 (m m' : Memory) (a n b p : Nat) : Prop :=
  ∀ k, outside a n k → outside b p k → m'.byteAt k = m.byteAt k

/-- Every byte outside the three regions is as before. -/
def sameOutside3 (m m' : Memory) (a n b p c q : Nat) : Prop :=
  ∀ k, outside a n k → outside b p k → outside c q k → m'.byteAt k = m.byteAt k

/-- The sum over `i` in `0..n-1` of `f i`, as the spec writes it. -/
def total (n : Nat) (f : Nat → Int) : Int := ∑ i ∈ Finset.range n, f i

/-- The `n` words at `a` hold the values `f 0, ..., f (n-1)`. -/
def wordsAre (m : Memory) (a n : Nat) (f : Nat → Int) : Prop := ∀ i, i < n → m.readI16 (a + i) = f i

/-- Bit `p` of the frame in the byte buffer at `a` (20_memory.md R86, R87). -/
def frameBitAt (m : Memory) (a p : Nat) : Bool := (m.readWord (a + p / 8)).getLsbD (7 - p % 8)

/-- The frame bit at which segment `i` of a layout starts (46_bitstream.md R402). -/
def segmentStart (l : List Segment) (i : Nat) : Nat := ((l.take i).map fun g => g.hi + 1 - g.lo).sum

/-- The width of field `f` (46_bitstream.md R401). -/
def fieldWidth (p : Params) (mode : Mode) (f : Nat) : Nat := (fieldWidths p mode).getD f 0

/-- A6 holds the three index widths, each in `1..8` (45_codebook.md R360). -/
abbrev widthsAre (s : State) (w0 w1 w2 : Nat) : Prop :=
  (s.args[6]).toNat = w0 + 256 * w1 + 65536 * w2 ∧
    (1 ≤ w0 ∧ w0 ≤ 8) ∧ (1 ≤ w1 ∧ w1 ≤ 8) ∧ (1 ≤ w2 ∧ w2 ≤ 8)

/-! ### The root search (42_lpc.md R262) -/

/-- One of the 4 bisections of R262 takes bracket `b` to `b'`: the middle point, rounded down, replaces the end
whose value has its sign, the upper end when it is a root. -/
def Bisects (F : List Int) (b b' : Bracket) : Prop :=
  let xm := (b.xlo + b.xhi) / 2
  let ym := chebEval F xm
  (b.ylo * ym ≤ 0 → b' = { xlo := b.xlo, ylo := b.ylo, xhi := xm, yhi := ym }) ∧
    (0 < b.ylo * ym → b' = { xlo := xm, ylo := ym, xhi := b.xhi, yhi := b.yhi })

/-- `x` is the root R262 gives for the bracket `b`: 4 bisections, then the linear interpolation between the ends
of the last bracket, its quotient rounded down; its lower end where both values are equal. -/
def RootOf (F : List Int) (b : Bracket) (x : Int) : Prop :=
  ∃ b1 b2 b3 c : Bracket, Bisects F b b1 ∧ Bisects F b1 b2 ∧ Bisects F b2 b3 ∧ Bisects F b3 c ∧
    (c.yhi = c.ylo → x = c.xlo) ∧
    (c.yhi ≠ c.ylo → x = c.xlo - ⌊((c.ylo * (c.xhi - c.xlo) : Int) : ℚ) / ((c.yhi - c.ylo : Int) : ℚ)⌋)

/-- The polynomial searched: `P` if `onP`, else `Q`. -/
abbrev searched (P Q : List Int) (onP : Bool) : List Int := if onP then P else Q

/-- The states the grid search of R262 passes: whether `P` is searched now (else `Q`), the point reached and the
value there, the grid interval, and the roots found so far in order. -/
inductive Searches (P Q : List Int) : Bool → Int → Int → Nat → List Int → Prop where
  /-- The search starts with `P` at the first grid point. -/
  | start : Searches P Q true (cosGrid 0) (chebEval P (cosGrid 0)) 0 []
  /-- A sign change, or a zero, in the interval: its root is found, and the search resumes from the root with the
  other polynomial, in the same grid interval. -/
  | found {onP : Bool} {xlo ylo yhi x : Int} {j : Nat} {lsp : List Int} :
      Searches P Q onP xlo ylo j lsp → lsp.length < 10 → j < gridN →
      yhi = chebEval (searched P Q onP) (cosGrid (j + 1)) → ylo * yhi ≤ 0 →
      RootOf (searched P Q onP) { xlo := xlo, ylo := ylo, xhi := cosGrid (j + 1), yhi := yhi } x →
      Searches P Q (!onP) x (chebEval (searched P Q !onP) x) j (lsp ++ [x])
  /-- No sign change in the interval: the search passes to the next one. -/
  | passed {onP : Bool} {xlo ylo yhi : Int} {j : Nat} {lsp : List Int} :
      Searches P Q onP xlo ylo j lsp → lsp.length < 10 → j < gridN →
      yhi = chebEval (searched P Q onP) (cosGrid (j + 1)) → 0 < ylo * yhi →
      Searches P Q onP (cosGrid (j + 1)) yhi (j + 1) lsp

/-! ### How a command ends -/

/-- The end of a command without an error that sets no flag: ERR = 0, BUSY = 0, DONE = 1, ERRINFO = 0, all
else as it was (10_state.md R35, R37). -/
def ended (s : State) : State :=
  { s with status := { s.status with busy := false, done := true, err := .ok }, errinfo := 0 }

/-- That end with `v` in RES0. -/
def endedRes0 (s : State) (v : Int) : State := { ended s with res0 := BitVec.ofInt 32 v }

/-- The end of a command with an error: ERR and ERRINFO written, BUSY = 0, DONE = 1, all else as it was
(60_exceptions.md R472). -/
def endedError (s : State) (code : ErrCode) (info : Nat) : State :=
  { s with
    status := { s.status with busy := false, done := true, err := code }
    errinfo := BitVec.ofNat 32 info }

/-- UNSTABLE set too, if `b` holds. -/
def alsoUnstable (b : Bool) (t : State) : State :=
  { t with status := { t.status with unstable := t.status.unstable || b } }

/-- BITERR set too, if `b` holds. -/
def alsoBiterr (b : Bool) (t : State) : State :=
  { t with status := { t.status with biterr := t.status.biterr || b } }

/-- NOISEONLY set too, if `b` holds. -/
def alsoNoiseonly (b : Bool) (t : State) : State :=
  { t with status := { t.status with noiseonly := t.status.noiseonly || b } }

/-! ### The commands' own tables -/

/-- The context a command names in its CTX field. -/
def ctxNamed : Instr → Option (BitVec 4)
  | .hpFilt c => some c
  | .specAna c => some c
  | .specSyn c => some c
  | .unpack c => some c
  | .plcGood c => some c
  | .plcLost c => some c
  | .chOpen c _ _ => some c
  | .chClose c => some c
  | .nop | .sat16 | .abs16 | .abs32 | .adds16 | .subs16 | .adds32 | .subs32 | .mul16 _ _ _ | .shift32 _ _ _
  | .shift16 _ _ _ | .normw16 | .normw32 | .normu32 | .sizebits | .vmaxabs16 | .dotsc _ _ | .vscale _ _ _
  | .vmul _ _ _ | .filtMa | .filtAr | .bwexp _ | .autocorr | .levinson | .a2lsf | .lsf2a | .lsfQuant
  | .lsfDequant | .lsfStab | .lsfInterp | .acbSearch | .bcbSearch | .cbConstruct _ | .gainQuant _
  | .gainDequant _ | .pack _ => none

/-- The bits a command's opcode uses beside OPC, row by row of the opcode map (30_encoding.md R115, R116). -/
def opcodeMap : List (Nat × Nat) :=
  [(0x00, 0), (0x01, 0), (0x02, 0), (0x03, 0), (0x04, 0), (0x05, 0), (0x06, 0), (0x07, 0),
    (0x08, 0x7F00), (0x09, 0x7F00), (0x0A, 0x7F00), (0x0B, 0), (0x0C, 0), (0x0D, 0), (0x0E, 0)] ++
  [(0x10, 0), (0x11, 0x3F00), (0x12, 0x7F00), (0x13, 0x7F00), (0x20, 0), (0x21, 0), (0x22, 0xF0000),
    (0x23, 0x8000), (0x30, 0), (0x31, 0), (0x32, 0), (0x33, 0), (0x40, 0), (0x41, 0), (0x42, 0), (0x43, 0)] ++
  [(0x48, 0xF0000), (0x49, 0xF0000), (0x50, 0), (0x51, 0), (0x52, 0x8000), (0x53, 0x300000), (0x54, 0x300000),
    (0x60, 0x400000), (0x61, 0xF0000), (0x70, 0xF0000), (0x71, 0xF0000), (0x7E, 0x4F8000), (0x7F, 0xF0000)]

/-- Steps 3 and 4 of the check order pass (60_exceptions.md R475): the context a command names is open and of
the kind its rule names (closed, for CH_OPEN), and UNPACK's byte count is that of the context's mode. -/
def ready (i : Instr) (s : State) : Prop :=
  match i with
  | .hpFilt c => ∃ x, s.ctxAt c.toNat = some x
  | .specAna c => ∃ x, s.ctxAt c.toNat = some x ∧ x.kind = .encoder
  | .specSyn c => ∃ x, s.ctxAt c.toNat = some x ∧ x.kind = .decoder
  | .unpack c =>
    ∃ x, s.ctxAt c.toNat = some x ∧ x.kind = .decoder ∧ (s.args[1]).toNat = Config.frameBytes x.mode
  | .plcGood c => ∃ x, s.ctxAt c.toNat = some x ∧ x.kind = .decoder
  | .plcLost c => ∃ x, s.ctxAt c.toNat = some x ∧ x.kind = .decoder
  | .chOpen c _ _ => c.toNat < s.params.nctx ∧ s.ctxAt c.toNat = none
  | .chClose c => ∃ x, s.ctxAt c.toNat = some x
  | .nop | .sat16 | .abs16 | .abs32 | .adds16 | .subs16 | .adds32 | .subs32 | .mul16 _ _ _ | .shift32 _ _ _
  | .shift16 _ _ _ | .normw16 | .normw32 | .normu32 | .sizebits | .vmaxabs16 | .dotsc _ _ | .vscale _ _ _
  | .vmul _ _ _ | .filtMa | .filtAr | .bwexp _ | .autocorr | .levinson | .a2lsf | .lsf2a | .lsfQuant
  | .lsfDequant | .lsfStab | .lsfInterp | .acbSearch | .bcbSearch | .cbConstruct _ | .gainQuant _
  | .gainDequant _ | .pack _ => True

/-- The registers that hold an address or a length of a command (the "Operands" of its rule). -/
def addressArgs : Instr → List ArgNo
  | .nop | .sat16 | .abs16 | .abs32 | .adds16 | .subs16 | .adds32 | .subs32 | .mul16 _ _ _ | .shift32 _ _ _
  | .shift16 _ _ _ | .normw16 | .normw32 | .normu32 | .sizebits | .chOpen _ _ _ | .chClose _ => []
  | .vmaxabs16 | .bwexp _ | .a2lsf | .lsf2a | .lsfDequant | .lsfStab | .specSyn _ | .pack _ | .plcLost _ => [0, 1]
  | .dotsc _ _ | .vscale _ _ _ | .hpFilt _ | .autocorr | .levinson | .lsfQuant | .lsfInterp | .plcGood _ =>
    [0, 1, 2]
  | .vmul _ _ _ | .filtMa | .filtAr | .specAna _ => [0, 1, 2, 3]
  | .acbSearch | .bcbSearch | .cbConstruct _ => [0, 1, 2, 3, 4, 5]
  | .gainQuant _ => [1]
  | .gainDequant _ => [0, 1]
  | .unpack _ => [0, 2]

/-- A region a command names: the register of its address, its first word (below 0 when a filter's history
starts before the memory), its length, and whether the command writes it. -/
structure NamedRegion where
  reg : ArgNo
  first : Int
  len : Nat
  out : Bool

/-- A region read. -/
def reads (s : State) (k : ArgNo) (n : Nat) : NamedRegion := ⟨k, s.argLow k, n, false⟩

/-- A region written. -/
def writes (s : State) (k : ArgNo) (n : Nat) : NamedRegion := ⟨k, s.argLow k, n, true⟩

/-- The mode of the context a command names (mode A if it is closed). -/
def ctxMode (s : State) (c : BitVec 4) : Mode := ((s.ctxAt c.toNat).map (·.mode)).getD .a

/-- The regions of a command, from the "Operands" of its rule. -/
def namedRegions (i : Instr) (s : State) : List NamedRegion :=
  match i with
  | .nop | .sat16 | .abs16 | .abs32 | .adds16 | .subs16 | .adds32 | .subs32 | .mul16 _ _ _ | .shift32 _ _ _
  | .shift16 _ _ _ | .normw16 | .normw32 | .normu32 | .sizebits | .chOpen _ _ _ | .chClose _ | .gainQuant _
  | .gainDequant _ => []
  | .vmaxabs16 => [reads s 0 (s.argLow 1)]
  | .dotsc _ _ => [reads s 0 (s.argLow 2), reads s 1 (s.argLow 2)]
  | .vscale _ _ _ => [reads s 0 (s.argLow 2), writes s 1 (s.argLow 2)]
  | .vmul _ _ _ => [reads s 0 (s.argLow 3), reads s 1 (s.argLow 3), writes s 2 (s.argLow 3)]
  | .filtMa =>
    [⟨0, (s.argLow 0 : Int) - s.argLow 4, s.argLow 4 + s.argLow 2, false⟩, writes s 1 (s.argLow 2),
      reads s 3 (s.argLow 4 + 1)]
  | .filtAr =>
    [reads s 0 (s.argLow 2), ⟨1, (s.argLow 1 : Int) - s.argLow 4, s.argLow 4 + s.argLow 2, true⟩,
      reads s 3 (s.argLow 4 + 1)]
  | .hpFilt _ => [reads s 0 (s.argLow 2), writes s 1 (s.argLow 2)]
  | .bwexp _ => [reads s 0 11, writes s 1 11]
  | .autocorr => [reads s 0 (s.argLow 1), writes s 2 (2 * (s.argLow 3 + 1))]
  | .levinson => [reads s 0 22, writes s 1 11, writes s 2 10]
  | .a2lsf => [reads s 0 11, writes s 1 10]
  | .lsf2a => [reads s 0 10, writes s 1 11]
  | .lsfQuant => [reads s 0 10, writes s 1 10, writes s 2 3]
  | .lsfDequant => [reads s 0 3, writes s 1 10]
  | .lsfStab => [reads s 0 (10 * s.argLow 2), writes s 1 (10 * s.argLow 2)]
  | .lsfInterp => [reads s 0 10, reads s 1 10, writes s 2 10]
  | .specAna c =>
    [reads s 0 (Config.frameLen (ctxMode s c)), writes s 1 (3 * (s.params.frame (ctxMode s c)).nLsfSet),
      writes s 2 (11 * Config.nsub (ctxMode s c)), writes s 3 (11 * Config.nsub (ctxMode s c))]
  | .specSyn c => [reads s 0 (3 * (s.params.frame (ctxMode s c)).nLsfSet), writes s 1 (11 * Config.nsub (ctxMode s c))]
  | .acbSearch | .bcbSearch => [reads s 0 (s.argLow 1), reads s 2 (s.argLow 3), writes s 4 3, writes s 5 3]
  | .cbConstruct _ => [reads s 0 (s.argLow 1), reads s 2 3, reads s 3 3, writes s 4 (s.argLow 5)]
  | .pack m => [reads s 0 (fieldWidths s.params m).length, writes s 1 (Config.frameBytes m)]
  | .unpack c => [reads s 0 (Config.frameBytes (ctxMode s c)), writes s 2 (fieldWidths s.params (ctxMode s c)).length]
  | .plcGood c =>
    [reads s 0 (Config.frameLen (ctxMode s c)), reads s 1 11, writes s 2 (Config.frameLen (ctxMode s c))]
  | .plcLost c => [writes s 0 (Config.frameLen (ctxMode s c)), writes s 1 11]

/-- The pairs (output register, input register) for which a command's rule says "in place: allowed". -/
def mayBeInPlace (i : Instr) (o k : ArgNo) : Prop :=
  match i with
  | .vscale _ _ _ | .filtMa | .filtAr | .hpFilt _ | .bwexp _ | .lsfQuant | .lsfStab => o = 1 ∧ k = 0
  | .vmul _ _ _ | .lsfInterp => o = 2 ∧ (k = 0 ∨ k = 1)
  | .nop | .sat16 | .abs16 | .abs32 | .adds16 | .subs16 | .adds32 | .subs32 | .mul16 _ _ _ | .shift32 _ _ _
  | .shift16 _ _ _ | .normw16 | .normw32 | .normu32 | .sizebits | .chOpen _ _ _ | .chClose _ | .gainQuant _
  | .gainDequant _ | .vmaxabs16 | .dotsc _ _ | .autocorr | .levinson | .a2lsf | .lsf2a | .lsfDequant
  | .specAna _ | .specSyn _ | .acbSearch | .bcbSearch | .cbConstruct _ | .pack _ | .unpack _ | .plcGood _
  | .plcLost _ => False

/-- The region lies in the data memory (20_memory.md R90). -/
def NamedRegion.inside (r : NamedRegion) (s : State) : Prop :=
  r.len = 0 ∨ 0 ≤ r.first ∧ r.first + r.len ≤ s.params.dmemWords

/-- The regions share a word (20_memory.md R94). -/
def NamedRegion.meets (r q : NamedRegion) : Prop :=
  ∃ a : Int, (r.first ≤ a ∧ a < r.first + r.len) ∧ (q.first ≤ a ∧ a < q.first + q.len)

/-- Register `k` passes its check of step 5 of the check order (60_exceptions.md R471, R475): an address or a length
has bits [31:16] clear, and an order, length, count, weight or width is in the range its rule gives (41_filters.md
R200; 42_lpc.md R240; 43_lsf.md R300, R310; 45_codebook.md R350, R360, R370). The length `lMem` of a codebook's history
is compared with the low half of the register of `lT` (notes/assumptions/21.md). -/
def argOk (i : Instr) (s : State) (k : ArgNo) : Prop :=
  (k ∈ addressArgs i → (s.args[k]).toNat < 65536) ∧
  match i with
  | .filtMa | .filtAr => k = 4 → (s.args[4]).toNat ≤ 31
  | .autocorr =>
    (k = 1 → 1 ≤ (s.args[1]).toNat ∧ (s.args[1]).toNat ≤ 4096) ∧ (k = 3 → (s.args[3]).toNat ≤ 10)
  | .lsfStab => k = 2 → (s.args[2]).toNat = 1 ∨ (s.args[2]).toNat = 2
  | .lsfInterp => k = 3 → 0 ≤ arg16 s 3 ∧ arg16 s 3 ≤ 16384
  | .acbSearch | .bcbSearch =>
    (k = 1 → s.argLow 3 ≤ (s.args[1]).toNat ∧ (s.args[1]).toNat ≤ s.params.cbLmemMax) ∧
      (k = 3 → 1 ≤ (s.args[3]).toNat ∧ (s.args[3]).toNat ≤ 80) ∧ (k = 6 → ∃ w0 w1 w2, widthsAre s w0 w1 w2)
  | .cbConstruct _ =>
    (k = 1 → s.argLow 5 ≤ (s.args[1]).toNat ∧ (s.args[1]).toNat ≤ s.params.cbLmemMax) ∧
      (k = 5 → 1 ≤ (s.args[5]).toNat ∧ (s.args[5]).toNat ≤ 80) ∧ (k = 6 → ∃ w0 w1 w2, widthsAre s w0 w1 w2)
  | .nop | .sat16 | .abs16 | .abs32 | .adds16 | .subs16 | .adds32 | .subs32 | .mul16 _ _ _ | .shift32 _ _ _
  | .shift16 _ _ _ | .normw16 | .normw32 | .normu32 | .sizebits | .vmaxabs16 | .dotsc _ _ | .vscale _ _ _
  | .vmul _ _ _ | .hpFilt _ | .bwexp _ | .levinson | .a2lsf | .lsf2a | .lsfQuant | .lsfDequant | .specAna _
  | .specSyn _ | .gainQuant _ | .gainDequant _ | .pack _ | .unpack _ | .plcGood _ | .plcLost _ | .chOpen _ _ _
  | .chClose _ => True

/-- Step 5 of the check order passes: every register passes its check. -/
def argsPass (i : Instr) (s : State) : Prop := ∀ k : ArgNo, argOk i s k

/-- A refused pair of regions is reported by register `k` (20_memory.md R94; 60_exceptions.md R475 step 7): the
output region of `k` shares a word with another region, is not in place with it, and is the lower-numbered one
if both are outputs. -/
def clashes (i : Instr) (s : State) (k : ArgNo) : Prop :=
  ∃ o ∈ namedRegions i s, ∃ r ∈ namedRegions i s, o.out = true ∧ o.reg = k ∧ r.reg ≠ k ∧ o.meets r ∧
    (r.out = true → k < r.reg) ∧ ¬ (mayBeInPlace i k r.reg ∧ s.args[k] = s.args[r.reg])

/-! ### Invariants -/

/-- A map the spec admits as PLC_MIX (47_plc.md R430): total on `0..32767`, non-decreasing, to `0..32768`. -/
def plcMixOk : PlcMix → Prop
  | .thresholds => True
  | .table levels => levels.length = 32768 ∧ levels.Pairwise (· ≤ ·) ∧ ∀ v ∈ levels, v ≤ 32768

/-- A frame mode's fields and layout are admissible (46_bitstream.md R401, R402): the fields fit the frame, the
segments name bits that are there, and every bit of every field is in exactly one segment. That a field has 1 to
16 bits is read from "one field per word" and the segment a field has without a table (notes/assumptions/8.md). -/
structure FrameOk (p : Params) (m : Mode) : Prop where
  widths : ∀ w ∈ fieldWidths p m, 1 ≤ w ∧ w ≤ 16
  total : (fieldWidths p m).sum ≤ 8 * Config.frameBytes m
  segments : ∀ g ∈ layout p m, g.f < (fieldWidths p m).length ∧ g.lo ≤ g.hi ∧ g.hi < fieldWidth p m g.f
  once : ∀ f, f < (fieldWidths p m).length → ∀ b, b < fieldWidth p m f →
    ((layout p m).countP fun g => g.f = f ∧ g.lo ≤ b ∧ b ≤ g.hi) = 1

/-- The parameters meet the constraints of their rules (00_scope.md R9; 44_spectral_pipelines.md R332;
45_codebook.md R350, R355; 46_bitstream.md R401, R402; 47_plc.md R430). -/
structure ParamsOk (p : Params) : Prop where
  dmemWords : 1024 ≤ p.dmemWords ∧ p.dmemWords ≤ 65536
  nctx : 1 ≤ p.nctx ∧ p.nctx ≤ 16
  nLsfSet : 1 ≤ p.frameA.nLsfSet ∧ p.frameA.nLsfSet ≤ p.frameB.nLsfSet ∧ p.frameB.nLsfSet ≤ 2
  frame : ∀ m, FrameOk p m
  cbLmemMax : 80 ≤ p.cbLmemMax
  gainScaleMin : 1 ≤ p.gainScaleMin ∧ p.gainScaleMin ≤ 16384
  lags : 1 ≤ p.plcLagMin ∧ p.plcLagMin ≤ p.plcLagMax ∧ p.plcLagMax ≤ 159
  corrLen : 1 ≤ p.plcCorrLen ∧ p.plcLagMax + p.plcCorrLen ≤ 320
  gainLvl : p.plcGainLvl[0] > p.plcGainLvl[1] ∧ p.plcGainLvl[1] > p.plcGainLvl[2] ∧
    p.plcGainLvl[2] > p.plcGainLvl[3] ∧ p.plcGainLvl[3] = 0
  noiseThr : 1 ≤ p.plcNoiseThr
  mix : plcMixOk p.plcMix
  lagInit : p.plcLagMin ≤ p.lagInit ∧ p.lagInit ≤ p.plcLagMax

/-- The data memory is in canonical form, and nothing is stored outside it (20_memory.md R80, R90). -/
def memoryInv (s : State) : Prop := s.dmem.wf ∧ s.dmem.inSpace s.params.dmemWords

/-- While a command is under way DONE, ERR, UNSTABLE, BITERR, NOISEONLY and ERRINFO are 0 (10_state.md R35);
after an error UNSTABLE, BITERR and NOISEONLY are 0 (60_exceptions.md R472); without an error ERRINFO is 0,
and its bits [31:4] always are (10_state.md R37). -/
def statusInv (s : State) : Prop :=
  (s.status.busy = true → s.status.done = false ∧ s.status.err = .ok ∧ s.status.unstable = false ∧
    s.status.biterr = false ∧ s.status.noiseonly = false) ∧
  (s.status.err ≠ .ok → s.status.unstable = false ∧ s.status.biterr = false ∧ s.status.noiseonly = false) ∧
  (s.status.err = .ok → s.errinfo = 0) ∧
  s.errinfo.toNat < 16

/-- The ranges of a context's fields: the pitch lag (47_plc.md R430, R431), the periodicity (10_state.md
R52), the high-pass memory (41_filters.md R203). -/
def ctxInv (p : Params) (x : Ctx) : Prop :=
  ((p.plcLagMin : Int) ≤ x.lag.toInt ∧ x.lag.toInt ≤ (p.plcLagMax : Int)) ∧
  0 ≤ x.per.toInt ∧
  (-268435456 ≤ x.hpY0.toInt ∧ x.hpY0.toInt ≤ 268435456) ∧
  (-268435456 ≤ x.hpY1.toInt ∧ x.hpY1.toInt ≤ 268435456)

/-- The parameters are admissible, and every open context is within its ranges. -/
def contextsInv (s : State) : Prop := ParamsOk s.params ∧ ∀ c x, s.ctxAt c = some x → ctxInv s.params x

end Sys2Proof.Machine
end

