-- ==== Sys2Proof/Certificates/Slice0/Obligations.lean ====
section
/-! DEFINITION. The statements for the provers, from the numbered rules of spec/. Where a statement names a
free table or function of Config or Machine/Rom.lean, it holds for every value of it. The parameters the spec gives a
default for are those of the state, `params`, or quantified (notes/assumptions/8.md): a statement holds for every value
of them, or for every admissible one (`ParamsOk`), never for the defaults alone. -/

open Sys2Proof Sys2Proof.Machine

/-! ## Primitives -/

/-- 00_scope.md R11, R12: saturation keeps a value in range and moves another to the nearest bound; wrapping keeps
the residue modulo the width and lies in range; `>>` is the floor of the quotient, `<<` the product, and the rounding
right shift adds half of the divisor first and is the identity for a shift by 0. -/
def Obligations.FixedPointPrimitives : Prop :=
  (∀ v lo hi : Int, sat16 v = min 32767 (max (-32768) v) ∧
    sat32 v = min (2 ^ 31 - 1) (max (-2 ^ 31) v) ∧ clamp v lo hi = min hi (max lo v) ∧
    ((-2 ^ 15 ≤ wrap16 v ∧ wrap16 v < 2 ^ 15) ∧ (2 ^ 16 : Int) ∣ v - wrap16 v) ∧
    ((-2 ^ 31 ≤ wrap32 v ∧ wrap32 v < 2 ^ 31) ∧ (2 ^ 32 : Int) ∣ v - wrap32 v)) ∧
  (∀ (v : Int) (s : Nat), (asr v s * 2 ^ s ≤ v ∧ v < (asr v s + 1) * 2 ^ s) ∧ shl v s = v * 2 ^ s ∧
    rshr v 0 = v ∧ (0 < s → rshr v s = asr (v + 2 ^ (s - 1)) s))

/-- 40_fixed_point.md R159: `bitlen v` is the least `b` with `v < 2^b`. -/
def Obligations.BitlenIsLeastExponent : Prop :=
  (∀ v : Nat, v < 2 ^ bitlen v ∧ ∀ b : Nat, v < 2 ^ b → bitlen v ≤ b) ∧
    bitlen 0 = 0 ∧ bitlen 1 = 1 ∧ bitlen 32767 = 15

/-! ## Scalar commands -/

/-- 40_fixed_point.md R141 to R151, 30_encoding.md R114: NOP and the saturating scalar commands complete in every state,
with the result in RES0 and all else as it was. A left shift multiplies; a right shift floors, after adding half of the
divisor if RND is set and the shift is not by 0. -/
def Obligations.ScalarResults : Prop :=
  (∀ s : State,
    exec .nop s = .next (ended s) ∧
    exec .sat16 s = .next (endedRes0 s (min 32767 (max (-32768) (arg32 s 0)))) ∧
    exec .abs16 s = .next (endedRes0 s (min 32767 |arg16 s 0|)) ∧
    exec .abs32 s = .next (endedRes0 s (min (2 ^ 31 - 1) |arg32 s 0|)) ∧
    exec .adds16 s = .next (endedRes0 s (min 32767 (max (-32768) (arg16 s 0 + arg16 s 1)))) ∧
    exec .subs16 s = .next (endedRes0 s (min 32767 (max (-32768) (arg16 s 0 - arg16 s 1)))) ∧
    exec .adds32 s = .next (endedRes0 s (min (2 ^ 31 - 1) (max (-2 ^ 31) (arg32 s 0 + arg32 s 1)))) ∧
    exec .subs32 s = .next (endedRes0 s (min (2 ^ 31 - 1) (max (-2 ^ 31) (arg32 s 0 - arg32 s 1))))) ∧
  (∀ (s : State) (sh : BitVec 5) (dir : ShiftDir) (rnd : Rounding),
    let shifted : Int → Int := fun v =>
      match dir, rnd with
      | .left, _ => v * 2 ^ sh.toNat
      | .right, .floor => v / 2 ^ sh.toNat
      | .right, .half => if sh = 0 then v else (v + 2 ^ (sh.toNat - 1)) / 2 ^ sh.toNat
    exec (.mul16 sh dir rnd) s = .next (endedRes0 s (sat32 (shifted (arg16 s 0 * arg16 s 1)))) ∧
    exec (.shift32 sh dir rnd) s = .next (endedRes0 s (sat32 (shifted (arg32 s 0)))) ∧
    exec (.shift16 sh dir rnd) s = .next (endedRes0 s (sat16 (shifted (arg16 s 0)))))

/-- 40_fixed_point.md R152 to R155: the normalisation shifts complete in every state; the count is 0 for 0 and
else brings the operand to the top of its width; SIZEBITS gives the least width that holds the operand. -/
def Obligations.NormalisationResults : Prop :=
  ∀ s : State,
    (∃ n : Nat, exec .normw16 s = .next (endedRes0 s n) ∧ (arg16 s 0 = 0 → n = 0) ∧
      (0 < arg16 s 0 → 2 ^ 14 ≤ arg16 s 0 * 2 ^ n ∧ arg16 s 0 * 2 ^ n < 2 ^ 15) ∧
      (arg16 s 0 < 0 → -2 ^ 15 ≤ arg16 s 0 * 2 ^ n ∧ arg16 s 0 * 2 ^ n < -2 ^ 14)) ∧
    (∃ n : Nat, exec .normw32 s = .next (endedRes0 s n) ∧ (arg32 s 0 = 0 → n = 0) ∧
      (0 < arg32 s 0 → 2 ^ 30 ≤ arg32 s 0 * 2 ^ n ∧ arg32 s 0 * 2 ^ n < 2 ^ 31) ∧
      (arg32 s 0 < 0 → -2 ^ 31 ≤ arg32 s 0 * 2 ^ n ∧ arg32 s 0 * 2 ^ n < -2 ^ 30)) ∧
    (∃ n : Nat, exec .normu32 s = .next (endedRes0 s n) ∧ ((s.args[0]).toNat = 0 → n = 0) ∧
      (0 < (s.args[0]).toNat → 2 ^ 31 ≤ (s.args[0]).toNat * 2 ^ n ∧ (s.args[0]).toNat * 2 ^ n < 2 ^ 32)) ∧
    (∃ n : Nat, exec .sizebits s = .next (endedRes0 s n) ∧ (s.args[0]).toNat < 2 ^ n ∧
      ∀ b : Nat, (s.args[0]).toNat < 2 ^ b → n ≤ b)

/-! ## Vector commands -/

/-- 40_fixed_point.md R160, R161: VMAXABS16 gives the largest magnitude, saturated, and the first place of it; DOTSC
accumulates the shifted products in index order, saturating at every step. Nothing but the result registers and the
report changes. -/
def Obligations.VectorReductionResults : Prop :=
  (∀ (s : State) (x n : Nat), argIs s 0 x → argIs s 1 n → fits s x n →
    (n = 0 → exec .vmaxabs16 s = .next { ended s with res0 := 0, res1 := 0 }) ∧
    (0 < n → ∃ (m : Int) (i : Nat),
      exec .vmaxabs16 s =
        .next { ended s with res0 := BitVec.ofInt 32 (min m 32767), res1 := BitVec.ofNat 32 i } ∧
      i < n ∧ |s.dmem.readI16 (x + i)| = m ∧ (∀ j, j < n → |s.dmem.readI16 (x + j)| ≤ m) ∧
      ∀ j, j < i → |s.dmem.readI16 (x + j)| < m)) ∧
  (∀ (s : State) (sh : BitVec 5) (dir : ShiftDir) (x y n : Nat),
    argIs s 0 x → argIs s 1 y → argIs s 2 n → fits s x n → fits s y n →
    ∃ acc : Nat → Int, acc 0 = 0 ∧
      (∀ i, i < n → acc (i + 1) = sat32 (acc i +
        match dir with
        | .right => s.dmem.readI16 (x + i) * s.dmem.readI16 (y + i) / 2 ^ sh.toNat
        | .left => sat32 (s.dmem.readI16 (x + i) * s.dmem.readI16 (y + i) * 2 ^ sh.toNat))) ∧
      exec (.dotsc sh dir) s = .next (endedRes0 s (acc n)))

/-- 40_fixed_point.md R162, R163: VSCALE and VMUL write the shifted, saturated products of the words their inputs
held at the start, in place or elsewhere, and no other byte. -/
def Obligations.VectorProductResults : Prop :=
  (∀ (s : State) (sh : BitVec 5) (dir : ShiftDir) (rnd : Rounding) (x y n : Nat),
    argIs s 0 x → argIs s 1 y → argIs s 2 n → fits s x n → fits s y n → (apart y n x n ∨ y = x) →
    ∃ m, exec (.vscale sh dir rnd) s = .next { ended s with dmem := m } ∧
      wordsAre m y n (fun i => sat16 (shft (s.dmem.readI16 (x + i) * arg16 s 3) sh.toNat dir rnd)) ∧
      sameOutside s.dmem m y n) ∧
  (∀ (s : State) (sh : BitVec 5) (dir : ShiftDir) (rnd : Rounding) (x w y n : Nat),
    argIs s 0 x → argIs s 1 w → argIs s 2 y → argIs s 3 n → fits s x n → fits s w n → fits s y n →
    (apart y n x n ∨ y = x) → (apart y n w n ∨ y = w) →
    ∃ m, exec (.vmul sh dir rnd) s = .next { ended s with dmem := m } ∧
      wordsAre m y n
        (fun i => sat16 (shft (s.dmem.readI16 (x + i) * s.dmem.readI16 (w + i)) sh.toNat dir rnd)) ∧
      sameOutside s.dmem m y n)

/-! ## Filters -/

/-- 41_filters.md R201: FILT_MA writes the clamped, descaled sums over the input and its history as they were
at the start. -/
def Obligations.FiltMaResult : Prop :=
  ∀ (s : State) (x y n a o : Nat), argIs s 0 x → argIs s 1 y → argIs s 2 n → argIs s 3 a → argIs s 4 o →
    o ≤ 31 → o ≤ x → fits s (x - o) (o + n) → fits s y n → fits s a (o + 1) →
    (apart y n (x - o) (o + n) ∨ y = x) → apart y n a (o + 1) →
    ∃ m, exec .filtMa s = .next { ended s with dmem := m } ∧
      wordsAre m y n (fun i => sat16 (rshr (clamp
        (total (o + 1) fun k => s.dmem.readI16 (a + k) * s.dmem.readI16 (x + i - k)) (-2 ^ 27) (2 ^ 27)) 12)) ∧
      sameOutside s.dmem m y n

/-- 41_filters.md R202: each output of FILT_AR is computed from the input and the outputs before it as they stand
in the memory afterwards, narrowed; the first ones from the history. -/
def Obligations.FiltArResult : Prop :=
  ∀ (s : State) (x y n a o : Nat), argIs s 0 x → argIs s 1 y → argIs s 2 n → argIs s 3 a → argIs s 4 o →
    o ≤ 31 → o ≤ y → fits s x n → fits s (y - o) (o + n) → fits s a (o + 1) →
    (apart (y - o) (o + n) x n ∨ y = x) → apart (y - o) (o + n) a (o + 1) →
    ∃ m, exec .filtAr s = .next { ended s with dmem := m } ∧
      wordsAre m y n (fun i => sat16 (rshr (clamp
        (s.dmem.readI16 a * s.dmem.readI16 (x + i) -
          total o fun k => s.dmem.readI16 (a + (k + 1)) * m.readI16 (y + i - (k + 1))) (-2 ^ 27) (2 ^ 27)) 12)) ∧
      sameOutside s.dmem m y n

/-- 41_filters.md R203: HP_FILT runs the recurrence of the context's kind over the samples `X 2, X 3, ...` with
the accumulators `V 2, V 3, ...`, clamped to ±2^28, and keeps the last two of each in the context. -/
def Obligations.HpFiltResult : Prop :=
  ∀ (s : State) (c : BitVec 4) (q : Ctx) (x y n : Nat), s.ctxAt c.toNat = some q →
    argIs s 0 x → argIs s 1 y → argIs s 2 n → fits s x n → fits s y n → (apart y n x n ∨ y = x) →
    ∃ (X V : Nat → Int) (m : Memory),
      (X 0 = q.hpX1.toInt ∧ X 1 = q.hpX0.toInt ∧ V 0 = q.hpY1.toInt ∧ V 1 = q.hpY0.toInt) ∧
      (∀ i, i < n → X (i + 2) = s.dmem.readI16 (x + i) ∧
        V (i + 2) = clamp (Config.hpAcc q.kind (hpCoef q.kind) (X (i + 2)) (X (i + 1)) (X i) (V (i + 1)) (V i))
          (-268435456) 268435456) ∧
      exec (.hpFilt c) s = .next
        { (ended s).setCtx c.toNat (some
            { q with
              hpX0 := BitVec.ofInt 16 (X (n + 1)), hpX1 := BitVec.ofInt 16 (X n)
              hpY0 := BitVec.ofInt 32 (V (n + 1)), hpY1 := BitVec.ofInt 32 (V n) }) with dmem := m } ∧
      wordsAre m y n (fun i => sat16 (rshr (V (i + 2)) 13)) ∧
      sameOutside s.dmem m y n

/-! ## Linear prediction -/

/-- 42_lpc.md R240, R241: AUTOCORR writes the exact scaled sums as 32-bit values, low half first, and leaves the
scale factor in RES0. -/
def Obligations.AutocorrResult : Prop :=
  ∀ (s : State) (x n r o : Nat), argIs s 0 x → argIs s 1 n → argIs s 2 r → argIs s 3 o →
    1 ≤ n → n ≤ 4096 → o ≤ 10 → fits s x n → fits s r (2 * (o + 1)) → apart r (2 * (o + 1)) x n →
    ∃ (peak : Int) (norm sc : Nat) (m : Memory),
      ((∀ j, j < n → |s.dmem.readI16 (x + j)| ≤ peak) ∧ ∃ j, j < n ∧ |s.dmem.readI16 (x + j)| = peak) ∧
      (0 < peak → 2 ^ 30 ≤ min 32767 peak ^ 2 * 2 ^ norm ∧ min 32767 peak ^ 2 * 2 ^ norm < 2 ^ 31) ∧
      sc = (if peak = 0 then 0 else if norm > bitlen n then 0 else bitlen n - norm) ∧
      exec .autocorr s = .next { ended s with dmem := m, res0 := BitVec.ofNat 32 sc } ∧
      (∀ k, k ≤ o → m.readI32 (r + 2 * k) =
        total (n - k) fun j => s.dmem.readI16 (x + j) * s.dmem.readI16 (x + j + k) / 2 ^ sc) ∧
      sameOutside s.dmem m r (2 * (o + 1))

/-- 42_lpc.md R242: with the scale factor of R241 no partial sum of the autocorrelation leaves 32 bits. -/
def Obligations.AutocorrNeverOverflows : Prop :=
  ∀ xs : List Int, (∀ v ∈ xs, -32768 ≤ v ∧ v ≤ 32767) → 1 ≤ xs.length → xs.length ≤ 4096 →
    ∀ k p : Nat, k + p ≤ xs.length →
      -2 ^ 31 ≤ total p (fun j => nth xs j * nth xs (j + k) / 2 ^ acScale xs) ∧
      total p (fun j => nth xs j * nth xs (j + k) / 2 ^ acScale xs) < 2 ^ 31

/-- 42_lpc.md R250, R252, R253: LEVINSON. `K` are the reflection coefficients LEV_ARITH gives. It is stable when
`R[0] > 0` and no `|K_i|` exceeds 32750; else the identity filter is written, the reflection coefficients
up to the failing one, zeros after it, and UNSTABLE is set. -/
def Obligations.LevinsonResult : Prop :=
  ∀ (s : State) (r a k : Nat), argIs s 0 r → argIs s 1 a → argIs s 2 k → fits s r 22 → fits s a 11 → fits s k 10 →
    apart a 11 r 22 → apart k 10 r 22 → apart a 11 k 10 →
    let R : List Int := (List.range 11).map fun i => s.dmem.readI32 (r + 2 * i)
    let K : Nat → Int := nth (levArith R).k
    let upTo : Nat → Bool := fun j => decide (0 < s.dmem.readI32 r) && (List.range j).all fun i => |K i| ≤ 32750
    ∃ m, exec .levinson s =
        .next (alsoUnstable (!upTo 10) { ended s with dmem := m, res0 := if upTo 10 then 1 else 0 }) ∧
      wordsAre m a 11
        (fun i => if upTo 10 then nth (levArith R).a i else if i = 0 then 4096 else 0) ∧
      wordsAre m k 10 (fun j => if upTo j then K j else 0) ∧
      sameOutside2 s.dmem m a 11 k 10

/-- 42_lpc.md R260 to R263: A2LSF. `P` and `Q` are the polynomials of R261 and `lsp` the roots that the grid search of
R262 ends with: every search state it passes is one of `Searches`, and it stops with 10 roots or at the end of the grid.
With 10 roots their frequencies are written, with fewer the mean vector, and RES0 is the number of roots. The grid
decreases strictly and the conversion to frequencies does not increase (notes/assumptions/12.md). -/
def Obligations.AtoLsfResult : Prop :=
  ((∀ j, j < gridN → cosGrid (j + 1) < cosGrid j) ∧
    ∀ x : Int, -32768 ≤ x → x < 32767 → lsp2lsf (x + 1) ≤ lsp2lsf x) ∧
  ∀ (s : State) (a f : Nat), argIs s 0 a → argIs s 1 f → fits s a 11 → fits s f 10 → apart f 10 a 11 →
    ∃ (P Q lsp : List Int) (m : Memory),
      (P.length = 6 ∧ nth P 0 = 4096 ∧ ∀ i, i < 5 →
        nth P (i + 1) = s.dmem.readI16 (a + (i + 1)) + s.dmem.readI16 (a + (10 - i)) - nth P i) ∧
      (Q.length = 6 ∧ nth Q 0 = 4096 ∧ ∀ i, i < 5 →
        nth Q (i + 1) = s.dmem.readI16 (a + (i + 1)) - s.dmem.readI16 (a + (10 - i)) + nth Q i) ∧
      (∃ (onP : Bool) (x y : Int) (j : Nat), Searches P Q onP x y j lsp ∧ (lsp.length = 10 ∨ j = gridN)) ∧
      lsp.length ≤ 10 ∧
      exec .a2lsf s = .next { ended s with dmem := m, res0 := BitVec.ofNat 32 lsp.length } ∧
      wordsAre m f 10 (fun i => if lsp.length < 10 then nth (ints Config.lsfMean) i else lsp2lsf (nth lsp i)) ∧
      sameOutside s.dmem m f 10

/-! ## LSF quantisation -/

/-- 43_lsf.md R290, R291: LSF_QUANT. In each split the index is the lowest of those with the least squared
error, and the quantised values are that entry's. `split` gives first coefficient, length, table and size. -/
def Obligations.LsfQuantResult : Prop :=
  ∀ (s : State) (f q ix : Nat), argIs s 0 f → argIs s 1 q → argIs s 2 ix → fits s f 10 → fits s q 10 → fits s ix 3 →
    (apart q 10 f 10 ∨ q = f) → apart ix 3 f 10 → apart ix 3 q 10 →
    ∃ (best : Nat → Nat) (m : Memory), exec .lsfQuant s = .next { ended s with dmem := m } ∧
      (∀ b lo len size : Nat, ∀ cb : List (List Int),
        (b, lo, len, size, cb) ∈ [(0, 0, 3, 64, lsfCb1), (1, 3, 3, 128, lsfCb2), (2, 6, 4, 128, lsfCb3)] →
        let err : Nat → Int := fun c => total len fun i => (s.dmem.readI16 (f + lo + i) - nth (cb.getD c []) i) ^ 2
        best b < size ∧ (∀ c, c < size → err (best b) ≤ err c) ∧ (∀ c, c < best b → err (best b) < err c) ∧
        wordsAre m (q + lo) len (nth (cb.getD (best b) []))) ∧
      wordsAre m ix 3 (fun b => best b) ∧ sameOutside2 s.dmem m q 10 ix 3

/-- 43_lsf.md R295: LSF_DEQUANT looks its three indices up; the indices LSF_QUANT gives are in their tables and name
exactly the LSFs it gives. -/
def Obligations.LsfDequantResults : Prop :=
  (∀ (s : State) (ix q : Nat), argIs s 0 ix → argIs s 1 q → fits s ix 3 → fits s q 10 → apart q 10 ix 3 →
    ∀ i0 i1 i2 : Nat, i0 < 64 → i1 < 128 → i2 < 128 → s.dmem.readI16 ix = i0 → s.dmem.readI16 (ix + 1) = i1 →
    s.dmem.readI16 (ix + 2) = i2 →
    ∃ m, exec .lsfDequant s = .next { ended s with dmem := m } ∧
      wordsAre m q 3 (nth (lsfCb1.getD i0 [])) ∧ wordsAre m (q + 3) 3 (nth (lsfCb2.getD i1 [])) ∧
      wordsAre m (q + 6) 4 (nth (lsfCb3.getD i2 [])) ∧ sameOutside s.dmem m q 10) ∧
  (∀ f : List Int, indicesInRange (lsfQuant f).2 = true ∧ lsfDequant (lsfQuant f).2 = (lsfQuant f).1)

/-- 43_lsf.md R300: LSF_STAB. `W t` is the working copy after `t` coefficients have been treated and `C t` says whether
anything has changed: two passes over the sets. In each set coefficients 0 to 8 are separated from the next one and
clamped; the last one is clamped too when LSF_CLAMP_LAST is set, a parameter (notes/assumptions/8.md). -/
def Obligations.LsfStabResult : Prop :=
  ∀ (s : State) (f o ns : Nat), argIs s 0 f → argIs s 1 o → argIs s 2 ns → (ns = 1 ∨ ns = 2) →
    fits s f (10 * ns) → fits s o (10 * ns) → (apart o (10 * ns) f (10 * ns) ∨ o = f) →
    let eps := Config.lsfEps.toInt
    let eps2 := Config.lsfEps2.toInt
    let lo := Config.lsfMin.toInt
    let hi := Config.lsfMax.toInt
    let len := if s.params.lsfClampLast then 10 else 9
    ∃ (W : Nat → Nat → Int) (C : Nat → Bool) (m : Memory),
      (∀ i, i < 10 * ns → W 0 i = s.dmem.readI16 (f + i)) ∧ C 0 = false ∧
      (∀ t, t < 2 * (len * ns) →
        let p := 10 * (t % (len * ns) / len) + t % len
        let x := W t p
        let y := W t (p + 1)
        let close := t % len < 9 ∧ y - x < eps
        let x' := if close then (if y < x then sat16 (y - eps2) else sat16 (x - eps2)) else x
        let y' := if close then (if y < x then sat16 (x + eps2) else sat16 (y + eps2)) else y
        let x'' := if x' < lo then lo else x'
        let x''' := if x'' > hi then hi else x''
        (∀ i, i < 10 * ns → W (t + 1) i = if i = p then x''' else if i = p + 1 then y' else W t i) ∧
        C (t + 1) = (C t || decide close || decide (x' < lo) || decide (x'' > hi))) ∧
      exec .lsfStab s = .next { ended s with dmem := m, res0 := if C (2 * (len * ns)) then 1 else 0 } ∧
      wordsAre m o (10 * ns) (W (2 * (len * ns))) ∧ sameOutside s.dmem m o (10 * ns)

/-- 43_lsf.md R310, 42_lpc.md R270, 41_filters.md R204: LSF_INTERP blends two sets with a weight of 0 to 16384, LSF2A writes
4096 and the ten values of its function, and BWEXP multiplies each coefficient by the entry of the table X selects. -/
def Obligations.SubframeCoefficientResults : Prop :=
  (∀ (s : State) (fa fb o : Nat), argIs s 0 fa → argIs s 1 fb → argIs s 2 o → 0 ≤ arg16 s 3 → arg16 s 3 ≤ 16384 →
    fits s fa 10 → fits s fb 10 → fits s o 10 → (apart o 10 fa 10 ∨ o = fa) → (apart o 10 fb 10 ∨ o = fb) →
    ∃ m, exec .lsfInterp s = .next { ended s with dmem := m } ∧
      wordsAre m o 10 (fun i => sat16 (rshr
        (arg16 s 3 * s.dmem.readI16 (fa + i) + (16384 - arg16 s 3) * s.dmem.readI16 (fb + i)) 14)) ∧
      sameOutside s.dmem m o 10) ∧
  (∀ (s : State) (f a : Nat), argIs s 0 f → argIs s 1 a → fits s f 10 → fits s a 11 → apart a 11 f 10 →
    ∃ m, exec .lsf2a s = .next { ended s with dmem := m } ∧
      wordsAre m a 11 (fun i => if i = 0 then 4096 else
        nth (ints (Config.lsf2aRaw ((List.range 10).map fun j => s.dmem.readI16 (f + j)))) (i - 1)) ∧
      sameOutside s.dmem m a 11) ∧
  (∀ (s : State) (a b : Nat), argIs s 0 a → argIs s 1 b → fits s a 11 → fits s b 11 → (apart b 11 a 11 ∨ b = a) →
    (∃ m, exec (.bwexp .syn) s = .next { ended s with dmem := m } ∧
      wordsAre m b 11 (fun i => sat16 (rshr (s.dmem.readI16 (a + i) * nth (ints Config.chirpSyn) i) 15)) ∧
      sameOutside s.dmem m b 11) ∧
    (∃ m, exec (.bwexp .wgt) s = .next { ended s with dmem := m } ∧
      wordsAre m b 11 (fun i => sat16 (rshr (s.dmem.readI16 (a + i) * nth (ints Config.chirpWgt) i) 15)) ∧
      sameOutside s.dmem m b 11))

/-! ## Spectral pipelines -/

/-- 44_spectral_pipelines.md R330: SPEC_ANA on an open encoder context writes the indices and the two coefficient
sets of the frame, updates the history and the two LSF memories of that context, and reports the masks. -/
def Obligations.SpecAnaResult : Prop :=
  ∀ (s : State) (c : BitVec 4) (q : Ctx) (fr ix syn wgt : Nat), s.ctxAt c.toNat = some q → q.kind = .encoder →
    argIs s 0 fr → argIs s 1 ix → argIs s 2 syn → argIs s 3 wgt →
    let n := Config.frameLen q.mode
    let ns := (s.params.frame q.mode).nLsfSet
    let nb := Config.nsub q.mode
    fits s fr n → fits s ix (3 * ns) → fits s syn (11 * nb) → fits s wgt (11 * nb) →
    apart ix (3 * ns) fr n → apart syn (11 * nb) fr n → apart wgt (11 * nb) fr n →
    apart ix (3 * ns) syn (11 * nb) → apart ix (3 * ns) wgt (11 * nb) → apart syn (11 * nb) wgt (11 * nb) →
    let r := q.analyse s.params (s.dmem.readVec fr n)
    ∃ m, exec (.specAna c) s = .next (alsoUnstable (r.umask != 0)
        { (ended s).setCtx c.toNat (some
            { q with anaHist := words 240 r.hist, lsfOld := words 10 r.lq, lsfOldU := words 10 r.lu }) with
          dmem := m, res0 := BitVec.ofInt 32 r.umask, res1 := BitVec.ofInt 32 r.fmask }) ∧
      wordsAre m ix (3 * ns) (nth r.idx) ∧ wordsAre m syn (11 * nb) (nth r.syn) ∧
      wordsAre m wgt (11 * nb) (nth r.wgt) ∧
      sameOutside3 s.dmem m ix (3 * ns) syn (11 * nb) wgt (11 * nb)

/-- 44_spectral_pipelines.md R330: what the analysis of a frame computes, step by step: the newest 240 samples,
each set windowed, autocorrelated, solved, turned into LSFs and quantised, the quantised sets stabilised, and
for each sub-frame the blended sets turned into coefficients and expanded. Bit `i` of a mask is that of set `i`, and
no other bit is set. A row of an interpolation table names only sets its mode has, one of mode A only the old one and the
first (10_state.md R60, 44_spectral_pipelines.md R332), with a weight of 0 to 16384 for the one it blends from. That set
`i` of either mode takes window `i` is R330's, read against a remark of R60 (notes/assumptions/9.md). -/
def Obligations.AnalysisIsThePipeline : Prop :=
  ∀ (p : Params) (q : Ctx) (frame : List Int), ParamsOk p → frame.length = Config.frameLen q.mode →
    let r := q.analyse p frame
    let ns := (p.frame q.mode).nLsfSet
    ∃ (lev : Nat → Levinson) (lu lq : Nat → List Int),
      r.hist = ((ints q.anaHist ++ frame).drop frame.length).take 240 ∧ r.hist.length = 240 ∧
      (∀ i, i < ns →
        lev i = levinson (autocorr
          (tabulate 240 fun j => sat16 (rshr (nth r.hist j * nth (anaWindow i) j) 14)) 10) ∧
        lu i = (lpcToLsf (lev i).a).1 ∧ lq i = (lsfQuant (lu i)).1 ∧
        (r.idx.drop (3 * i)).take 3 = (lsfQuant (lu i)).2 ∧
        (Int.toNat r.umask).testBit i = !(lev i).stable ∧
        (Int.toNat r.fmask).testBit i = decide ((lpcToLsf (lev i).a).2 < 10)) ∧
      r.idx.length = 3 * ns ∧ (0 ≤ r.umask ∧ r.umask < 2 ^ ns) ∧ (0 ≤ r.fmask ∧ r.fmask < 2 ^ ns) ∧
      let stab := (stabilise (stabParams p) ns ((List.range ns).flatMap lq)).1
      let quant : LsfSel → List Int := fun
        | .old => ints q.lsfOld | .set0 => stab.take 10 | .set1 => (stab.drop 10).take 10
      let unquant : LsfSel → List Int := fun
        | .old => ints q.lsfOldU | .set0 => lu 0 | .set1 => lu 1
      r.lq = (stab.drop (10 * (ns - 1))).take 10 ∧ r.lu = lu (ns - 1) ∧
      ∀ j, j < Config.nsub q.mode →
        let row := interpRow p q.mode j
        (∀ sel ∈ [row.src, row.dst], sel = .set1 → q.mode = .b ∧ ns = 2) ∧ (0 ≤ row.w ∧ row.w ≤ 16384) ∧
        (r.syn.drop (11 * j)).take 11 =
          expand (chirp .syn) (lsf2aFn (lsfBlend row.w (quant row.src) (quant row.dst))) ∧
        (r.wgt.drop (11 * j)).take 11 =
          expand (chirp .wgt) (lsf2aFn (lsfBlend row.w (unquant row.src) (unquant row.dst)))

/-- 44_spectral_pipelines.md R340: SPEC_SYN on an open decoder context and legal indices writes the synthesis
coefficient sets, updates the LSF memory of that context and reports whether the stability pass changed
anything. -/
def Obligations.SpecSynResult : Prop :=
  ∀ (s : State) (c : BitVec 4) (q : Ctx) (ix syn : Nat), s.ctxAt c.toNat = some q → q.kind = .decoder →
    argIs s 0 ix → argIs s 1 syn →
    let ns := (s.params.frame q.mode).nLsfSet
    let nb := Config.nsub q.mode
    fits s ix (3 * ns) → fits s syn (11 * nb) → apart syn (11 * nb) ix (3 * ns) →
    (∀ i, i < ns →
      (0 ≤ s.dmem.readI16 (ix + 3 * i) ∧ s.dmem.readI16 (ix + 3 * i) < 64) ∧
      (0 ≤ s.dmem.readI16 (ix + (3 * i + 1)) ∧ s.dmem.readI16 (ix + (3 * i + 1)) < 128) ∧
      (0 ≤ s.dmem.readI16 (ix + (3 * i + 2)) ∧ s.dmem.readI16 (ix + (3 * i + 2)) < 128)) →
    let sets : List Int := (List.range ns).flatMap fun i =>
      lsfCb1.getD (s.dmem.readI16 (ix + 3 * i)).toNat [] ++
        lsfCb2.getD (s.dmem.readI16 (ix + (3 * i + 1))).toNat [] ++
        lsfCb3.getD (s.dmem.readI16 (ix + (3 * i + 2))).toNat []
    let stab := stabilise (stabParams s.params) ns sets
    let pick : LsfSel → List Int := fun
      | .old => ints q.lsfOld | .set0 => stab.1.take 10 | .set1 => (stab.1.drop 10).take 10
    ∃ m, exec (.specSyn c) s = .next
        { (ended s).setCtx c.toNat (some { q with lsfOld := words 10 ((stab.1.drop (10 * (ns - 1))).take 10) }) with
          dmem := m, res0 := if stab.2 then 1 else 0 } ∧
      (∀ j, j < nb →
        let row := interpRow s.params q.mode j
        wordsAre m (syn + 11 * j) 11
          (nth (expand (chirp .syn) (lsf2aFn (lsfBlend row.w (pick row.src) (pick row.dst)))))) ∧
      sameOutside s.dmem m syn (11 * nb)

/-- 44_spectral_pipelines.md R340, corner case: from the same old LSF set, the decoder rebuilds from the encoder's
indices exactly the encoder's synthesis sets and keeps the same LSF set. -/
def Obligations.DecoderRebuildsEncoderFilters : Prop :=
  ∀ (p : Params) (e d : Ctx) (frame : List Int), ParamsOk p → e.mode = d.mode → e.lsfOld = d.lsfOld →
    frame.length = Config.frameLen e.mode →
    (d.synthesise p (e.analyse p frame).idx).syn = (e.analyse p frame).syn ∧
      (d.synthesise p (e.analyse p frame).idx).lq = (e.analyse p frame).lq

/-! ## Codebooks -/

/-- 45_codebook.md R353: the stage search. Of the candidates with a vector that is not zero it takes the one with
the largest criterion, the lowest of equals, and its gain is the quotient rounded toward zero; with none it gives
index 0 and gain 0. -/
def Obligations.StageSearchIsOptimal : Prop :=
  ∀ (p : Params) (h tgt : List Int) (lMem lT t w : Nat), tgt.length = lT →
    let v : Nat → List Int := cbVector (cbParams p) h lMem lT
    let size := min (2 * (lMem - lT + 1 + if lT = 40 then 20 else 0)) (2 ^ w)
    let corr : Nat → Int := fun i => total lT fun n => nth tgt n * nth (v i) n
    let c : Nat → Int := fun i => if t = 0 then max (corr i) 0 else corr i
    let e : Nat → Int := fun i => ((v i).map fun y => y ^ 2).sum
    let r := stageSearch (cbParams p) h lMem lT tgt t w
    ((∀ i, i < size → e i = 0) → r = (0, 0)) ∧
    ((∃ i, i < size ∧ e i ≠ 0) →
      r.1 < size ∧ e r.1 ≠ 0 ∧ (∀ i, i < size → e i ≠ 0 → c i ^ 2 * e r.1 ≤ c r.1 ^ 2 * e i) ∧
      (∀ i, i < r.1 → e i ≠ 0 → c i ^ 2 * e r.1 < c r.1 ^ 2 * e i) ∧
      r.2 = Int.tdiv (c r.1 * 16384) (e r.1))

/-- 45_codebook.md R354: comparing the candidates within 17 of the coarse best again, with the same criterion and
energies, leaves the best as it is. -/
def Obligations.RefinementKeepsTheBest : Prop :=
  ∀ (p : Params) (h tgt : List Int) (lMem lT t w : Nat),
    let cs := (List.range (stageSize lMem lT w)).map (candidate (cbParams p) h lMem lT tgt t)
    refineBest cs (coarseBest cs) = coarseBest cs

/-- 45_codebook.md R356, R357: the three-stage search. Each stage searches what the stages before it left of the
target and quantises its gain against the last quantised gain; then the stage-0 gain index becomes the largest
admissible one. A gain beyond 16 bits passes to the next stage and into the products as it is: the model's reading
(notes/assumptions/19.md). -/
def Obligations.ThreeStageSearch : Prop :=
  ∀ (p : Params) (h tgt : List Int) (lMem lT : Nat) (w : Nat → Nat), tgt.length = lT →
    ∃ (T : Nat → List Int) (sc : Nat → Int) (idx gidx : Nat → Nat) (craw gq : Nat → Int) (g0 : Nat),
      T 0 = tgt ∧ sc 0 = 16384 ∧
      (∀ t, t < 3 → (idx t, craw t) = stageSearch (cbParams p) h lMem lT (T t) t (w t) ∧
        (gidx t, gq t) = gainQuantise p.gainScaleMin
          (if t = 0 then gainCb5 else if t = 1 then gainCb4 else gainCb3) (craw t) (sc t) ∧
        sc (t + 1) = gq t ∧
        T (t + 1) = List.zipWith (fun x v => sat16 (x - rshr (gq t * v) 14)) (T t)
          (cbVector (cbParams p) h lMem lT (idx t))) ∧
      (let y : Nat → Nat → Int := fun k n => sat16 (
          rshr (nth gainCb5 k * nth (cbVector (cbParams p) h lMem lT (idx 0)) n) 14 +
          rshr (gq 1 * nth (cbVector (cbParams p) h lMem lT (idx 1)) n) 14 +
          rshr (gq 2 * nth (cbVector (cbParams p) h lMem lT (idx 2)) n) 14)
        let cand : Nat → Prop := fun k => gidx 0 ≤ k ∧ k ≤ 31 ∧
          total lT (fun n => y k n ^ 2) ≤ total lT (fun n => nth tgt n ^ 2) ∧ nth gainCb5 k < 2 * craw 0
        ((∃ k, cand k) → cand g0 ∧ ∀ k, cand k → k ≤ g0) ∧ ((∀ k, ¬ cand k) → g0 = gidx 0)) ∧
      (cbSearch (cbParams p) h lMem lT tgt (w 0) (w 1) (w 2)).idx = [(idx 0 : Int), (idx 1 : Int), (idx 2 : Int)] ∧
      (cbSearch (cbParams p) h lMem lT tgt (w 0) (w 1) (w 2)).gidx = [(g0 : Int), (gidx 1 : Int), (gidx 2 : Int)]

/-- 45_codebook.md R360, R365: ACB_SEARCH and BCB_SEARCH write the three codebook and the three gain indices of
the search, BCB_SEARCH of the search over reversed history and target; RES0 is the codebook size, RES1 the
corrected stage-0 gain. -/
def Obligations.CodebookSearchResults : Prop :=
  ∀ (s : State) (h lMem tg lT ix gx w0 w1 w2 : Nat), argIs s 0 h → argIs s 1 lMem → argIs s 2 tg →
    argIs s 3 lT → argIs s 4 ix → argIs s 5 gx → widthsAre s w0 w1 w2 →
    1 ≤ lT → lT ≤ 80 → lT ≤ lMem → lMem ≤ s.params.cbLmemMax → fits s h lMem → fits s tg lT → fits s ix 3 → fits s gx 3 →
    apart ix 3 h lMem → apart ix 3 tg lT → apart gx 3 h lMem → apart gx 3 tg lT → apart ix 3 gx 3 →
    ∀ (i : Instr) (r : SearchResult),
      (i, r) ∈ [(Instr.acbSearch,
          cbSearch (cbParams s.params) (s.dmem.readVec h lMem) lMem lT (s.dmem.readVec tg lT) w0 w1 w2),
        (Instr.bcbSearch,
          cbSearch (cbParams s.params) (s.dmem.readVec h lMem).reverse lMem lT (s.dmem.readVec tg lT).reverse w0 w1
            w2)] →
      ∃ m, exec i s = .next
          { ended s with
            dmem := m
            res0 := BitVec.ofNat 32 (2 * (lMem - lT + 1 + if lT = 40 then 20 else 0))
            res1 := BitVec.ofInt 32 (nth gainCb5 (nth r.gidx 0).toNat) } ∧
        wordsAre m ix 3 (nth r.idx) ∧ wordsAre m gx 3 (nth r.gidx) ∧ sameOutside2 s.dmem m ix 3 gx 3

/-- 45_codebook.md R351, R370: the codebook vectors are the windows of the history, the latest first, then the interpolated
lags, and after these the same over the smoothed history. CB_CONSTRUCT sums the three vectors scaled by their gains, each gain taken relative to
the one before; a backward-coded vector is rebuilt in reversed time. A gain beyond 16 bits passes to the next stage and
into the products as it is: the model's reading (notes/assumptions/19.md). CB_LMEM_MAX and GAIN_SCALE_MIN are
parameters (notes/assumptions/8.md). -/
def Obligations.CbConstructResult : Prop :=
  (∀ (p : Params) (h : List Int) (lMem lT i : Nat), h.length = lMem → 1 ≤ lT → lT ≤ lMem →
    let size := lMem - lT + 1 + if lT = 40 then 20 else 0
    let vector : List Int → List Int := fun g =>
      if i ≤ lMem - lT then (List.range lT).map fun n => nth g (lMem - lT - i + n)
      else ints (Config.cbAug g lMem (i - (lMem - lT + 1)))
    let smoothed := (List.range lMem).map fun n => (Config.cbSmoothAt h n).toInt
    i < size →
      (cbVector (cbParams p) h lMem lT i = vector h ∧ cbVector (cbParams p) h lMem lT (size + i) = vector smoothed) ∧
      (vector h).length = lT ∧ (vector smoothed).length = lT) ∧
  ∀ (s : State) (dir : CbDir) (h lMem ix gx o lT w0 w1 w2 : Nat), argIs s 0 h → argIs s 1 lMem → argIs s 2 ix →
    argIs s 3 gx → argIs s 4 o → argIs s 5 lT → widthsAre s w0 w1 w2 →
    1 ≤ lT → lT ≤ 80 → lT ≤ lMem → lMem ≤ s.params.cbLmemMax → fits s h lMem → fits s ix 3 → fits s gx 3 → fits s o lT →
    apart o lT h lMem → apart o lT ix 3 → apart o lT gx 3 →
    let size := 2 * (lMem - lT + 1 + if lT = 40 then 20 else 0)
    ∀ (i0 i1 i2 k0 k1 k2 : Nat), (i0 < min size (2 ^ w0) ∧ i1 < min size (2 ^ w1) ∧ i2 < min size (2 ^ w2)) →
    (k0 < 32 ∧ k1 < 16 ∧ k2 < 8) →
    (s.dmem.readI16 ix = i0 ∧ s.dmem.readI16 (ix + 1) = i1 ∧ s.dmem.readI16 (ix + 2) = i2) →
    (s.dmem.readI16 gx = k0 ∧ s.dmem.readI16 (gx + 1) = k1 ∧ s.dmem.readI16 (gx + 2) = k2) →
    let hist := s.dmem.readVec h lMem
    let v : Nat → List Int := cbVector (cbParams s.params) (if dir = .backward then hist.reverse else hist) lMem lT
    let q0 := rshr (max 16384 s.params.gainScaleMin * nth gainCb5 k0) 14
    let q1 := rshr (max |q0| s.params.gainScaleMin * nth gainCb4 k1) 14
    let q2 := rshr (max |q1| s.params.gainScaleMin * nth gainCb3 k2) 14
    let y : Nat → Int := fun n =>
      sat16 (rshr (q0 * nth (v i0) n) 14 + rshr (q1 * nth (v i1) n) 14 + rshr (q2 * nth (v i2) n) 14)
    ∃ m, exec (.cbConstruct dir) s = .next { ended s with dmem := m } ∧
      wordsAre m o lT (fun n => if dir = .backward then y (lT - 1 - n) else y n) ∧ sameOutside s.dmem m o lT

/-- 45_codebook.md R352, R355, R375, R380: GAIN_QUANT gives the nearest level of the stage's table, the lowest of equally
near ones, and that level. GAIN_DEQUANT gives the level of an index in the table; another index is ERR_VAL. The one
undoes the other, for the same scale and stage. A level beyond 16 bits is given as it is: the model's reading
(notes/assumptions/19.md). GAIN_SCALE_MIN is a parameter (notes/assumptions/8.md). -/
def Obligations.GainResults : Prop :=
  (∀ (s : State) (stg : BitVec 2) (table : List Int) (levels : Nat),
    (stg, table, levels) ∈ [(0, gainCb5, 32), (1, gainCb4, 16), (2, gainCb3, 8)] → (s.args[1]).toNat < 65536 →
    let level : Nat → Int := fun k => rshr (max |arg16 s 1| s.params.gainScaleMin * nth table k) 14
    ∃ k : Nat, k < levels ∧
      exec (.gainQuant stg) s =
        .next { ended s with res0 := BitVec.ofNat 32 k, res1 := BitVec.ofInt 32 (level k) } ∧
      (∀ j, j < levels → |arg32 s 0 - level k| ≤ |arg32 s 0 - level j|) ∧
      ∀ j, j < k → |arg32 s 0 - level k| < |arg32 s 0 - level j|) ∧
  (∀ (s : State) (stg : BitVec 2) (table : List Int) (levels k : Nat),
    (stg, table, levels) ∈ [(0, gainCb5, 32), (1, gainCb4, 16), (2, gainCb3, 8)] → argIs s 0 k →
    (s.args[1]).toNat < 65536 →
    (k < levels → exec (.gainDequant stg) s =
      .next (endedRes0 s (rshr (max |arg16 s 1| s.params.gainScaleMin * nth table k) 14))) ∧
    (levels ≤ k → exec (.gainDequant stg) s = .next (endedError s .errVal 0))) ∧
  (∀ (s t u : State) (stg : BitVec 2), stg ≠ 3 → (s.args[1]).toNat < 65536 → exec (.gainQuant stg) s = .next t →
    u.params = s.params → u.args[0] = t.res0 → u.args[1] = s.args[1] →
    ∃ v, exec (.gainDequant stg) u = .next v ∧ v.status.err = .ok ∧ v.res0 = t.res1)

/-! ## Bitstream -/

/-- 46_bitstream.md R401, R402, R405, 20_memory.md R86, R87: the fields of a frame are, in order, three indices an LSF set
of 6, 7 and 7 bits, the start index, a flag and the scale index of 6 bits, the state samples of 3 bits, the three codebook
indices of each vector, and its three gain indices of 5, 4 and 3 bits. PACK places every bit of every segment of the layout, one segment
after another, bit `hi` first, leaves the padding 0 and writes one byte a word. Without a layout table there is one
segment a field, in order. The layout and the fields are parameters (notes/assumptions/8.md). -/
def Obligations.PackResult : Prop :=
  (∀ (p : Params) (mode : Mode),
    let q := p.frame mode
    let w : Nat → Nat := fieldWidth p mode
    let start := 3 * q.nLsfSet
    let book := start + 3 + q.nState
    let gains := book + 3 * q.cbW.length
    (fieldWidths p mode).length = gains + 3 * q.cbW.length ∧
    (∀ i, i < q.nLsfSet → w (3 * i) = 6 ∧ w (3 * i + 1) = 7 ∧ w (3 * i + 2) = 7) ∧
    (w start = q.startW ∧ w (start + 1) = 1 ∧ w (start + 2) = 6) ∧ (∀ i, i < q.nState → w (start + 3 + i) = 3) ∧
    ∀ v, v < q.cbW.length →
      (w (book + 3 * v), w (book + 3 * v + 1), w (book + 3 * v + 2)) = q.cbW.getD v (0, 0, 0) ∧
      w (gains + 3 * v) = 5 ∧ w (gains + 3 * v + 1) = 4 ∧ w (gains + 3 * v + 2) = 3) ∧
  ∀ (s : State) (mode : Mode) (fd y : Nat), ParamsOk s.params → argIs s 0 fd → argIs s 1 y →
    let nf := (fieldWidths s.params mode).length
    let n := Config.frameBytes mode
    let table := layout s.params mode
    fits s fd nf → fits s y n → apart y n fd nf →
    (∀ f, f < nf → (s.dmem.readWord (fd + f)).toNat < 2 ^ fieldWidth s.params mode f) →
    ((s.params.frame mode).layout = none →
      table.length = nf ∧ ∀ f, f < nf → table[f]? = some { f := f, hi := fieldWidth s.params mode f - 1, lo := 0 }) ∧
    ∃ m, exec (.pack mode) s = .next { ended s with dmem := m, res0 := BitVec.ofNat 32 n } ∧
      (∀ (i : Nat) (g : Segment), table[i]? = some g → ∀ b, g.lo ≤ b → b ≤ g.hi →
        frameBitAt m y (segmentStart table i + (g.hi - b)) = (s.dmem.readWord (fd + g.f)).getLsbD b) ∧
      (∀ k, segmentStart table table.length ≤ k → k < 8 * n → frameBitAt m y k = false) ∧
      (∀ k, k < n → (m.readWord (y + k)).toNat < 256) ∧ sameOutside s.dmem m y n

/-- 46_bitstream.md R401, R402, R410, R412: UNPACK of a frame of the context's mode reads every bit of every segment of the
layout from its place, zero-extends the fields, and sets BITERR when the start index, the field after the LSF indices, is
illegal; an empty frame writes
nothing and sets BITERR. The layout, the fields and the largest start index are parameters (notes/assumptions/8.md). -/
def Obligations.UnpackResult : Prop :=
  ∀ (s : State) (c : BitVec 4) (q : Ctx), s.ctxAt c.toNat = some q → q.kind = .decoder →
    let mode := q.mode
    let nf := (fieldWidths s.params mode).length
    let n := Config.frameBytes mode
    let table := layout s.params mode
    let start := 3 * (s.params.frame mode).nLsfSet
    let modeNo : Word32 := if mode = .a then 0 else 1
    ((s.args[1]).toNat = 0 → exec (.unpack c) s = .next (alsoBiterr true { ended s with res0 := modeNo })) ∧
    (ParamsOk s.params → ∀ y fd : Nat, argIs s 0 y → (s.args[1]).toNat = n → argIs s 2 fd → fits s y n →
      fits s fd nf → apart fd nf y n →
      ∃ m, (exec (.unpack c) s = .next (alsoBiterr
          (decide ((m.readWord (fd + start)).toNat < 1) ||
            decide ((s.params.frame mode).startMax < (m.readWord (fd + start)).toNat))
          { ended s with dmem := m, res0 := modeNo })) ∧
        (∀ (i : Nat) (g : Segment), table[i]? = some g → ∀ b, g.lo ≤ b → b ≤ g.hi →
          (m.readWord (fd + g.f)).getLsbD b = frameBitAt s.dmem y (segmentStart table i + (g.hi - b))) ∧
        (∀ f, f < nf → (m.readWord (fd + f)).toNat < 2 ^ fieldWidth s.params mode f) ∧
        sameOutside s.dmem m fd nf)

/-- 46_bitstream.md R415: PACK and UNPACK are inverse, for every admissible layout. First, the fields packed and unpacked
again on a context of the mode come back. Second, the bytes of a frame whose padding is 0, unpacked and packed again,
come back. -/
def Obligations.PackUnpackRoundTrip : Prop :=
  (∀ (s t u v : State) (c : BitVec 4) (q : Ctx) (fd y fd' : Nat), ParamsOk s.params → u.params = s.params →
    let nf := (fieldWidths s.params q.mode).length
    let n := Config.frameBytes q.mode
    argIs s 0 fd → argIs s 1 y →
    (∀ f, f < nf → (s.dmem.readWord (fd + f)).toNat < 2 ^ fieldWidth s.params q.mode f) →
    exec (.pack q.mode) s = .next t → t.status.err = .ok →
    u.dmem = t.dmem → u.ctxAt c.toNat = some q → argIs u 0 y → (u.args[1]).toNat = n → argIs u 2 fd' →
    exec (.unpack c) u = .next v → v.status.err = .ok →
    ∀ f, f < nf → v.dmem.readWord (fd' + f) = s.dmem.readWord (fd + f)) ∧
  (∀ (s t u v : State) (c : BitVec 4) (q : Ctx) (y fd y' : Nat), ParamsOk s.params → u.params = s.params →
    let n := Config.frameBytes q.mode
    s.ctxAt c.toNat = some q → argIs s 0 y → (s.args[1]).toNat = n → argIs s 2 fd →
    (∀ p, (fieldWidths s.params q.mode).sum ≤ p → p < 8 * n → frameBitAt s.dmem y p = false) →
    exec (.unpack c) s = .next t → t.status.err = .ok →
    u.dmem = t.dmem → argIs u 0 fd → argIs u 1 y' →
    exec (.pack q.mode) u = .next v → v.status.err = .ok →
    ∀ k, k < n → v.dmem.readWord (y' + k) = (s.dmem.readWord (y + k)) &&& 0xFF)

/-! ## Concealment -/

/-- 47_plc.md R431: the pitch estimate takes the lag with the largest normalised correlation among those with a
positive correlation, the lowest of equals, and gives its periodicity; with none, no lag and periodicity 0. The lag
range and the correlation length are parameters (notes/assumptions/8.md). -/
def Obligations.PitchEstimateIsOptimal : Prop :=
  ∀ (p : Params) (z : List Int), ParamsOk p → 320 ≤ z.length →
    let len := p.plcCorrLen
    let c : Nat → Int := fun l => total len fun n => nth z (z.length - len + n) * nth z (z.length - len - l + n)
    let e1 : Int := total len fun n => nth z (z.length - len + n) ^ 2
    let e2 : Nat → Int := fun l => total len fun n => nth z (z.length - len - l + n) ^ 2
    let live : Nat → Prop := fun l => (p.plcLagMin ≤ l ∧ l ≤ p.plcLagMax) ∧ 0 < c l ∧ 0 < e1 ∧ 0 < e2 l
    ((∀ l, ¬ live l) → pitchEstimate p z = (none, 0)) ∧
    ((∃ l, live l) → ∃ l, live l ∧ pitchEstimate p z = (some l, min 32767 (32768 * c l ^ 2 / (e1 * e2 l))) ∧
      (∀ k, live k → c k ^ 2 * (e1 * e2 l) ≤ c l ^ 2 * (e1 * e2 k)) ∧
      (∀ k, live k → k < l → c k ^ 2 * (e1 * e2 l) < c l ^ 2 * (e1 * e2 k)))

/-- 47_plc.md R430, R432: the concealment synthesis. `sd` are the seeds, `q` the noise, `e` the blend of pitch
repetition and noise; the noise alone is used when the blend's energy times PLC_NOISE_THR is below that of the
reference. The parameters of R430 take every value (notes/assumptions/8.md); the pitch weight is the default map's
or the one a table gives. -/
def Obligations.ConcealmentSynthesis : Prop :=
  ∀ (p : Params) (pr : List Int) (lag : Nat) (per seed : Int) (k : Nat), 116 ≤ pr.length → 1 ≤ lag → lag ≤ pr.length →
    let n := pr.length
    let gain : Int := if k = 0 then p.plcGainLvl[0] else if k = 1 then p.plcGainLvl[1]
      else if k = 2 then p.plcGainLvl[2] else p.plcGainLvl[3]
    ∃ (sd q e : Nat → Int) (pf : Int),
      (p.plcMix = .thresholds →
        pf = if per ≤ 13107 then 0 else if per > 22938 then 32768 else (per - 13107) * 32768 / 9831) ∧
      (∀ levels, p.plcMix = .table levels → pf = ((levels.getD per.toNat 0 : Nat) : Int)) ∧
      sd 0 = seed ∧ (∀ i, i < n → sd (i + 1) = wrap16 (sd i * p.lcgA + p.lcgC)) ∧
      (∀ i, i < n →
        let rl := 53 + (sd (i + 1) % 64).toNat
        q i = if i < rl then nth pr (n + i - rl) else q (i - rl)) ∧
      (∀ i, i < n → e i = rshr (pf * nth pr (n - lag + i % lag) + (32768 - pf) * q i) 15) ∧
      let quiet := decide (total n (fun i => e i ^ 2) * p.plcNoiseThr < total n (fun i => nth pr i ^ 2))
      conceal p pr lag per seed k =
        { out := tabulate n fun i => sat16 (rshr (gain * if quiet then q i else e i) 15)
          seed := sd n, gain := gain, pitchWeight := pf, noiseOnly := quiet }

/-- 47_plc.md R435: PLC_GOOD on an open decoder context estimates the pitch over the last residual and the new
one, keeps the new residual and coefficients, clears the loss count, and writes the candidate; the seed stays. -/
def Obligations.PlcGoodResult : Prop :=
  ∀ (s : State) (c : BitVec 4) (q : Ctx) (r lp cd : Nat), s.ctxAt c.toNat = some q → q.kind = .decoder →
    argIs s 0 r → argIs s 1 lp → argIs s 2 cd →
    let n := Config.frameLen q.mode
    fits s r n → fits s lp 11 → fits s cd n → apart cd n r n → apart cd n lp 11 →
    let res := s.dmem.readVec r n
    let p := pitchEstimate s.params ((ints q.prevRes).take n ++ res)
    let lag : Word16 := match p.1 with
      | none => q.lag
      | some l => BitVec.ofNat 16 l
    ∃ m, exec (.plcGood c) s = .next
        { (ended s).setCtx c.toNat (some
            { q with
              prevRes := words 240 (res ++ (ints q.prevRes).drop n)
              prevLpc := words 11 (s.dmem.readVec lp 11)
              lag := lag, per := BitVec.ofInt 16 p.2, lossCnt := 0 }) with
          dmem := m, res0 := lag.signExtend 32, res1 := BitVec.ofInt 32 p.2 } ∧
      wordsAre m cd n (nth (conceal s.params res lag.toInt.toNat p.2 q.seed.toInt 0).out) ∧
      sameOutside s.dmem m cd n

/-- 47_plc.md R440: PLC_LOST on an open decoder context writes the concealed residual and the last coefficients,
keeps that residual and the new seed, counts the loss up to 65535, and reports gain and pitch weight. -/
def Obligations.PlcLostResult : Prop :=
  ∀ (s : State) (c : BitVec 4) (q : Ctx) (o lp : Nat), s.ctxAt c.toNat = some q → q.kind = .decoder →
    argIs s 0 o → argIs s 1 lp →
    let n := Config.frameLen q.mode
    fits s o n → fits s lp 11 → apart o n lp 11 →
    let r := conceal s.params ((ints q.prevRes).take n) q.lag.toInt.toNat q.per.toInt q.seed.toInt q.lossCnt.toNat
    ∃ m, exec (.plcLost c) s = .next (alsoNoiseonly r.noiseOnly
        { (ended s).setCtx c.toNat (some
            { q with
              prevRes := words 240 (r.out ++ (ints q.prevRes).drop n), seed := BitVec.ofInt 16 r.seed
              lossCnt := if q.lossCnt = 65535 then 65535 else q.lossCnt + 1 }) with
          dmem := m, res0 := BitVec.ofInt 32 r.gain, res1 := BitVec.ofInt 32 r.pitchWeight }) ∧
      wordsAre m o n (nth r.out) ∧ wordsAre m lp 11 (nth (ints q.prevLpc)) ∧
      sameOutside2 s.dmem m o n lp 11

/-- 47_plc.md R435, derived property: the candidate PLC_GOOD writes is what PLC_LOST writes if the next frame is
lost. -/
def Obligations.CandidateIsTheNextLoss : Prop :=
  ∀ (s t u v : State) (c : BitVec 4) (q q' : Ctx) (cd o : Nat), s.ctxAt c.toNat = some q → argIs s 2 cd →
    exec (.plcGood c) s = .next t → t.status.err = .ok → t.ctxAt c.toNat = some q' →
    u.params = s.params → u.ctxAt c.toNat = some q' → argIs u 0 o → exec (.plcLost c) u = .next v → v.status.err = .ok →
    ∀ i, i < Config.frameLen q.mode → v.dmem.readI16 (o + i) = t.dmem.readI16 (cd + i)

/-! ## Block control -/

/-- 40_fixed_point.md R180, R181, 70_reset_and_hazards.md R511: CH_OPEN of a closed context gives exactly the
fields of R180, whatever it held before; CH_CLOSE of an open one leaves none. NCTX, SEED_INIT and LAG_INIT are
parameters (notes/assumptions/8.md). -/
def Obligations.OpenAndCloseResults : Prop :=
  ∀ (s : State) (c : BitVec 4),
    (∀ (kind : CtxKind) (mode : Mode), c.toNat < s.params.nctx → s.ctxAt c.toNat = none →
      exec (.chOpen c kind mode) s = .next ((ended s).setCtx c.toNat (some
        { kind := kind, mode := mode, hpX0 := 0, hpX1 := 0, hpY0 := 0, hpY1 := 0
          lsfOld := Config.lsfMean, lsfOldU := Config.lsfMean
          anaHist := Vector.replicate 240 0, prevRes := Vector.replicate 240 0
          prevLpc := words 11 [4096, 0, 0, 0, 0, 0, 0, 0, 0, 0, 0]
          seed := s.params.seedInit, lag := BitVec.ofNat 16 s.params.lagInit, per := 0, lossCnt := 0 }))) ∧
    (∀ q, s.ctxAt c.toNat = some q → exec (.chClose c) s = .next ((ended s).setCtx c.toNat none)) ∧
    ∀ (v : Option Ctx) (d : Nat), c.toNat < s.params.nctx →
      ((ended s).setCtx c.toNat v).ctxAt d = if d = c.toNat then v else s.ctxAt d

/-! ## Errors -/

/-- 30_encoding.md R115 to R117, 60_exceptions.md R475 steps 1 and 2: a command word whose OPC is not in the opcode
map is illegal; one with a bit its opcode does not use, or with STG = 3, is reserved; every other word names a
command. An illegal or reserved word ends at once and changes nothing but the report. -/
def Obligations.IllegalAndReservedWords : Prop :=
  ∀ s : State,
    let w := s.cmd
    let opc := (w.setWidth 8).toNat
    ((∀ row ∈ opcodeMap, row.1 ≠ opc) → runCommand s = .next (endedError s .errIllegal 15)) ∧
    ∀ used : Nat, (opc, used) ∈ opcodeMap →
      let bad := w &&& ~~~(BitVec.ofNat 32 used) ≠ BitVec.ofNat 32 opc ∨
        ((opc = 0x53 ∨ opc = 0x54) ∧ w &&& 0x300000 = 0x300000)
      (bad → runCommand s = .next (endedError s .errRsvd 15)) ∧
      (¬ bad → ∃ i, decode w = .ok i ∧ i.opcode = w.setWidth 8 ∧ i.wellFormed = true ∧ runCommand s = exec i s)

/-- 60_exceptions.md R472: a command that ends with an error writes ERR and ERRINFO[3:0], clears BUSY, sets DONE and
changes nothing else. -/
def Obligations.ErrorsArePrecise : Prop :=
  ∀ (i : Instr) (s t : State), exec i s = .next t → t.status.err ≠ .ok →
    ∃ info : Nat, info < 16 ∧ t = endedError s t.status.err info

/-- 10_state.md R35, R37, 60_exceptions.md R473: every command ends, with BUSY = 0 and DONE = 1; without an error
ERRINFO is 0. No command stops the machine. -/
def Obligations.EveryCommandEnds : Prop :=
  ∀ (i : Instr) (s : State), ∃ t, exec i s = .next t ∧ t.status.busy = false ∧ t.status.done = true ∧
    (t.status.err = .ok → t.errinfo = 0)

/-- 60_exceptions.md R475 steps 3 and 4, 46_bitstream.md R410: a command that names a context beyond NCTX, closed, or of
the wrong kind ends with ERR_CTX; so does CH_OPEN of an open context. UNPACK on an open decoder context with a byte
count, all 32 bits of A1, that is neither 0 nor the frame size of the context's mode is ERR_FORMAT. NCTX is a
parameter (notes/assumptions/8.md). -/
def Obligations.ContextAndFormatErrors : Prop :=
  (∀ (s : State) (c : BitVec 4) (kind : CtxKind) (mode : Mode),
    (s.ctxAt c.toNat = none → ∀ i ∈ [Instr.hpFilt c, .specAna c, .specSyn c, .unpack c, .plcGood c, .plcLost c,
      .chClose c], exec i s = .next (endedError s .errCtx 15)) ∧
    (s.params.nctx ≤ c.toNat → s.ctxAt c.toNat = none ∧ exec (.chOpen c kind mode) s = .next (endedError s .errCtx 15)) ∧
    ∀ q, s.ctxAt c.toNat = some q →
      exec (.chOpen c kind mode) s = .next (endedError s .errCtx 15) ∧
      (q.kind = .decoder → exec (.specAna c) s = .next (endedError s .errCtx 15)) ∧
      (q.kind = .encoder → ∀ i ∈ [Instr.specSyn c, .unpack c, .plcGood c, .plcLost c],
        exec i s = .next (endedError s .errCtx 15))) ∧
  (∀ (s : State) (c : BitVec 4) (q : Ctx), s.ctxAt c.toNat = some q → q.kind = .decoder →
    (s.args[1]).toNat ≠ 0 → (s.args[1]).toNat ≠ (if q.mode = .a then 38 else 50) →
    exec (.unpack c) s = .next (endedError s .errFormat 1))

/-- 60_exceptions.md R471, R475 step 5: once steps 1 to 4 pass, the first register that fails its check ends the command
with ERR_ARG and is the one reported: an address or length register with a bit of [31:16] set, or an order, length,
count, weight or width out of its range (41_filters.md R200, 42_lpc.md R240, 43_lsf.md R300, R310, 45_codebook.md R350,
R360, R370), each range said on its own too. The model's readings in it: a filter order with
upper bits set (notes/assumptions/20.md), an lMem compared with an lT that is itself refused (21.md), and both registers
of GAIN_DEQUANT checked (30.md). CB_LMEM_MAX is a parameter (8.md). -/
def Obligations.ArgumentErrors : Prop :=
  (∀ (i : Instr) (s : State) (k : ArgNo), i.wellFormed = true → ready i s → (∀ j : ArgNo, j < k → argOk i s j) →
    ¬ argOk i s k → exec i s = .next (endedError s .errArg k)) ∧
  (∀ (s : State) (c : Nat → Nat), (∀ k : ArgNo, (s.args[k]).toNat = c k) →
    let top := s.params.cbLmemMax
    (∀ i ∈ [Instr.filtMa, .filtAr], (∀ k, k < 4 → c k < 65536) → 31 < c 4 →
      exec i s = .next (endedError s .errArg 4)) ∧
    (c 0 < 65536 → (c 1 = 0 ∨ 4096 < c 1) → exec .autocorr s = .next (endedError s .errArg 1)) ∧
    ((∀ k, k < 3 → c k < 65536) → 1 ≤ c 1 → c 1 ≤ 4096 → 10 < c 3 →
      exec .autocorr s = .next (endedError s .errArg 3)) ∧
    ((∀ k, k < 2 → c k < 65536) → c 2 ≠ 1 → c 2 ≠ 2 → exec .lsfStab s = .next (endedError s .errArg 2)) ∧
    ((∀ k, k < 3 → c k < 65536) → (arg16 s 3 < 0 ∨ 16384 < arg16 s 3) →
      exec .lsfInterp s = .next (endedError s .errArg 3)) ∧
    (∀ i ∈ [Instr.acbSearch, .bcbSearch],
      (c 0 < 65536 → c 3 < 65536 → (c 1 < c 3 ∨ top < c 1) → exec i s = .next (endedError s .errArg 1)) ∧
      ((∀ k, k < 4 → c k < 65536) → c 3 ≤ c 1 → c 1 ≤ top → (c 3 = 0 ∨ 80 < c 3) →
        exec i s = .next (endedError s .errArg 3)) ∧
      ((∀ k, k < 6 → c k < 65536) → 1 ≤ c 3 → c 3 ≤ 80 → c 3 ≤ c 1 → c 1 ≤ top →
        (¬ ∃ w0 w1 w2, widthsAre s w0 w1 w2) → exec i s = .next (endedError s .errArg 6))) ∧
    ∀ dir : CbDir,
      (c 0 < 65536 → c 5 < 65536 → (c 1 < c 5 ∨ top < c 1) →
        exec (.cbConstruct dir) s = .next (endedError s .errArg 1)) ∧
      ((∀ k, k < 6 → c k < 65536) → c 5 ≤ c 1 → c 1 ≤ top → (c 5 = 0 ∨ 80 < c 5) →
        exec (.cbConstruct dir) s = .next (endedError s .errArg 5)) ∧
      ((∀ k, k < 6 → c k < 65536) → 1 ≤ c 5 → c 5 ≤ 80 → c 5 ≤ c 1 → c 1 ≤ top →
        (¬ ∃ w0 w1 w2, widthsAre s w0 w1 w2) → exec (.cbConstruct dir) s = .next (endedError s .errArg 6)))

/-- 20_memory.md R90, R94, 60_exceptions.md R475 steps 5 to 7: once steps 1 to 5 pass, the first region, in register
order, that lies outside the data memory, a filter's history before address 0 among them, ends the command with
ERR_ADDR and its register. With every region inside, an output region that shares a word with another region, but for an
input its rule allows it to be in place with, ends the command with ERR_ALIAS and the output region's register. With no
such region and no such pair, no check of steps 5 to 7 fails. The model's readings in it: FILT_MA's history counts as
part of its input region (notes/assumptions/17.md), and of several refused pairs the one with the lowest register is
reported (16.md). -/
def Obligations.RegionErrors : Prop :=
  ∀ (i : Instr) (s : State), i.wellFormed = true → ready i s → argsPass i s →
    (∀ r ∈ namedRegions i s, ¬ r.inside s → (∀ q ∈ namedRegions i s, q.reg < r.reg → q.inside s) →
      exec i s = .next (endedError s .errAddr r.reg)) ∧
    ((∀ r ∈ namedRegions i s, r.inside s) →
      (∀ k : ArgNo, clashes i s k → (∀ j : ArgNo, j < k → ¬ clashes i s j) →
        exec i s = .next (endedError s .errAlias k)) ∧
      ((∀ k : ArgNo, ¬ clashes i s k) →
        ∃ t, exec i s = .next t ∧ (t.status.err = .ok ∨ t.status.err = .errVal)))

/-- 60_exceptions.md R475 steps 5 to 7, for VMUL: the first failing check is reported, argument registers before
regions before overlaps, each in register order. -/
def Obligations.VmulChecksInOrder : Prop :=
  ∀ (s : State) (sh : BitVec 5) (dir : ShiftDir) (rnd : Rounding) (x w y n : Nat),
    (s.args[0]).toNat = x → (s.args[1]).toNat = w → (s.args[2]).toNat = y → (s.args[3]).toNat = n →
    let answer : ErrCode → Nat → Prop := fun code k => exec (.vmul sh dir rnd) s = .next (endedError s code k)
    if 65536 ≤ x then answer .errArg 0
    else if 65536 ≤ w then answer .errArg 1
    else if 65536 ≤ y then answer .errArg 2
    else if 65536 ≤ n then answer .errArg 3
    else if ¬ fits s x n then answer .errAddr 0
    else if ¬ fits s w n then answer .errAddr 1
    else if ¬ fits s y n then answer .errAddr 2
    else if (¬ apart y n x n ∧ y ≠ x) ∨ (¬ apart y n w n ∧ y ≠ w) then answer .errAlias 2
    else ∃ t, exec (.vmul sh dir rnd) s = .next t ∧ t.status.err = .ok

/-- 60_exceptions.md R470, R475 step 8: with all earlier checks passed, an LSF index beyond its table (LSF_DEQUANT, SPEC_SYN)
and a field wider than its width (PACK) are ERR_VAL, reported by the register that addresses them. In CB_CONSTRUCT a
codebook index beyond its stage is reported by A2 when every gain index is legal, a gain index beyond its table by A3
when every codebook index is legal. The field widths, the number of LSF sets and CB_LMEM_MAX are parameters
(notes/assumptions/8.md). -/
def Obligations.ValueErrors : Prop :=
  ((∀ (s : State) (ix q : Nat), argIs s 0 ix → argIs s 1 q → fits s ix 3 → fits s q 10 → apart q 10 ix 3 →
    (¬ (0 ≤ s.dmem.readI16 ix ∧ s.dmem.readI16 ix < 64) ∨
      ¬ (0 ≤ s.dmem.readI16 (ix + 1) ∧ s.dmem.readI16 (ix + 1) < 128) ∨
      ¬ (0 ≤ s.dmem.readI16 (ix + 2) ∧ s.dmem.readI16 (ix + 2) < 128)) →
    exec .lsfDequant s = .next (endedError s .errVal 0)) ∧
  (∀ (s : State) (c : BitVec 4) (q : Ctx) (ix syn i j : Nat), s.ctxAt c.toNat = some q → q.kind = .decoder →
    argIs s 0 ix → argIs s 1 syn → fits s ix (3 * (s.params.frame q.mode).nLsfSet) → fits s syn (11 * Config.nsub q.mode) →
    apart syn (11 * Config.nsub q.mode) ix (3 * (s.params.frame q.mode).nLsfSet) → i < (s.params.frame q.mode).nLsfSet → j < 3 →
    ¬ (0 ≤ s.dmem.readI16 (ix + (3 * i + j)) ∧ s.dmem.readI16 (ix + (3 * i + j)) < if j = 0 then 64 else 128) →
    exec (.specSyn c) s = .next (endedError s .errVal 0)) ∧
  (∀ (s : State) (mode : Mode) (fd y f : Nat), argIs s 0 fd → argIs s 1 y → fits s fd (fieldWidths s.params mode).length →
    fits s y (Config.frameBytes mode) → apart y (Config.frameBytes mode) fd (fieldWidths s.params mode).length →
    f < (fieldWidths s.params mode).length → 2 ^ fieldWidth s.params mode f ≤ (s.dmem.readWord (fd + f)).toNat →
    exec (.pack mode) s = .next (endedError s .errVal 0))) ∧
  (∀ (s : State) (dir : CbDir) (h lMem ix gx o lT w0 w1 w2 : Nat), argIs s 0 h → argIs s 1 lMem → argIs s 2 ix →
    argIs s 3 gx → argIs s 4 o → argIs s 5 lT → widthsAre s w0 w1 w2 →
    1 ≤ lT → lT ≤ 80 → lT ≤ lMem → lMem ≤ s.params.cbLmemMax → fits s h lMem → fits s ix 3 → fits s gx 3 → fits s o lT →
    apart o lT h lMem → apart o lT ix 3 → apart o lT gx 3 →
    let size := 2 * (lMem - lT + 1 + if lT = 40 then 20 else 0)
    let legal : Nat → Nat → Prop := fun a top => 0 ≤ s.dmem.readI16 a ∧ s.dmem.readI16 a < top
    let idxOk := legal ix (min size (2 ^ w0)) ∧ legal (ix + 1) (min size (2 ^ w1)) ∧
      legal (ix + 2) (min size (2 ^ w2))
    let gidxOk := legal gx 32 ∧ legal (gx + 1) 16 ∧ legal (gx + 2) 8
    (¬ idxOk → gidxOk → exec (.cbConstruct dir) s = .next (endedError s .errVal 2)) ∧
    (idxOk → ¬ gidxOk → exec (.cbConstruct dir) s = .next (endedError s .errVal 3)))

/-! ## Isolation and determinism -/

/-- 20_memory.md R100: a command changes no context but the one it names, and of the registers only RES0, RES1,
STATUS (never HOSTVIOL) and ERRINFO. -/
def Obligations.CommandsAreIsolated : Prop :=
  ∀ (i : Instr) (s t : State), exec i s = .next t →
    (∀ d : Nat, (∀ c, ctxNamed i = some c → d ≠ c.toNat) → t.ctxAt d = s.ctxAt d) ∧
    t.params = s.params ∧ t.cmd = s.cmd ∧ t.args = s.args ∧ t.daddr = s.daddr ∧ t.status.hostviol = s.status.hostviol ∧
    t.turns = s.turns ∧ t.rdata = s.rdata ∧ t.draws = s.draws

/-- 70_reset_and_hazards.md R528: a command's results depend on the arguments, the data memory and the context it
names alone, for one block: from two states that agree on these it leaves the same data memory, the same context, the
same completion code and ERRINFO, and gives RES0 and RES1 the same values or leaves both as they were. For a command
under way, whose report has been cleared, UNSTABLE, BITERR and NOISEONLY end the same too. -/
def Obligations.ResultsAreDetermined : Prop :=
  ∀ (i : Instr) (s s' t t' : State), s.params = s'.params → s.args = s'.args → s.dmem = s'.dmem →
    (∀ c, ctxNamed i = some c → s.ctxAt c.toNat = s'.ctxAt c.toNat) →
    exec i s = .next t → exec i s' = .next t' →
    (t.dmem = t'.dmem ∧ (∀ c, ctxNamed i = some c → t.ctxAt c.toNat = t'.ctxAt c.toNat) ∧
      t.status.err = t'.status.err ∧ t.errinfo = t'.errinfo ∧
      (t.res0 = t'.res0 ∨ t.res0 = s.res0 ∧ t'.res0 = s'.res0) ∧
      (t.res1 = t'.res1 ∨ t.res1 = s.res1 ∧ t'.res1 = s'.res1)) ∧
    (s.status.busy = true → s'.status.busy = true → statusInv s → statusInv s' →
      t.status.unstable = t'.status.unstable ∧ t.status.biterr = t'.status.biterr ∧
      t.status.noiseonly = t'.status.noiseonly)

/-! ## The host's accesses -/

/-- 10_state.md R32, 60_exceptions.md R476: a write of another width, at a misaligned or a reserved offset, or to a read-only
register has no effect but setting HOSTVIOL; a read of another width or at a misaligned or reserved offset returns 0.
That such a read at a reserved offset also sets HOSTVIOL is the model's reading of R476 (notes/assumptions/7.md), and
so is that a refused write sets it while a command is under way too (26.md). -/
def Obligations.RefusedAccesses : Prop :=
  (∀ (s : State) (offset width : Nat) (v : Word32),
    (width ≠ 32 ∨ offset % 4 ≠ 0 ∨ 0x44 ≤ offset ∨ offset ∈ [0x00, 0x0C, 0x30, 0x34, 0x40]) →
    hostAccess (.write offset width v) s = { s with status := { s.status with hostviol := true } }) ∧
  (∀ (s : State) (offset width : Nat), (width ≠ 32 ∨ offset % 4 ≠ 0 ∨ 0x44 ≤ offset) →
    hostAccess (.read offset width) s = { s with rdata := 0, status := { s.status with hostviol := true } })

/-- 20_memory.md R84: the host's window into the data memory while no command is under way. -/
def Obligations.DataWindow : Prop :=
  ∀ s : State, s.status.busy = false →
    (s.daddr.toNat < s.params.dmemWords →
      hostAccess (.read 0x3C 32) s =
        { s with rdata := (s.dmem.readWord s.daddr.toNat).setWidth 32, daddr := s.daddr + 1 } ∧
      ∀ v : Word32, ∃ m, hostAccess (.write 0x3C 32 v) s = { s with dmem := m, daddr := s.daddr + 1 } ∧
        m.readWord s.daddr.toNat = v.setWidth 16 ∧ sameOutside s.dmem m s.daddr.toNat 1) ∧
    (s.params.dmemWords ≤ s.daddr.toNat →
      hostAccess (.read 0x3C 32) s = { s with rdata := 0, status := { s.status with hostviol := true } } ∧
      ∀ v : Word32, hostAccess (.write 0x3C 32 v) s = { s with status := { s.status with hostviol := true } })

/-- 70_reset_and_hazards.md R520: while a command is under way a write to CMD, A0..A7, DADDR or DDATA is ignored and
sets HOSTVIOL; a write of 1 to bit 16 of STATUS clears HOSTVIOL. -/
def Obligations.WritesWhileBusy : Prop :=
  ∀ (s : State) (v : Word32), s.status.busy = true →
    (∀ offset ∈ [0x04, 0x10, 0x14, 0x18, 0x1C, 0x20, 0x24, 0x28, 0x2C, 0x38, 0x3C],
      hostAccess (.write offset 32 v) s = { s with status := { s.status with hostviol := true } }) ∧
    (v.getLsbD 16 = true →
      hostAccess (.write 0x08 32 v) s = { s with status := { s.status with hostviol := false } })

/-- 10_state.md R32 to R37, 70_reset_and_hazards.md R521: what the host reads. With no command under way every register but
DDATA reads its value, with no side effect, and CTXOPEN shows which contexts are open. While a command is under way the
registers that return an unspecified value return a free one, drawn by a counter of the model's
(notes/assumptions/5.md); only DDATA's read sets HOSTVIOL, and it leaves DADDR as it is. ID_VALUE and NCTX are parameters
(8.md). -/
def Obligations.HostReads : Prop :=
  (∀ s : State, s.status.busy = false →
    hostAccess (.read 0x00 32) s = { s with rdata := s.params.idValue } ∧
    hostAccess (.read 0x04 32) s = { s with rdata := s.cmd } ∧
    hostAccess (.read 0x08 32) s = { s with rdata := s.status.word } ∧
    hostAccess (.read 0x0C 32) s = { s with rdata := s.errinfo } ∧
    (∀ k : ArgNo, hostAccess (.read (0x10 + 4 * k) 32) s = { s with rdata := s.args[k] }) ∧
    hostAccess (.read 0x30 32) s = { s with rdata := s.res0 } ∧
    hostAccess (.read 0x34 32) s = { s with rdata := s.res1 } ∧
    hostAccess (.read 0x38 32) s = { s with rdata := s.daddr.setWidth 32 } ∧
    ∃ w : Word32, hostAccess (.read 0x40 32) s = { s with rdata := w } ∧
      ∀ c, c < 32 → w.getLsbD c = (decide (c < s.params.nctx) && (s.ctxAt c).isSome)) ∧
  (∀ s : State, s.status.busy = true →
    hostAccess (.read 0x00 32) s = { s with rdata := s.params.idValue } ∧
    hostAccess (.read 0x04 32) s = { s with rdata := s.cmd } ∧
    (hostAccess (.read 0x08 32) s = { s with rdata := s.status.word } ∧ s.status.word.getLsbD 0 = true) ∧
    (∀ k : ArgNo, hostAccess (.read (0x10 + 4 * k) 32) s = { s with rdata := s.args[k] }) ∧
    hostAccess (.read 0x38 32) s = { s with rdata := s.daddr.setWidth 32 } ∧
    (∀ offset ∈ [0x0C, 0x30, 0x34, 0x40],
      hostAccess (.read offset 32) s = { s with rdata := Config.busyRead s.draws, draws := s.draws + 1 }) ∧
    hostAccess (.read 0x3C 32) s =
      { s with
        rdata := Config.busyRead s.draws, draws := s.draws + 1
        status := { s.status with hostviol := true } })

/-- 10_state.md R33, R35, R36: with no command under way a write to CMD latches the word and starts the command, its last
report cleared and HOSTVIOL kept; a write to A0..A7 or DADDR is held; a write to STATUS, at any time, can only clear
HOSTVIOL. The bits of STATUS as the host reads it; the reserved ones read 0. -/
def Obligations.HostWritesAndStatus : Prop :=
  (∀ (s : State) (v : Word32),
    (s.status.busy = false →
      hostAccess (.write 0x04 32 v) s =
        { s with
          cmd := v, errinfo := 0
          status := { busy := true, done := false, unstable := false, biterr := false, noiseonly := false
                      err := .ok, hostviol := s.status.hostviol } } ∧
      (∀ k : ArgNo, hostAccess (.write (0x10 + 4 * k) 32 v) s = { s with args := s.args.set k v }) ∧
      hostAccess (.write 0x38 32 v) s = { s with daddr := v.setWidth 16 }) ∧
    hostAccess (.write 0x08 32 v) s =
      { s with status := { s.status with hostviol := s.status.hostviol && !v.getLsbD 16 } }) ∧
  (∀ st : Status, st.word.getLsbD 0 = st.busy ∧ st.word.getLsbD 1 = st.done ∧ st.word.getLsbD 2 = st.unstable ∧
    st.word.getLsbD 3 = st.biterr ∧ st.word.getLsbD 4 = st.noiseonly ∧ st.word.extractLsb' 5 3 = 0 ∧
    st.word.extractLsb' 8 8 = (match st.err with
      | .ok => 0 | .errIllegal => 1 | .errRsvd => 2 | .errCtx => 3 | .errArg => 4 | .errAddr => 5
      | .errAlias => 6 | .errVal => 7 | .errFormat => 8) ∧
    st.word.getLsbD 16 = st.hostviol ∧ st.word.extractLsb' 17 15 = 0)

/-! ## The machine -/

/-- 10_state.md R30, R35, 30_encoding.md R117: a step is one turn. On the engine's turn the command word under way runs to
its end: the decoded instruction, or, for a word that names none, the end with its error; with none under way nothing
happens. On the host's turn it makes its access. The turns and the placing of a command are the model's
(notes/assumptions/1.md, 2.md). -/
def Obligations.StepRunsTheDecodedCommand : Prop :=
  ∀ (s : State) (rest : List Turn),
    (s.turns = .engine :: rest ∨ s.turns = [] ∧ rest = [] →
      (s.status.busy = true →
        Sys2Proof.Machine.step s = runCommand { s with turns := rest } ∧
        (∀ i, decode s.cmd = .ok i → Sys2Proof.Machine.step s = exec i { s with turns := rest }) ∧
        (decode s.cmd = .error .illegal →
          Sys2Proof.Machine.step s = .next (endedError { s with turns := rest } .errIllegal 15)) ∧
        (decode s.cmd = .error .reserved →
          Sys2Proof.Machine.step s = .next (endedError { s with turns := rest } .errRsvd 15))) ∧
      (s.status.busy = false → Sys2Proof.Machine.step s = .next { s with turns := rest })) ∧
    (∀ a, s.turns = .host a :: rest → Sys2Proof.Machine.step s = .next (hostAccess a { s with turns := rest })) ∧
    ∀ w : Nat, w < 2 ^ 32 →
      Sys2Proof.Machine.step (s.withFetchWord 32 w) = runCommand (acceptCmd (BitVec.ofNat 32 w) s) ∧
      ∀ i, decode (BitVec.ofNat 32 w) = .ok i →
        Sys2Proof.Machine.step (s.withFetchWord 32 w) = exec i (acceptCmd (BitVec.ofNat 32 w) s)

/-- 30_encoding.md R111, R115: a few command words, written out from the fields, and the commands they name. -/
def Obligations.SampleWordsDecode : Prop :=
  decode 0x00000004 = .ok .adds16 ∧
  decode 0x00004F08 = .ok (.mul16 15 .right .half) ∧
  decode 0x00002411 = .ok (.dotsc 4 .left) ∧
  decode 0x00030022 = .ok (.hpFilt 3) ∧
  decode 0x00008023 = .ok (.bwexp .wgt) ∧
  decode 0x00000031 = .ok .levinson ∧
  decode 0x00000043 = .ok .lsfInterp ∧
  decode 0x00020048 = .ok (.specAna 2) ∧
  decode 0x00200053 = .ok (.gainQuant 2) ∧
  decode 0x00400060 = .ok (.pack .b) ∧
  decode 0x00010071 = .ok (.plcLost 1) ∧
  decode 0x0040807E = .ok (.chOpen 0 .decoder .b)

/-- 30_encoding.md R111, R112, R115: decoding the encoding of a well-formed command gives it back, with every field
at every value. -/
def Obligations.DecodeOfEncode : Prop :=
  ∀ i : Instr, i.wellFormed = true → decode (encode i) = .ok i

/-- 30_encoding.md R112: every opcode has exactly one encoding per combination of its fields: a word that decodes is
the encoding of the command it names, and that command is well formed. -/
def Obligations.EncodeOfDecode : Prop :=
  ∀ (w : Word32) (i : Instr), decode w = .ok i → encode i = w ∧ i.wellFormed = true

/-- 20_memory.md R80, R90: every step keeps the data memory in its canonical form (the model's, notes/assumptions/3.md,
4.md) and within its addresses, and no step changes the parameters (8.md). -/
def Obligations.StepKeepsMemoryInv : Prop :=
  ∀ s t : State, Sys2Proof.Machine.step s = .next t → t.params = s.params ∧ (memoryInv s → memoryInv t)

/-- 10_state.md R35, R37, 60_exceptions.md R472: every step keeps the report of STATUS and ERRINFO consistent, and
(10_state.md R52, 41_filters.md R203, 47_plc.md R430, R431) the parameters admissible (the model holds them in the
state, notes/assumptions/8.md) and the fields of the open contexts in their ranges. -/
def Obligations.StepKeepsReportAndContextsInv : Prop :=
  (∀ s t : State, statusInv s → Sys2Proof.Machine.step s = .next t → statusInv t) ∧
    ∀ s t : State, contextsInv s → Sys2Proof.Machine.step s = .next t → contextsInv t

/-- The three invariants hold after reset, whatever the admissible parameters and the canonical draw in the data memory;
the spec's default parameters are admissible. That `State.reset` has these and the empty draw is the model's choice
(notes/assumptions/3.md, 8.md). -/
def Obligations.ResetMeetsTheInvariants : Prop :=
  (State.reset = State.resetDrawn Params.default [] ∧ ParamsOk Params.default) ∧
    ∀ (p : Params) (m : Memory), ParamsOk p → m.wf → m.inSpace p.dmemWords →
      memoryInv (State.resetDrawn p m) ∧ statusInv (State.resetDrawn p m) ∧ contextsInv (State.resetDrawn p m)

/-- 70_reset_and_hazards.md R510: what reset leaves, as the host reads it, with any draw `m` in the data memory; every
context is closed and no command is under way. -/
def Obligations.ResetValues : Prop :=
  ∀ (p : Params) (m : Memory) (r : Nat × Word32),
    r ∈ [(0x00, p.idValue), (0x04, 0), (0x08, 0), (0x0C, 0), (0x10, 0), (0x14, 0), (0x18, 0), (0x1C, 0), (0x20, 0),
      (0x24, 0), (0x28, 0), (0x2C, 0), (0x30, 0), (0x34, 0), (0x38, 0), (0x40, 0)] →
    (hostAccess (.read r.1 32) (State.resetDrawn p m)).rdata = r.2 ∧
      (∀ c, (State.resetDrawn p m).ctxAt c = none) ∧ (State.resetDrawn p m).status.busy = false ∧
      (State.resetDrawn p m).dmem = m

/-- 70_reset_and_hazards.md R530: every accepted command ends: whatever the host does meanwhile, after as many steps
as turns are listed and one more of the engine, BUSY is 0. The list of turns is the model's (notes/assumptions/1.md). -/
def Obligations.AcceptedCommandEnds : Prop :=
  ∀ s : State, ∃ t : State, Host.Core.run Sys2Proof.core (s.turns.length + 1) s = .next t ∧ t.status.busy = false
end

