-- ==== Sys2Proof/Laws/Arith.lean ====
section
/-! SUPPORT. What the fixed-point primitives and the list operations give. -/

namespace Sys2Proof.Machine

/-! ### Narrowing -/

theorem sat16_range (v : Int) : -32768 ≤ sat16 v ∧ sat16 v ≤ 32767 := by
  unfold sat16 clamp; omega

theorem sat16_of_range {v : Int} (h : -32768 ≤ v ∧ v ≤ 32767) : sat16 v = v := by
  unfold sat16 clamp; omega

theorem sat32_range (v : Int) : -2147483648 ≤ sat32 v ∧ sat32 v ≤ 2147483647 := by
  unfold sat32 clamp; omega

theorem sat32_of_range {v : Int} (h : -2147483648 ≤ v ∧ v ≤ 2147483647) : sat32 v = v := by
  unfold sat32 clamp; omega

theorem clamp_range {v lo hi : Int} (h : lo ≤ hi) : lo ≤ clamp v lo hi ∧ clamp v lo hi ≤ hi := by
  unfold clamp; omega

theorem wrap16_range (v : Int) : -32768 ≤ wrap16 v ∧ wrap16 v ≤ 32767 := by
  unfold wrap16; omega

/-- A value in the 16-bit range survives a 16-bit word. -/
theorem toInt_ofInt16 {v : Int} (h : -32768 ≤ v ∧ v ≤ 32767) : (BitVec.ofInt 16 v).toInt = v := by
  rw [BitVec.toInt_ofInt, Int.bmod_def]; norm_num; omega

/-- A value in the 32-bit range survives a 32-bit word. -/
theorem toInt_ofInt32 {v : Int} (h : -2147483648 ≤ v ∧ v ≤ 2147483647) :
    (BitVec.ofInt 32 v).toInt = v := by
  rw [BitVec.toInt_ofInt, Int.bmod_def]; norm_num; omega

theorem toInt16_range (w : BitVec 16) : -32768 ≤ w.toInt ∧ w.toInt ≤ 32767 := by
  have := BitVec.le_toInt w; have := BitVec.toInt_lt (x := w); norm_num at *; omega

theorem toInt32_range (w : BitVec 32) : -2147483648 ≤ w.toInt ∧ w.toInt ≤ 2147483647 := by
  have := BitVec.le_toInt w; have := BitVec.toInt_lt (x := w); norm_num at *; omega

theorem magnitude_eq_abs (v : Int) : magnitude v = |v| := (Int.abs_eq_natAbs v).symm

/-! ### Shifts -/

theorem rshr_zero (v : Int) : rshr v 0 = v := rfl

theorem rshr_succ (v : Int) (s : Nat) : rshr v (s + 1) = asr (v + 2 ^ s) (s + 1) := rfl

/-- A right shift is order preserving, rounded or not. -/
theorem rshr_mono {v w : Int} (h : v ≤ w) (s : Nat) : rshr v s ≤ rshr w s := by
  cases s with
  | zero => exact h
  | succ s => exact Int.ediv_le_ediv (by positivity) (by omega)

/-! ### Bit lengths -/

/-- `bitlen v` is the least `b` with `v < 2^b`. -/
theorem bitlen_le_iff (v b : Nat) : bitlen v ≤ b ↔ v < 2 ^ b := by
  unfold bitlen
  split_ifs with h
  · simp [h]
  · rw [Nat.succ_le_iff, Nat.log2_lt h]

/-! ### Lists -/

theorem total_eq_sumTo (n : Nat) (f : Nat → Int) : sumTo n f = ∑ i ∈ Finset.range n, f i := by
  unfold sumTo tabulate
  induction n with
  | zero => rfl
  | succ n ih => rw [List.range_succ, List.map_append, List.sum_append, ih, Finset.sum_range_succ]; simp

/-- `argMin` is a minimiser, and the least one. -/
theorem argMin_spec (f : Nat → Int) : ∀ n, 0 < n →
    argMin f n < n ∧ (∀ i < n, f (argMin f n) ≤ f i) ∧ (∀ i < argMin f n, f (argMin f n) < f i)
  | 0, h => absurd h (by omega)
  | 1, _ => ⟨by simp [argMin], fun i hi => by simp [argMin, show i = 0 by omega], fun i hi => by simp [argMin] at hi⟩
  | n + 2, _ => by
    obtain ⟨h1, h2, h3⟩ := argMin_spec f (n + 1) (by omega)
    have e : argMin f (n + 2) = if f (n + 1) < f (argMin f (n + 1)) then n + 1 else argMin f (n + 1) := rfl
    rw [e]
    split_ifs with hlt
    · refine ⟨by omega, fun i hi => ?_, fun i hi => ?_⟩
      · rcases Nat.lt_or_ge i (n + 1) with h | h
        · exact le_of_lt (lt_of_lt_of_le hlt (h2 i h))
        · rw [show i = n + 1 by omega]
      · exact lt_of_lt_of_le hlt (h2 i hi)
    · refine ⟨by omega, fun i hi => ?_, h3⟩
      rcases Nat.lt_or_ge i (n + 1) with h | h
      · exact h2 i h
      · rw [show i = n + 1 by omega]; omega

theorem fitList_getD {α : Type} (d : α) : ∀ (n : Nat) (l : List α) (i : Nat), i < n →
    (fitList d n l).getD i d = l.getD i d
  | 0, _, _, h => absurd h (by omega)
  | n + 1, [], 0, _ => by simp [fitList]
  | n + 1, [], i + 1, h => by simpa [fitList] using fitList_getD d n [] i (by omega)
  | n + 1, x :: xs, 0, _ => by simp [fitList]
  | n + 1, x :: xs, i + 1, h => by simpa [fitList] using fitList_getD d n xs i (by omega)

/-- A list of the right length fits as it is. -/
theorem fitList_self {α : Type} (d : α) : ∀ (l : List α), fitList d l.length l = l
  | [] => rfl
  | x :: xs => by simp [fitList, fitList_self d xs]

@[simp] theorem ints_length {n : Nat} (v : Vector Word16 n) : (ints v).length = n := by simp [ints]

theorem ints_range {n : Nat} (v : Vector Word16 n) : ∀ x ∈ ints v, -32768 ≤ x ∧ x ≤ 32767 := by
  intro x hx
  obtain ⟨w, _, rfl⟩ := List.mem_map.1 hx
  exact toInt16_range w

/-- A list of 16-bit values survives being held in a context field. -/
theorem ints_words (n : Nat) (l : List Int) (hn : l.length = n) (h : ∀ x ∈ l, -32768 ≤ x ∧ x ≤ 32767) :
    ints (words n l) = l := by
  subst hn
  simp only [ints, words, fitList_self, List.map_map]
  exact (List.map_congr_left fun x hx => toInt_ofInt16 (h x hx)).trans (List.map_id _)

theorem words_ints {n : Nat} (v : Vector Word16 n) : words n (ints v) = v := by
  obtain ⟨⟨l⟩, hl⟩ := v
  subst hl
  simp only [words, ints, List.size_toArray]
  congr
  have := fitList_self (0 : Int) (l.map BitVec.toInt)
  rw [List.length_map] at this
  rw [this, List.map_map]
  exact (List.map_congr_left fun x _ => by simp).trans (List.map_id _)

end Sys2Proof.Machine
end

