-- ==== Sys2Proof/Laws/Memory.lean ====
section
/-! SUPPORT. The laws of the data memory: reading back what was written, what a write leaves alone, and the
canonical form that every operation keeps. -/

namespace Sys2Proof.Machine

/-! ### Cells -/

theorem byteAt_filter (m : Memory) (k j : Nat) :
    Memory.byteAt (m.filter fun c => c.1 ≠ k) j = if j = k then Memory.unwritten else m.byteAt j := by
  induction m with
  | nil => simp [Memory.byteAt]
  | cons c cs ih =>
    obtain ⟨a, v⟩ := c
    by_cases ha : a = k
    · subst ha
      simp only [List.filter_cons, ne_eq, not_true_eq_false, decide_false, Bool.false_eq_true, if_false,
        Memory.byteAt] at ih ⊢
      rw [ih]; split_ifs <;> simp_all
    · simp only [List.filter_cons, ne_eq, ha, not_false_eq_true, decide_true, if_true, Memory.byteAt] at ih ⊢
      rw [ih]; split_ifs <;> simp_all

theorem byteAt_insertCell (m : Memory) (k : Nat) (v : Byte) (j : Nat) (hk : ∀ c ∈ m, c.1 ≠ k) :
    (Memory.insertCell m k v).byteAt j = if j = k then v else m.byteAt j := by
  induction m with
  | nil => simp [Memory.insertCell, Memory.byteAt, eq_comm]
  | cons c cs ih =>
    obtain ⟨a, w⟩ := c
    have ha : a ≠ k := hk (a, w) (by simp)
    have ih := ih fun c hc => hk c (by simp [hc])
    by_cases hlt : k < a
    · simp only [Memory.insertCell, hlt, if_true, Memory.byteAt, eq_comm (a := k)]
    · simp only [Memory.insertCell, hlt, if_false, Memory.byteAt, ih]
      by_cases haj : a = j
      · rw [if_pos haj, if_neg (by omega), if_pos haj]
      · rw [if_neg haj, if_neg haj]

/-- What a byte reads as after one byte is written. -/
theorem byteAt_setByte (m : Memory) (k : Nat) (v : Byte) (j : Nat) :
    (m.setByte k v).byteAt j = if j = k then v else m.byteAt j := by
  unfold Memory.setByte
  split_ifs with hv hj hj
  · rw [byteAt_filter, if_pos hj, hv]
  · rw [byteAt_filter, if_neg hj]
  · rw [byteAt_insertCell _ _ _ _ (by simp), if_pos hj]
  · rw [byteAt_insertCell _ _ _ _ (by simp), if_neg hj, byteAt_filter, if_neg hj]

theorem mem_insertCell (m : Memory) (k : Nat) (v : Byte) (c : Host.Cell) :
    c ∈ Memory.insertCell m k v ↔ c = (k, v) ∨ c ∈ m := by
  induction m with
  | nil => simp [Memory.insertCell]
  | cons d ds ih =>
    obtain ⟨a, w⟩ := d
    simp only [Memory.insertCell]
    split_ifs <;> simp_all <;> tauto

theorem insertCell_sorted (m : Memory) (k : Nat) (v : Byte) (hk : ∀ c ∈ m, c.1 ≠ k)
    (h : m.Pairwise fun c d => c.1 < d.1) :
    (Memory.insertCell m k v).Pairwise fun c d => c.1 < d.1 := by
  induction m with
  | nil => simp [Memory.insertCell]
  | cons d ds ih =>
    obtain ⟨a, w⟩ := d
    have ha : a ≠ k := hk (a, w) (by simp)
    rw [List.pairwise_cons] at h
    simp only [Memory.insertCell]
    split_ifs with hlt
    · rw [List.pairwise_cons, List.pairwise_cons]
      refine ⟨fun c hc => ?_, h⟩
      rcases List.mem_cons.1 hc with rfl | hc
      · exact hlt
      · exact lt_trans hlt (h.1 c hc)
    · rw [List.pairwise_cons]
      refine ⟨fun c hc => ?_, ih (fun c hc => hk c (by simp [hc])) h.2⟩
      rcases (mem_insertCell ds k v c).1 hc with rfl | hc
      · show a < k; omega
      · exact h.1 c hc

/-- Writing a byte keeps the canonical form. -/
theorem setByte_wf (m : Memory) (k : Nat) (v : Byte) (h : m.wf) : (m.setByte k v).wf := by
  have hs : (m.filter fun c => c.1 ≠ k).Pairwise fun c d => c.1 < d.1 := h.1.filter _
  have hv : ∀ c ∈ m.filter (fun c => c.1 ≠ k), c.2 ≠ Memory.unwritten := fun c hc =>
    h.2 c (List.mem_filter.1 hc).1
  unfold Memory.setByte
  split_ifs with hu
  · exact ⟨hs, hv⟩
  · refine ⟨insertCell_sorted _ _ _ (by simp) hs, fun c hc => ?_⟩
    rcases (mem_insertCell _ _ _ _).1 hc with rfl | hc
    · exact hu
    · exact hv c hc

/-- Writing a byte of the data memory stores nothing outside it. -/
theorem setByte_inSpace (m : Memory) (k : Nat) (v : Byte) (n : Nat) (hk : k < 2 * n)
    (h : m.inSpace n) : (m.setByte k v).inSpace n := by
  unfold Memory.setByte
  split_ifs with hu
  · exact fun c hc => h c (List.mem_filter.1 hc).1
  · intro c hc
    rcases (mem_insertCell _ _ _ _).1 hc with rfl | hc
    · exact hk
    · exact h c (List.mem_filter.1 hc).1

theorem byteAt_of_lt (m : Memory) (k : Nat) (h : ∀ c ∈ m, k < c.1) : m.byteAt k = Memory.unwritten := by
  induction m with
  | nil => rfl
  | cons c cs ih =>
    obtain ⟨a, v⟩ := c
    have : a ≠ k := by have := h (a, v) (by simp); simp at this; omega
    simp only [Memory.byteAt, this, if_false]
    exact ih fun c hc => h c (by simp [hc])

/-- The canonical form is one for each memory: equal bytes make equal lists. -/
theorem wf_ext : ∀ (m n : Memory), m.wf → n.wf → (∀ k, m.byteAt k = n.byteAt k) → m = n
  | [], [], _, _, _ => rfl
  | [], (a, v) :: ds, _, hn, h => by
    have := h a; simp [Memory.byteAt] at this
    exact absurd this.symm (hn.2 (a, v) (by simp))
  | (a, v) :: cs, [], hm, _, h => by
    have := h a; simp [Memory.byteAt] at this
    exact absurd this (hm.2 (a, v) (by simp))
  | (a, v) :: cs, (b, w) :: ds, hm, hn, h => by
    have sm := (List.pairwise_cons.1 hm.1)
    have sn := (List.pairwise_cons.1 hn.1)
    have uv := hm.2 (a, v) (by simp)
    have uw := hn.2 (b, w) (by simp)
    have hab : a = b := by
      rcases lt_trichotomy a b with hlt | heq | hgt
      · exfalso
        have e := h a
        rw [byteAt_of_lt ((b, w) :: ds) a (fun c hc => by
          rcases List.mem_cons.1 hc with rfl | hc
          · exact hlt
          · exact lt_trans hlt (sn.1 c hc))] at e
        simp [Memory.byteAt] at e
        exact uv e
      · exact heq
      · exfalso
        have e := h b
        rw [byteAt_of_lt ((a, v) :: cs) b (fun c hc => by
          rcases List.mem_cons.1 hc with rfl | hc
          · exact hgt
          · exact lt_trans hgt (sm.1 c hc))] at e
        simp [Memory.byteAt] at e
        exact uw e.symm
    subst hab
    have e := h a
    simp [Memory.byteAt] at e
    subst e
    congr 1
    refine wf_ext cs ds ⟨sm.2, fun c hc => hm.2 c (by simp [hc])⟩
      ⟨sn.2, fun c hc => hn.2 c (by simp [hc])⟩ fun k => ?_
    by_cases hk : a = k
    · subst hk
      rw [byteAt_of_lt cs a sm.1, byteAt_of_lt ds a sn.1]
    · have := h k
      simpa [Memory.byteAt, hk] using this

/-! ### Words -/

theorem byteAt_writeWord (m : Memory) (a : Nat) (v : Word16) (j : Nat) :
    (m.writeWord a v).byteAt j =
      if j = 2 * a + 1 then v.extractLsb' 8 8 else if j = 2 * a then v.extractLsb' 0 8 else m.byteAt j := by
  simp only [Memory.writeWord, byteAt_setByte]

/-- A word reads back as written, and no other word changes. -/
theorem readWord_writeWord (m : Memory) (a b : Nat) (v : Word16) :
    (m.writeWord a v).readWord b = if b = a then v else m.readWord b := by
  simp only [Memory.readWord, byteAt_writeWord]
  by_cases h : b = a
  · subst h
    simp only [if_true, show ¬ (2 * b = 2 * b + 1) by omega, if_false]
    ext i hi
    simp only [BitVec.getElem_append, BitVec.getElem_extractLsb']
    split_ifs <;> (rw [← BitVec.getLsbD_eq_getElem]; congr 1; omega)
  · simp only [h, if_false, show ¬ (2 * b + 1 = 2 * a + 1) by omega, show ¬ (2 * b = 2 * a) by omega,
      show ¬ (2 * b + 1 = 2 * a) by omega, show ¬ (2 * b = 2 * a + 1) by omega]

theorem writeWord_wf (m : Memory) (a : Nat) (v : Word16) (h : m.wf) : (m.writeWord a v).wf :=
  setByte_wf _ _ _ (setByte_wf _ _ _ h)

theorem writeWord_inSpace (m : Memory) (a : Nat) (v : Word16) (n : Nat) (ha : a < n) (h : m.inSpace n) :
    (m.writeWord a v).inSpace n :=
  setByte_inSpace _ _ _ _ (by omega) (setByte_inSpace _ _ _ _ (by omega) h)

/-- Two memories whose words agree agree byte by byte. -/
theorem byteAt_of_readWord (m n : Memory) (a : Nat) (h : m.readWord a = n.readWord a) :
    m.byteAt (2 * a) = n.byteAt (2 * a) ∧ m.byteAt (2 * a + 1) = n.byteAt (2 * a + 1) := by
  have lo : ∀ (x y : Byte), (x ++ y : BitVec 16).extractLsb' 0 8 = y := by
    intro x y
    simp only [BitVec.extractLsb'_append_eq_of_add_le (by omega : 0 + 8 ≤ 8), BitVec.extractLsb'_eq_self]
  have hi : ∀ (x y : Byte), (x ++ y : BitVec 16).extractLsb' 8 8 = x := by
    intro x y
    simp only [BitVec.extractLsb'_append_eq_of_le (by omega : 8 ≤ 8), Nat.sub_self, BitVec.extractLsb'_eq_self]
  unfold Memory.readWord at h
  constructor
  · have := congrArg (fun w : BitVec 16 => w.extractLsb' 0 8) h
    simpa [lo] using this
  · have := congrArg (fun w : BitVec 16 => w.extractLsb' 8 8) h
    simpa [hi] using this

/-! ### Vectors -/

theorem writeVec_byteAt (m : Memory) (a : Nat) (l : List Int) (j : Nat)
    (h : j < 2 * a ∨ 2 * (a + l.length) ≤ j) : (m.writeVec a l).byteAt j = m.byteAt j := by
  induction l generalizing m a with
  | nil => rfl
  | cons v vs ih =>
    simp only [Memory.writeVec, List.length_cons] at h ⊢
    rw [ih _ _ (by omega), byteAt_writeWord, if_neg (by omega), if_neg (by omega)]

/-- The words of a vector that has been written, and the words outside it. -/
theorem readWord_writeVec (m : Memory) (a : Nat) (l : List Int) (b : Nat) :
    (m.writeVec a l).readWord b =
      if a ≤ b ∧ b < a + l.length then BitVec.ofInt 16 (l.getD (b - a) 0) else m.readWord b := by
  induction l generalizing m a with
  | nil => rw [if_neg (by simp)]; rfl
  | cons v vs ih =>
    simp only [Memory.writeVec, List.length_cons, ih, readWord_writeWord]
    by_cases hb : b = a
    · subst hb
      simp
    · by_cases hin : a + 1 ≤ b ∧ b < a + 1 + vs.length
      · rw [if_pos hin, if_pos (by omega)]
        rw [show b - a = (b - (a + 1)) + 1 by omega, List.getD_cons_succ]
      · rw [if_neg hin, if_neg hb, if_neg (by omega)]

theorem writeVec_wf (m : Memory) (a : Nat) (l : List Int) (h : m.wf) : (m.writeVec a l).wf := by
  induction l generalizing m a with
  | nil => exact h
  | cons v vs ih => exact ih _ _ (writeWord_wf _ _ _ h)

theorem writeVec_inSpace (m : Memory) (a : Nat) (l : List Int) (n : Nat)
    (ha : l = [] ∨ a + l.length ≤ n) (h : m.inSpace n) : (m.writeVec a l).inSpace n := by
  induction l generalizing m a with
  | nil => exact h
  | cons v vs ih =>
    have ha : a + (vs.length + 1) ≤ n := by simpa using ha
    exact ih _ _ (by right; omega) (writeWord_inSpace _ _ _ _ (by omega) h)

@[simp] theorem tabulate_length (n : Nat) (f : Nat → Int) : (tabulate n f).length = n := by
  simp [tabulate]

theorem nth_tabulate (n : Nat) (f : Nat → Int) (i : Nat) :
    nth (tabulate n f) i = if i < n then f i else 0 := by
  simp only [nth, tabulate, List.getD_eq_getElem?_getD, List.getElem?_map]
  by_cases h : i < n
  · simp [h]
  · simp [h]

@[simp] theorem readVec_length (m : Memory) (a n : Nat) : (m.readVec a n).length = n := by
  simp [Memory.readVec]

theorem nth_readVec (m : Memory) (a n i : Nat) :
    nth (m.readVec a n) i = if i < n then m.readI16 (a + i) else 0 := nth_tabulate _ _ _

/-- A 16-bit value survives being stored and read back. -/
theorem readI16_writeVec (m : Memory) (a : Nat) (l : List Int) (i : Nat) (hi : i < l.length)
    (hl : -32768 ≤ l.getD i 0 ∧ l.getD i 0 ≤ 32767) :
    (m.writeVec a l).readI16 (a + i) = l.getD i 0 := by
  rw [Memory.readI16, readWord_writeVec, if_pos (by omega), show a + i - a = i by omega,
    BitVec.toInt_ofInt, Int.bmod_def]
  generalize l.getD i 0 = v at *
  norm_num; omega

theorem reset_memory_wf : State.reset.dmem.wf ∧ State.reset.dmem.inSpace State.reset.params.dmemWords := by
  simp [State.reset, State.resetDrawn, Memory.wf, Memory.inSpace]

end Sys2Proof.Machine
end

