-- ==== Sys2Proof/Laws/State.lean ====
section
/-! SUPPORT. What each update of the state does to each field: true by rfl. -/

namespace Sys2Proof.Machine

section
variable (s : State) (v : Int) (a : Nat) (l : List Int) (c : Nat) (x : Option Ctx) (e : CmdError) (w : Word32)

@[simp] theorem setRes0_params : (s.setRes0 v).params = s.params := rfl
@[simp] theorem setRes0_cmd : (s.setRes0 v).cmd = s.cmd := rfl
@[simp] theorem setRes0_status : (s.setRes0 v).status = s.status := rfl
@[simp] theorem setRes0_errinfo : (s.setRes0 v).errinfo = s.errinfo := rfl
@[simp] theorem setRes0_args : (s.setRes0 v).args = s.args := rfl
@[simp] theorem setRes0_res0 : (s.setRes0 v).res0 = BitVec.ofInt 32 v := rfl
@[simp] theorem setRes0_res1 : (s.setRes0 v).res1 = s.res1 := rfl
@[simp] theorem setRes0_daddr : (s.setRes0 v).daddr = s.daddr := rfl
@[simp] theorem setRes0_dmem : (s.setRes0 v).dmem = s.dmem := rfl
@[simp] theorem setRes0_ctxs : (s.setRes0 v).ctxs = s.ctxs := rfl
@[simp] theorem setRes0_turns : (s.setRes0 v).turns = s.turns := rfl
@[simp] theorem setRes0_rdata : (s.setRes0 v).rdata = s.rdata := rfl
@[simp] theorem setRes0_draws : (s.setRes0 v).draws = s.draws := rfl

@[simp] theorem setRes1_params : (s.setRes1 v).params = s.params := rfl
@[simp] theorem setRes1_cmd : (s.setRes1 v).cmd = s.cmd := rfl
@[simp] theorem setRes1_status : (s.setRes1 v).status = s.status := rfl
@[simp] theorem setRes1_errinfo : (s.setRes1 v).errinfo = s.errinfo := rfl
@[simp] theorem setRes1_args : (s.setRes1 v).args = s.args := rfl
@[simp] theorem setRes1_res0 : (s.setRes1 v).res0 = s.res0 := rfl
@[simp] theorem setRes1_res1 : (s.setRes1 v).res1 = BitVec.ofInt 32 v := rfl
@[simp] theorem setRes1_daddr : (s.setRes1 v).daddr = s.daddr := rfl
@[simp] theorem setRes1_dmem : (s.setRes1 v).dmem = s.dmem := rfl
@[simp] theorem setRes1_ctxs : (s.setRes1 v).ctxs = s.ctxs := rfl
@[simp] theorem setRes1_turns : (s.setRes1 v).turns = s.turns := rfl
@[simp] theorem setRes1_rdata : (s.setRes1 v).rdata = s.rdata := rfl
@[simp] theorem setRes1_draws : (s.setRes1 v).draws = s.draws := rfl

@[simp] theorem writeVec_params : (s.writeVec a l).params = s.params := rfl
@[simp] theorem writeVec_cmd : (s.writeVec a l).cmd = s.cmd := rfl
@[simp] theorem writeVec_status : (s.writeVec a l).status = s.status := rfl
@[simp] theorem writeVec_errinfo : (s.writeVec a l).errinfo = s.errinfo := rfl
@[simp] theorem writeVec_args : (s.writeVec a l).args = s.args := rfl
@[simp] theorem writeVec_res0 : (s.writeVec a l).res0 = s.res0 := rfl
@[simp] theorem writeVec_res1 : (s.writeVec a l).res1 = s.res1 := rfl
@[simp] theorem writeVec_daddr : (s.writeVec a l).daddr = s.daddr := rfl
@[simp] theorem writeVec_dmem : (s.writeVec a l).dmem = s.dmem.writeVec a l := rfl
@[simp] theorem writeVec_ctxs : (s.writeVec a l).ctxs = s.ctxs := rfl
@[simp] theorem writeVec_turns : (s.writeVec a l).turns = s.turns := rfl
@[simp] theorem writeVec_rdata : (s.writeVec a l).rdata = s.rdata := rfl
@[simp] theorem writeVec_draws : (s.writeVec a l).draws = s.draws := rfl

@[simp] theorem setCtx_params : (s.setCtx c x).params = s.params := rfl
@[simp] theorem setCtx_cmd : (s.setCtx c x).cmd = s.cmd := rfl
@[simp] theorem setCtx_status : (s.setCtx c x).status = s.status := rfl
@[simp] theorem setCtx_errinfo : (s.setCtx c x).errinfo = s.errinfo := rfl
@[simp] theorem setCtx_args : (s.setCtx c x).args = s.args := rfl
@[simp] theorem setCtx_res0 : (s.setCtx c x).res0 = s.res0 := rfl
@[simp] theorem setCtx_res1 : (s.setCtx c x).res1 = s.res1 := rfl
@[simp] theorem setCtx_daddr : (s.setCtx c x).daddr = s.daddr := rfl
@[simp] theorem setCtx_dmem : (s.setCtx c x).dmem = s.dmem := rfl
@[simp] theorem setCtx_ctxs : (s.setCtx c x).ctxs = s.ctxs.setIfInBounds c x := rfl
@[simp] theorem setCtx_turns : (s.setCtx c x).turns = s.turns := rfl
@[simp] theorem setCtx_rdata : (s.setCtx c x).rdata = s.rdata := rfl
@[simp] theorem setCtx_draws : (s.setCtx c x).draws = s.draws := rfl

@[simp] theorem setUnstable_params : s.setUnstable.params = s.params := rfl
@[simp] theorem setUnstable_cmd : s.setUnstable.cmd = s.cmd := rfl
@[simp] theorem setUnstable_status : s.setUnstable.status = { s.status with unstable := true } := rfl
@[simp] theorem setUnstable_errinfo : s.setUnstable.errinfo = s.errinfo := rfl
@[simp] theorem setUnstable_args : s.setUnstable.args = s.args := rfl
@[simp] theorem setUnstable_res0 : s.setUnstable.res0 = s.res0 := rfl
@[simp] theorem setUnstable_res1 : s.setUnstable.res1 = s.res1 := rfl
@[simp] theorem setUnstable_daddr : s.setUnstable.daddr = s.daddr := rfl
@[simp] theorem setUnstable_dmem : s.setUnstable.dmem = s.dmem := rfl
@[simp] theorem setUnstable_ctxs : s.setUnstable.ctxs = s.ctxs := rfl
@[simp] theorem setUnstable_turns : s.setUnstable.turns = s.turns := rfl
@[simp] theorem setUnstable_rdata : s.setUnstable.rdata = s.rdata := rfl
@[simp] theorem setUnstable_draws : s.setUnstable.draws = s.draws := rfl

@[simp] theorem setBiterr_params : s.setBiterr.params = s.params := rfl
@[simp] theorem setBiterr_cmd : s.setBiterr.cmd = s.cmd := rfl
@[simp] theorem setBiterr_status : s.setBiterr.status = { s.status with biterr := true } := rfl
@[simp] theorem setBiterr_errinfo : s.setBiterr.errinfo = s.errinfo := rfl
@[simp] theorem setBiterr_args : s.setBiterr.args = s.args := rfl
@[simp] theorem setBiterr_res0 : s.setBiterr.res0 = s.res0 := rfl
@[simp] theorem setBiterr_res1 : s.setBiterr.res1 = s.res1 := rfl
@[simp] theorem setBiterr_daddr : s.setBiterr.daddr = s.daddr := rfl
@[simp] theorem setBiterr_dmem : s.setBiterr.dmem = s.dmem := rfl
@[simp] theorem setBiterr_ctxs : s.setBiterr.ctxs = s.ctxs := rfl
@[simp] theorem setBiterr_turns : s.setBiterr.turns = s.turns := rfl
@[simp] theorem setBiterr_rdata : s.setBiterr.rdata = s.rdata := rfl
@[simp] theorem setBiterr_draws : s.setBiterr.draws = s.draws := rfl

@[simp] theorem setNoiseonly_params : s.setNoiseonly.params = s.params := rfl
@[simp] theorem setNoiseonly_cmd : s.setNoiseonly.cmd = s.cmd := rfl
@[simp] theorem setNoiseonly_status : s.setNoiseonly.status = { s.status with noiseonly := true } := rfl
@[simp] theorem setNoiseonly_errinfo : s.setNoiseonly.errinfo = s.errinfo := rfl
@[simp] theorem setNoiseonly_args : s.setNoiseonly.args = s.args := rfl
@[simp] theorem setNoiseonly_res0 : s.setNoiseonly.res0 = s.res0 := rfl
@[simp] theorem setNoiseonly_res1 : s.setNoiseonly.res1 = s.res1 := rfl
@[simp] theorem setNoiseonly_daddr : s.setNoiseonly.daddr = s.daddr := rfl
@[simp] theorem setNoiseonly_dmem : s.setNoiseonly.dmem = s.dmem := rfl
@[simp] theorem setNoiseonly_ctxs : s.setNoiseonly.ctxs = s.ctxs := rfl
@[simp] theorem setNoiseonly_turns : s.setNoiseonly.turns = s.turns := rfl
@[simp] theorem setNoiseonly_rdata : s.setNoiseonly.rdata = s.rdata := rfl
@[simp] theorem setNoiseonly_draws : s.setNoiseonly.draws = s.draws := rfl

@[simp] theorem setHostviol_params : s.setHostviol.params = s.params := rfl
@[simp] theorem setHostviol_cmd : s.setHostviol.cmd = s.cmd := rfl
@[simp] theorem setHostviol_status : s.setHostviol.status = { s.status with hostviol := true } := rfl
@[simp] theorem setHostviol_errinfo : s.setHostviol.errinfo = s.errinfo := rfl
@[simp] theorem setHostviol_args : s.setHostviol.args = s.args := rfl
@[simp] theorem setHostviol_res0 : s.setHostviol.res0 = s.res0 := rfl
@[simp] theorem setHostviol_res1 : s.setHostviol.res1 = s.res1 := rfl
@[simp] theorem setHostviol_daddr : s.setHostviol.daddr = s.daddr := rfl
@[simp] theorem setHostviol_dmem : s.setHostviol.dmem = s.dmem := rfl
@[simp] theorem setHostviol_ctxs : s.setHostviol.ctxs = s.ctxs := rfl
@[simp] theorem setHostviol_turns : s.setHostviol.turns = s.turns := rfl
@[simp] theorem setHostviol_rdata : s.setHostviol.rdata = s.rdata := rfl
@[simp] theorem setHostviol_draws : s.setHostviol.draws = s.draws := rfl

@[simp] theorem clearHostviol_params : s.clearHostviol.params = s.params := rfl
@[simp] theorem clearHostviol_cmd : s.clearHostviol.cmd = s.cmd := rfl
@[simp] theorem clearHostviol_status : s.clearHostviol.status = { s.status with hostviol := false } := rfl
@[simp] theorem clearHostviol_errinfo : s.clearHostviol.errinfo = s.errinfo := rfl
@[simp] theorem clearHostviol_args : s.clearHostviol.args = s.args := rfl
@[simp] theorem clearHostviol_res0 : s.clearHostviol.res0 = s.res0 := rfl
@[simp] theorem clearHostviol_res1 : s.clearHostviol.res1 = s.res1 := rfl
@[simp] theorem clearHostviol_daddr : s.clearHostviol.daddr = s.daddr := rfl
@[simp] theorem clearHostviol_dmem : s.clearHostviol.dmem = s.dmem := rfl
@[simp] theorem clearHostviol_ctxs : s.clearHostviol.ctxs = s.ctxs := rfl
@[simp] theorem clearHostviol_turns : s.clearHostviol.turns = s.turns := rfl
@[simp] theorem clearHostviol_rdata : s.clearHostviol.rdata = s.rdata := rfl
@[simp] theorem clearHostviol_draws : s.clearHostviol.draws = s.draws := rfl

@[simp] theorem raise_params : (raise e s).params = s.params := rfl
@[simp] theorem raise_cmd : (raise e s).cmd = s.cmd := rfl
@[simp] theorem raise_status : (raise e s).status = s.status.ended e.code := rfl
@[simp] theorem raise_errinfo : (raise e s).errinfo = e.info.setWidth 32 := rfl
@[simp] theorem raise_args : (raise e s).args = s.args := rfl
@[simp] theorem raise_res0 : (raise e s).res0 = s.res0 := rfl
@[simp] theorem raise_res1 : (raise e s).res1 = s.res1 := rfl
@[simp] theorem raise_daddr : (raise e s).daddr = s.daddr := rfl
@[simp] theorem raise_dmem : (raise e s).dmem = s.dmem := rfl
@[simp] theorem raise_ctxs : (raise e s).ctxs = s.ctxs := rfl
@[simp] theorem raise_turns : (raise e s).turns = s.turns := rfl
@[simp] theorem raise_rdata : (raise e s).rdata = s.rdata := rfl
@[simp] theorem raise_draws : (raise e s).draws = s.draws := rfl

@[simp] theorem complete_params : (complete s).params = s.params := rfl
@[simp] theorem complete_cmd : (complete s).cmd = s.cmd := rfl
@[simp] theorem complete_status : (complete s).status = s.status.ended .ok := rfl
@[simp] theorem complete_errinfo : (complete s).errinfo = 0 := rfl
@[simp] theorem complete_args : (complete s).args = s.args := rfl
@[simp] theorem complete_res0 : (complete s).res0 = s.res0 := rfl
@[simp] theorem complete_res1 : (complete s).res1 = s.res1 := rfl
@[simp] theorem complete_daddr : (complete s).daddr = s.daddr := rfl
@[simp] theorem complete_dmem : (complete s).dmem = s.dmem := rfl
@[simp] theorem complete_ctxs : (complete s).ctxs = s.ctxs := rfl
@[simp] theorem complete_turns : (complete s).turns = s.turns := rfl
@[simp] theorem complete_rdata : (complete s).rdata = s.rdata := rfl
@[simp] theorem complete_draws : (complete s).draws = s.draws := rfl

@[simp] theorem acceptCmd_params : (acceptCmd w s).params = s.params := rfl
@[simp] theorem acceptCmd_cmd : (acceptCmd w s).cmd = w := rfl
@[simp] theorem acceptCmd_status : (acceptCmd w s).status = s.status.accepted := rfl
@[simp] theorem acceptCmd_errinfo : (acceptCmd w s).errinfo = 0 := rfl
@[simp] theorem acceptCmd_args : (acceptCmd w s).args = s.args := rfl
@[simp] theorem acceptCmd_res0 : (acceptCmd w s).res0 = s.res0 := rfl
@[simp] theorem acceptCmd_res1 : (acceptCmd w s).res1 = s.res1 := rfl
@[simp] theorem acceptCmd_daddr : (acceptCmd w s).daddr = s.daddr := rfl
@[simp] theorem acceptCmd_dmem : (acceptCmd w s).dmem = s.dmem := rfl
@[simp] theorem acceptCmd_ctxs : (acceptCmd w s).ctxs = s.ctxs := rfl
@[simp] theorem acceptCmd_turns : (acceptCmd w s).turns = s.turns := rfl
@[simp] theorem acceptCmd_rdata : (acceptCmd w s).rdata = s.rdata := rfl
@[simp] theorem acceptCmd_draws : (acceptCmd w s).draws = s.draws := rfl

@[simp] theorem answer_params : (s.answer w).params = s.params := rfl
@[simp] theorem answer_cmd : (s.answer w).cmd = s.cmd := rfl
@[simp] theorem answer_status : (s.answer w).status = s.status := rfl
@[simp] theorem answer_errinfo : (s.answer w).errinfo = s.errinfo := rfl
@[simp] theorem answer_args : (s.answer w).args = s.args := rfl
@[simp] theorem answer_res0 : (s.answer w).res0 = s.res0 := rfl
@[simp] theorem answer_res1 : (s.answer w).res1 = s.res1 := rfl
@[simp] theorem answer_daddr : (s.answer w).daddr = s.daddr := rfl
@[simp] theorem answer_dmem : (s.answer w).dmem = s.dmem := rfl
@[simp] theorem answer_ctxs : (s.answer w).ctxs = s.ctxs := rfl
@[simp] theorem answer_turns : (s.answer w).turns = s.turns := rfl
@[simp] theorem answer_rdata : (s.answer w).rdata = w := rfl
@[simp] theorem answer_draws : (s.answer w).draws = s.draws := rfl

@[simp] theorem answerDrawn_params : s.answerDrawn.params = s.params := rfl
@[simp] theorem answerDrawn_cmd : s.answerDrawn.cmd = s.cmd := rfl
@[simp] theorem answerDrawn_status : s.answerDrawn.status = s.status := rfl
@[simp] theorem answerDrawn_errinfo : s.answerDrawn.errinfo = s.errinfo := rfl
@[simp] theorem answerDrawn_args : s.answerDrawn.args = s.args := rfl
@[simp] theorem answerDrawn_res0 : s.answerDrawn.res0 = s.res0 := rfl
@[simp] theorem answerDrawn_res1 : s.answerDrawn.res1 = s.res1 := rfl
@[simp] theorem answerDrawn_daddr : s.answerDrawn.daddr = s.daddr := rfl
@[simp] theorem answerDrawn_dmem : s.answerDrawn.dmem = s.dmem := rfl
@[simp] theorem answerDrawn_ctxs : s.answerDrawn.ctxs = s.ctxs := rfl
@[simp] theorem answerDrawn_turns : s.answerDrawn.turns = s.turns := rfl
@[simp] theorem answerDrawn_rdata : s.answerDrawn.rdata = Config.busyRead s.draws := rfl
@[simp] theorem answerDrawn_draws : s.answerDrawn.draws = s.draws + 1 := rfl

@[simp] theorem stepDaddr_params : s.stepDaddr.params = s.params := rfl
@[simp] theorem stepDaddr_cmd : s.stepDaddr.cmd = s.cmd := rfl
@[simp] theorem stepDaddr_status : s.stepDaddr.status = s.status := rfl
@[simp] theorem stepDaddr_errinfo : s.stepDaddr.errinfo = s.errinfo := rfl
@[simp] theorem stepDaddr_args : s.stepDaddr.args = s.args := rfl
@[simp] theorem stepDaddr_res0 : s.stepDaddr.res0 = s.res0 := rfl
@[simp] theorem stepDaddr_res1 : s.stepDaddr.res1 = s.res1 := rfl
@[simp] theorem stepDaddr_daddr : s.stepDaddr.daddr = s.daddr + 1 := rfl
@[simp] theorem stepDaddr_dmem : s.stepDaddr.dmem = s.dmem := rfl
@[simp] theorem stepDaddr_ctxs : s.stepDaddr.ctxs = s.ctxs := rfl
@[simp] theorem stepDaddr_turns : s.stepDaddr.turns = s.turns := rfl
@[simp] theorem stepDaddr_rdata : s.stepDaddr.rdata = s.rdata := rfl
@[simp] theorem stepDaddr_draws : s.stepDaddr.draws = s.draws := rfl

end

/-! ### Two updates of one field, and of different fields -/

@[simp] theorem updateIf_true (s : State) (f : State → State) : s.updateIf true f = f s := rfl
@[simp] theorem updateIf_false (s : State) (f : State → State) : s.updateIf false f = s := rfl

/-! ### STATUS -/

section
variable (st : Status) (e : ErrCode)

@[simp] theorem ended_busy : (st.ended e).busy = false := rfl
@[simp] theorem ended_done : (st.ended e).done = true := rfl
@[simp] theorem ended_unstable : (st.ended e).unstable = st.unstable := rfl
@[simp] theorem ended_biterr : (st.ended e).biterr = st.biterr := rfl
@[simp] theorem ended_noiseonly : (st.ended e).noiseonly = st.noiseonly := rfl
@[simp] theorem ended_err : (st.ended e).err = e := rfl
@[simp] theorem ended_hostviol : (st.ended e).hostviol = st.hostviol := rfl
@[simp] theorem accepted_busy : st.accepted.busy = true := rfl
@[simp] theorem accepted_done : st.accepted.done = false := rfl
@[simp] theorem accepted_unstable : st.accepted.unstable = false := rfl
@[simp] theorem accepted_biterr : st.accepted.biterr = false := rfl
@[simp] theorem accepted_noiseonly : st.accepted.noiseonly = false := rfl
@[simp] theorem accepted_err : st.accepted.err = .ok := rfl
@[simp] theorem accepted_hostviol : st.accepted.hostviol = st.hostviol := rfl

end

end Sys2Proof.Machine
end

