-- ==== Sys2Proof/Laws/Ops.lean ====
section
/-! SUPPORT. What each shared operation of a command can do, once: the provers cite these instead of unfolding
the operation. -/

namespace Sys2Proof.Machine

/-! ### Operands -/

theorem argIs_spec {s : State} {k : ArgNo} {v : Nat} (h : argIs s k v) :
    s.argLow k = v ∧ s.argUpperClear k = true := by
  obtain ⟨h1, h2⟩ := h
  have e : (s.arg k).toNat = v := h1
  constructor
  · simp only [State.argLow, BitVec.extractLsb'_toNat]
    rw [e, Nat.shiftRight_zero, Nat.mod_eq_of_lt h2]
  · simp only [State.argUpperClear, beq_iff_eq]
    apply BitVec.eq_of_toNat_eq
    rw [BitVec.extractLsb'_toNat, e, Nat.shiftRight_eq_div_pow, show (0 : BitVec 16).toNat = 0 from rfl]
    norm_num
    omega

theorem argLow_lt (s : State) (k : ArgNo) : s.argLow k < 65536 :=
  (BitVec.isLt ((s.arg k).extractLsb' 0 16)).trans_eq (by norm_num)

theorem argIs_iff (s : State) (k : ArgNo) (v : Nat) :
    argIs s k v ↔ s.argUpperClear k = true ∧ s.argLow k = v := by
  refine ⟨fun h => (argIs_spec h).symm, fun ⟨h1, h2⟩ => ?_⟩
  have hv : v < 65536 := h2 ▸ argLow_lt s k
  refine ⟨?_, hv⟩
  simp only [State.argUpperClear, beq_iff_eq] at h1
  have h3 := congrArg BitVec.toNat h1
  rw [BitVec.extractLsb'_toNat, Nat.shiftRight_eq_div_pow, show (0 : BitVec 16).toNat = 0 from rfl] at h3
  simp only [State.argLow, BitVec.extractLsb'_toNat, Nat.shiftRight_zero] at h2
  have h4 := (s.arg k).isLt
  show (s.arg k).toNat = v
  norm_num at *
  omega

theorem checkArg_eq_none (s : State) (k : ArgNo) (ok : Bool) :
    s.checkArg k ok = none ↔ s.argUpperClear k = true ∧ ok = true := by
  simp [State.checkArg]

theorem checkArg_of_argIs {s : State} {k : ArgNo} {v : Nat} (h : argIs s k v) : s.checkArg k = none :=
  (checkArg_eq_none s k true).2 ⟨(argIs_spec h).2, rfl⟩

/-! ### Regions -/

theorem checkRegion_eq_none (words : Nat) (r : Region) : checkRegion words r = none ↔ r.fits words = true := by
  simp [checkRegion]

theorem fits_input {s : State} {k : ArgNo} {n : Nat} (h : fits s (s.argLow k) n) :
    (s.input k n).fits s.params.dmemWords = true := by
  rcases h with h | h <;> simp [Region.fits, State.input, h]

theorem fits_output {s : State} {k : ArgNo} {n : Nat} {l : List ArgNo} (h : fits s (s.argLow k) n) :
    (s.output k n l).fits s.params.dmemWords = true := by
  rcases h with h | h <;> simp [Region.fits, State.output, h]

/-- The pairs of a list of regions are all admitted. -/
theorem conflicts_eq_nil (rs : List Region) :
    conflicts rs = [] ↔ rs.Pairwise fun r q => pairConflict r q = none := by
  induction rs with
  | nil => simp [conflicts]
  | cons r rs ih => simp [conflicts, ih, List.filterMap_eq_nil_iff]

theorem checkPairs_eq_none (rs : List Region) :
    checkPairs rs = none ↔ rs.Pairwise fun r q => pairConflict r q = none := by
  rw [← conflicts_eq_nil, checkPairs]
  cases h : conflicts rs with
  | nil => simp
  | cons a l => simp [List.min?_cons]

theorem pairConflict_inputs (r q : Region) (hr : r.isOut = false) (hq : q.isOut = false) :
    pairConflict r q = none := by
  simp [pairConflict, hr, hq]

theorem pairConflict_apart (r q : Region) (h : r.overlaps q = false) : pairConflict r q = none := by
  simp [pairConflict, h]

theorem pairConflict_inPlace (r q : Region) (hr : r.isOut = false) (hq : q.isOut = true)
    (h : q.inPlaceWith r = true) : pairConflict r q = none := by
  simp [pairConflict, hr, hq, h]

/-- Regions without history that are apart share no word. -/
theorem overlaps_of_apart (r q : Region) (hr : r.hist = 0) (hq : q.hist = 0)
    (h : apart r.addr r.len q.addr q.len) : r.overlaps q = false := by
  simp only [apart] at h
  simp only [Region.overlaps, hr, hq, decide_eq_false_iff_not]
  omega

theorem apart_symm {a n b m : Nat} (h : apart a n b m) : apart b m a n := by
  unfold apart at *; omega

/-! ### The check list -/

theorem firstError_eq_none (cs : List (Option CmdError)) : firstError cs = none ↔ ∀ c ∈ cs, c = none := by
  induction cs with
  | nil => simp [firstError]
  | cons c cs ih => cases c <;> simp [firstError, ih]

/-- The first error of a list is one of its entries. -/
theorem firstError_mem {cs : List (Option CmdError)} {e : CmdError} (h : firstError cs = some e) :
    some e ∈ cs := by
  induction cs with
  | nil => simp [firstError] at h
  | cons c cs ih =>
    cases c with
    | none => exact List.mem_cons_of_mem _ (ih h)
    | some d => simp only [firstError, Option.some.injEq] at h; subst h; simp

/-- A command whose checks pass ends with its body. -/
theorem runChecked_ok {s : State} {args : List (Option CmdError)} {regions : List Region}
    {vals : List (Option CmdError)} {body : State} (h1 : ∀ c ∈ args, c = none)
    (h2 : ∀ r ∈ regions, r.fits s.params.dmemWords = true)
    (h3 : regions.Pairwise fun r q => pairConflict r q = none) (h4 : ∀ c ∈ vals, c = none) :
    runChecked s args regions vals body = .next (complete body) := by
  have e : firstError (args ++ regions.map (checkRegion s.params.dmemWords) ++ [checkPairs regions] ++ vals) = none := by
    rw [firstError_eq_none]
    intro c hc
    simp only [List.mem_append, List.mem_map, List.mem_singleton] at hc
    rcases hc with ((hc | ⟨r, hr, rfl⟩) | rfl) | hc
    · exact h1 c hc
    · exact (checkRegion_eq_none _ r).2 (h2 r hr)
    · exact (checkPairs_eq_none _).2 h3
    · exact h4 c hc
  unfold runChecked
  rw [e]

/-- All that the checks and the body of a command can do. -/
theorem runChecked_cases {s t : State} {args : List (Option CmdError)} {regions : List Region}
    {vals : List (Option CmdError)} {body : State} (h : runChecked s args regions vals body = .next t) :
    ((∀ c ∈ args, c = none) ∧ (∀ r ∈ regions, r.fits s.params.dmemWords = true) ∧
      (regions.Pairwise fun r q => pairConflict r q = none) ∧ (∀ c ∈ vals, c = none) ∧ t = complete body) ∨
    ∃ e, some e ∈ args ++ regions.map (checkRegion s.params.dmemWords) ++ [checkPairs regions] ++ vals ∧ t = raise e s := by
  unfold runChecked at h
  split at h
  · rename_i e he
    exact .inr ⟨e, firstError_mem he, by simpa using h.symm⟩
  · rename_i he
    rw [firstError_eq_none] at he
    simp only [List.mem_append, List.mem_map, List.mem_singleton] at he
    exact .inl ⟨fun c hc => he c (.inl (.inl (.inl hc))),
      fun r hr => (checkRegion_eq_none _ r).1 (he _ (.inl (.inl (.inr ⟨r, hr, rfl⟩)))),
      (checkPairs_eq_none _).1 (he _ (.inl (.inr rfl))), fun c hc => he c (.inr hc),
      by simpa using h.symm⟩

/-- All that a command on a context can do. -/
theorem withCtx_cases {s : State} {c : BitVec 4} {kind : Option CtxKind} {k : Ctx → StepOutcome}
    {o : StepOutcome} (h : withCtx s c kind k = o) :
    (∃ x, s.ctxAt c.toNat = some x ∧ (∀ kd, kind = some kd → x.kind = kd) ∧ o = k x) ∨
    o = .next (raise ctxError s) := by
  unfold withCtx at h
  split at h
  · exact .inr h.symm
  · rename_i x hx
    split at h
    · rename_i hk
      refine .inl ⟨x, hx, fun kd e => ?_, h.symm⟩
      subst e
      exact (eq_of_beq hk).symm
    · exact .inr h.symm

theorem withCtx_open {s : State} {c : BitVec 4} {kind : Option CtxKind} {k : Ctx → StepOutcome} {x : Ctx}
    (h : s.ctxAt c.toNat = some x) (hk : ∀ kd, kind = some kd → x.kind = kd) :
    withCtx s c kind k = k x := by
  unfold withCtx
  rw [h]
  cases kind with
  | none => rfl
  | some kd => simp [hk kd rfl]

/-! ### Contexts -/

theorem ctxAt_eq (s : State) (c : Nat) :
    s.ctxAt c = if c < s.params.nctx then (s.ctxs[c]?).getD none else none := by
  simp [State.ctxAt, List.getD_eq_getElem?_getD]

/-- The contexts after one of them is written. -/
theorem ctxAt_setCtx (s : State) (c : Nat) (v : Option Ctx) (d : Nat) :
    (s.setCtx c v).ctxAt d = if d = c ∧ c < s.params.nctx ∧ c < 16 then v else s.ctxAt d := by
  simp only [ctxAt_eq, State.setCtx]
  rw [Vector.getElem?_setIfInBounds]
  by_cases hd : c = d
  · subst hd
    by_cases hn : c < s.params.nctx <;> by_cases hc : c < 16 <;> simp [hn, hc]
  · simp [hd, Ne.symm hd]

theorem ctxAt_some_lt {s : State} {c : Nat} {x : Ctx} (h : s.ctxAt c = some x) : c < s.params.nctx ∧ c < 16 := by
  rw [ctxAt_eq] at h
  split_ifs at h with hn
  refine ⟨hn, ?_⟩
  by_contra hc
  rw [Vector.getElem?_eq_none (by omega)] at h
  simp at h

/-! ### Values -/

theorem readI16_range (m : Memory) (a : Nat) : -32768 ≤ m.readI16 a ∧ m.readI16 a ≤ 32767 :=
  toInt16_range _

theorem readVec_range (m : Memory) (a n : Nat) : ∀ x ∈ m.readVec a n, -32768 ≤ x ∧ x ≤ 32767 := by
  intro x hx
  simp only [Memory.readVec, tabulate, List.mem_map] at hx
  obtain ⟨i, _, rfl⟩ := hx
  exact readI16_range m _

theorem nth_range {l : List Int} (h : ∀ x ∈ l, -32768 ≤ x ∧ x ≤ 32767) (i : Nat) :
    -32768 ≤ nth l i ∧ nth l i ≤ 32767 := by
  unfold nth
  rw [List.getD_eq_getElem?_getD]
  cases hi : l[i]? with
  | none => simp
  | some x => exact h x (List.mem_of_getElem? hi)

/-- Written 16-bit values read back, in terms of the list's entries. -/
theorem readI16_writeVec_nth (m : Memory) (a : Nat) (l : List Int) (i : Nat) (hi : i < l.length)
    (hl : ∀ x ∈ l, -32768 ≤ x ∧ x ≤ 32767) : (m.writeVec a l).readI16 (a + i) = nth l i :=
  readI16_writeVec m a l i hi (nth_range hl i)

/-- A vector that was written reads back whole. -/
theorem readVec_writeVec (m : Memory) (a : Nat) (l : List Int) (hl : ∀ x ∈ l, -32768 ≤ x ∧ x ≤ 32767) :
    (m.writeVec a l).readVec a l.length = l := by
  apply List.ext_getElem (by simp)
  intro i h1 h2
  have := readI16_writeVec_nth m a l i h2 hl
  simp only [Memory.readVec, tabulate, List.getElem_map, List.getElem_range]
  rw [this, nth, List.getD_eq_getElem?_getD, List.getElem?_eq_getElem h2]
  rfl

/-- Writing a vector leaves every byte outside its region. -/
theorem sameOutside_writeVec (m : Memory) (a : Nat) (l : List Int) :
    sameOutside m (m.writeVec a l) a l.length := fun k hk => writeVec_byteAt m a l k hk

end Sys2Proof.Machine
end

