-- ==== Sys2Proof/Laws/Commands.lean ====
section
/-! SUPPORT. The operand and region checks of a command in the vocabulary of the claims, and what a written vector
reads as. -/

namespace Sys2Proof.Machine

/-! ### Operands and lists -/

theorem argI16_eq (s : State) (k : ArgNo) : s.argI16 k = arg16 s k := by
  simp only [State.argI16, arg16, State.arg]
  congr 1

theorem complete_eq_ended (s : State) : complete s = ended s := rfl

theorem raise_eq_endedError (e : CmdError) (s : State) : raise e s = endedError s e.code e.info.toNat := by
  simp only [raise, endedError, Status.ended, State.mk.injEq, and_self, true_and, and_true]
  apply BitVec.eq_of_toNat_eq
  simp

theorem nth_map (f : Int → Int) (l : List Int) (i : Nat) (h : i < l.length) :
    nth (l.map f) i = f (nth l i) := by
  simp [nth, List.getD_eq_getElem?_getD, h]

theorem nth_zipWith (f : Int → Int → Int) (l k : List Int) (i : Nat) (h : i < l.length) (h' : i < k.length) :
    nth (List.zipWith f l k) i = f (nth l i) (nth k i) := by
  simp [nth, List.getD_eq_getElem?_getD, h, h']

theorem tabulate_range {n : Nat} {f : Nat → Int} (h : ∀ i, i < n → -32768 ≤ f i ∧ f i ≤ 32767) :
    ∀ v ∈ tabulate n f, -32768 ≤ v ∧ v ≤ 32767 := by
  intro v hv
  simp only [tabulate, List.mem_map, List.mem_range] at hv
  obtain ⟨i, hi, rfl⟩ := hv
  exact h i hi

/-- A vector written to the memory, read word by word. -/
theorem wordsAre_writeVec (m : Memory) (y : Nat) (l : List Int) (n : Nat) (f : Nat → Int) (hn : n ≤ l.length)
    (hl : ∀ x ∈ l, -32768 ≤ x ∧ x ≤ 32767) (hf : ∀ i, i < n → nth l i = f i) :
    wordsAre (m.writeVec y l) y n f :=
  fun i hi => by rw [readI16_writeVec_nth m y l i (by omega) hl, hf i hi]

/-- Words apart from a written vector keep their values. -/
theorem readI16_writeVec_apart (m : Memory) (y : Nat) (l : List Int) (a : Nat)
    (h : a < y ∨ y + l.length ≤ a) : (m.writeVec y l).readI16 a = m.readI16 a := by
  rw [Memory.readI16, readWord_writeVec, if_neg (by omega)]; rfl

theorem wordsAre_writeVec_apart {m : Memory} {a n : Nat} {f : Nat → Int} (y : Nat) (l : List Int)
    (h : wordsAre m a n f) (hd : apart a n y l.length) : wordsAre (m.writeVec y l) a n f := fun i hi => by
  rw [readI16_writeVec_apart _ _ _ _ (by unfold apart at hd; omega), h i hi]

theorem sameOutside2_writeVec (m : Memory) (a : Nat) (l : List Int) (b : Nat) (k : List Int) :
    sameOutside2 m ((m.writeVec a l).writeVec b k) a l.length b k.length := fun j hj hk => by
  rw [writeVec_byteAt _ _ _ _ hk, writeVec_byteAt _ _ _ _ hj]

theorem sameOutside3_writeVec (m : Memory) (a : Nat) (l : List Int) (b : Nat) (k : List Int) (c : Nat)
    (p : List Int) :
    sameOutside3 m (((m.writeVec a l).writeVec b k).writeVec c p) a l.length b k.length c p.length :=
  fun j hj hk hp => by
    rw [writeVec_byteAt _ _ _ _ hp, writeVec_byteAt _ _ _ _ hk, writeVec_byteAt _ _ _ _ hj]

/-! ### Checks that pass -/

theorem input_fits {s : State} {k : ArgNo} {a n : Nat} (ha : argIs s k a) (h : fits s a n) :
    (s.input k n).fits s.params.dmemWords = true := fits_input (by rwa [(argIs_spec ha).1])

theorem output_fits {s : State} {k : ArgNo} {a n : Nat} {l : List ArgNo} (ha : argIs s k a) (h : fits s a n) :
    (s.output k n l).fits s.params.dmemWords = true := fits_output (by rwa [(argIs_spec ha).1])

theorem pair_input_output {s : State} {k j : ArgNo} {a n b p : Nat} {l : List ArgNo} (ha : argIs s k a)
    (hb : argIs s j b) (h : apart b p a n ∨ (l.contains k = true ∧ b = a ∧ p = n)) :
    pairConflict (s.input k n) (s.output j p l) = none := by
  rcases h with h | ⟨h1, h2, h3⟩
  · apply pairConflict_apart
    apply overlaps_of_apart _ _ rfl rfl
    simp only [State.input, State.output, (argIs_spec ha).1, (argIs_spec hb).1]
    exact apart_symm h
  · apply pairConflict_inPlace _ _ rfl rfl
    simp only [State.input, State.output, Region.inPlaceWith, (argIs_spec ha).1, (argIs_spec hb).1]
    simp only [h1, h2, h3, beq_self_eq_true, Bool.and_self]

theorem pair_output_input {s : State} {k j : ArgNo} {a n b p : Nat} {l : List ArgNo} (ha : argIs s k a)
    (hb : argIs s j b) (h : apart b p a n) : pairConflict (s.output j p l) (s.input k n) = none := by
  apply pairConflict_apart
  apply overlaps_of_apart _ _ rfl rfl
  simp only [State.input, State.output, (argIs_spec ha).1, (argIs_spec hb).1]
  exact h

theorem pair_output_output {s : State} {k j : ArgNo} {a n b p : Nat} {l l' : List ArgNo} (ha : argIs s k a)
    (hb : argIs s j b) (h : apart b p a n) : pairConflict (s.output j p l) (s.output k n l') = none := by
  apply pairConflict_apart
  apply overlaps_of_apart _ _ rfl rfl
  simp only [State.output, (argIs_spec ha).1, (argIs_spec hb).1]
  exact h

theorem pair_input_input {s : State} {k j : ArgNo} {n p : Nat} :
    pairConflict (s.input j p) (s.input k n) = none := pairConflict_inputs _ _ rfl rfl

end Sys2Proof.Machine
end

