-- ==== Sys2Proof/Laws/Lists.lean ====
section
/-! SUPPORT. What the list computations of the commands come to, entry by entry: sums, products, blocks of a
concatenation, 32-bit values in two words, masks, the recursion of FILT_AR. -/

namespace Sys2Proof.Machine

/-! ### Sums -/

/-- The exact inner product as the sum the spec writes. -/
theorem dot_eq_total (x y : List Int) (n : Nat) (h : x.length = n ∨ y.length = n) :
    dot x y = total n fun i => nth x i * nth y i := by
  unfold dot total
  induction x generalizing y n with
  | nil => simp [nth]
  | cons a x ih =>
    cases y with
    | nil => simp [nth]
    | cons b y =>
      cases n with
      | zero => simp at h
      | succ n =>
        rw [Finset.sum_range_succ', List.zipWith_cons_cons, List.sum_cons, ih y n (by simpa using h)]
        simp [nth, add_comm]

theorem dot_self_nonneg (v : List Int) : 0 ≤ dot v v := by
  unfold dot
  induction v with
  | nil => simp
  | cons a v ih => simp only [List.zipWith_cons_cons, List.sum_cons]; nlinarith [mul_self_nonneg a]

/-- A sum of `p` terms of magnitude at most `B`. -/
theorem total_bound (p : Nat) (f : Nat → Int) (B : Int) (h : ∀ j, j < p → -B ≤ f j ∧ f j ≤ B) :
    -(p * B) ≤ total p f ∧ total p f ≤ p * B := by
  unfold total
  induction p with
  | zero => simp
  | succ p ih =>
    have h1 := ih fun j hj => h j (by omega)
    have h2 := h p (by omega)
    rw [Finset.sum_range_succ]
    push_cast
    constructor <;> linarith

/-! ### The largest magnitude -/

/-- The fold of `maxMagnitude` from `m0` on: an upper bound of all magnitudes, reached by one of them or by `m0`. -/
theorem foldl_max_magnitude (xs : List Int) (m0 : Int) (h0 : 0 ≤ m0) :
    (∀ x ∈ xs, |x| ≤ xs.foldl (fun m x => max m (magnitude x)) m0) ∧
    m0 ≤ xs.foldl (fun m x => max m (magnitude x)) m0 ∧
    (xs.foldl (fun m x => max m (magnitude x)) m0 = m0 ∨
      ∃ x ∈ xs, |x| = xs.foldl (fun m x => max m (magnitude x)) m0) := by
  induction xs generalizing m0 with
  | nil => simp
  | cons x xs ih =>
    obtain ⟨h1, h2, h3⟩ := ih (max m0 (magnitude x)) (by omega)
    have e := magnitude_eq_abs x
    simp only [List.foldl_cons]
    refine ⟨fun y hy => ?_, by omega, ?_⟩
    · rcases List.mem_cons.1 hy with rfl | hy
      · omega
      · exact h1 y hy
    · rcases h3 with h3 | ⟨y, hy, h3⟩
      · rcases le_total m0 (magnitude x) with h | h
        · exact .inr ⟨x, by simp, by omega⟩
        · exact .inl (by omega)
      · exact .inr ⟨y, by simp [hy], h3⟩

/-! ### Blocks -/

/-- Block `j` of a concatenation of blocks of length `k`. -/
theorem flatMap_block (n : Nat) (f : Nat → List Int) (k : Nat) (hk : ∀ i, (f i).length = k) (j : Nat)
    (hj : j < n) : (((List.range n).flatMap f).drop (k * j)).take k = f j := by
  induction n generalizing f j with
  | zero => omega
  | succ n ih =>
    rw [List.range_succ_eq_map, List.flatMap_cons, List.flatMap_map]
    cases j with
    | zero => simp [hk]
    | succ j =>
      rw [Nat.mul_succ, Nat.add_comm, ← List.drop_drop, List.drop_left' (hk 0)]
      exact ih (fun i => f (i + 1)) (fun i => hk _) j (by omega)

theorem flatMap_length (n : Nat) (f : Nat → List Int) (k : Nat) (hk : ∀ i, (f i).length = k) :
    ((List.range n).flatMap f).length = k * n := by
  induction n with
  | zero => simp
  | succ n ih => rw [List.range_succ, List.flatMap_append, List.length_append, ih]; simp [hk]; ring

/-! ### 32-bit values in two words -/

theorem halves_length (l : List Int) : (halves l).length = 2 * l.length := by
  induction l with
  | nil => rfl
  | cons v l ih => simp [halves, ih]; omega

theorem halves_getD (l : List Int) (k : Nat) (h : k < l.length) :
    (halves l).getD (2 * k) 0 = l.getD k 0 % 65536 ∧
      (halves l).getD (2 * k + 1) 0 = (l.getD k 0 / 65536) % 65536 := by
  induction l generalizing k with
  | nil => simp at h
  | cons v l ih =>
    cases k with
    | zero => simp [halves]
    | succ k =>
      have := ih k (by simpa using h)
      rw [show 2 * (k + 1) = 2 * k + 1 + 1 by ring, halves]
      simpa using this

/-- A 32-bit value written low half first reads back (20_memory.md R85). -/
theorem readI32_writeVec_halves (m : Memory) (r : Nat) (l : List Int) (k : Nat) (h : k < l.length)
    (hr : -2 ^ 31 ≤ l.getD k 0 ∧ l.getD k 0 < 2 ^ 31) :
    (m.writeVec r (halves l)).readI32 (r + 2 * k) = l.getD k 0 := by
  unfold Memory.readI32
  rw [readWord_writeVec, readWord_writeVec, halves_length, if_pos (by omega), if_pos (by omega),
    show r + 2 * k + 1 - r = 2 * k + 1 by omega, show r + 2 * k - r = 2 * k by omega,
    (halves_getD l k h).1, (halves_getD l k h).2]
  generalize l.getD k 0 = v at *
  rw [BitVec.toInt_eq_toNat_bmod, BitVec.toNat_append, BitVec.toNat_ofInt, BitVec.toNat_ofInt,
    Nat.shiftLeft_eq, Nat.or_comm]
  have e : ((v % 65536 % (2 ^ 16 : Nat)).toNat ||| ((v / 65536 % 65536) % (2 ^ 16 : Nat)).toNat * 2 ^ 16) =
      ((v / 65536 % 65536) % (2 ^ 16 : Nat)).toNat * 2 ^ 16 + (v % 65536 % (2 ^ 16 : Nat)).toNat := by
    rw [Nat.or_comm, Nat.mul_comm, Nat.two_pow_add_eq_or_of_lt]
    norm_num; omega
  rw [e, Int.bmod_def]
  norm_num at *
  omega

/-! ### Masks -/

/-- Bit `i` of the mask of a list is its entry `i`. -/
theorem maskOf_testBit (l : List Bool) (i : Nat) :
    (Int.toNat (maskOf l)).testBit i = l.getD i false ∧ 0 ≤ maskOf l := by
  induction l generalizing i with
  | nil => simp [maskOf]
  | cons b l ih =>
    have h0 := (ih 0).2
    refine ⟨?_, by simp only [maskOf]; split_ifs <;> omega⟩
    have e : (maskOf (b :: l)).toNat = (maskOf l).toNat * 2 + (if b then 1 else 0) := by
      simp only [maskOf]; split_ifs <;> omega
    rw [e]
    cases i with
    | zero => cases b <;> simp [Nat.testBit_zero]
    | succ i =>
      have e2 : ((maskOf l).toNat * 2 + (if b then 1 else 0)) / 2 = (maskOf l).toNat := by split_ifs <;> omega
      rw [Nat.testBit_succ, e2, (ih i).1]
      rfl

/-! ### The recursion of FILT_AR -/

theorem filterAr_length (a : List Int) (m : Nat) (past xs : List Int) :
    (filterAr a m past xs).length = xs.length := by
  induction xs generalizing past with
  | nil => rfl
  | cons x xs ih => simp [filterAr, ih]

/-- Output `i` from the outputs before it and the history (41_filters.md R202). -/
theorem nth_filterAr (a : List Int) (m : Nat) (xs past : List Int) (i : Nat) (hi : i < xs.length) :
    nth (filterAr a m past xs) i = lpcDescale (nth a 0 * nth xs i - sumTo m fun k => nth a (k + 1) *
      (if k < i then nth (filterAr a m past xs) (i - 1 - k) else nth past (k - i))) := by
  induction xs generalizing past i with
  | nil => simp at hi
  | cons x xs ih =>
    cases i with
    | zero => simp [filterAr, nth, arOutput]
    | succ i =>
      have h := ih (arOutput a m past x :: past) i (by simpa using hi)
      simp only [filterAr]
      rw [show nth (arOutput a m past x :: filterAr a m (arOutput a m past x :: past) xs) (i + 1) =
        nth (filterAr a m (arOutput a m past x :: past) xs) i from rfl, h,
        show nth (x :: xs) (i + 1) = nth xs i from rfl]
      congr 2
      unfold sumTo tabulate
      congr 1
      apply List.map_congr_left
      intro k _
      congr 1
      by_cases h1 : k < i
      · rw [if_pos h1, if_pos (by omega), show i + 1 - 1 - k = (i - 1 - k) + 1 by omega]; rfl
      · rw [if_neg h1]
        by_cases h2 : k = i
        · subst h2; rw [if_pos (by omega)]; simp [nth]
        · rw [if_neg (by omega), show k - i = (k - (i + 1)) + 1 by omega]; rfl

end Sys2Proof.Machine
end

