-- ==== Sys2Proof/Laws/Outcome.lean ====
section
/-! SUPPORT. How a command can end, once for each shared operation: with an error that changes nothing but the
report, or with its body, which leaves the host's registers and every context but one as they were. -/

namespace Sys2Proof.Machine

/-! ### What the updates of a body leave as it is -/

/-- The fields no command body writes. -/
structure Keeps (s b : State) : Prop where
  params : b.params = s.params
  cmd : b.cmd = s.cmd
  args : b.args = s.args
  daddr : b.daddr = s.daddr
  hostviol : b.status.hostviol = s.status.hostviol
  turns : b.turns = s.turns
  rdata : b.rdata = s.rdata
  draws : b.draws = s.draws

theorem keeps_iff (s b c : State) (h : Keeps b c) : Keeps s c ↔ Keeps s b :=
  ⟨fun k => ⟨h.1 ▸ k.1, h.2 ▸ k.2, h.3 ▸ k.3, h.4 ▸ k.4, h.5 ▸ k.5, h.6 ▸ k.6, h.7 ▸ k.7, h.8 ▸ k.8⟩,
    fun k => ⟨h.1.trans k.1, h.2.trans k.2, h.3.trans k.3, h.4.trans k.4, h.5.trans k.5, h.6.trans k.6,
      h.7.trans k.7, h.8.trans k.8⟩⟩

@[simp] theorem keeps_self (s : State) : Keeps s s := ⟨rfl, rfl, rfl, rfl, rfl, rfl, rfl, rfl⟩

@[simp] theorem keeps_writeVec (s b : State) (a : Nat) (l : List Int) : Keeps s (b.writeVec a l) ↔ Keeps s b :=
  keeps_iff _ _ _ ⟨rfl, rfl, rfl, rfl, rfl, rfl, rfl, rfl⟩

@[simp] theorem keeps_setRes0 (s b : State) (v : Int) : Keeps s (b.setRes0 v) ↔ Keeps s b :=
  keeps_iff _ _ _ ⟨rfl, rfl, rfl, rfl, rfl, rfl, rfl, rfl⟩

@[simp] theorem keeps_setRes1 (s b : State) (v : Int) : Keeps s (b.setRes1 v) ↔ Keeps s b :=
  keeps_iff _ _ _ ⟨rfl, rfl, rfl, rfl, rfl, rfl, rfl, rfl⟩

@[simp] theorem keeps_setCtx (s b : State) (c : Nat) (v : Option Ctx) : Keeps s (b.setCtx c v) ↔ Keeps s b :=
  keeps_iff _ _ _ ⟨rfl, rfl, rfl, rfl, rfl, rfl, rfl, rfl⟩

@[simp] theorem keeps_setBiterr (s b : State) : Keeps s b.setBiterr ↔ Keeps s b :=
  keeps_iff _ _ _ ⟨rfl, rfl, rfl, rfl, rfl, rfl, rfl, rfl⟩

@[simp] theorem keeps_setUnstableIf (s b : State) (c : Bool) :
    Keeps s (b.updateIf c State.setUnstable) ↔ Keeps s b := by
  cases c <;> exact keeps_iff _ _ _ ⟨rfl, rfl, rfl, rfl, rfl, rfl, rfl, rfl⟩

@[simp] theorem keeps_setBiterrIf (s b : State) (c : Bool) :
    Keeps s (b.updateIf c State.setBiterr) ↔ Keeps s b := by
  cases c <;> exact keeps_iff _ _ _ ⟨rfl, rfl, rfl, rfl, rfl, rfl, rfl, rfl⟩

@[simp] theorem keeps_setNoiseonlyIf (s b : State) (c : Bool) :
    Keeps s (b.updateIf c State.setNoiseonly) ↔ Keeps s b := by
  cases c <;> exact keeps_iff _ _ _ ⟨rfl, rfl, rfl, rfl, rfl, rfl, rfl, rfl⟩

/-- Every context but the one the command names is as it was. -/
def Touches (i : Instr) (s b : State) : Prop :=
  ∀ d : Nat, (∀ c, ctxNamed i = some c → d ≠ c.toNat) → b.ctxAt d = s.ctxAt d

@[simp] theorem touches_self (i : Instr) (s : State) : Touches i s s := fun _ _ => rfl

@[simp] theorem touches_writeVec (i : Instr) (s b : State) (a : Nat) (l : List Int) :
    Touches i s (b.writeVec a l) ↔ Touches i s b := Iff.rfl

@[simp] theorem touches_setRes0 (i : Instr) (s b : State) (v : Int) :
    Touches i s (b.setRes0 v) ↔ Touches i s b := Iff.rfl

@[simp] theorem touches_setRes1 (i : Instr) (s b : State) (v : Int) :
    Touches i s (b.setRes1 v) ↔ Touches i s b := Iff.rfl

@[simp] theorem touches_setBiterr (i : Instr) (s b : State) : Touches i s b.setBiterr ↔ Touches i s b := Iff.rfl

@[simp] theorem touches_setUnstableIf (i : Instr) (s b : State) (c : Bool) :
    Touches i s (b.updateIf c State.setUnstable) ↔ Touches i s b := by cases c <;> exact Iff.rfl

@[simp] theorem touches_setBiterrIf (i : Instr) (s b : State) (c : Bool) :
    Touches i s (b.updateIf c State.setBiterr) ↔ Touches i s b := by cases c <;> exact Iff.rfl

@[simp] theorem touches_setNoiseonlyIf (i : Instr) (s b : State) (c : Bool) :
    Touches i s (b.updateIf c State.setNoiseonly) ↔ Touches i s b := by cases c <;> exact Iff.rfl

theorem touches_setCtx {i : Instr} {s b : State} {c : BitVec 4} {v : Option Ctx} (hi : ctxNamed i = some c)
    (h : Touches i s b) : Touches i s (b.setCtx c.toNat v) := by
  intro d hd
  rw [ctxAt_setCtx, if_neg (fun e => hd c hi e.1), h d hd]

/-! ### Checks -/

/-- A check whose error, if it has one, is an error. -/
def Reports (c : Option CmdError) : Prop := ∀ e, c = some e → e.code ≠ .ok

@[simp] theorem reports_none : Reports none := fun _ h => nomatch h

@[simp] theorem reports_argError (k : ArgNo) : Reports (some (argError k)) := fun e h => by
  cases h; simp [argError]

@[simp] theorem reports_checkArg (s : State) (k : ArgNo) (ok : Bool) : Reports (s.checkArg k ok) := by
  unfold State.checkArg; split_ifs <;> simp

@[simp] theorem reports_checkWidths (s : State) : Reports s.checkWidths := by
  unfold State.checkWidths; split_ifs <;> simp

@[simp] theorem reports_checkVal (k : ArgNo) (ok : Bool) : Reports (checkVal k ok) := by
  unfold checkVal; split_ifs
  · exact reports_none
  · intro e h; cases h; simp

@[simp] theorem reports_checkRegion (n : Nat) (r : Region) : Reports (checkRegion n r) := by
  unfold checkRegion; split_ifs
  · exact reports_none
  · intro e h; cases h; simp

@[simp] theorem reports_checkPairs (rs : List Region) : Reports (checkPairs rs) := by
  unfold checkPairs; split
  · exact reports_none
  · intro e h; cases h; simp

/-! ### How a command ends -/

/-- The two ends of a command: an error, or a body that keeps to what a command may write. -/
def Ends (i : Instr) (s : State) (o : StepOutcome) : Prop :=
  (∃ e : CmdError, e.code ≠ .ok ∧ o = .next (raise e s)) ∨
    ∃ b, o = .next (complete b) ∧ Keeps s b ∧ Touches i s b

theorem ends_raise {i : Instr} {s : State} (e : CmdError) (h : e.code ≠ .ok) :
    Ends i s (.next (raise e s)) := .inl ⟨e, h, rfl⟩

theorem ends_complete {i : Instr} {s b : State} (hk : Keeps s b) (hc : Touches i s b) :
    Ends i s (.next (complete b)) := .inr ⟨b, rfl, hk, hc⟩

theorem ends_runChecked {i : Instr} {s : State} {args : List (Option CmdError)} {regions : List Region}
    {vals : List (Option CmdError)} {body : State} (ha : ∀ c ∈ args, Reports c) (hv : ∀ c ∈ vals, Reports c)
    (hk : Keeps s body) (hc : Touches i s body) : Ends i s (runChecked s args regions vals body) := by
  unfold runChecked
  split
  · rename_i e h
    have := firstError_mem h
    refine ends_raise e ?_
    simp only [List.mem_append, List.mem_map, List.mem_singleton] at this
    rcases this with ((h | ⟨r, _, h⟩) | h) | h
    · exact ha _ h _ rfl
    · exact reports_checkRegion _ r _ h
    · exact reports_checkPairs _ _ h.symm
    · exact hv _ h _ rfl
  · exact ends_complete hk hc

theorem ends_withCtx {i : Instr} {s : State} {c : BitVec 4} {kind : Option CtxKind} {k : Ctx → StepOutcome}
    (h : ∀ x, s.ctxAt c.toNat = some x → Ends i s (k x)) : Ends i s (withCtx s c kind k) := by
  unfold withCtx
  split
  · exact ends_raise _ (by simp [ctxError])
  · split
    · exact h _ (by assumption)
    · exact ends_raise _ (by simp [ctxError])

end Sys2Proof.Machine
end

