-- ==== Sys2Proof/Laws/PerInstr.lean ====
section
/-! SUPPORT. One lemma for each command about its encoding (30_encoding.md R111, R113): OPC is the command's opcode and
bits 31:23 are 0. -/

namespace Sys2Proof.Laws.EncodedShape

/-- Bits 7:0 of the command word are the opcode, and the reserved bits 31:23 are 0. -/
def Statement (i : Instr) : Prop :=
  (encode i).extractLsb' 0 8 = i.opcode ∧ (encode i).extractLsb' 23 9 = 0

theorem nop : Statement .nop := by
  exact ⟨rfl, rfl⟩

theorem sat16 : Statement .sat16 := by
  exact ⟨rfl, rfl⟩

theorem abs16 : Statement .abs16 := by
  exact ⟨rfl, rfl⟩

theorem abs32 : Statement .abs32 := by
  exact ⟨rfl, rfl⟩

theorem adds16 : Statement .adds16 := by
  exact ⟨rfl, rfl⟩

theorem subs16 : Statement .subs16 := by
  exact ⟨rfl, rfl⟩

theorem adds32 : Statement .adds32 := by
  exact ⟨rfl, rfl⟩

theorem subs32 : Statement .subs32 := by
  exact ⟨rfl, rfl⟩

theorem mul16 (sh : BitVec 5) (dir : ShiftDir) (rnd : Rounding) : Statement (.mul16 sh dir rnd) := by
  unfold Statement
  revert sh
  cases dir <;> cases rnd <;> decide

theorem shift32 (sh : BitVec 5) (dir : ShiftDir) (rnd : Rounding) : Statement (.shift32 sh dir rnd) := by
  unfold Statement
  revert sh
  cases dir <;> cases rnd <;> decide

theorem shift16 (sh : BitVec 5) (dir : ShiftDir) (rnd : Rounding) : Statement (.shift16 sh dir rnd) := by
  unfold Statement
  revert sh
  cases dir <;> cases rnd <;> decide

theorem normw16 : Statement .normw16 := by
  exact ⟨rfl, rfl⟩

theorem normw32 : Statement .normw32 := by
  exact ⟨rfl, rfl⟩

theorem normu32 : Statement .normu32 := by
  exact ⟨rfl, rfl⟩

theorem sizebits : Statement .sizebits := by
  exact ⟨rfl, rfl⟩

theorem vmaxabs16 : Statement .vmaxabs16 := by
  exact ⟨rfl, rfl⟩

theorem dotsc (sh : BitVec 5) (dir : ShiftDir) : Statement (.dotsc sh dir) := by
  unfold Statement
  revert sh
  cases dir <;> decide

theorem vscale (sh : BitVec 5) (dir : ShiftDir) (rnd : Rounding) : Statement (.vscale sh dir rnd) := by
  unfold Statement
  revert sh
  cases dir <;> cases rnd <;> decide

theorem vmul (sh : BitVec 5) (dir : ShiftDir) (rnd : Rounding) : Statement (.vmul sh dir rnd) := by
  unfold Statement
  revert sh
  cases dir <;> cases rnd <;> decide

theorem filtMa : Statement .filtMa := by
  exact ⟨rfl, rfl⟩

theorem filtAr : Statement .filtAr := by
  exact ⟨rfl, rfl⟩

theorem hpFilt (ctx : BitVec 4) : Statement (.hpFilt ctx) := by
  unfold Statement
  revert ctx
  decide

theorem bwexp (table : ChirpSel) : Statement (.bwexp table) := by
  unfold Statement
  cases table <;> decide

theorem autocorr : Statement .autocorr := by
  exact ⟨rfl, rfl⟩

theorem levinson : Statement .levinson := by
  exact ⟨rfl, rfl⟩

theorem a2lsf : Statement .a2lsf := by
  exact ⟨rfl, rfl⟩

theorem lsf2a : Statement .lsf2a := by
  exact ⟨rfl, rfl⟩

theorem lsfQuant : Statement .lsfQuant := by
  exact ⟨rfl, rfl⟩

theorem lsfDequant : Statement .lsfDequant := by
  exact ⟨rfl, rfl⟩

theorem lsfStab : Statement .lsfStab := by
  exact ⟨rfl, rfl⟩

theorem lsfInterp : Statement .lsfInterp := by
  exact ⟨rfl, rfl⟩

theorem specAna (ctx : BitVec 4) : Statement (.specAna ctx) := by
  unfold Statement
  revert ctx
  decide

theorem specSyn (ctx : BitVec 4) : Statement (.specSyn ctx) := by
  unfold Statement
  revert ctx
  decide

theorem acbSearch : Statement .acbSearch := by
  exact ⟨rfl, rfl⟩

theorem bcbSearch : Statement .bcbSearch := by
  exact ⟨rfl, rfl⟩

theorem cbConstruct (dir : CbDir) : Statement (.cbConstruct dir) := by
  unfold Statement
  cases dir <;> decide

theorem gainQuant (stg : BitVec 2) : Statement (.gainQuant stg) := by
  unfold Statement
  revert stg
  decide

theorem gainDequant (stg : BitVec 2) : Statement (.gainDequant stg) := by
  unfold Statement
  revert stg
  decide

theorem pack (mode : Mode) : Statement (.pack mode) := by
  unfold Statement
  cases mode <;> decide

theorem unpack (ctx : BitVec 4) : Statement (.unpack ctx) := by
  unfold Statement
  revert ctx
  decide

theorem plcGood (ctx : BitVec 4) : Statement (.plcGood ctx) := by
  unfold Statement
  revert ctx
  decide

theorem plcLost (ctx : BitVec 4) : Statement (.plcLost ctx) := by
  unfold Statement
  revert ctx
  decide

theorem chOpen (ctx : BitVec 4) (kind : CtxKind) (mode : Mode) : Statement (.chOpen ctx kind mode) := by
  unfold Statement
  revert ctx
  cases kind <;> cases mode <;> decide

theorem chClose (ctx : BitVec 4) : Statement (.chClose ctx) := by
  unfold Statement
  revert ctx
  decide

end Sys2Proof.Laws.EncodedShape
end

