-- ==== Sys2Proof/Laws/RootSearch.lean ====
section
/-! SUPPORT. What the root search of 42_lpc.md R262 can do, said once: each bisection, the root a bracket ends in, and
the states the search passes. -/

namespace Sys2Proof.Machine

/-- One bisection does what R262 says of it. -/
theorem bisect_spec (F : List Int) (b : Bracket) : Bisects F b (bisect (chebEval F) b) := by
  simp only [Bisects, bisect, asr, pow_one]
  exact ⟨fun k => by rw [if_pos k], fun k => by rw [if_neg (by omega)]⟩

/-- The floor of a quotient of integers is floor division. -/
theorem floor_div_eq_fdiv (a b : Int) : ⌊(a : ℚ) / (b : ℚ)⌋ = Int.fdiv a b := by
  rcases le_total 0 b with h | h
  · rw [Int.fdiv_eq_ediv_of_nonneg _ h]
    lift b to Nat using h
    exact Rat.floor_intCast_div_natCast a b
  · obtain ⟨c, rfl⟩ := Int.exists_eq_neg_ofNat h
    rw [← Int.neg_neg a, Int.neg_fdiv_neg, Int.fdiv_eq_ediv_of_nonneg _ (Int.natCast_nonneg c)]
    push_cast
    rw [neg_div_neg_eq]
    exact_mod_cast Rat.floor_intCast_div_natCast (-a) c

/-- The root a bracket ends in is the one R262 gives. -/
theorem refineRoot_spec (F : List Int) (b : Bracket) : RootOf F b (refineRoot (chebEval F) b) := by
  refine ⟨_, _, _, _, bisect_spec F _, bisect_spec F _, bisect_spec F _, bisect_spec F _, ?_, ?_⟩
  · intro h
    simp only [refineRoot, if_pos h]
  · intro h
    simp only [refineRoot, if_neg h]
    rw [floor_div_eq_fdiv]

/-- The grid search ends in a state it passes, with 10 roots or at the end of the grid. -/
theorem rootSearch_spec (P Q : List Int) (fuel : Nat) : ∀ (onP : Bool) (x y : Int) (j : Nat) (lsp : List Int),
    Searches P Q onP x y j lsp.reverse → lsp.length ≤ 10 → j ≤ gridN → 10 - lsp.length + (gridN - j) ≤ fuel →
    ∃ (onP' : Bool) (x' y' : Int) (j' : Nat),
      Searches P Q onP' x' y' j' (rootSearch cosGrid gridN fuel (chebEval (searched P Q onP))
        (chebEval (searched P Q !onP)) x y j lsp).reverse ∧
      ((rootSearch cosGrid gridN fuel (chebEval (searched P Q onP))
        (chebEval (searched P Q !onP)) x y j lsp).length = 10 ∨ j' = gridN) := by
  induction fuel with
  | zero =>
    intro onP x y j lsp h hl hj hf
    exact ⟨onP, x, y, j, h, by simp only [rootSearch]; omega⟩
  | succ n ih =>
    intro onP x y j lsp h hl hj hf
    simp only [rootSearch]
    split_ifs with hc hz
    · have s := h.found (by simpa using hc.1) hc.2 rfl hz (refineRoot_spec _ _)
      have := ih (!onP) _ _ j (refineRoot (chebEval (searched P Q onP)) _ :: lsp) (by simpa using s)
        (by simp; omega) hj (by simp; omega)
      simpa using this
    · exact ih onP _ _ (j + 1) lsp (h.passed (by simpa using hc.1) hc.2 rfl (by omega)) hl (by omega) (by omega)
    · exact ⟨onP, x, y, j, h, by omega⟩

end Sys2Proof.Machine
end

