-- ==== Sys2Proof/Laws/Tables.lean ====
section
/-! SUPPORT. The shapes of the constant tables and of what the parametric functions return, whatever their values:
lengths, ranges, and the rows the spec admits. -/

namespace Sys2Proof.Machine

/-! ### Split codebooks (43_lsf.md R291) -/

theorem lsfCb1_length : lsfCb1.length = 64 := by simp [lsfCb1]

theorem lsfCb2_length : lsfCb2.length = 128 := by simp [lsfCb2]

theorem lsfCb3_length : lsfCb3.length = 128 := by simp [lsfCb3]

theorem lsfCb1_entry_length (c : Nat) (h : c < 64) : (cbEntry lsfCb1 c).length = 3 := by
  simp [cbEntry, List.getD_eq_getElem?_getD, lsfCb1, h]

theorem lsfCb2_entry_length (c : Nat) (h : c < 128) : (cbEntry lsfCb2 c).length = 3 := by
  simp [cbEntry, List.getD_eq_getElem?_getD, lsfCb2, h]

theorem lsfCb3_entry_length (c : Nat) (h : c < 128) : (cbEntry lsfCb3 c).length = 4 := by
  simp [cbEntry, List.getD_eq_getElem?_getD, lsfCb3, h]

/-- Every coefficient of a split codebook is a 16-bit value. -/
theorem cbEntry_range (cb : List (List Int)) (c : Nat) (h : cb ∈ [lsfCb1, lsfCb2, lsfCb3]) :
    ∀ x ∈ cbEntry cb c, -32768 ≤ x ∧ x ≤ 32767 := by
  have key : ∀ l : List (List Int), (∀ e ∈ l, ∀ x ∈ e, -32768 ≤ x ∧ x ≤ 32767) →
      ∀ x ∈ cbEntry l c, -32768 ≤ x ∧ x ≤ 32767 := by
    intro l hl x hx
    simp only [cbEntry, List.getD_eq_getElem?_getD] at hx
    cases hc : l[c]? with
    | none => simp [hc] at hx
    | some e => rw [hc] at hx; exact hl e (List.mem_of_getElem? hc) x hx
  simp only [List.mem_cons, List.not_mem_nil, or_false] at h
  rcases h with rfl | rfl | rfl
  all_goals
    apply key
    intro e he
    obtain ⟨v, _, rfl⟩ := List.mem_map.1 he
    exact ints_range v

theorem nearest_lt (cb : List (List Int)) (f : List Int) (h : 0 < cb.length) : nearest cb f < cb.length :=
  (argMin_spec _ _ h).1

theorem lsfQuant_length (f : List Int) : (lsfQuant f).1.length = 10 ∧ (lsfQuant f).2.length = 3 := by
  have h1 := nearest_lt lsfCb1 (f.take 3) (by simp [lsfCb1_length])
  have h2 := nearest_lt lsfCb2 ((f.drop 3).take 3) (by simp [lsfCb2_length])
  have h3 := nearest_lt lsfCb3 ((f.drop 6).take 4) (by simp [lsfCb3_length])
  rw [lsfCb1_length] at h1; rw [lsfCb2_length] at h2; rw [lsfCb3_length] at h3
  simp [lsfQuant, quantSplits, lsfCb1_entry_length _ h1, lsfCb2_entry_length _ h2, lsfCb3_entry_length _ h3]

/-! ### Gain tables (45_codebook.md R352) -/

theorem gainCb5_length : gainCb5.length = 32 := by unfold gainCb5 admitted; split_ifs <;> simp

theorem gainCb4_length : gainCb4.length = 16 := by unfold gainCb4 admitted; split_ifs <;> simp

theorem gainCb3_length : gainCb3.length = 8 := by unfold gainCb3 admitted; split_ifs <;> simp

/-- Every gain level is a 16-bit value. -/
theorem gainCb_range (t : List Int) (h : t ∈ [gainCb5, gainCb4, gainCb3]) :
    ∀ x ∈ t, -32768 ≤ x ∧ x ≤ 32767 := by
  simp only [List.mem_cons, List.not_mem_nil, or_false] at h
  rcases h with rfl | rfl | rfl
  all_goals
    simp only [gainCb5, gainCb4, gainCb3, admitted]
    split_ifs
    · exact ints_range _
    · exact tabulate_range fun i _ => by omega

/-! ### Interpolation rows (10_state.md R60; 44_spectral_pipelines.md R332) -/

/-- What a row of an interpolation table can be. -/
theorem interpRow_spec (p : Params) (m : Mode) (j : Nat) :
    (∀ sel ∈ [(interpRow p m j).src, (interpRow p m j).dst],
      (sel = .set0 → 0 < (p.frame m).nLsfSet) ∧ (sel = .set1 → m = .b ∧ 1 < (p.frame m).nLsfSet)) ∧
    0 ≤ (interpRow p m j).w ∧ (interpRow p m j).w ≤ 16384 := by
  have key : ∀ sel, selAdmitted m (p.frame m).nLsfSet sel = true →
      (sel = .set0 → 0 < (p.frame m).nLsfSet) ∧ (sel = .set1 → m = .b ∧ 1 < (p.frame m).nLsfSet) := by
    intro sel
    cases sel <;> simp [selAdmitted]
  unfold interpRow admitted
  split_ifs with hh
  · simp only [Bool.and_eq_true, decide_eq_true_eq] at hh
    obtain ⟨⟨⟨h1, h2⟩, h3⟩, h4⟩ := hh
    refine ⟨fun sel hs => key sel ?_, h3, h4⟩
    rcases List.mem_pair.1 hs with rfl | rfl
    exacts [h1, h2]
  · simp

/-- With one LSF set no row names `set1`. -/
theorem interpRow_not_set1 (p : Params) (m : Mode) (j : Nat) (h : (p.frame m).nLsfSet = 1) :
    (interpRow p m j).src ≠ .set1 ∧ (interpRow p m j).dst ≠ .set1 :=
  ⟨fun e => by have := (((interpRow_spec p m j).1 _ (by simp)).2 e).2; omega,
    fun e => by have := (((interpRow_spec p m j).1 _ (by simp)).2 e).2; omega⟩

/-! ### Linear prediction (42_lpc.md R251, R262, R270) -/

theorem levArith_k_length (r : List Int) : (levArith r).k.length = 10 := by
  simp only [levArith]; split_ifs <;> simp

theorem levArith_a_length (r : List Int) : (levArith r).a.length = 11 := by
  simp only [levArith]; split_ifs <;> simp

theorem levArith_k_range (r : List Int) : ∀ v ∈ (levArith r).k, -32768 ≤ v ∧ v ≤ 32767 := by
  simp only [levArith]; split_ifs
  · exact tabulate_range fun _ _ => by omega
  · exact ints_range _

theorem levArith_a_range (r : List Int) : ∀ v ∈ (levArith r).a, -32768 ≤ v ∧ v ≤ 32767 := by
  simp only [levArith]
  intro v hv
  rcases List.mem_cons.1 hv with rfl | hv
  · omega
  · split_ifs at hv
    · exact tabulate_range (fun _ _ => by omega) v hv
    · exact ints_range _ v hv

/-- What `firstUnstable` finds: nothing when every magnitude is within 32750, else the first place beyond it. -/
theorem firstUnstable_spec (l : List Int) (i : Nat) :
    (firstUnstable (i + 1) l = 0 ↔ ∀ j, j < l.length → |nth l j| ≤ 32750) ∧
    (firstUnstable (i + 1) l ≠ 0 → ∃ f, f < l.length ∧ firstUnstable (i + 1) l = i + 1 + f ∧
      (∀ j, j < f → |nth l j| ≤ 32750) ∧ 32750 < |nth l f|) := by
  induction l generalizing i with
  | nil => simp [firstUnstable]
  | cons k ks ih =>
    simp only [firstUnstable, magnitude_eq_abs]
    split_ifs with h
    · refine ⟨⟨by simp, fun hh => ?_⟩, fun _ => ⟨0, by simp, by simp, by simp, by simpa [nth]⟩⟩
      have := hh 0 (by simp); simp [nth] at this; omega
    · obtain ⟨a, b⟩ := ih (i + 1)
      refine ⟨a.trans ⟨fun hh j hj => ?_, fun hh j hj => ?_⟩, fun hne => ?_⟩
      · cases j with
        | zero => simpa [nth] using h
        | succ j => simpa [nth] using hh j (by simpa using hj)
      · simpa [nth] using hh (j + 1) (by simpa using hj)
      · obtain ⟨f, f1, f2, f3, f4⟩ := b hne
        refine ⟨f + 1, by simpa, by omega, fun j hj => ?_, by simpa [nth] using f4⟩
        cases j with
        | zero => simpa [nth] using h
        | succ j => simpa [nth] using f3 j (by omega)

theorem rootSearch_length_le (grid : Nat → Int) (len fuel : Nat) :
    ∀ (f g : Int → Int) (x y : Int) (j : Nat) (lsp : List Int), lsp.length ≤ 10 →
      (rootSearch grid len fuel f g x y j lsp).length ≤ 10 := by
  induction fuel with
  | zero => intros; simpa [rootSearch]
  | succ n ih =>
    intro f g x y j lsp h
    simp only [rootSearch]
    split_ifs with h1 h2
    · exact ih _ _ _ _ _ _ (by simp; omega)
    · exact ih _ _ _ _ _ _ h
    · exact h

theorem roots_length_le (p q : List Int) : (roots p q).length ≤ 10 := by
  simp only [roots, List.length_reverse]
  exact rootSearch_length_le _ _ _ _ _ _ _ _ _ (by simp)

theorem lpcToLsf_length (a : List Int) : (lpcToLsf a).1.length = 10 := by
  have := roots_length_le (tabulate 6 (sumPoly a)) (tabulate 6 (diffPoly a))
  simp only [lpcToLsf]
  split_ifs
  · simp [lsfMean]
  · simp; omega

theorem lsp2lsf_range (x : Int) : -32768 ≤ lsp2lsf x ∧ lsp2lsf x ≤ 32767 := by
  unfold lsp2lsf admitted
  split_ifs
  · exact toInt16_range _
  · norm_num

theorem lpcToLsf_range (a : List Int) : ∀ v ∈ (lpcToLsf a).1, -32768 ≤ v ∧ v ≤ 32767 := by
  simp only [lpcToLsf]
  split_ifs
  · exact ints_range _
  · intro v hv
    obtain ⟨x, _, rfl⟩ := List.mem_map.1 hv
    exact lsp2lsf_range x

theorem lsf2aFn_length (f : List Int) : (lsf2aFn f).length = 11 := by simp [lsf2aFn]

theorem lsf2aFn_range (f : List Int) : ∀ v ∈ lsf2aFn f, -32768 ≤ v ∧ v ≤ 32767 := by
  intro v hv
  rcases List.mem_cons.1 hv with rfl | hv
  · omega
  · exact ints_range _ v hv

theorem expand_length (t a : List Int) : (expand t a).length = 11 := by simp [expand]

theorem expand_range (t a : List Int) : ∀ v ∈ expand t a, -32768 ≤ v ∧ v ≤ 32767 :=
  tabulate_range fun _ _ => sat16_range _

end Sys2Proof.Machine
end

