-- ==== Sys2Proof/Tests/Slice0.lean ====
section
/-! SUPPORT. The model's own tests: the well-formedness smoke test, command words written out from the spec's
encoding, single steps with the results of 95_test_vectors.md, and for every obligation with hypotheses a
concrete state that meets them. -/

namespace Sys2Proof.Tests

open Sys2Proof.Machine

-- One theorem at a time: each reserves memory of its own for the kernel.
set_option Elab.async false

/-! ### Helpers -/

/-- The state after reset with the given arguments and memory blocks. -/
def machine (args : List Nat) (mem : List (Nat × List Int)) : State :=
  let a : Nat → Word32 := fun k => BitVec.ofNat 32 (args.getD k 0)
  { State.reset with
    args := #v[a 0, a 1, a 2, a 3, a 4, a 5, a 6, a 7]
    dmem := mem.foldl (fun m p => m.writeVec p.1 p.2) [] }

/-- That state with context `c` open. -/
def opened (c : Nat) (kind : CtxKind) (mode : Mode) (s : State) : State :=
  s.setCtx c (some (Ctx.fresh s.params kind mode))

/-- The state an outcome leads to. -/
def reached : StepOutcome → State
  | .next t => t
  | .fault f => nomatch f
  | .refused _ => State.reset

/-- The outcome is a next state. -/
def goesOn : StepOutcome → Bool
  | .next _ => true
  | .fault _ => false
  | .refused _ => false

theorem reached_spec (o : StepOutcome) (h : goesOn o = true) : o = .next (reached o) := by
  cases o
  · rfl
  · cases h
  · cases h

/-- The state after one step that runs the command word `w`. -/
def ran (w : Nat) (s : State) : State := reached (step (s.withFetchWord 32 w))

/-- RES0, RES1, STATUS and ERRINFO as the host reads them. -/
def report (s : State) : Int × Int × Nat × Nat :=
  (s.res0.toInt, s.res1.toInt, s.status.word.toNat, s.errinfo.toNat)

/-- A state with a command under way. -/
def busy : State := acceptCmd 0x04 State.reset

/-! ### Well-formedness -/

theorem test_gainQuant_stage3_illFormed : (Instr.gainQuant 3).wellFormed = false := by decide

theorem test_gainDequant_stage3_illFormed : (Instr.gainDequant 3).wellFormed = false := by decide

theorem test_gain_stages_wellFormed :
    ∀ stg : BitVec 2, stg ≠ 3 → (Instr.gainQuant stg).wellFormed && (Instr.gainDequant stg).wellFormed := by decide

/-! ### Decoding (30_encoding.md R111, R115). Fields, from bit 31: reserved, MODE, STG, CTX, X, RND, DIR, SH, OPC -/

theorem test_decode_scalar :
    decode 0b000000000_0_00_0000_0_0_0_00000_00000000 = .ok .nop ∧
    decode 0b000000000_0_00_0000_0_0_0_00000_00000001 = .ok .sat16 ∧
    decode 0b000000000_0_00_0000_0_0_0_00000_00000010 = .ok .abs16 ∧
    decode 0b000000000_0_00_0000_0_0_0_00000_00000011 = .ok .abs32 ∧
    decode 0b000000000_0_00_0000_0_0_0_00000_00000100 = .ok .adds16 ∧
    decode 0b000000000_0_00_0000_0_0_0_00000_00000101 = .ok .subs16 ∧
    decode 0b000000000_0_00_0000_0_0_0_00000_00000110 = .ok .adds32 ∧
    decode 0b000000000_0_00_0000_0_0_0_00000_00000111 = .ok .subs32 ∧
    decode 0b000000000_0_00_0000_0_1_0_01111_00001000 = .ok (.mul16 15 .right .half) ∧
    decode 0b000000000_0_00_0000_0_0_1_00100_00001001 = .ok (.shift32 4 .left .floor) ∧
    decode 0b000000000_0_00_0000_0_1_1_10000_00001010 = .ok (.shift16 16 .left .half) ∧
    decode 0b000000000_0_00_0000_0_0_0_00000_00001011 = .ok .normw16 ∧
    decode 0b000000000_0_00_0000_0_0_0_00000_00001100 = .ok .normw32 ∧
    decode 0b000000000_0_00_0000_0_0_0_00000_00001101 = .ok .normu32 ∧
    decode 0b000000000_0_00_0000_0_0_0_00000_00001110 = .ok .sizebits := by decide

theorem test_decode_vectors_and_filters :
    decode 0b000000000_0_00_0000_0_0_0_00000_00010000 = .ok .vmaxabs16 ∧
    decode 0b000000000_0_00_0000_0_0_1_00001_00010001 = .ok (.dotsc 1 .left) ∧
    decode 0b000000000_0_00_0000_0_1_0_01110_00010010 = .ok (.vscale 14 .right .half) ∧
    decode 0b000000000_0_00_0000_0_0_0_01110_00010011 = .ok (.vmul 14 .right .floor) ∧
    decode 0b000000000_0_00_0000_0_0_0_00000_00100000 = .ok .filtMa ∧
    decode 0b000000000_0_00_0000_0_0_0_00000_00100001 = .ok .filtAr ∧
    decode 0b000000000_0_00_0011_0_0_0_00000_00100010 = .ok (.hpFilt 3) ∧
    decode 0b000000000_0_00_0000_1_0_0_00000_00100011 = .ok (.bwexp .wgt) ∧
    decode 0b000000000_0_00_0000_0_0_0_00000_00100011 = .ok (.bwexp .syn) := by decide

theorem test_decode_prediction_and_lsf :
    decode 0b000000000_0_00_0000_0_0_0_00000_00110000 = .ok .autocorr ∧
    decode 0b000000000_0_00_0000_0_0_0_00000_00110001 = .ok .levinson ∧
    decode 0b000000000_0_00_0000_0_0_0_00000_00110010 = .ok .a2lsf ∧
    decode 0b000000000_0_00_0000_0_0_0_00000_00110011 = .ok .lsf2a ∧
    decode 0b000000000_0_00_0000_0_0_0_00000_01000000 = .ok .lsfQuant ∧
    decode 0b000000000_0_00_0000_0_0_0_00000_01000001 = .ok .lsfDequant ∧
    decode 0b000000000_0_00_0000_0_0_0_00000_01000010 = .ok .lsfStab ∧
    decode 0b000000000_0_00_0000_0_0_0_00000_01000011 = .ok .lsfInterp ∧
    decode 0b000000000_0_00_0001_0_0_0_00000_01001000 = .ok (.specAna 1) ∧
    decode 0b000000000_0_00_0010_0_0_0_00000_01001001 = .ok (.specSyn 2) := by decide

theorem test_decode_codebook_to_control :
    decode 0b000000000_0_00_0000_0_0_0_00000_01010000 = .ok .acbSearch ∧
    decode 0b000000000_0_00_0000_0_0_0_00000_01010001 = .ok .bcbSearch ∧
    decode 0b000000000_0_00_0000_1_0_0_00000_01010010 = .ok (.cbConstruct .backward) ∧
    decode 0b000000000_0_10_0000_0_0_0_00000_01010011 = .ok (.gainQuant 2) ∧
    decode 0b000000000_0_01_0000_0_0_0_00000_01010100 = .ok (.gainDequant 1) ∧
    decode 0b000000000_1_00_0000_0_0_0_00000_01100000 = .ok (.pack .b) ∧
    decode 0b000000000_0_00_1010_0_0_0_00000_01100001 = .ok (.unpack 10) ∧
    decode 0b000000000_0_00_0010_0_0_0_00000_01110000 = .ok (.plcGood 2) ∧
    decode 0b000000000_0_00_0001_0_0_0_00000_01110001 = .ok (.plcLost 1) ∧
    decode 0b000000000_1_00_0011_1_0_0_00000_01111110 = .ok (.chOpen 3 .decoder .b) ∧
    decode 0b000000000_0_00_0001_0_0_0_00000_01111111 = .ok (.chClose 1) := by decide

/-- 95_test_vectors.md T60-1 to T60-6, T40-7: unassigned opcodes, a reserved bit, an unused field, STG = 3. -/
theorem test_decode_refuses :
    decode 0x0F = .error .illegal ∧ decode 0xFF = .error .illegal ∧ decode 0x0080000F = .error .illegal ∧
    decode 0x00800004 = .error .reserved ∧ decode 0x00004004 = .error .reserved ∧
    decode 0x00004011 = .error .reserved ∧ decode 0x00300053 = .error .reserved ∧
    decode 0x00300054 = .error .reserved ∧ decode 0x00800061 = .error .reserved := by decide

/-! ### Single steps (95_test_vectors.md) -/

/-- S3, S9, S12, S18, S20: SAT16, ABS16, ABS32, ADDS16, SUBS16. -/
theorem test_saturating_scalars :
    report (ran 0x01 (machine [0xFFFF7FFF] [])) = (-32768, 0, 2, 0) ∧
    report (ran 0x02 (machine [0x12340005] [])) = (5, 0, 2, 0) ∧
    report (ran 0x03 (machine [0x80000000] [])) = (2147483647, 0, 2, 0) ∧
    report (ran 0x04 (machine [0x00017FFF, 0x00010001] [])) = (32767, 0, 2, 0) ∧
    report (ran 0x05 (machine [0, 0xFFFF8000] [])) = (32767, 0, 2, 0) := by decide +kernel

/-- S24, S28: ADDS32, SUBS32. -/
theorem test_saturating_words :
    report (ran 0x06 (machine [0x80000000, 0xFFFFFFFF] [])) = (-2147483648, 0, 2, 0) ∧
    report (ran 0x07 (machine [0x64, 0xFFFFFF9C] [])) = (200, 0, 2, 0) := by decide +kernel

/-- S30, S33, S40, S48, S49: MUL16, SHIFT32, SHIFT16. -/
theorem test_shifts :
    report (ran 0x2108 (machine [0xFFFF8000, 0xFFFF8000] [])) = (2147483647, 0, 2, 0) ∧
    report (ran 0x4108 (machine [0xFFFFFFFF, 1] [])) = (0, 0, 2, 0) ∧
    report (ran 0x5F09 (machine [0x80000000] [])) = (-1, 0, 2, 0) ∧
    report (ran 0x100A (machine [0xFFFFFFFF] [])) = (-1, 0, 2, 0) ∧
    report (ran 0x500A (machine [0xFFFF8000] [])) = (0, 0, 2, 0) := by decide +kernel

/-- S57, S60, S68, S72: the normalisation shifts. -/
theorem test_normalisation :
    report (ran 0x0B (machine [0xFFFFC000] [])) = (1, 0, 2, 0) ∧
    report (ran 0x0C (machine [0xFFFFFFFF] [])) = (31, 0, 2, 0) ∧
    report (ran 0x0D (machine [0x00010000] [])) = (15, 0, 2, 0) ∧
    report (ran 0x0E (machine [0xF0] [])) = (8, 0, 2, 0) := by decide +kernel

/-- T60-1, T60-3, T60-18: an illegal word, a reserved bit, NOP. -/
theorem test_nop_and_bad_words :
    report (ran 0x0F (machine [] [])) = (0, 0, 0x102, 15) ∧ report (ran 0x800004 (machine [] [])) = (0, 0, 0x202, 15) ∧
    report (ran 0x00 (ran 0x0F (machine [] []))) = (0, 0, 2, 0) := by decide +kernel

/-- T40-1, T40-2. -/
theorem test_vmaxabs16 :
    report (ran 0x10 (machine [0x100, 4] [(0x100, [3, -7, 7, 2])])) = (7, 1, 2, 0) ∧
    report (ran 0x10 (machine [0x100, 2] [(0x100, [32767, -32768])])) = (32767, 1, 2, 0) := by decide +kernel

/-- T40-4, T40-6. -/
theorem test_dotsc :
    report (ran 0x111 (machine [0x100, 0x100, 3] [(0x100, [3, -3, 5])])) = (20, 0, 2, 0) ∧
    report (ran 0x11 (machine [0x100, 0x200, 4]
      [(0x100, [32767, 32767, 32767, -32768]), (0x200, [32767, 32767, 32767, 32767])])) =
        (1073774591, 0, 2, 0) := by decide +kernel

/-- T40-8, T40-11. -/
theorem test_vscale :
    (ran 0x4E12 (machine [0x100, 0x200, 2, 8192] [(0x100, [100, -101])])).dmem.readVec 0x200 2 = [50, -50] ∧
    report (ran 0x12 (machine [0x100, 0x101, 4, 1] [(0x100, [1, 2, 3, 4])])) = (0, 0, 0x602, 1) := by decide +kernel

/-- T40-10, and in place with the first input. -/
theorem test_vmul :
    (ran 0x0E13 (machine [0x100, 0x180, 0x200, 1] [(0x100, [1000]), (0x180, [8192])])).dmem.readVec 0x200 1 = [500] ∧
    (ran 0x0013 (machine [0x100, 0x180, 0x100, 2] [(0x100, [3, 400]), (0x180, [-2, 400])])).dmem.readVec 0x100 2 =
      [-6, 32767] := by decide +kernel

/-- T41-1, T41-3. -/
theorem test_filtMa :
    (ran 0x20 (machine [0x200, 0x300, 2, 0x100, 1] [(0x100, [4096, -2048]), (0x1FF, [100, 300, 50])])).dmem.readVec
      0x300 2 = [250, -100] ∧
    (ran 0x20 (machine [0x200, 0x301, 5, 0x100, 1]
      [(0x100, [4096, -2048]), (0x1FF, [0, 1000, 2000, -3000, 32767, -32768])])).dmem.readVec 0x301 5 =
        [1000, 1500, -4000, 32767, -32768] := by decide +kernel

/-- T41-4, T41-5. -/
theorem test_filtAr :
    (ran 0x21 (machine [0x200, 0x401, 2, 0x100, 1]
      [(0x100, [4096, -2048]), (0x200, [300, 0]), (0x400, [100])])).dmem.readVec 0x401 2 = [350, 175] ∧
    (ran 0x21 (machine [0x200, 0x401, 3, 0x100, 1]
      [(0x100, [4096, -4096]), (0x200, [20000, 20000, 0])])).dmem.readVec 0x401 3 = [20000, 32767, 32767] := by
  decide +kernel

/-- T60-7, and a legal call without samples. -/
theorem test_hpFilt :
    report (ran 0x50022 (machine [0x200, 0x300, 1] [])) = (0, 0, 0x302, 15) ∧
    report (ran 0x22 (opened 0 .encoder .a (machine [0x200, 0x300, 0] []))) = (0, 0, 2, 0) := by decide +kernel

/-- R204: in place is allowed, a partial overlap is not. -/
theorem test_bwexp :
    report (ran 0x23 (machine [0x100, 0x100] [])) = (0, 0, 2, 0) ∧
    report (ran 0x8023 (machine [0x100, 0x10A] [])) = (0, 0, 0x602, 1) := by decide +kernel

/-- T42-2, T42-10. -/
theorem test_autocorr :
    (let t := ran 0x30 (machine [0x100, 2, 0x200, 3] [(0x100, [1000, -1000])]);
      (t.res0.toNat, [t.dmem.readI32 0x200, t.dmem.readI32 0x202, t.dmem.readI32 0x204, t.dmem.readI32 0x206])) =
        (0, [2000000, -1000000, 0, 0]) ∧
    report (ran 0x30 (machine [0x100, 2, 0x200, 11] [])) = (0, 0, 0x402, 3) := by decide +kernel

/-- T42-5, T42-8. -/
theorem test_levinson :
    (let t := ran 0x31 (machine [0x200, 0x300, 0x320] [(0x200, [100])]);
      (report t, t.dmem.readVec 0x300 11)) = ((1, 0, 2, 0), [4096, 0, 0, 0, 0, 0, 0, 0, 0, 0, 0]) ∧
    (let t := ran 0x31 (machine [0x200, 0x300, 0x320] [(0x200, [-5, -1]), (0x320, [7])]);
      (report t, t.dmem.readVec 0x300 11, t.dmem.readI16 0x320)) =
        ((0, 0, 6, 0), [4096, 0, 0, 0, 0, 0, 0, 0, 0, 0, 0], 0) := by decide +kernel

/-- R260, R270: the regions of A2LSF and LSF2A may not overlap. -/
theorem test_lpc_conversions :
    (ran 0x32 (machine [0x100, 0x10B] [])).status.err = .ok ∧ (ran 0x32 (machine [0x100, 0x10A] [])).status.err = .errAlias ∧
    (ran 0x33 (machine [0x100, 0x10A] [])).status.err = .ok ∧
    (ran 0x33 (machine [0x100, 0x100] [])).status.err = .errAlias := by decide +kernel

/-- R290, T43-3. -/
theorem test_lsf_quantiser :
    (ran 0x40 (machine [0x100, 0x100, 0x10A] [])).status.err = .ok ∧
    report (ran 0x41 (machine [0x100, 0x200] [(0x100, [64])])) = (0, 0, 0x702, 0) ∧
    (ran 0x41 (machine [0x100, 0x200] [(0x100, [63, 127, 127])])).status.err = .ok := by decide +kernel

/-- T43-5, T43-6, T43-9. -/
theorem test_lsfStab_lsfInterp :
    report (ran 0x42 (machine [0x100, 0x120, 3] [])) = (0, 0, 0x402, 2) ∧
    (ran 0x42 (machine [0x100, 0x100, 2] [])).status.err = .ok ∧
    (ran 0x43 (machine [0x100, 0x120, 0x140, 8192]
      [(0x100, [1000, 1]), (0x120, [2001, 2])])).dmem.readVec 0x140 3 = [1501, 2, 0] ∧
    report (ran 0x43 (machine [0x100, 0x120, 0x140, 16385] [])) = (0, 0, 0x402, 3) := by decide +kernel

/-- T44-3, T44-5. -/
theorem test_specAna :
    report (ran 0x48 (opened 0 .decoder .a (machine [0x2000, 0x2100, 0x2110, 0x2140] []))) = (0, 0, 0x302, 15) ∧
    report (ran 0x10048 (opened 1 .encoder .a (machine [0x1000, 0x1050, 0x1110, 0x1140] []))) = (0, 0, 0x602, 1) := by
  decide +kernel

/-- T44-4, T44-6. -/
theorem test_specSyn :
    report (ran 0x20049 (opened 2 .decoder .a (machine [0x100, 0x200] [(0x100, [64])]))) = (0, 0, 0x702, 0) ∧
    report (ran 0x10049 (opened 1 .encoder .a (machine [0x100, 0x200] []))) = (0, 0, 0x302, 15) := by decide +kernel

/-- T45-1 (RES0), T45-5, T45-7. -/
theorem test_codebook_search :
    (ran 0x50 (machine [0x100, 3, 0x180, 2, 0x200, 0x210, 0x020202] [])).res0.toNat = 4 ∧
    (ran 0x51 (machine [0x100, 40, 0x180, 40, 0x200, 0x210, 0x070708] [])).res0.toNat = 42 ∧
    report (ran 0x50 (machine [0x100, 3, 0x180, 2, 0x200, 0x210, 0x020200] [])) = (0, 0, 0x402, 6) ∧
    report (ran 0x51 (machine [0x100, 3, 0x180, 0, 0x200, 0x210, 0x020202] [])) = (0, 0, 0x402, 3) := by decide +kernel

/-- The vectors of T45-1 and T45-2 (CB_SMOOTH is not used by the base section), and the widths' sums of R401. -/
theorem test_codebook_vectors_and_field_widths :
    cbVector (cbParams Params.default) [1, 2, 3] 3 2 0 = [2, 3] ∧
    cbVector (cbParams Params.default) [1, 2, 3] 3 2 1 = [1, 2] ∧
    (fieldWidths Params.default .a).sum = 302 ∧ (fieldWidths Params.default .b).sum = 394 := by decide +kernel

/-- R351 with an illustrative CB_AUG and CB_SMOOTH: 41 + 20 base vectors of 40 samples before the filtered ones. -/
theorem test_codebook_sections :
    let P := { cbParams Params.default with aug := fun g l k => [nth g 0, l, k], smooth := List.map (· + 1) }
    cbVector P (List.replicate 80 7) 80 40 41 = [7, 80, 0] ∧ cbVector P (List.replicate 80 7) 80 40 60 = [7, 80, 19] ∧
    cbVector P (List.replicate 80 7) 80 40 61 = List.replicate 40 8 ∧
    cbVector P (List.replicate 80 7) 80 40 121 = [8, 80, 19] := by decide +kernel

/-- R370: a negative codebook index, and an index beyond the stage's size. -/
theorem test_cbConstruct :
    report (ran 0x52 (machine [0x100, 3, 0x200, 0x210, 0x300, 2, 0x020202] [(0x200, [-1])])) = (0, 0, 0x702, 2) ∧
    report (ran 0x8052 (machine [0x100, 3, 0x200, 0x210, 0x300, 2, 0x020202] [(0x210, [31, 15, 8])])) =
      (0, 0, 0x702, 3) := by decide +kernel

/-- T45-13, T45-14, T45-15. -/
theorem test_gains :
    report (ran 0x200054 (machine [8, 8192] [])) = (0, 0, 0x702, 0) ∧
    report (ran 0x300053 (machine [5000, 16384] [])) = (0, 0, 0x202, 15) ∧
    report (ran 0x200053 (machine [5000, 0x14000] [])) = (0, 0, 0x402, 1) ∧
    (ran 0x200054 (machine [7, 8192] [])).status.err = .ok := by decide +kernel

/-- T46-1, T46-4. -/
theorem test_pack :
    (let t := ran 0x60 (machine [0x1000, 0x1100] [(0x1000, [0x2D])]);
      (report t, t.dmem.readVec 0x1100 2)) = ((38, 0, 2, 0), [0xB4, 0]) ∧
    report (ran 0x60 (machine [0x1000, 0x1100] [(0x1000, [64])])) = (0, 0, 0x702, 0) := by decide +kernel

/-- T46-2 with the bits T46-11 sets (the report, and field 0), T46-8. -/
theorem test_unpack :
    report (ran 0x61 (opened 0 .decoder .a (machine [0x1100, 38, 0x1200] [(0x1100, [-76])]))) = (0, 0, 0xA, 0) ∧
    unpackField (layout Params.default .a) (bufferBit [0xFFB4]) 0 6 = 0x2D ∧
    report (ran 0x61 (opened 0 .decoder .a (machine [0x1100, 0x10026, 0x1200] []))) = (0, 0, 0x802, 1) := by
  decide +kernel

/-- T47-1: no correlation keeps the lag. -/
theorem test_plcGood :
    report (ran 0x20070 (opened 2 .decoder .a (machine [0x1400, 0x1500, 0x1600] []))) = (20, 0, 2, 0) := by
  decide +kernel

/-- T47-2, T47-7. -/
theorem test_plcLost :
    (let t := ran 0x20071 (opened 2 .decoder .a (machine [0x1700, 0x1800] []));
      (report t, t.dmem.readVec 0x1800 2, (t.ctxAt 2).map fun x => (x.seed.toInt, x.lossCnt.toNat))) =
        ((32767, 0, 2, 0), [4096, 0], some (32617, 1)) ∧
    report (ran 0x20071 (opened 2 .decoder .a (machine [0x1700, 0x1750] []))) = (0, 0, 0x602, 0) := by decide +kernel

/-- T60-8, T60-9. -/
theorem test_block_control :
    (ran 0x807E (machine [] [])).ctxopen.toNat = 1 ∧
    report (ran 0x807E (opened 0 .decoder .a (machine [] []))) = (0, 0, 0x302, 15) ∧
    report (ran 0x1007F (machine [] [])) = (0, 0, 0x302, 15) ∧
    (ran 0x7F (opened 0 .decoder .a (machine [] []))).ctxopen.toNat = 0 := by decide +kernel

/-- T60-17, T60-12: the first failing register, a region beyond the memory. -/
theorem test_check_order :
    report (ran 0x10 (machine [0x10000, 0x10004] [])) = (0, 0, 0x402, 0) ∧
    report (ran 0x10 (machine [8190, 4] [])) = (0, 0, 0x502, 0) ∧
    report (ran 0x20 (machine [0, 0x300, 4, 0x100, 1] [])) = (0, 0, 0x502, 0) := by decide +kernel

/-- T70-2 to T70-4: a write to a read-only register, and HOSTVIOL cleared by writing 1. -/
theorem test_hostviol :
    (hostAccess (.write 0x30 32 5) State.reset).status.word = 0x10000 ∧
    (hostAccess (.write 0x08 32 0x10000) (hostAccess (.write 0x30 32 5) State.reset)).status.word = 0 ∧
    (hostAccess (.write 0x08 32 0xFFFEFFFF) (hostAccess (.write 0x30 32 5) State.reset)).status.word = 0x10000 := by
  decide +kernel

/-- T70-5: the data window. -/
theorem test_ddata :
    (let s := hostAccess (.write 0x3C 32 0xFFFF8000) { State.reset with daddr := 0x10 };
      (s.daddr.toNat, (hostAccess (.read 0x3C 32) { s with daddr := 0x10 }).rdata.toNat)) = (0x11, 0x8000) := by
  decide +kernel

/-! ### Parameters -/

/-- Parameters other than the defaults: the smallest data memory, one context, two LSF sets in mode A, the last LSF
clamped, a listed mix, and a layout of mode A that places the high half of field 0 first and its low half last. -/
def other : Params :=
  let a := { Params.default.frameA with nLsfSet := 2, nState := 50 }
  { Params.default with
    dmemWords := 1024, nctx := 1, lsfClampLast := true, plcGainLvl := #v[16384, 8192, 4096, 0]
    plcMix := .table (List.replicate 32768 32768)
    frameA :=
      { a with
        layout := some ([{ f := 0, hi := 5, lo := 3 }] ++
          (canonicalLayout (fieldWidths { Params.default with frameA := a } .a)).tail ++ [{ f := 0, hi := 2, lo := 0 }]) } }

theorem test_frameOk_default : ∀ m, FrameOk Params.default m
  | .a => ⟨by decide +kernel, by decide +kernel, by decide +kernel, by decide +kernel⟩
  | .b => ⟨by decide +kernel, by decide +kernel, by decide +kernel, by decide +kernel⟩

theorem test_frameOk_other : ∀ m, FrameOk other m
  | .a => ⟨by decide +kernel, by decide +kernel, by decide +kernel, by decide +kernel⟩
  | .b => ⟨by decide +kernel, by decide +kernel, by decide +kernel, by decide +kernel⟩

theorem test_paramsOk_default : ParamsOk Params.default :=
  ⟨by decide, by decide, by decide, test_frameOk_default, by decide, by decide, by decide, by decide, by decide,
    by decide, trivial, by decide⟩

theorem test_paramsOk_other : ParamsOk other :=
  ⟨by decide, by decide, by decide, test_frameOk_other, by decide, by decide, by decide, by decide, by decide,
    by decide, ⟨List.length_replicate, List.pairwise_replicate.2 (.inr (le_refl _)), fun v hv =>
      (List.eq_of_mem_replicate hv).le⟩, by decide⟩

/-- Each parameter at its other value: an address beyond the memory, a context beyond NCTX, field 0 split in the frame
(46_bitstream.md R402, 301 bits), and the gain and the pitch weight of the first loss. -/
theorem test_parameters :
    report (ran 0x10 { machine [1023, 2] [] with params := other }) = (0, 0, 0x502, 0) ∧
    report (ran 0x1807E { machine [] [] with params := other }) = (0, 0, 0x302, 15) ∧
    (let t := ran 0x60 { machine [0, 100] [(0, [0x2D])] with params := other };
      (t.dmem.readVec 100 2, t.dmem.readVec 137 1)) = ([0xA0, 0], [0x28]) ∧
    report (ran 0x71 (opened 0 .decoder .a { machine [0, 200] [] with params := other })) = (16384, 32768, 2, 0) := by
  decide +kernel

/-! ### States that meet the hypotheses of the obligations -/

theorem test_hyp_bitlenIsLeastExponent : 7 < 2 ^ 3 ∧ 8 < 2 ^ 4 := by decide

theorem test_hyp_fixedPointPrimitives : 0 < 1 ∧ 0 < 31 := by decide

/-- Each clause at its ends: 0, the largest and the smallest operand. -/
theorem test_hyp_normalisationResults :
    (arg16 (machine [0] []) 0 = 0 ∧ arg32 (machine [0] []) 0 = 0 ∧ ((machine [0] []).args[0]).toNat = 0) ∧
    (0 < arg16 (machine [0x7FFF] []) 0 ∧ 0 < arg32 (machine [0x7FFFFFFF] []) 0 ∧
      0 < ((machine [0xFFFFFFFF] []).args[0]).toNat) ∧
    (arg16 (machine [0x8000] []) 0 < 0 ∧ arg32 (machine [0x80000000] []) 0 < 0) ∧
    ((machine [0xFFFFFFFF] []).args[0]).toNat < 2 ^ 32 := by decide +kernel

theorem test_hyp_vectorReductionResults :
    (let s := machine [65535, 0] []; argIs s 0 65535 ∧ argIs s 1 0 ∧ fits s 65535 0) ∧
    (let s := machine [8188, 4] []; argIs s 0 8188 ∧ argIs s 1 4 ∧ fits s 8188 4 ∧ 0 < 4) ∧
    (let s := machine [0, 8191, 1] []
     argIs s 0 0 ∧ argIs s 1 8191 ∧ argIs s 2 1 ∧ fits s 0 1 ∧ fits s 8191 1) := by decide +kernel

theorem test_hyp_vectorProductResults :
    (let s := machine [0, 4, 4, 1] []
     argIs s 0 0 ∧ argIs s 1 4 ∧ argIs s 2 4 ∧ fits s 0 4 ∧ fits s 4 4 ∧ apart 4 4 0 4) ∧
    (let s := machine [0, 4, 4, 4] []
     argIs s 0 0 ∧ argIs s 1 4 ∧ argIs s 2 4 ∧ argIs s 3 4 ∧ fits s 0 4 ∧ fits s 4 4 ∧ apart 4 4 0 4 ∧ 4 = 4) := by
  decide +kernel

/-- The history starts at word 0, the order is the largest; in place and apart. -/
theorem test_hyp_filtMaResult :
    (let s := machine [31, 31, 9, 40, 31] []
     argIs s 0 31 ∧ argIs s 1 31 ∧ argIs s 2 9 ∧ argIs s 3 40 ∧ argIs s 4 31 ∧ 31 ≤ 31 ∧
       fits s (31 - 31) (31 + 9) ∧ fits s 31 9 ∧ fits s 40 (31 + 1) ∧ apart 31 9 40 (31 + 1)) ∧
    (let s := machine [31, 8191, 1, 40, 31] []
     argIs s 1 8191 ∧ fits s 8191 1 ∧ apart 8191 1 (31 - 31) (31 + 1) ∧ apart 8191 1 40 (31 + 1)) := by decide +kernel

theorem test_hyp_filtArResult :
    (let s := machine [31, 31, 9, 40, 31] []
     argIs s 0 31 ∧ argIs s 1 31 ∧ argIs s 2 9 ∧ argIs s 3 40 ∧ argIs s 4 31 ∧ 31 ≤ 31 ∧ fits s 31 9 ∧
       fits s (31 - 31) (31 + 9) ∧ fits s 40 (31 + 1) ∧ apart (31 - 31) (31 + 9) 40 (31 + 1)) ∧
    (let s := machine [8191, 31, 1, 40, 31] []
     argIs s 0 8191 ∧ fits s 8191 1 ∧ apart (31 - 31) (31 + 1) 8191 1) := by decide +kernel

theorem test_hyp_hpFiltResult :
    (let s := opened 3 .decoder .b (machine [8190, 8190, 2] [])
     argIs s 0 8190 ∧ argIs s 1 8190 ∧ argIs s 2 2 ∧ fits s 8190 2) ∧
    (opened 3 .decoder .b (machine [8190, 8190, 2] [])).ctxAt 3 = some (Ctx.fresh Params.default .decoder .b) :=
  ⟨by decide +kernel, rfl⟩

theorem test_hyp_autocorrResult :
    let s := machine [0, 4096, 4096, 10] []
    argIs s 0 0 ∧ argIs s 1 4096 ∧ argIs s 2 4096 ∧ argIs s 3 10 ∧ 1 ≤ 4096 ∧ 4096 ≤ 4096 ∧ fits s 0 4096 ∧
      fits s 4096 (2 * (10 + 1)) ∧ apart 4096 (2 * (10 + 1)) 0 4096 := by decide +kernel

theorem test_hyp_autocorrNeverOverflows :
    (∀ v ∈ List.replicate 4096 (-32768 : Int), -32768 ≤ v ∧ v ≤ 32767) ∧
      1 ≤ (List.replicate 4096 (-32768 : Int)).length ∧ (List.replicate 4096 (-32768 : Int)).length ≤ 4096 ∧
      0 + 4096 ≤ (List.replicate 4096 (-32768 : Int)).length := by
  have e : (List.replicate 4096 (-32768 : Int)).length = 4096 := List.length_replicate
  refine ⟨fun v hv => ?_, ?_, ?_, ?_⟩
  · rw [List.eq_of_mem_replicate hv]
    decide
  all_goals omega

theorem test_hyp_levinsonResult :
    let s := machine [8170, 0, 11] []
    argIs s 0 8170 ∧ argIs s 1 0 ∧ argIs s 2 11 ∧ fits s 8170 22 ∧ fits s 0 11 ∧ fits s 11 10 ∧ apart 0 11 8170 22 ∧
      apart 11 10 8170 22 ∧ apart 0 11 11 10 := by decide +kernel

theorem test_hyp_aToLsfResult :
    let s := machine [8181, 8171] []
    argIs s 0 8181 ∧ argIs s 1 8171 ∧ fits s 8181 11 ∧ fits s 8171 10 ∧ apart 8171 10 8181 11 := by decide +kernel

theorem test_hyp_lsfQuantResult :
    (let s := machine [0, 0, 10] []
     argIs s 0 0 ∧ argIs s 1 0 ∧ argIs s 2 10 ∧ fits s 0 10 ∧ fits s 10 3 ∧ apart 10 3 0 10) ∧
    (let s := machine [0, 10, 8189] []
     argIs s 1 10 ∧ argIs s 2 8189 ∧ fits s 10 10 ∧ fits s 8189 3 ∧ apart 10 10 0 10 ∧ apart 8189 3 10 10) := by
  decide +kernel

theorem test_hyp_lsfDequantResults :
    let s := machine [0, 3] [(0, [63, 127, 127])]
    argIs s 0 0 ∧ argIs s 1 3 ∧ fits s 0 3 ∧ fits s 3 10 ∧ apart 3 10 0 3 ∧ 63 < 64 ∧ 127 < 128 ∧
      s.dmem.readI16 0 = (63 : Nat) ∧ s.dmem.readI16 (0 + 1) = (127 : Nat) ∧ s.dmem.readI16 (0 + 2) = (127 : Nat) := by
  decide +kernel

theorem test_hyp_lsfStabResult :
    (let s := machine [0, 0, 1] []; argIs s 0 0 ∧ argIs s 1 0 ∧ argIs s 2 1 ∧ fits s 0 (10 * 1)) ∧
    (let s := machine [8152, 8172, 2] []
     argIs s 0 8152 ∧ argIs s 1 8172 ∧ argIs s 2 2 ∧ fits s 8152 (10 * 2) ∧ fits s 8172 (10 * 2) ∧
       apart 8172 (10 * 2) 8152 (10 * 2)) := by decide +kernel

/-- The weight at both ends of its range, in place with one input and with both. -/
theorem test_hyp_subframeCoefficientResults :
    (let s := machine [0, 10, 0, 16384] []
     argIs s 0 0 ∧ argIs s 1 10 ∧ argIs s 2 0 ∧ 0 ≤ arg16 s 3 ∧ arg16 s 3 = 16384 ∧ fits s 0 10 ∧ fits s 10 10 ∧
       apart 0 10 10 10) ∧
    (let s := machine [0, 0, 0, 0] []; argIs s 1 0 ∧ arg16 s 3 = 0) ∧
    (let s := machine [0, 10] []
     argIs s 0 0 ∧ argIs s 1 10 ∧ fits s 0 10 ∧ fits s 10 11 ∧ apart 10 11 0 10) ∧
    (let s := machine [0, 11] []
     argIs s 0 0 ∧ argIs s 1 11 ∧ fits s 0 11 ∧ fits s 11 11 ∧ apart 11 11 0 11) := by decide +kernel

/-- Both modes. -/
theorem test_hyp_specAnaResult :
    (let s := opened 0 .encoder .a (machine [0, 160, 163, 207] [])
     argIs s 0 0 ∧ argIs s 1 160 ∧ argIs s 2 163 ∧ argIs s 3 207 ∧ fits s 0 160 ∧ fits s 160 3 ∧ fits s 163 44 ∧
       fits s 207 44 ∧ apart 160 3 0 160 ∧ apart 163 44 0 160 ∧ apart 207 44 0 160 ∧ apart 160 3 163 44 ∧
       apart 160 3 207 44 ∧ apart 163 44 207 44) ∧
    (let s := opened 0 .encoder .b (machine [0, 240, 246, 312] [])
     argIs s 0 0 ∧ argIs s 1 240 ∧ argIs s 2 246 ∧ argIs s 3 312 ∧ fits s 0 240 ∧ fits s 240 6 ∧ fits s 246 66 ∧
       fits s 312 66 ∧ apart 240 6 0 240 ∧ apart 246 66 0 240 ∧ apart 312 66 0 240 ∧ apart 240 6 246 66 ∧
       apart 240 6 312 66 ∧ apart 246 66 312 66) ∧
    (opened 0 .encoder .b (machine [0, 240, 246, 312] [])).ctxAt 0 = some (Ctx.fresh Params.default .encoder .b) ∧
    (Ctx.fresh Params.default .encoder .b).kind = .encoder :=
  ⟨by decide +kernel, by decide +kernel, rfl, rfl⟩

theorem test_hyp_analysisIsThePipeline :
    ParamsOk Params.default ∧ ParamsOk other ∧
      (List.replicate 160 (0 : Int)).length = Config.frameLen (Ctx.fresh other .encoder .a).mode ∧
      (List.replicate 240 (0 : Int)).length = Config.frameLen (Ctx.fresh Params.default .encoder .b).mode :=
  ⟨test_paramsOk_default, test_paramsOk_other, List.length_replicate, List.length_replicate⟩

theorem test_hyp_specSynResult :
    (let s := opened 1 .decoder .b (machine [0, 6] [(0, [63, 127, 127, 0, 0, 0])])
     argIs s 0 0 ∧ argIs s 1 6 ∧ fits s 0 (3 * 2) ∧ fits s 6 (11 * 6) ∧ apart 6 (11 * 6) 0 (3 * 2) ∧
       ∀ i, i < 2 →
         (0 ≤ s.dmem.readI16 (0 + 3 * i) ∧ s.dmem.readI16 (0 + 3 * i) < 64) ∧
         (0 ≤ s.dmem.readI16 (0 + (3 * i + 1)) ∧ s.dmem.readI16 (0 + (3 * i + 1)) < 128) ∧
         (0 ≤ s.dmem.readI16 (0 + (3 * i + 2)) ∧ s.dmem.readI16 (0 + (3 * i + 2)) < 128)) ∧
    (opened 1 .decoder .b (machine [0, 6] [(0, [63, 127, 127, 0, 0, 0])])).ctxAt 1 = some (Ctx.fresh Params.default .decoder .b) :=
  ⟨by decide +kernel, rfl⟩

theorem test_hyp_decoderRebuildsEncoderFilters :
    ParamsOk Params.default ∧ (Ctx.fresh Params.default .encoder .a).mode = (Ctx.fresh Params.default .decoder .a).mode ∧
      (Ctx.fresh Params.default .encoder .a).lsfOld = (Ctx.fresh Params.default .decoder .a).lsfOld ∧
      (List.replicate 160 (0 : Int)).length = Config.frameLen (Ctx.fresh Params.default .encoder .a).mode :=
  ⟨test_paramsOk_default, rfl, rfl, List.length_replicate⟩

/-- Both clauses: a vector that is not zero, and none in a search of one index. -/
theorem test_hyp_stageSearchIsOptimal :
    ([4, 6] : List Int).length = 2 ∧ ((cbVector (cbParams Params.default) [1, 2] 2 2 0).map fun y => y ^ 2).sum ≠ 0 ∧
      0 < min (2 * (2 - 2 + 1 + if 2 = 40 then 20 else 0)) (2 ^ 1) ∧
      ∀ i, i < min (2 * (2 - 2 + 1 + if 2 = 40 then 20 else 0)) (2 ^ 0) →
        ((cbVector (cbParams Params.default) [0, 0] 2 2 i).map fun y => y ^ 2).sum = 0 := by decide +kernel

theorem test_hyp_threeStageSearch : ([4, 6] : List Int).length = 2 := rfl

/-- The largest legal search. -/
theorem test_hyp_codebookSearchResults :
    let s := machine [0, 256, 256, 80, 336, 339, 0x080808] []
    (argIs s 0 0 ∧ argIs s 1 256 ∧ argIs s 2 256 ∧ argIs s 3 80 ∧ argIs s 4 336 ∧ argIs s 5 339) ∧ widthsAre s 8 8 8 ∧
      (fits s 0 256 ∧ fits s 256 80 ∧ fits s 336 3 ∧ fits s 339 3) ∧
      (apart 336 3 0 256 ∧ apart 336 3 256 80 ∧ apart 339 3 0 256 ∧ apart 339 3 256 80 ∧ apart 336 3 339 3) := by
  decide +kernel

/-- The smallest one. -/
theorem test_hyp_codebookSearchResults_smallest :
    let s := machine [0, 1, 0, 1, 1, 4, 0x010101] []
    (argIs s 1 1 ∧ argIs s 3 1 ∧ argIs s 4 1 ∧ argIs s 5 4) ∧ widthsAre s 1 1 1 ∧ fits s 0 1 ∧ apart 1 3 0 1 ∧
      apart 4 3 0 1 ∧ apart 1 3 4 3 := by decide +kernel

/-- The last index of the base section, interpolated and not. -/
theorem test_hyp_cbConstructResult_vectors :
    (List.replicate 80 (0 : Int)).length = 80 ∧ 1 ≤ 40 ∧ 40 ≤ 80 ∧ 60 < 80 - 40 + 1 + (if 40 = 40 then 20 else 0) ∧
      1 < 3 - 2 + 1 + if 2 = 40 then 20 else 0 := ⟨List.length_replicate, by decide⟩

theorem test_hyp_cbConstructResult :
    let s := machine [0, 80, 80, 83, 86, 40, 0x070708] [(80, [121, 0, 121]), (83, [31, 15, 7])]
    (argIs s 0 0 ∧ argIs s 1 80 ∧ argIs s 2 80 ∧ argIs s 3 83 ∧ argIs s 4 86 ∧ argIs s 5 40) ∧ widthsAre s 8 7 7 ∧
      (fits s 0 80 ∧ fits s 80 3 ∧ fits s 83 3 ∧ fits s 86 40) ∧ (apart 86 40 0 80 ∧ apart 86 40 80 3 ∧ apart 86 40 83 3) ∧
      121 < min (2 * (80 - 40 + 1 + if 40 = 40 then 20 else 0)) (2 ^ 7) ∧
      (s.dmem.readI16 80 = (121 : Nat) ∧ s.dmem.readI16 (80 + 1) = (0 : Nat) ∧ s.dmem.readI16 (80 + 2) = (121 : Nat)) ∧
      (s.dmem.readI16 83 = (31 : Nat) ∧ s.dmem.readI16 (83 + 1) = (15 : Nat) ∧ s.dmem.readI16 (83 + 2) = (7 : Nat)) := by
  decide +kernel

/-- The index at both sides of its bound. -/
theorem test_hyp_gainResults :
    (0, gainCb5, 32) ∈ [((0 : BitVec 2), gainCb5, 32), (1, gainCb4, 16), (2, gainCb3, 8)] ∧
      (((machine [31, 65535] []).args[1]).toNat < 65536 ∧ argIs (machine [31, 65535] []) 0 31 ∧ 31 < 32 ∧
      argIs (machine [32, 65535] []) 0 32 ∧ 32 ≤ 32) := ⟨List.mem_cons_self .., by decide +kernel⟩

/-- GAIN_DEQUANT of the index GAIN_QUANT gave. -/
theorem test_hyp_gainResults_inverse :
    ∃ t u : State, exec (.gainQuant 2) (machine [5000, 8192] []) = .next t ∧
      u.params = (machine [5000, 8192] []).params ∧ u.args[0] = t.res0 ∧ u.args[1] = (machine [5000, 8192] []).args[1] := by
  refine ⟨_, machine [(reached (exec (.gainQuant 2) (machine [5000, 8192] []))).res0.toNat, 8192] [],
    reached_spec _ (by decide +kernel), ?_⟩
  generalize (reached (exec (.gainQuant 2) (machine [5000, 8192] []))).res0 = r
  exact ⟨rfl, BitVec.ofNat_toNat .., rfl⟩

/-- The layout of no table, and the split one. -/
theorem test_hyp_packResult :
    (let s := machine [0, 97] [(0, [63, 127, 127, 63, 127, 127, 7, 1, 63])]
     argIs s 0 0 ∧ argIs s 1 97 ∧ fits s 0 (fieldWidths s.params .b).length ∧ fits s 97 (Config.frameBytes .b) ∧
       apart 97 (Config.frameBytes .b) 0 (fieldWidths s.params .b).length ∧
       (∀ f, f < (fieldWidths s.params .b).length →
         (s.dmem.readWord (0 + f)).toNat < 2 ^ fieldWidth s.params .b f) ∧
       (s.params.frame .b).layout = none) ∧
    (let s : State := { machine [0, 986] [(0, [63])] with params := other }
     argIs s 0 0 ∧ argIs s 1 986 ∧ fits s 0 (fieldWidths s.params .a).length ∧ fits s 986 (Config.frameBytes .a) ∧
       apart 986 (Config.frameBytes .a) 0 (fieldWidths s.params .a).length ∧
       (∀ f, f < (fieldWidths s.params .a).length →
         (s.dmem.readWord (0 + f)).toNat < 2 ^ fieldWidth s.params .a f) ∧
       (layout s.params .a)[0]? = some { f := 0, hi := 5, lo := 3 }) ∧
    ParamsOk (machine [0, 97] []).params ∧ ParamsOk other :=
  ⟨by decide +kernel, by decide +kernel, test_paramsOk_default, test_paramsOk_other⟩

theorem test_hyp_unpackResult :
    (let s := opened 0 .decoder .b (machine [0, 50, 50] [])
     argIs s 0 0 ∧ (s.args[1]).toNat = Config.frameBytes .b ∧ argIs s 2 50 ∧ fits s 0 (Config.frameBytes .b) ∧
       fits s 50 (fieldWidths s.params .b).length ∧
       apart 50 (fieldWidths s.params .b).length 0 (Config.frameBytes .b)) ∧
    ((opened 0 .decoder .b (machine [0, 0, 50] [])).args[1]).toNat = 0 ∧
    (opened 0 .decoder .b (machine [0, 50, 50] [])).ctxAt 0 = some (Ctx.fresh Params.default .decoder .b) ∧
    ParamsOk (opened 0 .decoder .b (machine [0, 50, 50] [])).params :=
  ⟨by decide +kernel, by decide +kernel, rfl, test_paramsOk_default⟩

/-- Fields 0 and 6 in place. -/
def fieldsPlaced : State := opened 0 .decoder .a (machine [0, 100, 0] [(0, [0x2D, 0, 0, 0, 0, 0, 5])])

/-- The frame packed from them, with UNPACK's operands. -/
def framePacked : State :=
  { reached (exec (.pack .a) fieldsPlaced) with args := (machine [100, 38, 200] []).args }

/-- The fields unpacked from it, with PACK's operands. -/
def fieldsUnpacked : State :=
  { reached (exec (.unpack 0) framePacked) with args := (machine [200, 300] []).args }

theorem test_hyp_packUnpackRoundTrip :
    (goesOn (exec (.pack .a) fieldsPlaced) = true ∧ goesOn (exec (.unpack 0) framePacked) = true ∧
      goesOn (exec (.pack .a) fieldsUnpacked) = true) ∧
    ((reached (exec (.pack .a) fieldsPlaced)).status.err = .ok ∧
      (reached (exec (.unpack 0) framePacked)).status.err = .ok ∧
      (reached (exec (.pack .a) fieldsUnpacked)).status.err = .ok) ∧
    (argIs fieldsPlaced 0 0 ∧ argIs fieldsPlaced 1 100 ∧ argIs framePacked 0 100 ∧
      (framePacked.args[1]).toNat = Config.frameBytes .a ∧ argIs framePacked 2 200 ∧ argIs fieldsUnpacked 0 200 ∧
      argIs fieldsUnpacked 1 300) ∧
    (framePacked.ctxAt 0).map (·.mode) = some .a ∧
    (fieldsPlaced.params = Params.default ∧ framePacked.params = Params.default ∧
      fieldsUnpacked.params = Params.default) ∧
    (∀ f, f < (fieldWidths Params.default .a).length → (fieldsPlaced.dmem.readWord (0 + f)).toNat < 2 ^ fieldWidth Params.default .a f) ∧
    ∀ p, p < 8 * Config.frameBytes .a → (fieldWidths Params.default .a).sum ≤ p → frameBitAt framePacked.dmem 100 p = false := by
  decide +kernel

/-- The parameters are those of `test_paramsOk_default`. A constant sequence has a live lag at both ends of the range, the zero sequence none. -/
theorem test_hyp_pitchEstimateIsOptimal :
    (let z := List.replicate 320 (1 : Int)
     320 ≤ z.length ∧ ∀ l ∈ [20, 119],
       0 < (total 80 fun n => nth z (z.length - 80 + n) * nth z (z.length - 80 - l + n)) ∧
       0 < (total 80 fun n => nth z (z.length - 80 + n) ^ 2) ∧
       0 < total 80 fun n => nth z (z.length - 80 - l + n) ^ 2) ∧
    ¬ 0 < total 80 fun n => nth (List.replicate 320 0) (320 - 80 + n) ^ 2 := by decide +kernel

theorem test_hyp_concealmentSynthesis :
    120 ≤ (List.replicate 160 (1 : Int)).length ∧ 1 ≤ 1 ∧ 1 ≤ 119 ∧ 119 ≤ 119 := by simp

theorem test_hyp_plcGoodResult :
    (let s := opened 2 .decoder .b (machine [0, 240, 251] [])
     argIs s 0 0 ∧ argIs s 1 240 ∧ argIs s 2 251 ∧ fits s 0 240 ∧ fits s 240 11 ∧ fits s 251 240 ∧ apart 251 240 0 240 ∧
       apart 251 240 240 11) ∧
    (opened 2 .decoder .b (machine [0, 240, 251] [])).ctxAt 2 = some (Ctx.fresh Params.default .decoder .b) :=
  ⟨by decide +kernel, rfl⟩

theorem test_hyp_plcLostResult :
    (let s := opened 2 .decoder .b (machine [0, 240] [])
     argIs s 0 0 ∧ argIs s 1 240 ∧ fits s 0 240 ∧ fits s 240 11 ∧ apart 0 240 240 11) ∧
    (opened 2 .decoder .b (machine [0, 240] [])).ctxAt 2 = some (Ctx.fresh Params.default .decoder .b) :=
  ⟨by decide +kernel, rfl⟩

/-- A decoder context before a good frame, and after it with PLC_LOST's operands. -/
def beforeGood : State := opened 2 .decoder .a (machine [0, 160, 171] [])

def beforeLoss : State := { reached (exec (.plcGood 2) beforeGood) with args := (machine [400, 600] []).args }

theorem test_hyp_candidateIsTheNextLoss :
    (goesOn (exec (.plcGood 2) beforeGood) = true ∧ (reached (exec (.plcGood 2) beforeGood)).status.err = .ok) ∧
    (goesOn (exec (.plcLost 2) beforeLoss) = true ∧ (reached (exec (.plcLost 2) beforeLoss)).status.err = .ok) ∧
    (beforeGood.ctxAt 2).isSome ∧ (beforeLoss.ctxAt 2).isSome ∧ beforeLoss.params = beforeGood.params ∧ argIs beforeGood 2 171 ∧ argIs beforeLoss 0 400 := by
  decide +kernel

theorem test_hyp_openAndCloseResults :
    State.reset.ctxAt 3 = none ∧ (3 : BitVec 4).toNat < State.reset.params.nctx ∧
      (opened 3 .encoder .a State.reset).ctxAt 3 = some (Ctx.fresh Params.default .encoder .a) := ⟨rfl, by decide, rfl⟩

/-- A word of each kind: unassigned opcode, unused bit, STG = 3, and a good one. -/
theorem test_hyp_illegalAndReservedWords :
    (∀ row ∈ opcodeMap, row.1 ≠ ((0x0F : Word32).setWidth 8).toNat) ∧ (0x04, 0) ∈ opcodeMap ∧
      (0x53, 0x300000) ∈ opcodeMap ∧ (0x00004004 : Word32) &&& ~~~(BitVec.ofNat 32 0) ≠ BitVec.ofNat 32 0x04 ∧
      (0x00300053 : Word32) &&& 0x300000 = 0x300000 ∧
      (0x00000004 : Word32) &&& ~~~(BitVec.ofNat 32 0) = BitVec.ofNat 32 0x04 := by decide

theorem test_hyp_errorsArePrecise :
    exec (.chClose 0) State.reset = .next (raise ctxError State.reset) ∧
      (raise ctxError State.reset).status.err ≠ .ok := ⟨rfl, by decide⟩

theorem test_hyp_contextAndFormatErrors :
    State.reset.ctxAt 0 = none ∧ State.reset.params.nctx ≤ (4 : BitVec 4).toNat ∧
      (opened 0 .decoder .a State.reset).ctxAt 0 = some (Ctx.fresh Params.default .decoder .a) ∧
      (opened 0 .encoder .a State.reset).ctxAt 0 = some (Ctx.fresh Params.default .encoder .a) ∧
      (((opened 0 .decoder .a (machine [0, 50] [])).args[1]).toNat ≠ 0 ∧
        ((opened 0 .decoder .a (machine [0, 50] [])).args[1]).toNat ≠
          if (Ctx.fresh Params.default .decoder .a).mode = .a then 38 else 50) := ⟨rfl, by decide, rfl, rfl, by decide +kernel⟩

/-- A state for each clause, at the bound it speaks of. -/
theorem test_hyp_argumentErrors :
    (let c : Nat → Nat := fun k => ((machine [0, 0, 0, 0, 32] []).args.toList.getD k 0).toNat
     (∀ k, k < 4 → c k < 65536) ∧ 31 < c 4) ∧
    (let c : Nat → Nat := fun k => ((machine [0, 4097, 0, 11] []).args.toList.getD k 0).toNat
     c 0 < 65536 ∧ 4096 < c 1) ∧
    (let c : Nat → Nat := fun k => ((machine [0, 1, 0, 11] []).args.toList.getD k 0).toNat
     (∀ k, k < 3 → c k < 65536) ∧ 1 ≤ c 1 ∧ c 1 ≤ 4096 ∧ 10 < c 3) ∧
    (let c : Nat → Nat := fun k => ((machine [0, 0, 3] []).args.toList.getD k 0).toNat
     (∀ k, k < 2 → c k < 65536) ∧ c 2 ≠ 1 ∧ c 2 ≠ 2) ∧
    (16384 < arg16 (machine [0, 0, 0, 16385] []) 3 ∧ arg16 (machine [0, 0, 0, 0xFFFF] []) 3 < 0) ∧
    (let c : Nat → Nat := fun k => ((machine [0, 257, 0, 81] []).args.toList.getD k 0).toNat
     c 0 < 65536 ∧ c 3 < 65536 ∧ 256 < c 1) ∧
    (let c : Nat → Nat := fun k => ((machine [0, 256, 0, 81] []).args.toList.getD k 0).toNat
     (∀ k, k < 4 → c k < 65536) ∧ c 3 ≤ c 1 ∧ c 1 ≤ 256 ∧ 80 < c 3) ∧
    (let c : Nat → Nat := fun k => ((machine [0, 256, 0, 80, 0, 0, 9] []).args.toList.getD k 0).toNat
     (∀ k, k < 6 → c k < 65536) ∧ 1 ≤ c 3 ∧ c 3 ≤ 80 ∧ c 3 ≤ c 1 ∧ c 1 ≤ 256) ∧
    (let c : Nat → Nat := fun k => ((machine [0, 80, 0, 0, 0, 81] []).args.toList.getD k 0).toNat
     c 0 < 65536 ∧ c 5 < 65536 ∧ c 1 < c 5) ∧
    (let c : Nat → Nat := fun k => ((machine [0, 256] []).args.toList.getD k 0).toNat
     (∀ k, k < 6 → c k < 65536) ∧ c 5 ≤ c 1 ∧ c 1 ≤ State.reset.params.cbLmemMax ∧ c 5 = 0) ∧
    (let c : Nat → Nat := fun k => ((machine [0, 256, 0, 0, 0, 80, 9] []).args.toList.getD k 0).toNat
     (∀ k, k < 6 → c k < 65536) ∧ 1 ≤ c 5 ∧ c 5 ≤ 80 ∧ c 5 ≤ c 1 ∧ c 1 ≤ State.reset.params.cbLmemMax) :=
  by decide +kernel

/-- A1 is the first register that fails, by its upper bits. -/
theorem test_hyp_argumentErrors_first :
    let s := machine [0xFFFF, 0x10000] []
    ready .vmaxabs16 s ∧ (∀ j : ArgNo, j < 1 → argOk .vmaxabs16 s j) ∧ ¬ argOk .vmaxabs16 s 1 := by
  have h : (∀ j : ArgNo, j < 1 → ((machine [0xFFFF, 0x10000] []).args[j]).toNat < 65536) ∧
      ¬ ((machine [0xFFFF, 0x10000] []).args[(1 : ArgNo)]).toNat < 65536 ∧ (1 : ArgNo) ∈ addressArgs .vmaxabs16 := by
    decide +kernel
  exact ⟨trivial, fun j hj => ⟨fun _ => h.1 j hj, trivial⟩, fun k => h.2.1 (k.1 h.2.2)⟩

/-- A1 is the first that fails by its range, `lT` being in range and well formed. -/
theorem test_hyp_argumentErrors_range :
    let s := machine [0, 39, 0, 40, 0, 0, 0x070708] []
    ready .acbSearch s ∧ (∀ j : ArgNo, j < 1 → argOk .acbSearch s j) ∧ ¬ argOk .acbSearch s 1 := by
  have h : ((machine [0, 39, 0, 40, 0, 0, 0x070708] []).args[(0 : ArgNo)]).toNat < 65536 ∧
      (machine [0, 39, 0, 40, 0, 0, 0x070708] []).argLow 3 = 40 ∧
      ((machine [0, 39, 0, 40, 0, 0, 0x070708] []).args[(1 : ArgNo)]).toNat = 39 := by decide +kernel
  refine ⟨trivial, fun j hj => ?_, fun k => ?_⟩
  · obtain rfl : j = 0 := (Fin.lt_one_iff j).1 hj
    have n : (0 : ArgNo) ≠ 1 ∧ (0 : ArgNo) ≠ 3 ∧ (0 : ArgNo) ≠ 6 := by decide
    exact ⟨fun _ => h.1, fun e => absurd e n.1, fun e => absurd e n.2.1, fun e => absurd e n.2.2⟩
  · have := (k.2.1 rfl).1
    rw [h.2.1] at this
    change 40 ≤ ((machine [0, 39, 0, 40, 0, 0, 0x070708] []).args[(1 : ArgNo)]).toNat at this
    omega

/-- A6 = 9 holds no three widths. -/
theorem test_hyp_argumentErrors_widths :
    (¬ ∃ w0 w1 w2, widthsAre (machine [0, 256, 0, 80, 0, 0, 9] []) w0 w1 w2) ∧
      ¬ ∃ w0 w1 w2, widthsAre (machine [0, 256, 0, 0, 0, 80, 9] []) w0 w1 w2 := by
  have e : ((machine [0, 256, 0, 80, 0, 0, 9] []).args[6]).toNat = 9 := rfl
  have e' : ((machine [0, 256, 0, 0, 0, 80, 9] []).args[6]).toNat = 9 := rfl
  constructor <;> rintro ⟨w0, w1, w2, h, h0, h1, h2⟩
  · rw [e] at h
    omega
  · rw [e'] at h
    omega

/-- A region one word too long, a history one word too early, an output that meets an input, and regions that meet
nowhere. -/
theorem test_hyp_regionErrors :
    (∃ r ∈ namedRegions .vmaxabs16 (machine [8191, 2] []), ¬ r.inside (machine [8191, 2] []) ∧
      ∀ q ∈ namedRegions .vmaxabs16 (machine [8191, 2] []), q.reg < r.reg → q.inside (machine [8191, 2] [])) ∧
    (∃ r ∈ namedRegions .filtMa (machine [0, 100, 1, 200, 1] []), ¬ r.inside (machine [0, 100, 1, 200, 1] [])) ∧
    ((ready .vmaxabs16 (machine [8191, 2] []) ∧ argsPass .vmaxabs16 (machine [8191, 2] [])) ∧
      ready .filtMa (machine [0, 100, 1, 200, 1] []) ∧ argsPass .filtMa (machine [0, 100, 1, 200, 1] []) ∧
      ready (.vscale 0 .right .floor) (machine [0, 3, 4] []) ∧
      argsPass (.vscale 0 .right .floor) (machine [0, 3, 4] [])) ∧
    (∀ r ∈ namedRegions (.vscale 0 .right .floor) (machine [0, 3, 4] []), r.inside (machine [0, 3, 4] [])) ∧
    (clashes (.vscale 0 .right .floor) (machine [0, 3, 4] []) 1 ∧
      ∀ j : ArgNo, j < 1 → ¬ clashes (.vscale 0 .right .floor) (machine [0, 3, 4] []) j) ∧
    ∀ k : ArgNo, ¬ clashes .vmaxabs16 (machine [8190, 2] []) k := by
  have e0 : (machine [0, 3, 4] []).argLow 0 = 0 := by decide +kernel
  have e1 : (machine [0, 3, 4] []).argLow 1 = 3 := by decide +kernel
  have e2 : (machine [0, 3, 4] []).argLow 2 = 4 := by decide +kernel
  have f0 : (machine [8191, 2] []).argLow 0 = 8191 := by decide +kernel
  have f1 : (machine [8191, 2] []).argLow 1 = 2 := by decide +kernel
  have g0 : (machine [0, 100, 1, 200, 1] []).argLow 0 = 0 := by decide +kernel
  have g2 : (machine [0, 100, 1, 200, 1] []).argLow 2 = 1 := by decide +kernel
  have g4 : (machine [0, 100, 1, 200, 1] []).argLow 4 = 1 := by decide +kernel
  have a0 : ∀ k : ArgNo, k ∈ addressArgs .vmaxabs16 → ((machine [8191, 2] []).args[k]).toNat < 65536 := by
    decide +kernel
  have a1 : ∀ k : ArgNo, k ∈ addressArgs .filtMa → ((machine [0, 100, 1, 200, 1] []).args[k]).toNat < 65536 := by
    decide +kernel
  have a2 : ((machine [0, 100, 1, 200, 1] []).args[(4 : ArgNo)]).toNat ≤ 31 := by decide +kernel
  have a3 : ∀ k : ArgNo, k ∈ addressArgs (.vscale 0 .right .floor) → ((machine [0, 3, 4] []).args[k]).toNat < 65536 := by
    decide +kernel
  have d : ∀ (a : List Nat) (m : List (Nat × List Int)), (machine a m).params.dmemWords = 8192 := fun _ _ => rfl
  have hin : NamedRegion.inside (reads (machine [0, 3, 4] []) 0 4) (machine [0, 3, 4] []) ∧
      NamedRegion.inside (writes (machine [0, 3, 4] []) 1 4) (machine [0, 3, 4] []) := by
    simp [NamedRegion.inside, reads, writes, d, e0, e1]
  refine ⟨⟨_, List.mem_cons_self .., ?_, ?_⟩, ⟨_, List.mem_cons_self .., ?_⟩,
    ⟨⟨trivial, fun k => ⟨a0 k, trivial⟩⟩, trivial, fun k => ⟨a1 k, fun _ => a2⟩, trivial, fun k => ⟨a3 k, trivial⟩⟩,
    ?_, ⟨?_, ?_⟩, ?_⟩
  · simp [reads, NamedRegion.inside, d, f0, f1]
  · simp [namedRegions]
  · simp [NamedRegion.inside, g0, g2, g4]
  · simpa [namedRegions, e2] using hin
  · refine ⟨writes (machine [0, 3, 4] []) 1 4, by simp [namedRegions, e2], reads (machine [0, 3, 4] []) 0 4,
      by simp [namedRegions, e2], rfl, rfl, by decide, ⟨3, by simp [writes, e1], by simp [reads, e0]⟩, ?_, ?_⟩
    · simp [reads]
    · rintro ⟨-, h⟩
      exact absurd h (by decide +kernel)
  · rintro j hj ⟨o, ho, r, -, hout, hreg, -⟩
    simp only [namedRegions, List.mem_cons, List.not_mem_nil, or_false] at ho
    rcases ho with rfl | rfl
    · cases hout
    · subst hreg
      exact absurd hj (by simp [writes])
  · rintro k ⟨o, ho, r, -, hout, -⟩
    simp only [namedRegions, List.mem_cons, List.not_mem_nil, or_false] at ho
    subst ho
    cases hout

/-- Each branch of the check order. -/
theorem test_hyp_vmulChecksInOrder :
    (let s := machine [65535, 65536, 0, 0] []; (s.args[0]).toNat = 65535 ∧ (s.args[1]).toNat = 65536) ∧
    (¬ fits State.reset 8191 2 ∧ fits State.reset 8190 2) ∧ (¬ apart 1 2 0 2 ∧ apart 2 2 0 2) := by decide +kernel

theorem test_hyp_valueErrors :
    (let s := machine [0, 3] [(0, [64, 128, -1])]
     argIs s 0 0 ∧ argIs s 1 3 ∧ fits s 0 3 ∧ fits s 3 10 ∧ apart 3 10 0 3 ∧ ¬ s.dmem.readI16 0 < 64 ∧
       ¬ s.dmem.readI16 (0 + 1) < 128 ∧ ¬ 0 ≤ s.dmem.readI16 (0 + 2)) ∧
    (let s := opened 2 .decoder .b (machine [0, 6] [(5, [128])])
     argIs s 0 0 ∧ argIs s 1 6 ∧ fits s 0 (3 * 2) ∧ fits s 6 (11 * 6) ∧ apart 6 (11 * 6) 0 (3 * 2) ∧ 1 < 2 ∧ 2 < 3 ∧
       ¬ s.dmem.readI16 (0 + (3 * 1 + 2)) < 128) ∧
    (let s := machine [0, 81] [(0, [64])]
     argIs s 0 0 ∧ argIs s 1 81 ∧ fits s 0 (fieldWidths Params.default .a).length ∧ fits s 81 (Config.frameBytes .a) ∧
       apart 81 (Config.frameBytes .a) 0 (fieldWidths Params.default .a).length ∧ 0 < (fieldWidths Params.default .a).length ∧
       2 ^ fieldWidth Params.default .a 0 ≤ (s.dmem.readWord (0 + 0)).toNat) ∧
    (let s := machine [0, 80, 80, 83, 86, 40, 0x070708] [(80, [122, 0, 0]), (83, [31, 15, 7])]
     argIs s 2 80 ∧ argIs s 3 83 ∧ widthsAre s 8 7 7 ∧ ¬ s.dmem.readI16 80 < 122 ∧ s.dmem.readI16 83 < 32 ∧
       s.dmem.readI16 (83 + 1) < 16 ∧ s.dmem.readI16 (83 + 2) < 8) ∧
    (let s := machine [0, 80, 80, 83, 86, 40, 0x070708] [(80, [121, 0, 0]), (83, [31, 15, 8])]
     s.dmem.readI16 80 < 122 ∧ ¬ s.dmem.readI16 (83 + 2) < 8) := by decide +kernel

theorem test_hyp_commandsAreIsolated : exec .nop State.reset = .next (complete State.reset) := rfl

/-- Two states that differ in the registers a command does not read, as they are and with the command under way. -/
theorem test_hyp_resultsAreDetermined :
    (busy.status.busy = true ∧ statusInv busy ∧ ({ busy with res0 := 9 } : State).status.busy = true ∧
      statusInv { busy with res0 := 9 } ∧ busy.params = ({ busy with res0 := 9 } : State).params ∧
      (machine [3, 4] []).params = ({ machine [3, 4] [] with res0 := 9, daddr := 7 } : State).params) ∧
    (machine [3, 4] []).args = ({ machine [3, 4] [] with res0 := 9, daddr := 7 } : State).args ∧
      (machine [3, 4] []).dmem = ({ machine [3, 4] [] with res0 := 9, daddr := 7 } : State).dmem ∧
      ctxNamed .adds16 = none ∧ goesOn (exec .adds16 (machine [3, 4] [])) = true ∧
      goesOn (exec .adds16 { machine [3, 4] [] with res0 := 9, daddr := 7 }) = true :=
  ⟨⟨rfl, by unfold statusInv; decide, rfl, by unfold statusInv; decide, rfl, rfl⟩, rfl, rfl, rfl, rfl, rfl⟩

theorem test_hyp_refusedAccesses : 16 ≠ 32 ∧ 0x05 % 4 ≠ 0 ∧ 0x44 ≤ 0x44 ∧ 0x40 ∈ [0x00, 0x0C, 0x30, 0x34, 0x40] := by
  decide

/-- The last word of the window, and the first address beyond it. -/
theorem test_hyp_dataWindow :
    State.reset.status.busy = false ∧ ({ State.reset with daddr := 8191 } : State).daddr.toNat < State.reset.params.dmemWords ∧
      State.reset.params.dmemWords ≤ ({ State.reset with daddr := 8192 } : State).daddr.toNat := by decide

theorem test_hyp_writesWhileBusy : busy.status.busy = true ∧ (0x10000 : Word32).getLsbD 16 = true := by decide

theorem test_hyp_hostReads : State.reset.status.busy = false ∧ busy.status.busy = true := by decide

theorem test_hyp_hostWritesAndStatus : State.reset.status.busy = false := rfl

/-- The engine's turn listed and not listed, idle and busy, with a command, an illegal and a reserved word; the host's
turn; a command word placed. -/
theorem test_hyp_stepRunsTheDecodedCommand :
    (busy.turns = [] ∧ busy.status.busy = true ∧ decode busy.cmd = .ok .adds16) ∧
    ({ busy with turns := [.engine, .engine] } : State).turns = .engine :: [.engine] ∧
    State.reset.status.busy = false ∧
    ({ busy with turns := [.host (.read 0 32)] } : State).turns = .host (.read 0 32) :: [] ∧
    (decode (acceptCmd 0x0F State.reset).cmd = .error .illegal ∧ (acceptCmd 0x0F State.reset).status.busy = true) ∧
    (decode (acceptCmd 0x00800004 State.reset).cmd = .error .reserved ∧
      (acceptCmd 0x00800004 State.reset).status.busy = true) ∧
    0x04 < 2 ^ 32 ∧ decode (BitVec.ofNat 32 0x04) = .ok .adds16 := by decide

theorem test_hyp_decodeOfEncode : (Instr.gainQuant 2).wellFormed = true := rfl

theorem test_hyp_encodeOfDecode : decode 0x0040807E = .ok (.chOpen 0 .decoder .b) := by decide

theorem test_hyp_stepKeepsMemoryInv :
    memoryInv State.reset ∧ step State.reset = .next State.reset :=
  ⟨⟨⟨List.Pairwise.nil, fun _ h => nomatch h⟩, fun _ h => nomatch h⟩, rfl⟩

theorem test_hyp_stepKeepsReportAndContextsInv :
    (statusInv busy ∧ goesOn (step busy) = true) ∧ contextsInv (opened 0 .decoder .a State.reset) := by
  refine ⟨⟨by unfold statusInv; decide, by decide +kernel⟩, test_paramsOk_default, ?_⟩
  intro c x h
  have hx : x = Ctx.fresh Params.default .decoder .a := by
    match c, h with
    | 0, h => exact (Option.some.inj h).symm
    | 1, h => exact nomatch h
    | 2, h => exact nomatch h
    | 3, h => exact nomatch h
    | c + 4, h =>
      have : ¬ c + 4 < (opened 0 .decoder .a State.reset).params.nctx := by
        change ¬ c + 4 < 4
        omega
      simp [State.ctxAt, this] at h
  subst hx
  unfold ctxInv
  decide

theorem test_hyp_resetMeetsTheInvariants :
    ParamsOk Params.default ∧ Memory.wf [(0, 1), (16383, 255)] ∧ Memory.inSpace [(0, 1), (16383, 255)] Params.default.dmemWords :=
  ⟨test_paramsOk_default, by decide⟩

theorem test_hyp_resetValues :
    ((0x38, 0) : Nat × Word32) ∈ [(0x00, Params.default.idValue), (0x38, 0), (0x40, 0)] ∧
      ((0x00, Params.default.idValue) : Nat × Word32) ∈ [(0x00, Params.default.idValue), (0x38, 0), (0x40, 0)] := by decide

end Sys2Proof.Tests
end

section
/-! The fixed-point primitives of 00_scope.md R11 and R12, with no bound on the integer they are given. -/

namespace Sys2Proof.Machine

/-! ### Wrapping (00_scope.md R11) -/

/-- Both wraps take a residue modulo `m` on a range moved down by `h`: the move cancels in the difference. -/
theorem dvd_sub_movedResidue (v h m : Int) : m ∣ v - ((v + h) % m - h) := by
  have hcancel : v - ((v + h) % m - h) = (v + h) - (v + h) % m := by ring
  rw [hcancel]
  exact Int.dvd_self_sub_emod

theorem wrap16_dvd_sub (v : Int) : (2 ^ 16 : Int) ∣ v - wrap16 v := dvd_sub_movedResidue v 32768 65536

theorem wrap32_dvd_sub (v : Int) : (2 ^ 32 : Int) ∣ v - wrap32 v := dvd_sub_movedResidue v 2147483648 4294967296

theorem wrap32_range (v : Int) : -2147483648 ≤ wrap32 v ∧ wrap32 v ≤ 2147483647 := by
  unfold wrap32
  omega

/-! ### Shifts (00_scope.md R12) -/

/-- `asr v s` is the floor of `v / 2^s`, said by the two bounds that fix it. -/
theorem asr_floor_bounds (v : Int) (s : Nat) : asr v s * 2 ^ s ≤ v ∧ v < (asr v s + 1) * 2 ^ s := by
  have hpos : (0 : Int) < 2 ^ s := by positivity
  exact ⟨Int.ediv_mul_le v hpos.ne', Int.lt_ediv_add_one_mul_self v hpos⟩

theorem rshr_of_pos (v : Int) {s : Nat} (h : 0 < s) : rshr v s = asr (v + 2 ^ (s - 1)) s := by
  cases s with
  | zero => exact absurd h (Nat.lt_irrefl 0)
  | succ n => exact rshr_succ v n

/-- Settles O1: the narrowings by their bounds and residues, the shifts by the bounds of the floor. -/
theorem fixedPointPrimitives : Obligations.FixedPointPrimitives := by
  unfold Obligations.FixedPointPrimitives
  constructor
  · intro v lo hi
    have h16 : -2 ^ 15 ≤ wrap16 v ∧ wrap16 v < 2 ^ 15 := by
      have := wrap16_range v
      omega
    have h32 : -2 ^ 31 ≤ wrap32 v ∧ wrap32 v < 2 ^ 31 := by
      have := wrap32_range v
      omega
    exact ⟨rfl, rfl, rfl, ⟨h16, wrap16_dvd_sub v⟩, ⟨h32, wrap32_dvd_sub v⟩⟩
  · intro v s
    exact ⟨asr_floor_bounds v s, rfl, rshr_zero v, rshr_of_pos v⟩

end Sys2Proof.Machine
end

section
/-! How every command ends (60_exceptions.md R472, R473): with an error that writes the report alone, or with a body
that keeps to what a command may write. Laws/Outcome says so of the shared operations; here is the opcode map. -/

namespace Sys2Proof.Machine

/-! ### The shapes of a command -/

theorem ends_scalar (i : Instr) (s : State) (v : Int) : Ends i s (scalar s v) :=
  ends_complete (by simp) (by simp)

theorem ends_searchCommand (i : Instr) (order : List Int → List Int) (s : State) :
    Ends i s (searchCommand order s) :=
  ends_runChecked (by simp) (by simp) (by simp) (by simp)

/-! ### The commands with a case of their own before or beside their checks -/

theorem ends_lsfInterp (s : State) : Ends .lsfInterp s (execLsfInterp s) := by
  have hweight (c : Prop) [Decidable c] : Reports (if c then none else some (argError 3)) := by
    split_ifs <;> simp
  exact ends_runChecked (by simp [hweight]) (by simp) (by simp) (by simp)

theorem ends_gainQuant (stg : BitVec 2) (s : State) : Ends (.gainQuant stg) s (execGainQuant stg s) := by
  unfold execGainQuant
  split_ifs
  · exact ends_raise _ (by simp [rsvdError])
  · exact ends_runChecked (by simp) (by simp) (by simp) (by simp)

theorem ends_gainDequant (stg : BitVec 2) (s : State) : Ends (.gainDequant stg) s (execGainDequant stg s) := by
  unfold execGainDequant
  split_ifs
  · exact ends_raise _ (by simp [rsvdError])
  · exact ends_runChecked (by simp) (by simp) (by simp) (by simp)

theorem ends_unpack (ctx : BitVec 4) (s : State) : Ends (.unpack ctx) s (execUnpack ctx s) := by
  refine ends_withCtx fun x _ => ?_
  dsimp only
  split_ifs
  · exact ends_complete (by simp) (by simp)
  · exact ends_raise _ (by simp [formatError])
  · exact ends_runChecked (by simp) (by simp) (by simp) (by simp)

theorem ends_chOpen (ctx : BitVec 4) (kind : CtxKind) (mode : Mode) (s : State) :
    Ends (.chOpen ctx kind mode) s (execChOpen ctx kind mode s) := by
  unfold execChOpen
  split_ifs
  · exact ends_complete (by simp) (touches_setCtx rfl (by simp))
  · exact ends_raise _ (by simp [ctxError])

/-! ### The opcode map -/

/-- The two ends of a command, for every row of the opcode map: a scalar command and NOP always complete; the others
end as their checks do, those on a context after its own check. -/
theorem exec_ends (i : Instr) (s : State) : Ends i s (exec i s) := by
  cases i with
  | nop => exact ends_complete (by simp) (by simp)
  | sat16 | abs16 | abs32 | adds16 | subs16 | adds32 | subs32 | mul16 | shift32 | shift16 | normw16 | normw32
  | normu32 | sizebits => exact ends_scalar _ s _
  | vmaxabs16 | dotsc | vscale | vmul | filtMa | filtAr | bwexp | autocorr | levinson | a2lsf | lsf2a | lsfQuant
  | lsfDequant | lsfStab | cbConstruct | pack =>
    exact ends_runChecked (by simp) (by simp) (by simp) (by simp)
  | lsfInterp => exact ends_lsfInterp s
  | acbSearch | bcbSearch => exact ends_searchCommand _ _ s
  | gainQuant stg => exact ends_gainQuant stg s
  | gainDequant stg => exact ends_gainDequant stg s
  | hpFilt =>
    exact ends_withCtx fun x _ =>
      ends_runChecked (by simp) (by simp) (by simp) (touches_setCtx rfl (by simp))
  | specAna | specSyn | plcGood | plcLost =>
    refine ends_withCtx fun x _ => ends_runChecked (by simp) (by simp) (by simp) ?_
    simp only [touches_setUnstableIf, touches_setNoiseonlyIf, touches_setRes1, touches_setRes0]
    exact touches_setCtx rfl (by simp)
  | unpack ctx => exact ends_unpack ctx s
  | chOpen ctx kind mode => exact ends_chOpen ctx kind mode s
  | chClose => exact ends_withCtx fun x _ => ends_complete (by simp) (touches_setCtx rfl (by simp))

/-- Settles O39: both ends clear BUSY and set DONE, and only the end with an error writes an ERRINFO that is not 0. -/
theorem everyCommandEnds : Obligations.EveryCommandEnds := by
  unfold Obligations.EveryCommandEnds
  intro i s
  obtain ⟨e, he, hnext⟩ | ⟨b, hnext, -, -⟩ := exec_ends i s
  · exact ⟨raise e s, hnext, rfl, rfl, fun hok => absurd hok he⟩
  · exact ⟨complete b, hnext, rfl, rfl, fun _ => rfl⟩

end Sys2Proof.Machine
end

section
/-! The host's accesses to the register map (10_state.md R32 to R37; 60_exceptions.md R476; 70_reset_and_hazards.md
R521), read and written by the register an access reaches. -/

namespace Sys2Proof.Machine

/-! ### The register an access reaches -/

/-- An access of another width, at a misaligned offset or beyond the map reaches no register. -/
theorem accessedReg_eq_none {offset width : Nat} (h : width ≠ 32 ∨ offset % 4 ≠ 0 ∨ 0x44 ≤ offset) :
    accessedReg offset width = none := by
  unfold accessedReg
  split_ifs with hw
  · have hoffset : offset % 4 ≠ 0 ∨ 0x44 ≤ offset := h.resolve_left (not_not_intro hw)
    unfold hostRegAt
    split
    case h_18 => rfl
    all_goals omega
  · rfl

theorem accessedReg_arg (k : ArgNo) : accessedReg (0x10 + 4 * k) 32 = some (.arg k) := by
  revert k
  decide

section
variable {s : State} {offset width : Nat} (r : HostReg)

theorem hostAccess_read_refused (h : accessedReg offset width = none) :
    hostAccess (.read offset width) s = (s.answer 0).setHostviol := by
  simp [hostAccess, hostRead, h]

theorem hostAccess_write_refused (v : Word32) (h : accessedReg offset width = none) :
    hostAccess (.write offset width v) s = s.setHostviol := by
  simp [hostAccess, hostWrite, h]

theorem hostAccess_read_idle (hb : s.status.busy = false) (h : accessedReg offset width = some r) :
    hostAccess (.read offset width) s = readIdle r s := by
  simp [hostAccess, hostRead, h, hb]

theorem hostAccess_read_busy (hb : s.status.busy = true) (h : accessedReg offset width = some r) :
    hostAccess (.read offset width) s = readBusy r s := by
  simp [hostAccess, hostRead, h, hb]

theorem hostAccess_write_idle (v : Word32) (hb : s.status.busy = false) (h : accessedReg offset width = some r) :
    hostAccess (.write offset width v) s = writeIdle r v s := by
  simp [hostAccess, hostWrite, h, hb]

theorem hostAccess_write_busy (v : Word32) (hb : s.status.busy = true) (h : accessedReg offset width = some r) :
    hostAccess (.write offset width v) s = writeBusy r v s := by
  simp [hostAccess, hostWrite, h, hb]

end

/-- A read-only register refuses a write whether or not a command is under way. -/
theorem hostAccess_write_readOnly (s : State) (v : Word32) {offset : Nat}
    (h : offset ∈ [0x00, 0x0C, 0x30, 0x34, 0x40]) : hostAccess (.write offset 32 v) s = s.setHostviol := by
  have hreg : ∃ r ∈ [HostReg.id, .errinfo, .res0, .res1, .ctxopen], accessedReg offset 32 = some r := by
    revert offset
    decide
  obtain ⟨r, hr, hoffset⟩ := hreg
  simp only [List.mem_cons, List.not_mem_nil, or_false] at hr
  cases hb : s.status.busy with
  | true =>
    rw [hostAccess_write_busy r v hb hoffset]
    obtain rfl | rfl | rfl | rfl | rfl := hr <;> rfl
  | false =>
    rw [hostAccess_write_idle r v hb hoffset]
    obtain rfl | rfl | rfl | rfl | rfl := hr <;> rfl

/-- Settles O47: such an access reaches no register, or one that refuses the write. -/
theorem refusedAccesses : Obligations.RefusedAccesses := by
  unfold Obligations.RefusedAccesses
  constructor
  · intro s offset width v h
    by_cases hnone : width ≠ 32 ∨ offset % 4 ≠ 0 ∨ 0x44 ≤ offset
    · exact hostAccess_write_refused v (accessedReg_eq_none hnone)
    · have hwidth : width = 32 := by omega
      subst hwidth
      exact hostAccess_write_readOnly s v (by tauto)
  · intro s offset width h
    exact hostAccess_read_refused (accessedReg_eq_none h)

/-! ### CTXOPEN (10_state.md R32) -/

theorem getLsbD_bitAt {i c : Nat} (b : Bool) (hc : c < 32) :
    (bitAt i b).getLsbD c = (decide (c = i) && b) := by
  cases b <;> simp [bitAt, BitVec.getLsbD_twoPow, eq_comm]
  omega

/-- Bit `c` of a word put together from one bit for each index below `n`. -/
theorem getLsbD_foldl_bitAt (f : Nat → Bool) (n : Nat) {c : Nat} (hc : c < 32) :
    ((List.range n).foldl (fun w i => w ||| bitAt i (f i)) (0 : Word32)).getLsbD c = (decide (c < n) && f c) := by
  induction n with
  | zero => simp
  | succ n ih =>
    rw [List.range_succ, List.foldl_append, List.foldl_cons, List.foldl_nil, BitVec.getLsbD_or, ih, getLsbD_bitAt _ hc]
    obtain hlt | rfl | hgt := lt_trichotomy c n
    · simp [hlt, hlt.ne, Nat.lt_succ_of_lt hlt]
    · simp
    · simp [hgt.not_gt, hgt.ne', show ¬ c < n + 1 by omega]

theorem getLsbD_ctxopen (s : State) {c : Nat} (hc : c < 32) :
    s.ctxopen.getLsbD c = (decide (c < s.params.nctx) && (s.ctxAt c).isSome) :=
  getLsbD_foldl_bitAt (fun c => (s.ctxAt c).isSome) s.params.nctx hc

/-! ### The bits of STATUS (10_state.md R36) -/

theorem getLsbD_statusWord (st : Status) {c : Nat} (hc : c < 32) :
    st.word.getLsbD c =
      (decide (c = 0) && st.busy || decide (c = 1) && st.done || decide (c = 2) && st.unstable ||
        decide (c = 3) && st.biterr || decide (c = 4) && st.noiseonly ||
        !decide (c < 8) && st.err.code.getLsbD (c - 8) || decide (c = 16) && st.hostviol) := by
  have hc8 : c - 8 < 32 := by omega
  simp only [Status.word, BitVec.getLsbD_or, getLsbD_bitAt _ hc, BitVec.getLsbD_shiftLeft, BitVec.getLsbD_setWidth]
  simp [hc, hc8]

/-- Settles O50: each read is the read of the register at its offset, idle or busy. -/
theorem hostReads : Obligations.HostReads := by
  unfold Obligations.HostReads
  constructor
  · intro s hb
    exact ⟨hostAccess_read_idle .id hb rfl, hostAccess_read_idle .cmd hb rfl, hostAccess_read_idle .status hb rfl,
      hostAccess_read_idle .errinfo hb rfl, fun k => hostAccess_read_idle (.arg k) hb (accessedReg_arg k),
      hostAccess_read_idle .res0 hb rfl, hostAccess_read_idle .res1 hb rfl, hostAccess_read_idle .daddr hb rfl,
      s.ctxopen, hostAccess_read_idle .ctxopen hb rfl, fun c hc => getLsbD_ctxopen s hc⟩
  · intro s hb
    have hbit : s.status.word.getLsbD 0 = true := by
      rw [getLsbD_statusWord _ (by omega), hb]
      rfl
    have hdrawn : ∀ offset ∈ [0x0C, 0x30, 0x34, 0x40], hostAccess (.read offset 32) s = s.answerDrawn := by
      intro offset hoffset
      simp only [List.mem_cons, List.not_mem_nil, or_false] at hoffset
      obtain rfl | rfl | rfl | rfl := hoffset
      · exact hostAccess_read_busy .errinfo hb rfl
      · exact hostAccess_read_busy .res0 hb rfl
      · exact hostAccess_read_busy .res1 hb rfl
      · exact hostAccess_read_busy .ctxopen hb rfl
    exact ⟨hostAccess_read_busy .id hb rfl, hostAccess_read_busy .cmd hb rfl,
      ⟨hostAccess_read_busy .status hb rfl, hbit⟩, fun k => hostAccess_read_busy (.arg k) hb (accessedReg_arg k),
      hostAccess_read_busy .daddr hb rfl, hdrawn, hostAccess_read_busy .ddata hb rfl⟩

/-! ### Accepted writes (10_state.md R33, R35, R36) -/

/-- A write to STATUS is the same at any time: it clears HOSTVIOL if bit 16 is 1. -/
theorem hostAccess_write_status (s : State) (v : Word32) :
    hostAccess (.write 0x08 32 v) s =
      { s with status := { s.status with hostviol := s.status.hostviol && !v.getLsbD 16 } } := by
  have hwrite : hostAccess (.write 0x08 32 v) s = writeStatus v s := by
    cases hb : s.status.busy with
    | true => exact hostAccess_write_busy .status v hb rfl
    | false => exact hostAccess_write_idle .status v hb rfl
  rw [hwrite, writeStatus]
  cases v.getLsbD 16 <;> simp [State.clearHostviol]

theorem statusWord_err (st : Status) : st.word.extractLsb' 8 8 = st.err.code := by
  ext i hi
  have hbits : 8 + i < 32 ∧ 8 + i ≠ 16 := by omega
  rw [BitVec.getElem_extractLsb', getLsbD_statusWord st hbits.1, ← BitVec.getLsbD_eq_getElem]
  simp [hbits.2]
  omega

/-- The reserved bits of STATUS read 0: bits 5 to 7, and those above HOSTVIOL. -/
theorem statusWord_reserved (st : Status) :
    st.word.extractLsb' 5 3 = 0 ∧ st.word.extractLsb' 17 15 = 0 := by
  constructor
  · ext i hi
    have hbit : 5 + i < 32 ∧ 5 + i < 8 ∧ 5 + i ≠ 16 := by omega
    rw [BitVec.getElem_extractLsb', getLsbD_statusWord st hbit.1]
    simp [hbit]
    omega
  · ext i hi
    have hbit : 17 + i < 32 ∧ 17 + i ≠ 16 := by omega
    have herr : st.err.code.getLsbD (17 + i - 8) = false := BitVec.getLsbD_of_ge _ _ (by omega)
    rw [BitVec.getElem_extractLsb', getLsbD_statusWord st hbit.1, herr]
    simp
    omega

/-- Settles O51: the writes by the register they reach, the bits of STATUS one by one. -/
theorem hostWritesAndStatus : Obligations.HostWritesAndStatus := by
  unfold Obligations.HostWritesAndStatus
  constructor
  · intro s v
    exact ⟨fun hb => ⟨hostAccess_write_idle .cmd v hb rfl,
      fun k => hostAccess_write_idle (.arg k) v hb (accessedReg_arg k), hostAccess_write_idle .daddr v hb rfl⟩,
      hostAccess_write_status s v⟩
  · intro st
    obtain ⟨hlow, hhigh⟩ := statusWord_reserved st
    refine ⟨?_, ?_, ?_, ?_, ?_, hlow, ?_, ?_, hhigh⟩
    case refine_6 =>
      rw [statusWord_err]
      cases st.err <;> rfl
    all_goals
      rw [getLsbD_statusWord _ (by omega)]
      simp

end Sys2Proof.Machine
end

section
/-! One step of the machine (10_state.md R30, R35): what each turn can do, and the invariants every turn keeps. -/

namespace Sys2Proof.Machine

/-! ### The engine's turn -/

/-- A word that names no command ends with an error, ERRINFO = 0xF. -/
theorem runCommand_of_error {s : State} {e : DecodeError} (h : decode s.cmd = .error e) :
    runCommand s = .next (raise (decodeError e) s) := by
  simp only [runCommand, h]

theorem runCommand_of_ok {s : State} {i : Instr} (h : decode s.cmd = .ok i) : runCommand s = exec i s := by
  simp only [runCommand, h]

theorem engineTurn_busy {s : State} (h : s.status.busy = true) : engineTurn s = runCommand s := if_pos h

theorem engineTurn_idle {s : State} (h : s.status.busy = false) : engineTurn s = .next s :=
  if_neg (by simp [h])

/-! ### A step is one turn -/

/-- The next turn is the engine's, `rest` those after it; with none left it is the engine's too
(notes/assumptions/1.md). -/
theorem step_engine {s : State} {rest : List Turn} (h : s.turns = .engine :: rest ∨ s.turns = [] ∧ rest = []) :
    step s = engineTurn { s with turns := rest } := by
  obtain hturns | ⟨hturns, rfl⟩ := h
  · simp only [step, takeTurn, hturns]
  · obtain ⟨params, cmd, status, errinfo, args, res0, res1, daddr, dmem, ctxs, turns, rdata, draws⟩ := s
    subst hturns
    rfl

theorem step_host {s : State} {a : HostAccess} {rest : List Turn} (h : s.turns = .host a :: rest) :
    step s = .next (hostAccess a { s with turns := rest }) := by
  simp only [step, takeTurn, h]

/-- The step after a command word is placed runs it, from the state its accepted write leaves. -/
theorem step_withFetchWord (s : State) {w : Nat} (hw : w < 2 ^ 32) :
    step (s.withFetchWord 32 w) = runCommand (acceptCmd (BitVec.ofNat 32 w) s) := by
  rw [State.withFetchWord, Nat.mod_eq_of_lt hw, step_engine (.inl rfl)]
  exact engineTurn_busy rfl

/-- Settles O52: the turn is the agent's, and the engine runs the word under way as the decoder reads it. -/
theorem stepRunsTheDecodedCommand : Obligations.StepRunsTheDecodedCommand := by
  unfold Obligations.StepRunsTheDecodedCommand
  intro s rest
  refine ⟨fun hturn => ⟨fun hb => ?_, fun hb => ?_⟩, fun a => step_host, fun w hw => ?_⟩
  · have hrun : step s = runCommand { s with turns := rest } := (step_engine hturn).trans (engineTurn_busy hb)
    have hbad (e : DecodeError) (hd : decode s.cmd = .error e) :
        step s = .next (endedError { s with turns := rest } (decodeError e).code (decodeError e).info.toNat) := by
      rw [hrun, ← raise_eq_endedError]
      exact runCommand_of_error hd
    exact ⟨hrun, fun i hd => hrun.trans (runCommand_of_ok hd), hbad .illegal, hbad .reserved⟩
  · exact (step_engine hturn).trans (engineTurn_idle hb)
  · exact ⟨step_withFetchWord s hw, fun i hd => (step_withFetchWord s hw).trans (runCommand_of_ok hd)⟩

/-! ### All that a step can do -/

/-- All that the engine can do with the command word under way. -/
theorem runCommand_cases {s t : State} (h : runCommand s = .next t) :
    (∃ i, exec i s = .next t) ∨ ∃ e : CmdError, e.code ≠ .ok ∧ t = raise e s := by
  cases hd : decode s.cmd with
  | ok i => exact .inl ⟨i, by rw [← runCommand_of_ok hd, h]⟩
  | error e =>
    rw [runCommand_of_error hd] at h
    exact .inr ⟨decodeError e, by cases e <;> simp [decodeError], by simpa using h.symm⟩

/-- All that the engine's turn can do. -/
theorem engineTurn_cases {s t : State} (h : engineTurn s = .next t) :
    t = s ∨ s.status.busy = true ∧ runCommand s = .next t := by
  cases hb : s.status.busy with
  | true => exact .inr ⟨rfl, by rwa [engineTurn_busy hb] at h⟩
  | false =>
    rw [engineTurn_idle hb] at h
    exact .inl (by simpa using h.symm)

/-- All that a step can do, from the state with its turn taken off the list. -/
theorem step_cases {s t : State} (h : step s = .next t) :
    ∃ rest, (∃ a, t = hostAccess a { s with turns := rest }) ∨ t = { s with turns := rest } ∨
      s.status.busy = true ∧ runCommand { s with turns := rest } = .next t := by
  cases hturns : s.turns with
  | nil => exact ⟨[], .inr (engineTurn_cases ((step_engine (.inr ⟨hturns, rfl⟩)).symm.trans h))⟩
  | cons turn rest =>
    cases turn with
    | host a =>
      rw [step_host hturns] at h
      exact ⟨rest, .inl ⟨a, by simpa using h.symm⟩⟩
    | engine => exact ⟨rest, .inr (engineTurn_cases ((step_engine (.inl hturns)).symm.trans h))⟩

/-! ### All that the host can do -/

/-- No access but an accepted command word changes the parameters, a context, or of the report more than
HOSTVIOL. -/
structure HostKeeps (s t : State) : Prop where
  params : t.params = s.params
  ctxs : t.ctxs = s.ctxs
  errinfo : t.errinfo = s.errinfo
  status : t.status = { s.status with hostviol := t.status.hostviol }

theorem hostKeeps_readIdle (r : HostReg) (s : State) : HostKeeps s (readIdle r s) := by
  cases r with
  | ddata =>
    unfold readIdle readDdata
    split_ifs <;> exact ⟨rfl, rfl, rfl, rfl⟩
  | _ => exact ⟨rfl, rfl, rfl, rfl⟩

theorem hostKeeps_readBusy (r : HostReg) (s : State) : HostKeeps s (readBusy r s) := by
  cases r <;> exact ⟨rfl, rfl, rfl, rfl⟩

theorem hostKeeps_writeStatus (v : Word32) (s : State) : HostKeeps s (writeStatus v s) := by
  unfold writeStatus
  cases v.getLsbD 16 <;> exact ⟨rfl, rfl, rfl, rfl⟩

theorem hostKeeps_writeIdle {r : HostReg} (hr : r ≠ .cmd) (v : Word32) (s : State) :
    HostKeeps s (writeIdle r v s) := by
  cases r with
  | cmd => exact absurd rfl hr
  | status => exact hostKeeps_writeStatus v s
  | ddata =>
    unfold writeIdle writeDdata
    split_ifs <;> exact ⟨rfl, rfl, rfl, rfl⟩
  | _ => exact ⟨rfl, rfl, rfl, rfl⟩

theorem hostKeeps_writeBusy (r : HostReg) (v : Word32) (s : State) : HostKeeps s (writeBusy r v s) := by
  cases r with
  | status => exact hostKeeps_writeStatus v s
  | _ => exact ⟨rfl, rfl, rfl, rfl⟩

/-- All that an access of the host can do. -/
theorem hostAccess_cases (a : HostAccess) (s : State) :
    HostKeeps s (hostAccess a s) ∨ ∃ w, hostAccess a s = acceptCmd w s := by
  cases a with
  | read offset width =>
    left
    cases hreg : accessedReg offset width with
    | none =>
      rw [hostAccess_read_refused hreg]
      exact ⟨rfl, rfl, rfl, rfl⟩
    | some r =>
      cases hb : s.status.busy with
      | true =>
        rw [hostAccess_read_busy r hb hreg]
        exact hostKeeps_readBusy r s
      | false =>
        rw [hostAccess_read_idle r hb hreg]
        exact hostKeeps_readIdle r s
  | write offset width v =>
    cases hreg : accessedReg offset width with
    | none =>
      rw [hostAccess_write_refused v hreg]
      exact .inl ⟨rfl, rfl, rfl, rfl⟩
    | some r =>
      cases hb : s.status.busy with
      | true =>
        rw [hostAccess_write_busy r v hb hreg]
        exact .inl (hostKeeps_writeBusy r v s)
      | false =>
        rw [hostAccess_write_idle r v hb hreg]
        by_cases hr : r = .cmd
        · exact .inr ⟨v, by rw [hr]; rfl⟩
        · exact .inl (hostKeeps_writeIdle hr v s)

end Sys2Proof.Machine
end

section
/-! The report of STATUS and ERRINFO stays consistent (10_state.md R35, R37; 60_exceptions.md R472). -/

namespace Sys2Proof.Machine

theorem statusInv_of_hostKeeps {s t : State} (h : HostKeeps s t) (hs : statusInv s) : statusInv t := by
  unfold statusInv
  rw [h.status, h.errinfo]
  exact hs

theorem statusInv_acceptCmd (w : Word32) (s : State) : statusInv (acceptCmd w s) := by
  simp [statusInv]

theorem statusInv_complete (b : State) : statusInv (complete b) := by
  simp [statusInv]

/-- An error leaves the flags as they were, which a command under way finds clear. -/
theorem statusInv_raise {s : State} {e : CmdError} (he : e.code ≠ .ok) (hb : s.status.busy = true)
    (hs : statusInv s) : statusInv (raise e s) := by
  obtain ⟨hbusy, -, -, -⟩ := hs
  obtain ⟨-, -, hunstable, hbiterr, hnoiseonly⟩ := hbusy hb
  have hinfo : (e.info.setWidth 32).toNat < 16 := by
    rw [BitVec.toNat_setWidth_of_le (by omega)]
    exact e.info.isLt
  exact ⟨fun hend => absurd hend Bool.false_ne_true, fun _ => ⟨hunstable, hbiterr, hnoiseonly⟩,
    fun hok => absurd hok he, hinfo⟩

/-- A command under way ends with a consistent report. -/
theorem statusInv_runCommand {s t : State} (hb : s.status.busy = true) (hs : statusInv s)
    (h : runCommand s = .next t) : statusInv t := by
  obtain ⟨i, hexec⟩ | ⟨e, he, rfl⟩ := runCommand_cases h
  · obtain ⟨e, he, hend⟩ | ⟨b, hend, -, -⟩ := exec_ends i s
    · obtain rfl : t = raise e s := by simpa [hexec] using hend
      exact statusInv_raise he hb hs
    · obtain rfl : t = complete b := by simpa [hexec] using hend
      exact statusInv_complete b
  · exact statusInv_raise he hb hs

theorem step_keeps_statusInv {s t : State} (hs : statusInv s) (h : step s = .next t) : statusInv t := by
  obtain ⟨rest, ⟨a, rfl⟩ | rfl | ⟨hb, hrun⟩⟩ := step_cases h
  · obtain hkeeps | ⟨w, hw⟩ := hostAccess_cases a { s with turns := rest }
    · exact statusInv_of_hostKeeps hkeeps hs
    · rw [hw]
      exact statusInv_acceptCmd w _
  · exact hs
  · exact statusInv_runCommand (s := { s with turns := rest }) hb hs hrun

end Sys2Proof.Machine
end

section
/-! The fields of the open contexts stay in their ranges (10_state.md R52; 41_filters.md R203; 47_plc.md R430, R431):
what each computation on a context leaves there, then the commands that name a context, then every step. -/

namespace Sys2Proof.Machine

/-! ### The high-pass memory (41_filters.md R203) -/

/-- Both values of the accumulator domain are within ±2^28. -/
def HpMem.inBound (h : HpMem) : Prop := (-hpBound ≤ h.y0 ∧ h.y0 ≤ hpBound) ∧ (-hpBound ≤ h.y1 ∧ h.y1 ≤ hpBound)

/-- Each new accumulator is clamped, and the older one is the last of before. -/
theorem hpFilter_inBound (acc : Int → Int → Int → Int → Int → Int) (xs : List Int) :
    ∀ h : HpMem, h.inBound → (hpFilter acc h xs).2.inBound := by
  induction xs with
  | nil => exact fun _ hh => hh
  | cons x xs ih => exact fun h hh => ih _ ⟨clamp_range (by decide), hh.1⟩

theorem ctxInv_setHpMem {p : Params} {x : Ctx} (hx : ctxInv p x) {h : HpMem} (hh : h.inBound) :
    ctxInv p (x.setHpMem h) := by
  obtain ⟨hlag, hper, -, -⟩ := hx
  obtain ⟨hy0, hy1⟩ := hh
  unfold hpBound at hy0 hy1
  have hword0 : (x.setHpMem h).hpY0.toInt = h.y0 := toInt_ofInt32 (by omega)
  have hword1 : (x.setHpMem h).hpY1.toInt = h.y1 := toInt_ofInt32 (by omega)
  exact ⟨hlag, hper, by rwa [hword0], by rwa [hword1]⟩

/-! ### The pitch lag and the periodicity (47_plc.md R430, R431) -/

theorem lagScore_spec {p : Params} {z : List Int} {l : Nat} {b : LagScore} (h : lagScore p z l = some b) :
    b.lag = l ∧ 0 < b.ee := by
  unfold lagScore at h
  dsimp only at h
  split_ifs at h with hpos
  obtain ⟨-, hx, hy⟩ := hpos
  obtain rfl := Option.some.inj h
  exact ⟨rfl, Int.mul_pos hx hy⟩

theorem betterLag_eq (b x : Option LagScore) : betterLag b x = b ∨ betterLag b x = x := by
  cases x with
  | none => exact .inl (by cases b <;> rfl)
  | some x =>
    cases b with
    | none => exact .inr rfl
    | some b =>
      simp only [betterLag]
      split_ifs
      · exact .inr rfl
      · exact .inl rfl

/-- The best lag is one of those compared. -/
theorem foldl_betterLag_mem (xs : List (Option LagScore)) :
    ∀ b : Option LagScore, xs.foldl betterLag b = b ∨ xs.foldl betterLag b ∈ xs := by
  induction xs with
  | nil => exact fun _ => .inl rfl
  | cons x xs ih =>
    intro b
    rw [List.foldl_cons]
    obtain hstart | hmem := ih (betterLag b x)
    · rw [hstart]
      exact (betterLag_eq b x).imp id fun hx => by simp [hx]
    · exact .inr (List.mem_cons_of_mem _ hmem)

theorem mem_of_foldl_betterLag {xs : List (Option LagScore)} {b : LagScore}
    (h : xs.foldl betterLag none = some b) : some b ∈ xs :=
  h ▸ (foldl_betterLag_mem xs none).resolve_left (by simp [h])

/-- What a pitch estimate is: a lag of those searched, if there is one, and a periodicity in Q15. -/
theorem pitchEstimate_range (p : Params) (z : List Int) :
    (∀ l, (pitchEstimate p z).1 = some l → p.plcLagMin ≤ l ∧ l ≤ p.plcLagMax) ∧
      0 ≤ (pitchEstimate p z).2 ∧ (pitchEstimate p z).2 ≤ 32767 := by
  unfold pitchEstimate
  dsimp only
  split
  · simp
  · rename_i b hbest
    obtain ⟨l, hl, hscore⟩ := List.mem_map.1 (mem_of_foldl_betterLag hbest)
    obtain ⟨i, hi, rfl⟩ := List.mem_map.1 hl
    obtain ⟨hlag, hee⟩ := lagScore_spec hscore
    rw [List.mem_range] at hi
    have hper : 0 ≤ 32768 * b.c ^ 2 / b.ee := Int.ediv_nonneg (by positivity) hee.le
    refine ⟨fun l' hl' => ?_, ?_, ?_⟩
    · obtain rfl := Option.some.inj hl'
      omega
    · omega
    · omega

/-- A lag within the parameters is at most 159, so its word holds it. -/
theorem toInt_lagWord {p : Params} (hp : ParamsOk p) {l : Nat} (hl : l ≤ p.plcLagMax) :
    (BitVec.ofNat 16 l).toInt = l := by
  have hmax := hp.lags.2.2
  rw [← BitVec.ofInt_natCast]
  exact toInt_ofInt16 (by omega)

/-- A good frame takes the estimated lag, if there is one, and periodicity, and leaves the high-pass memory. -/
theorem ctxInv_goodFrame {p : Params} (hp : ParamsOk p) {x : Ctx} (hx : ctxInv p x) (r lp : List Int) :
    ctxInv p (x.goodFrame p r lp) := by
  obtain ⟨hlag, -, hy0, hy1⟩ := hx
  obtain ⟨hest, hperNonneg, hperLe⟩ := pitchEstimate_range p (x.residual ++ r)
  refine ⟨?_, ?_, hy0, hy1⟩
  · unfold Ctx.goodFrame
    dsimp only
    cases hl : (pitchEstimate p (x.residual ++ r)).1 with
    | none => exact hlag
    | some l =>
      obtain ⟨hmin, hmax⟩ := hest l hl
      rw [Option.map_some, Option.getD_some, toInt_lagWord hp hmax]
      omega
  · have hword : (x.goodFrame p r lp).per.toInt = (pitchEstimate p (x.residual ++ r)).2 :=
      toInt_ofInt16 (by omega)
    rwa [hword]

theorem ctxInv_fresh {p : Params} (hp : ParamsOk p) (kind : CtxKind) (mode : Mode) :
    ctxInv p (Ctx.fresh p kind mode) := by
  obtain ⟨hmin, hmax⟩ := hp.lagInit
  have hlag : (Ctx.fresh p kind mode).lag.toInt = p.lagInit := toInt_lagWord hp hmax
  refine ⟨by omega, ?_⟩
  simp [Ctx.fresh]

/-! ### The context a command names -/

/-- Context `c` is closed or within its ranges. -/
def CtxInRange (p : Params) (c : Nat) (s : State) : Prop := ∀ x, s.ctxAt c = some x → ctxInv p x

/-- The context written is the one read back; one that is not there stays closed. -/
theorem ctxInRange_setCtx {p : Params} {c : Nat} {v : Option Ctx} (s : State) (h : ∀ x, v = some x → ctxInv p x) :
    CtxInRange p c (s.setCtx c v) := by
  intro x hx
  have hlt : c < (s.setCtx c v).params.nctx ∧ c < 16 := ctxAt_some_lt hx
  rw [ctxAt_setCtx, if_pos ⟨rfl, hlt⟩] at hx
  exact h x hx

@[simp] theorem ctxInRange_setRes0 (p : Params) (c : Nat) (s : State) (v : Int) :
    CtxInRange p c (s.setRes0 v) ↔ CtxInRange p c s := Iff.rfl

@[simp] theorem ctxInRange_setRes1 (p : Params) (c : Nat) (s : State) (v : Int) :
    CtxInRange p c (s.setRes1 v) ↔ CtxInRange p c s := Iff.rfl

theorem ctxInRange_updateIf {p : Params} {c : Nat} {s : State} (b : Bool) {f : State → State}
    (hf : ∀ s : State, (f s).ctxAt c = s.ctxAt c) (h : CtxInRange p c s) : CtxInRange p c (s.updateIf b f) := by
  cases b with
  | false => exact h
  | true => exact fun x hx => h x (by rwa [updateIf_true, hf] at hx)

/-- Whatever the outcome's next state, its context `c` is closed or within its ranges. -/
def LeavesInRange (p : Params) (c : Nat) (o : StepOutcome) : Prop := ∀ t, o = .next t → CtxInRange p c t

theorem leavesInRange_complete {p : Params} {c : Nat} {b : State} (h : CtxInRange p c b) :
    LeavesInRange p c (.next (complete b)) := by
  intro t ht
  obtain rfl := Host.Outcome.next.inj ht
  exact h

theorem leavesInRange_raise {p : Params} {c : Nat} {s : State} (e : CmdError) (h : CtxInRange p c s) :
    LeavesInRange p c (.next (raise e s)) := by
  intro t ht
  obtain rfl := Host.Outcome.next.inj ht
  exact h

theorem leavesInRange_runChecked {p : Params} {c : Nat} {s body : State} {args vals : List (Option CmdError)}
    {regions : List Region} (hs : CtxInRange p c s) (hbody : CtxInRange p c body) :
    LeavesInRange p c (runChecked s args regions vals body) := by
  intro t ht
  obtain ⟨-, -, -, -, rfl⟩ | ⟨e, -, rfl⟩ := runChecked_cases ht
  · exact hbody
  · exact hs

/-- A command on an open context may take the context's ranges for granted. -/
theorem leavesInRange_withCtx {p : Params} {s : State} {c : BitVec 4} {kind : Option CtxKind}
    {k : Ctx → StepOutcome} (hs : CtxInRange p c.toNat s)
    (hk : ∀ x, ctxInv p x → LeavesInRange p c.toNat (k x)) : LeavesInRange p c.toNat (withCtx s c kind k) := by
  obtain ⟨x, hx, -, ho⟩ | ho := withCtx_cases (rfl : withCtx s c kind k = _)
  · rw [ho]
    exact hk x (hs x hx)
  · rw [ho]
    exact leavesInRange_raise _ hs

theorem execHpFilt_leavesInRange {p : Params} {s : State} {c : BitVec 4} (hs : CtxInRange p c.toNat s) :
    LeavesInRange p c.toNat (execHpFilt c s) := by
  refine leavesInRange_withCtx hs fun x hx => leavesInRange_runChecked hs (ctxInRange_setCtx _ ?_)
  rintro y ⟨⟩
  obtain ⟨-, -, hy0, hy1⟩ := id hx
  exact ctxInv_setHpMem hx (hpFilter_inBound _ _ _ ⟨hy0, hy1⟩)

/-- The spectral analysis writes none of the fields that have a range. -/
theorem execSpecAna_leavesInRange {p : Params} {s : State} {c : BitVec 4} (hs : CtxInRange p c.toNat s) :
    LeavesInRange p c.toNat (execSpecAna c s) := by
  refine leavesInRange_withCtx hs fun x hx =>
    leavesInRange_runChecked hs (ctxInRange_updateIf _ (fun _ => rfl) ?_)
  rw [ctxInRange_setRes1, ctxInRange_setRes0]
  refine ctxInRange_setCtx _ ?_
  rintro y ⟨⟩
  exact hx

theorem execSpecSyn_leavesInRange {p : Params} {s : State} {c : BitVec 4} (hs : CtxInRange p c.toNat s) :
    LeavesInRange p c.toNat (execSpecSyn c s) := by
  refine leavesInRange_withCtx hs fun x hx => leavesInRange_runChecked hs ?_
  rw [ctxInRange_setRes0]
  refine ctxInRange_setCtx _ ?_
  rintro y ⟨⟩
  exact hx

/-- UNPACK writes no context. -/
theorem execUnpack_leavesInRange {p : Params} {s : State} {c : BitVec 4} (hs : CtxInRange p c.toNat s) :
    LeavesInRange p c.toNat (execUnpack c s) := by
  refine leavesInRange_withCtx hs fun x _ => ?_
  dsimp only
  split_ifs
  · exact leavesInRange_complete hs
  · exact leavesInRange_raise _ hs
  · exact leavesInRange_runChecked hs (ctxInRange_updateIf _ (fun _ => rfl) hs)

theorem execPlcGood_leavesInRange {s : State} {c : BitVec 4} (hp : ParamsOk s.params)
    (hs : CtxInRange s.params c.toNat s) : LeavesInRange s.params c.toNat (execPlcGood c s) := by
  refine leavesInRange_withCtx hs fun x hx => leavesInRange_runChecked hs ?_
  rw [ctxInRange_setRes1, ctxInRange_setRes0]
  refine ctxInRange_setCtx _ ?_
  rintro y ⟨⟩
  exact ctxInv_goodFrame hp hx _ _

/-- A lost frame writes the residual, the seed and the loss count alone. -/
theorem execPlcLost_leavesInRange {p : Params} {s : State} {c : BitVec 4} (hs : CtxInRange p c.toNat s) :
    LeavesInRange p c.toNat (execPlcLost c s) := by
  refine leavesInRange_withCtx hs fun x hx =>
    leavesInRange_runChecked hs (ctxInRange_updateIf _ (fun _ => rfl) ?_)
  rw [ctxInRange_setRes1, ctxInRange_setRes0]
  refine ctxInRange_setCtx _ ?_
  rintro y ⟨⟩
  exact hx

theorem execChOpen_leavesInRange {s : State} {c : BitVec 4} (kind : CtxKind) (mode : Mode)
    (hp : ParamsOk s.params) (hs : CtxInRange s.params c.toNat s) :
    LeavesInRange s.params c.toNat (execChOpen c kind mode s) := by
  unfold execChOpen
  split_ifs
  · refine leavesInRange_complete (ctxInRange_setCtx _ ?_)
    rintro y ⟨⟩
    exact ctxInv_fresh hp kind mode
  · exact leavesInRange_raise _ hs

theorem execChClose_leavesInRange {p : Params} {s : State} {c : BitVec 4} (hs : CtxInRange p c.toNat s) :
    LeavesInRange p c.toNat (execChClose c s) :=
  leavesInRange_withCtx hs fun _ _ => leavesInRange_complete (ctxInRange_setCtx _ (by simp))

/-- Every command leaves the context it names, if it names one, closed or within its ranges. -/
theorem exec_leavesInRange {i : Instr} {s : State} {c : BitVec 4} (hi : ctxNamed i = some c)
    (hp : ParamsOk s.params) (hs : CtxInRange s.params c.toNat s) : LeavesInRange s.params c.toNat (exec i s) := by
  unfold ctxNamed at hi
  split at hi
  case h_1 => cases hi; exact execHpFilt_leavesInRange hs
  case h_2 => cases hi; exact execSpecAna_leavesInRange hs
  case h_3 => cases hi; exact execSpecSyn_leavesInRange hs
  case h_4 => cases hi; exact execUnpack_leavesInRange hs
  case h_5 => cases hi; exact execPlcGood_leavesInRange hp hs
  case h_6 => cases hi; exact execPlcLost_leavesInRange hs
  case h_7 => cases hi; exact execChOpen_leavesInRange _ _ hp hs
  case h_8 => cases hi; exact execChClose_leavesInRange hs
  all_goals exact nomatch hi

/-! ### Every step -/

theorem contextsInv_congr {s t : State} (hp : t.params = s.params) (hc : ∀ c, t.ctxAt c = s.ctxAt c)
    (h : contextsInv s) : contextsInv t := by
  obtain ⟨hparams, hctxs⟩ := h
  refine ⟨hp ▸ hparams, fun c x hx => ?_⟩
  rw [hp]
  exact hctxs c x (hc c ▸ hx)

theorem contextsInv_of_hostKeeps {s t : State} (h : HostKeeps s t) : contextsInv s → contextsInv t :=
  contextsInv_congr h.params fun c => by rw [ctxAt_eq, ctxAt_eq, h.params, h.ctxs]

/-- A command changes no context but the one it names, and leaves that one within its ranges. -/
theorem contextsInv_exec {i : Instr} {s t : State} (hs : contextsInv s) (h : exec i s = .next t) :
    contextsInv t := by
  obtain ⟨e, -, hend⟩ | ⟨b, hend, hkeeps, htouches⟩ := exec_ends i s
  · obtain rfl : t = raise e s := by simpa [h] using hend
    exact hs
  · obtain rfl : t = complete b := by simpa [h] using hend
    obtain ⟨hparams, hctxs⟩ := hs
    have hp : (complete b).params = s.params := hkeeps.params
    refine ⟨hp ▸ hparams, fun d x hx => ?_⟩
    rw [hp]
    by_cases hnamed : ∃ c, ctxNamed i = some c ∧ d = c.toNat
    · obtain ⟨c, hi, rfl⟩ := hnamed
      exact exec_leavesInRange hi hparams (hctxs _) _ h x hx
    · have hother : b.ctxAt d = s.ctxAt d := htouches d fun c hi hd => hnamed ⟨c, hi, hd⟩
      exact hctxs d x (hother ▸ hx)

theorem step_keeps_contextsInv {s t : State} (hs : contextsInv s) (h : step s = .next t) : contextsInv t := by
  obtain ⟨rest, ⟨a, rfl⟩ | rfl | ⟨-, hrun⟩⟩ := step_cases h
  · obtain hkeeps | ⟨w, hw⟩ := hostAccess_cases a { s with turns := rest }
    · exact contextsInv_of_hostKeeps hkeeps hs
    · rw [hw]
      exact hs
  · exact hs
  · obtain ⟨i, hexec⟩ | ⟨e, -, rfl⟩ := runCommand_cases hrun
    · exact contextsInv_exec (s := { s with turns := rest }) hs hexec
    · exact hs

/-- Settles O57: both invariants, by the turn the step is. -/
theorem stepKeepsReportAndContextsInv : Obligations.StepKeepsReportAndContextsInv := by
  unfold Obligations.StepKeepsReportAndContextsInv
  exact ⟨fun _ _ => step_keeps_statusInv, fun _ _ => step_keeps_contextsInv⟩

end Sys2Proof.Machine
end

section
/-! What a command leaves as it was beside the data memory (20_memory.md R100), and the host's window into the data
memory (R84). -/

namespace Sys2Proof.Machine

/-! ### What a command may write -/

/-- Settles O45: both ends of a command keep what no body writes, and every context but the one it names. -/
theorem commandsAreIsolated : Obligations.CommandsAreIsolated := by
  unfold Obligations.CommandsAreIsolated
  intro i s t h
  obtain ⟨e, -, hend⟩ | ⟨b, hend, hkeeps, htouches⟩ := exec_ends i s
  · obtain rfl : t = raise e s := by simpa [h] using hend
    exact ⟨fun _ _ => rfl, rfl, rfl, rfl, rfl, rfl, rfl, rfl, rfl⟩
  · obtain rfl : t = complete b := by simpa [h] using hend
    exact ⟨htouches, hkeeps.params, hkeeps.cmd, hkeeps.args, hkeeps.daddr, hkeeps.hostviol, hkeeps.turns,
      hkeeps.rdata, hkeeps.draws⟩

/-! ### The window -/

theorem readDdata_inside {s : State} (h : s.daddr.toNat < s.params.dmemWords) :
    readDdata s = (s.answer ((s.dmem.readWord s.daddr.toNat).setWidth 32)).stepDaddr := if_pos h

theorem readDdata_outside {s : State} (h : s.params.dmemWords ≤ s.daddr.toNat) :
    readDdata s = (s.answer 0).setHostviol := if_neg (Nat.not_lt.2 h)

theorem writeDdata_inside {s : State} (v : Word32) (h : s.daddr.toNat < s.params.dmemWords) :
    writeDdata v s =
      { s with dmem := s.dmem.writeWord s.daddr.toNat (v.extractLsb' 0 16) }.stepDaddr := if_pos h

theorem writeDdata_outside {s : State} (v : Word32) (h : s.params.dmemWords ≤ s.daddr.toNat) :
    writeDdata v s = s.setHostviol := if_neg (Nat.not_lt.2 h)

/-- A word written leaves every byte of the others. -/
theorem sameOutside_writeWord (m : Memory) (a : Nat) (v : Word16) : sameOutside m (m.writeWord a v) a 1 := by
  intro k hk
  rw [byteAt_writeWord, if_neg (by omega), if_neg (by omega)]

/-- Settles O48: within the data memory the word at DADDR is read or written and DADDR steps on, beyond it the access
is refused. -/
theorem dataWindow : Obligations.DataWindow := by
  unfold Obligations.DataWindow
  intro s hb
  have hread : hostAccess (.read 0x3C 32) s = readDdata s := hostAccess_read_idle .ddata hb rfl
  have hwrite (v : Word32) : hostAccess (.write 0x3C 32 v) s = writeDdata v s :=
    hostAccess_write_idle .ddata v hb rfl
  refine ⟨fun hin => ⟨hread.trans (readDdata_inside hin), fun v => ?_⟩, fun hout =>
    ⟨hread.trans (readDdata_outside hout), fun v => (hwrite v).trans (writeDdata_outside v hout)⟩⟩
  have hlow : v.extractLsb' 0 16 = v.setWidth 16 := (BitVec.setWidth_eq_extractLsb' (by omega)).symm
  refine ⟨_, (hwrite v).trans (writeDdata_inside v hin), ?_, sameOutside_writeWord _ _ _⟩
  rw [readWord_writeWord, if_pos rfl, hlow]

end Sys2Proof.Machine
end

section
/-! How many words each computation gives that a command writes to the data memory: the length of the output region its
rule names. -/

namespace Sys2Proof.Machine

/-! ### Filters and products -/

theorem hpFilter_length (acc : Int → Int → Int → Int → Int → Int) (xs : List Int) :
    ∀ h : HpMem, (hpFilter acc h xs).1.length = xs.length := by
  induction xs with
  | nil => exact fun _ => rfl
  | cons x xs ih => exact fun h => congrArg Nat.succ (ih _)

theorem filterMa_length (b sig : List Int) (m n : Nat) : (filterMa b sig m n).length = n := tabulate_length _ _

theorem autocorr_length (xs : List Int) (m : Nat) : (autocorr xs m).length = m + 1 := tabulate_length _ _

/-! ### Linear prediction -/

/-- Both outcomes of LEVINSON are whole: 11 coefficients, 10 reflection coefficients. -/
theorem levinson_length (r : List Int) : (levinson r).a.length = 11 ∧ (levinson r).k.length = 10 := by
  have hunstable (i : Nat) (k : List Int) :
      (unstableAt i k).a.length = 11 ∧ (unstableAt i k).k.length = 10 := by
    simp [unstableAt, identityFilter]
  unfold levinson
  dsimp only
  split_ifs
  · exact hunstable 0 []
  · exact ⟨levArith_a_length r, levArith_k_length r⟩
  · exact hunstable _ _

/-! ### LSF sets -/

/-- A look-up beyond the table gives nothing, so no index gives more than an entry. -/
theorem cbEntry_length_le {cb : List (List Int)} {n : Nat} (h : ∀ e ∈ cb, e.length = n) (c : Nat) :
    (cbEntry cb c).length ≤ n := by
  unfold cbEntry
  rw [List.getD_eq_getElem?_getD]
  cases hc : cb[c]? with
  | none => simp
  | some e => simp [h e (List.mem_of_getElem? hc)]

theorem lsfDequant_length_le (ix : List Int) : (lsfDequant ix).length ≤ 10 := by
  have h1 (c : Nat) : (cbEntry lsfCb1 c).length ≤ 3 := cbEntry_length_le (by simp [lsfCb1]) c
  have h2 (c : Nat) : (cbEntry lsfCb2 c).length ≤ 3 := cbEntry_length_le (by simp [lsfCb2]) c
  have h3 (c : Nat) : (cbEntry lsfCb3 c).length ≤ 4 := cbEntry_length_le (by simp [lsfCb3]) c
  simp only [lsfDequant, List.length_append]
  linarith [h1 (nth ix 0).toNat, h2 (nth ix 1).toNat, h3 (nth ix 2).toNat]

theorem stabClamp_length (P : StabParams) (p : Nat) (w : Stab) : (stabClamp P p w).1.length = w.1.length := by
  unfold stabClamp
  dsimp only
  split_ifs <;> simp

theorem stabSpread_length (P : StabParams) (p : Nat) (w : Stab) : (stabSpread P p w).1.length = w.1.length := by
  unfold stabSpread
  dsimp only
  split_ifs <;> simp

/-- Moves that keep the length of the working copy keep it together. -/
theorem foldl_stab_length {f : Stab → Nat → Stab} (hf : ∀ w i, (f w i).1.length = w.1.length) (l : List Nat) :
    ∀ w : Stab, (l.foldl f w).1.length = w.1.length := by
  induction l with
  | nil => exact fun _ => rfl
  | cons i l ih => exact fun w => (ih (f w i)).trans (hf w i)

theorem stabSet_length (P : StabParams) (w : Stab) (set : Nat) : (stabSet P w set).1.length = w.1.length := by
  have hsweep := foldl_stab_length
    (f := fun w m => stabClamp P (10 * set + m) (stabSpread P (10 * set + m) w))
    (fun w m => (stabClamp_length _ _ _).trans (stabSpread_length _ _ _)) (List.range 9) w
  unfold stabSet
  dsimp only
  split_ifs
  · exact (stabClamp_length _ _ _).trans hsweep
  · exact hsweep

/-- The stability pass moves coefficients, it adds and drops none. -/
theorem stabilise_length (P : StabParams) (ns : Nat) (v : List Int) : (stabilise P ns v).1.length = v.length :=
  (foldl_stab_length (stabSet_length P) _ _).trans (foldl_stab_length (stabSet_length P) _ _)

theorem lsfBlend_length (w : Int) (fa fb : List Int) : (lsfBlend w fa fb).length = 10 := tabulate_length _ _

/-! ### The spectral pipelines -/

theorem coefSets_length (p : Params) (m : Mode) (t : ChirpSel) (old sets : List Int) :
    (coefSets p m t old sets).length = 11 * Config.nsub m :=
  flatMap_length _ _ 11 fun _ => expand_length _ _

theorem analyse_idx_length (p : Params) (x : Ctx) (frame : List Int) :
    (x.analyse p frame).idx.length = 3 * (p.frame x.mode).nLsfSet := by
  unfold Ctx.analyse
  dsimp only
  rw [List.flatMap_map]
  exact flatMap_length _ _ 3 fun _ => (lsfQuant_length _).2

/-! ### Codebooks -/

theorem timeOrder_length (dir : CbDir) (l : List Int) : (timeOrder dir l).length = l.length := by
  cases dir with
  | forward => rfl
  | backward => exact List.length_reverse

theorem cbRebuild_length (P : CbParams) (g : List Int) (lMem lT : Nat) (idx gidx : List Int) :
    (cbRebuild P g lMem lT idx gidx).length = lT := tabulate_length _ _

/-! ### The bitstream -/

theorem packFields_length (l : List Segment) (nBytes : Nat) (fields : List Nat) :
    (packFields l nBytes fields).length = nBytes := tabulate_length _ _

theorem unpackFields_length (l : List Segment) (widths words : List Nat) :
    (unpackFields l widths words).length = widths.length := by
  simp [unpackFields]

/-! ### Concealment -/

theorem noise_length (p : Params) (pr : List Int) (len k : Nat) :
    ∀ (n : Nat) (seed : Int) (past : List Int), (noise p pr len k n seed past).1.length = past.length + k := by
  induction k with
  | zero => exact fun _ _ _ => List.length_reverse
  | succ k ih =>
    intro n seed past
    rw [noise, ih, List.length_cons]
    omega

theorem residual_length (x : Ctx) : x.residual.length = Config.frameLen x.mode := by
  unfold Ctx.residual
  rw [List.length_take, ints_length]
  cases x.mode <;> rfl

/-- A concealed frame is as long as the residual it is made from: a frame. -/
theorem conceal_length (p : Params) (x : Ctx) : (x.conceal p).out.length = Config.frameLen x.mode := by
  rw [← residual_length]
  unfold Ctx.conceal conceal
  dsimp only
  rw [List.length_map]
  split_ifs
  · simp [noise_length]
  · exact tabulate_length _ _

end Sys2Proof.Machine
end

section
/-! The data memory stays canonical and within its addresses (20_memory.md R80, R90): a command writes its output
regions alone, after their checks, and the host writes through the window alone. -/

namespace Sys2Proof.Machine

/-! ### What the updates of a body do to the invariant -/

@[simp] theorem memoryInv_setRes0 (s : State) (v : Int) : memoryInv (s.setRes0 v) ↔ memoryInv s := Iff.rfl

@[simp] theorem memoryInv_setRes1 (s : State) (v : Int) : memoryInv (s.setRes1 v) ↔ memoryInv s := Iff.rfl

@[simp] theorem memoryInv_setCtx (s : State) (c : Nat) (v : Option Ctx) :
    memoryInv (s.setCtx c v) ↔ memoryInv s := Iff.rfl

@[simp] theorem memoryInv_setUnstableIf (s : State) (b : Bool) :
    memoryInv (s.updateIf b State.setUnstable) ↔ memoryInv s := by cases b <;> exact Iff.rfl

@[simp] theorem memoryInv_setBiterrIf (s : State) (b : Bool) :
    memoryInv (s.updateIf b State.setBiterr) ↔ memoryInv s := by cases b <;> exact Iff.rfl

@[simp] theorem memoryInv_setNoiseonlyIf (s : State) (b : Bool) :
    memoryInv (s.updateIf b State.setNoiseonly) ↔ memoryInv s := by cases b <;> exact Iff.rfl

theorem fits_iff (words : Nat) (r : Region) :
    r.fits words = true ↔ r.hist ≤ r.addr ∧ (r.hist + r.len = 0 ∨ r.addr + r.len ≤ words) := by
  simp only [Region.fits, Bool.and_eq_true, Bool.or_eq_true, beq_iff_eq, decide_eq_true_eq]

/-- A list no longer than an output region that fits is written inside the data memory; a region's history is not
written. -/
theorem memoryInv_writeVec {s b : State} {k : ArgNo} {len hist : Nat} {inPlace : List ArgNo} {l : List Int}
    (hb : memoryInv b) (hp : b.params = s.params)
    (hfits : (s.output k len inPlace hist).fits s.params.dmemWords = true) (hl : l.length ≤ len) :
    memoryInv (b.writeVec (s.argLow k) l) := by
  obtain ⟨hwf, hspace⟩ := hb
  obtain ⟨-, hfits⟩ : hist ≤ s.argLow k ∧ (hist + len = 0 ∨ s.argLow k + len ≤ s.params.dmemWords) :=
    (fits_iff _ _).1 hfits
  have hin : l = [] ∨ s.argLow k + l.length ≤ b.params.dmemWords := by
    rw [← List.length_eq_zero_iff, hp]
    omega
  exact ⟨writeVec_wf _ _ _ hwf, writeVec_inSpace _ _ _ _ hin hspace⟩

/-! ### Commands -/

/-- Whatever the outcome's next state, its data memory is canonical and within its addresses. -/
def LeavesMemoryInv (o : StepOutcome) : Prop := ∀ t, o = .next t → memoryInv t

theorem leavesMemoryInv_complete {b : State} (h : memoryInv b) : LeavesMemoryInv (.next (complete b)) := by
  rintro t ⟨⟩
  exact h

theorem leavesMemoryInv_raise {s : State} (e : CmdError) (h : memoryInv s) :
    LeavesMemoryInv (.next (raise e s)) := by
  rintro t ⟨⟩
  exact h

theorem leavesMemoryInv_withCtx {s : State} {c : BitVec 4} {kind : Option CtxKind} {k : Ctx → StepOutcome}
    (hs : memoryInv s) (hk : ∀ x, LeavesMemoryInv (k x)) : LeavesMemoryInv (withCtx s c kind k) := by
  obtain ⟨x, -, -, ho⟩ | ho := withCtx_cases (rfl : withCtx s c kind k = _)
  · exact ho ▸ hk x
  · exact ho ▸ leavesMemoryInv_raise _ hs

section
variable {s body : State} {args vals : List (Option CmdError)} {regions : List Region}

/-- A body may take for granted that the regions of its command fit. -/
theorem leavesMemoryInv_runChecked (hs : memoryInv s)
    (hbody : (∀ r ∈ regions, r.fits s.params.dmemWords = true) → memoryInv body) :
    LeavesMemoryInv (runChecked s args regions vals body) := by
  intro t ht
  obtain ⟨-, hfits, -, -, rfl⟩ | ⟨e, -, rfl⟩ := runChecked_cases ht
  · exact hbody hfits
  · exact hs

/-- A command with one output region, which its list does not exceed. -/
theorem leavesMemoryInv_oneOutput {k : ArgNo} {len hist : Nat} {inPlace : List ArgNo} {l : List Int}
    (hs : memoryInv s) (hbody : memoryInv (s.writeVec (s.argLow k) l) → memoryInv body)
    (hmem : s.output k len inPlace hist ∈ regions) (hl : l.length ≤ len) :
    LeavesMemoryInv (runChecked s args regions vals body) :=
  leavesMemoryInv_runChecked hs fun hfits => hbody (memoryInv_writeVec hs rfl (hfits _ hmem) hl)

end

/-! ### The commands with more than one output region, with a context's update, or with a case beside their checks -/

theorem execLevinson_leavesMemoryInv {s : State} (hs : memoryInv s) : LeavesMemoryInv (execLevinson s) := by
  refine leavesMemoryInv_runChecked hs fun hfits => ?_
  rw [memoryInv_setRes0, memoryInv_setUnstableIf]
  exact memoryInv_writeVec (memoryInv_writeVec hs rfl (hfits _ (.tail _ (.head _))) (levinson_length _).1.le) rfl
    (hfits _ (.tail _ (.tail _ (.head _)))) (levinson_length _).2.le

theorem execLsfQuant_leavesMemoryInv {s : State} (hs : memoryInv s) : LeavesMemoryInv (execLsfQuant s) :=
  leavesMemoryInv_runChecked hs fun hfits =>
    memoryInv_writeVec (memoryInv_writeVec hs rfl (hfits _ (.tail _ (.head _))) (lsfQuant_length _).1.le) rfl
      (hfits _ (.tail _ (.tail _ (.head _)))) (lsfQuant_length _).2.le

theorem execSpecAna_leavesMemoryInv {s : State} (c : BitVec 4) (hs : memoryInv s) :
    LeavesMemoryInv (execSpecAna c s) := by
  refine leavesMemoryInv_withCtx hs fun x => leavesMemoryInv_runChecked hs fun hfits => ?_
  rw [memoryInv_setUnstableIf, memoryInv_setRes1, memoryInv_setRes0, memoryInv_setCtx]
  exact memoryInv_writeVec
    (memoryInv_writeVec (memoryInv_writeVec hs rfl (hfits _ (.tail _ (.head _))) (analyse_idx_length _ _ _).le) rfl
      (hfits _ (.tail _ (.tail _ (.head _)))) (coefSets_length _ _ _ _ _).le) rfl
    (hfits _ (.tail _ (.tail _ (.tail _ (.head _))))) (coefSets_length _ _ _ _ _).le

theorem execSpecSyn_leavesMemoryInv {s : State} (c : BitVec 4) (hs : memoryInv s) :
    LeavesMemoryInv (execSpecSyn c s) := by
  refine leavesMemoryInv_withCtx hs fun x => leavesMemoryInv_runChecked hs fun hfits => ?_
  rw [memoryInv_setRes0, memoryInv_setCtx]
  exact memoryInv_writeVec hs rfl (hfits _ (.tail _ (.head _))) (coefSets_length _ _ _ _ _).le

/-- Both searches write three indices and three gain indices. -/
theorem searchCommand_leavesMemoryInv {s : State} (order : List Int → List Int) (hs : memoryInv s) :
    LeavesMemoryInv (searchCommand order s) := by
  refine leavesMemoryInv_runChecked hs fun hfits => ?_
  rw [memoryInv_setRes1, memoryInv_setRes0]
  exact memoryInv_writeVec (memoryInv_writeVec hs rfl (hfits _ (.tail _ (.tail _ (.head _)))) le_rfl) rfl
    (hfits _ (.tail _ (.tail _ (.tail _ (.head _))))) le_rfl

theorem execPlcGood_leavesMemoryInv {s : State} (c : BitVec 4) (hs : memoryInv s) :
    LeavesMemoryInv (execPlcGood c s) := by
  refine leavesMemoryInv_withCtx hs fun x => leavesMemoryInv_runChecked hs fun hfits => ?_
  rw [memoryInv_setRes1, memoryInv_setRes0, memoryInv_setCtx]
  exact memoryInv_writeVec hs rfl (hfits _ (.tail _ (.tail _ (.head _)))) (conceal_length _ _).le

theorem execPlcLost_leavesMemoryInv {s : State} (c : BitVec 4) (hs : memoryInv s) :
    LeavesMemoryInv (execPlcLost c s) := by
  refine leavesMemoryInv_withCtx hs fun x => leavesMemoryInv_runChecked hs fun hfits => ?_
  rw [memoryInv_setNoiseonlyIf, memoryInv_setRes1, memoryInv_setRes0, memoryInv_setCtx]
  exact memoryInv_writeVec (memoryInv_writeVec hs rfl (hfits _ (.head _)) (conceal_length _ _).le) rfl
    (hfits _ (.tail _ (.head _))) (ints_length _).le

theorem execUnpack_leavesMemoryInv {s : State} (c : BitVec 4) (hs : memoryInv s) :
    LeavesMemoryInv (execUnpack c s) := by
  refine leavesMemoryInv_withCtx hs fun x => ?_
  dsimp only
  split_ifs
  · exact leavesMemoryInv_complete hs
  · exact leavesMemoryInv_raise _ hs
  · refine leavesMemoryInv_runChecked hs fun hfits => ?_
    rw [memoryInv_setBiterrIf, memoryInv_setRes0]
    exact memoryInv_writeVec hs rfl (hfits _ (.tail _ (.head _))) (unpackFields_length _ _ _).le

theorem execGainQuant_leavesMemoryInv {s : State} (stg : BitVec 2) (hs : memoryInv s) :
    LeavesMemoryInv (execGainQuant stg s) := by
  unfold execGainQuant
  split_ifs
  · exact leavesMemoryInv_raise _ hs
  · exact leavesMemoryInv_runChecked hs fun _ => hs

theorem execGainDequant_leavesMemoryInv {s : State} (stg : BitVec 2) (hs : memoryInv s) :
    LeavesMemoryInv (execGainDequant stg s) := by
  unfold execGainDequant
  split_ifs
  · exact leavesMemoryInv_raise _ hs
  · exact leavesMemoryInv_runChecked hs fun _ => hs

theorem execChOpen_leavesMemoryInv {s : State} (c : BitVec 4) (kind : CtxKind) (mode : Mode) (hs : memoryInv s) :
    LeavesMemoryInv (execChOpen c kind mode s) := by
  unfold execChOpen
  split_ifs
  · exact leavesMemoryInv_complete hs
  · exact leavesMemoryInv_raise _ hs

/-! ### The opcode map -/

/-- Every command: the scalar commands write no data memory, the others a list for each output region, which it does
not exceed. -/
theorem exec_leavesMemoryInv (i : Instr) {s : State} (hs : memoryInv s) : LeavesMemoryInv (exec i s) := by
  cases i with
  | nop | sat16 | abs16 | abs32 | adds16 | subs16 | adds32 | subs32 | mul16 | shift32 | shift16 | normw16 | normw32
  | normu32 | sizebits => exact leavesMemoryInv_complete hs
  | vmaxabs16 | dotsc => exact leavesMemoryInv_runChecked hs fun _ => hs
  | vscale => exact leavesMemoryInv_oneOutput hs id (.tail _ (.head _)) (by simp)
  | vmul => exact leavesMemoryInv_oneOutput hs id (.tail _ (.tail _ (.head _))) (by simp)
  | filtMa => exact leavesMemoryInv_oneOutput hs id (.tail _ (.head _)) (filterMa_length _ _ _ _).le
  | filtAr => exact leavesMemoryInv_oneOutput hs id (.tail _ (.head _)) (by simp [filterAr_length])
  | hpFilt =>
    exact leavesMemoryInv_withCtx hs fun x =>
      leavesMemoryInv_oneOutput hs (memoryInv_setCtx _ _ _).2 (.tail _ (.head _)) (by simp [hpFilter_length])
  | bwexp => exact leavesMemoryInv_oneOutput hs id (.tail _ (.head _)) (expand_length _ _).le
  | autocorr =>
    exact leavesMemoryInv_oneOutput hs (memoryInv_setRes0 _ _).2 (.tail _ (.head _))
      (by rw [halves_length, autocorr_length])
  | levinson => exact execLevinson_leavesMemoryInv hs
  | a2lsf =>
    exact leavesMemoryInv_oneOutput hs (memoryInv_setRes0 _ _).2 (.tail _ (.head _)) (lpcToLsf_length _).le
  | lsf2a => exact leavesMemoryInv_oneOutput hs id (.tail _ (.head _)) (lsf2aFn_length _).le
  | lsfQuant => exact execLsfQuant_leavesMemoryInv hs
  | lsfDequant => exact leavesMemoryInv_oneOutput hs id (.tail _ (.head _)) (lsfDequant_length_le _)
  | lsfStab =>
    exact leavesMemoryInv_oneOutput hs (memoryInv_setRes0 _ _).2 (.tail _ (.head _)) (by simp [stabilise_length])
  | lsfInterp =>
    exact leavesMemoryInv_oneOutput hs id (.tail _ (.tail _ (.head _))) (lsfBlend_length _ _ _).le
  | specAna c => exact execSpecAna_leavesMemoryInv c hs
  | specSyn c => exact execSpecSyn_leavesMemoryInv c hs
  | acbSearch | bcbSearch => exact searchCommand_leavesMemoryInv _ hs
  | cbConstruct dir =>
    exact leavesMemoryInv_oneOutput hs id (.tail _ (.tail _ (.tail _ (.head _))))
      ((timeOrder_length dir _).trans (cbRebuild_length _ _ _ _ _ _)).le
  | gainQuant stg => exact execGainQuant_leavesMemoryInv stg hs
  | gainDequant stg => exact execGainDequant_leavesMemoryInv stg hs
  | pack =>
    exact leavesMemoryInv_oneOutput hs (memoryInv_setRes0 _ _).2 (.tail _ (.head _)) (packFields_length _ _ _).le
  | unpack c => exact execUnpack_leavesMemoryInv c hs
  | plcGood c => exact execPlcGood_leavesMemoryInv c hs
  | plcLost c => exact execPlcLost_leavesMemoryInv c hs
  | chOpen c kind mode => exact execChOpen_leavesMemoryInv c kind mode hs
  | chClose => exact leavesMemoryInv_withCtx hs fun _ => leavesMemoryInv_complete hs

/-! ### Accesses of the host -/

/-- No read changes the data memory. -/
theorem hostRead_dmem (offset width : Nat) (s : State) : (hostRead offset width s).dmem = s.dmem := by
  change (hostAccess (.read offset width) s).dmem = s.dmem
  cases hreg : accessedReg offset width with
  | none =>
    rw [hostAccess_read_refused hreg]
    rfl
  | some r =>
    cases hb : s.status.busy with
    | true =>
      rw [hostAccess_read_busy r hb hreg]
      cases r <;> rfl
    | false =>
      rw [hostAccess_read_idle r hb hreg]
      cases r with
      | ddata =>
        change (readDdata s).dmem = s.dmem
        unfold readDdata
        split_ifs <;> rfl
      | _ => rfl

theorem memoryInv_writeStatus (v : Word32) {s : State} (hs : memoryInv s) : memoryInv (writeStatus v s) := by
  unfold writeStatus
  cases v.getLsbD 16 <;> exact hs

/-- The window writes the word at DADDR, which lies in the data memory, or nothing. -/
theorem memoryInv_writeDdata (v : Word32) {s : State} (hs : memoryInv s) : memoryInv (writeDdata v s) := by
  obtain hin | hout := Nat.lt_or_ge s.daddr.toNat s.params.dmemWords
  · rw [writeDdata_inside v hin]
    obtain ⟨hwf, hspace⟩ := hs
    exact ⟨writeWord_wf _ _ _ hwf, writeWord_inSpace _ _ _ _ hin hspace⟩
  · rw [writeDdata_outside v hout]
    exact hs

theorem memoryInv_writeIdle (r : HostReg) (v : Word32) {s : State} (hs : memoryInv s) :
    memoryInv (writeIdle r v s) := by
  cases r with
  | status => exact memoryInv_writeStatus v hs
  | ddata => exact memoryInv_writeDdata v hs
  | _ => exact hs

theorem memoryInv_writeBusy (r : HostReg) (v : Word32) {s : State} (hs : memoryInv s) :
    memoryInv (writeBusy r v s) := by
  cases r with
  | status => exact memoryInv_writeStatus v hs
  | _ => exact hs

theorem hostAccess_params (a : HostAccess) (s : State) : (hostAccess a s).params = s.params := by
  obtain hkeeps | ⟨w, hw⟩ := hostAccess_cases a s
  · exact hkeeps.params
  · rw [hw]
    rfl

theorem memoryInv_hostAccess (a : HostAccess) {s : State} (hs : memoryInv s) : memoryInv (hostAccess a s) := by
  cases a with
  | read offset width =>
    unfold memoryInv
    rw [hostAccess_params]
    exact hostRead_dmem offset width s ▸ hs
  | write offset width v =>
    cases hreg : accessedReg offset width with
    | none =>
      rw [hostAccess_write_refused v hreg]
      exact hs
    | some r =>
      cases hb : s.status.busy with
      | true =>
        rw [hostAccess_write_busy r v hb hreg]
        exact memoryInv_writeBusy r v hs
      | false =>
        rw [hostAccess_write_idle r v hb hreg]
        exact memoryInv_writeIdle r v hs

/-! ### Every step -/

theorem exec_params {i : Instr} {s t : State} (h : exec i s = .next t) : t.params = s.params := by
  obtain ⟨e, -, hend⟩ | ⟨b, hend, hkeeps, -⟩ := exec_ends i s
  · obtain rfl : t = raise e s := by simpa [h] using hend
    rfl
  · obtain rfl : t = complete b := by simpa [h] using hend
    exact hkeeps.params

/-- Settles O56: by the turn the step is, an access of the host or the command under way. -/
theorem stepKeepsMemoryInv : Obligations.StepKeepsMemoryInv := by
  unfold Obligations.StepKeepsMemoryInv
  intro s t h
  obtain ⟨rest, ⟨a, rfl⟩ | rfl | ⟨-, hrun⟩⟩ := step_cases h
  · exact ⟨hostAccess_params a _, fun hs => memoryInv_hostAccess a (s := { s with turns := rest }) hs⟩
  · exact ⟨rfl, id⟩
  · obtain ⟨i, hexec⟩ | ⟨e, -, rfl⟩ := runCommand_cases hrun
    · have hparams : t.params = s.params := exec_params (s := { s with turns := rest }) hexec
      exact ⟨hparams, fun hs => exec_leavesMemoryInv i (s := { s with turns := rest }) hs t hexec⟩
    · exact ⟨rfl, id⟩

end Sys2Proof.Machine
end

section
/-! The region and overlap checks of a command in the vocabulary of the claims (20_memory.md R90, R94;
60_exceptions.md R475 steps 6 and 7). -/

namespace Sys2Proof.Machine

/-! ### Regions as the claims name them -/

/-- A region with its history, which comes first. -/
def Region.named (r : Region) : NamedRegion := ⟨r.reg, (r.addr : Int) - r.hist, r.hist + r.len, r.isOut⟩

section
variable (s : State) (k : ArgNo) (n h : Nat) (l : List ArgNo)

@[simp] theorem input_reg : (s.input k n h).reg = k := rfl
@[simp] theorem input_addr : (s.input k n h).addr = s.argLow k := rfl
@[simp] theorem input_len : (s.input k n h).len = n := rfl
@[simp] theorem input_isOut : (s.input k n h).isOut = false := rfl
@[simp] theorem input_inPlace : (s.input k n h).inPlace = [] := rfl
@[simp] theorem output_reg : (s.output k n l h).reg = k := rfl
@[simp] theorem output_addr : (s.output k n l h).addr = s.argLow k := rfl
@[simp] theorem output_len : (s.output k n l h).len = n := rfl
@[simp] theorem output_isOut : (s.output k n l h).isOut = true := rfl
@[simp] theorem output_inPlace : (s.output k n l h).inPlace = l := rfl

@[simp] theorem named_input : (s.input k n h).named = ⟨k, (s.argLow k : Int) - h, h + n, false⟩ := rfl
@[simp] theorem named_output : (s.output k n l h).named = ⟨k, (s.argLow k : Int) - h, h + n, true⟩ := rfl

end

theorem named_inside_iff (r : Region) (s : State) :
    r.named.inside s ↔ r.fits s.params.dmemWords = true := by
  rw [fits_iff]
  unfold NamedRegion.inside Region.named
  dsimp only
  omega

theorem overlaps_iff (r q : Region) :
    r.overlaps q = true ↔
      max (r.addr - r.hist) (q.addr - q.hist) < min (r.addr + r.len) (q.addr + q.len) := decide_eq_true_iff

theorem overlaps_comm (r q : Region) : r.overlaps q = q.overlaps r := by
  rw [Bool.eq_iff_iff, overlaps_iff, overlaps_iff, max_comm, min_comm]

/-- With no history before address 0, the words shared run from the later first word to the earlier end. -/
theorem named_meets_iff {r q : Region} (hr : r.hist ≤ r.addr) (hq : q.hist ≤ q.addr) :
    r.named.meets q.named ↔ r.overlaps q = true := by
  rw [overlaps_iff]
  unfold NamedRegion.meets Region.named
  dsimp only
  constructor
  · rintro ⟨a, hra, hqa⟩
    omega
  · intro h
    exact ⟨max ((r.addr : Int) - r.hist) ((q.addr : Int) - q.hist), by omega, by omega⟩

theorem inPlaceWith_iff (o i : Region) :
    o.inPlaceWith i = true ↔ i.reg ∈ o.inPlace ∧ o.addr = i.addr ∧ o.len = i.len := by
  simp only [Region.inPlaceWith, Bool.and_eq_true, List.contains_iff_mem, beq_iff_eq, and_assoc]

/-! ### Refused pairs -/

/-- The output region `o` is the one by which its pair with `r` is refused. -/
def Region.refuses (o r : Region) : Prop :=
  o.isOut = true ∧ o.overlaps r = true ∧ (r.isOut = true → o.reg < r.reg) ∧
    ¬ (r.isOut = false ∧ o.inPlaceWith r = true)

/-- A pair of regions is reported by the one of them that refuses it. -/
theorem pairConflict_eq_some {r q : Region} (h : r.reg < q.reg) (k : ArgNo) :
    pairConflict r q = some k ↔ r.refuses q ∧ r.reg = k ∨ q.refuses r ∧ q.reg = k := by
  unfold pairConflict Region.refuses
  rw [overlaps_comm q r]
  cases hov : r.overlaps q with
  | false => simp
  | true =>
    cases hr : r.isOut <;> cases hq : q.isOut
    · simp
    · simp
    · simp
    · simp [h, h.le, h.not_gt]

/-- The registers reported are those of the regions that refuse another one. -/
theorem mem_conflicts {rs : List Region} (hs : rs.Pairwise fun r q => r.reg < q.reg) (k : ArgNo) :
    k ∈ conflicts rs ↔ ∃ o ∈ rs, ∃ r ∈ rs, o.reg = k ∧ r.reg ≠ k ∧ o.refuses r := by
  induction rs with
  | nil => simp [conflicts]
  | cons a rs ih =>
    obtain ⟨ha, hs⟩ := List.pairwise_cons.1 hs
    rw [conflicts, List.mem_append, List.mem_filterMap, ih hs]
    constructor
    · rintro (⟨q, hq, hpair⟩ | ⟨o, ho, r, hr, h⟩)
      · obtain ⟨h, rfl⟩ | ⟨h, rfl⟩ := (pairConflict_eq_some (ha q hq) k).1 hpair
        · exact ⟨a, .head _, q, .tail _ hq, rfl, (ha q hq).ne', h⟩
        · exact ⟨q, .tail _ hq, a, .head _, rfl, (ha q hq).ne, h⟩
      · exact ⟨o, .tail _ ho, r, .tail _ hr, h⟩
    · rintro ⟨o, ho, r, hr, rfl, hne, h⟩
      obtain rfl | horest := List.mem_cons.1 ho
      · obtain rfl | hrrest := List.mem_cons.1 hr
        · exact absurd rfl hne
        · exact .inl ⟨r, hrrest, (pairConflict_eq_some (ha r hrrest) _).2 (.inl ⟨h, rfl⟩)⟩
      · obtain rfl | hrrest := List.mem_cons.1 hr
        · exact .inl ⟨o, horest, (pairConflict_eq_some (ha o horest) _).2 (.inr ⟨h, rfl⟩)⟩
        · exact .inr ⟨o, horest, r, hrrest, rfl, hne, h⟩

/-! ### The first failing check -/

theorem firstError_append {l : List (Option CmdError)} (h : ∀ c ∈ l, c = none) (cs : List (Option CmdError)) :
    firstError (l ++ cs) = firstError cs := by
  induction l with
  | nil => rfl
  | cons c l ih =>
    obtain rfl : c = none := h c (.head _)
    exact ih fun c hc => h c (.tail _ hc)

theorem runChecked_of_error {s body : State} {args vals : List (Option CmdError)} {regions : List Region}
    {e : CmdError} (h : firstError
      (args ++ regions.map (checkRegion s.params.dmemWords) ++ [checkPairs regions] ++ vals) = some e) :
    runChecked s args regions vals body = .next (endedError s e.code e.info.toNat) := by
  rw [← raise_eq_endedError]
  simp only [runChecked, h]

/-- A register's number survives ERRINFO's four bits. -/
theorem toNat_infoOfArg (k : ArgNo) : (BitVec.ofNat 4 k).toNat = k := by
  revert k
  decide

theorem map_checkRegion_eq_none {words : Nat} {rs : List Region} (h : ∀ r ∈ rs, r.fits words = true) :
    ∀ c ∈ rs.map (checkRegion words), c = none := by
  intro c hc
  obtain ⟨r, hr, rfl⟩ := List.mem_map.1 hc
  exact (checkRegion_eq_none _ _).2 (h r hr)

/-- A check that fails with ERR_VAL if at all (step 8). -/
def ReportsVal (c : Option CmdError) : Prop := ∀ e, c = some e → e.code = .errVal

@[simp] theorem reportsVal_checkVal (k : ArgNo) (ok : Bool) : ReportsVal (checkVal k ok) := by
  unfold checkVal
  split_ifs
  · exact fun _ h => nomatch h
  · rintro e ⟨⟩
    rfl

section
variable {s body : State} {args vals : List (Option CmdError)} {regions : List Region}

/-- Step 6: the first region in register order that does not fit. -/
theorem runChecked_outside (hargs : ∀ c ∈ args, c = none) (hsorted : regions.Pairwise fun r q => r.reg < q.reg)
    {r : Region} (hr : r ∈ regions) (hout : ¬ r.fits s.params.dmemWords = true)
    (hfirst : ∀ q ∈ regions, q.reg < r.reg → q.fits s.params.dmemWords = true) :
    runChecked s args regions vals body = .next (endedError s .errAddr r.reg) := by
  obtain ⟨before, after, rfl⟩ := List.append_of_mem hr
  have hbefore : ∀ q ∈ before, q.fits s.params.dmemWords = true := fun q hq =>
    hfirst q (List.mem_append_left _ hq) ((List.pairwise_append.1 hsorted).2.2 q hq r (.head _))
  have hcheck : checkRegion s.params.dmemWords r = some { code := .errAddr, info := BitVec.ofNat 4 r.reg } :=
    if_neg hout
  rw [runChecked_of_error (e := { code := .errAddr, info := BitVec.ofNat 4 r.reg }), toNat_infoOfArg]
  rw [List.append_assoc, List.append_assoc, firstError_append hargs, List.map_append, List.append_assoc,
    firstError_append (map_checkRegion_eq_none hbefore), List.map_cons, hcheck]
  rfl

theorem firstError_of_fits (hargs : ∀ c ∈ args, c = none)
    (hfits : ∀ r ∈ regions, r.fits s.params.dmemWords = true) :
    firstError (args ++ regions.map (checkRegion s.params.dmemWords) ++ [checkPairs regions] ++ vals) =
      firstError (checkPairs regions :: vals) := by
  rw [List.append_assoc, List.append_assoc, firstError_append hargs,
    firstError_append (map_checkRegion_eq_none hfits)]
  rfl

/-- Step 7: the least of the registers that the refused pairs are reported by (notes/assumptions/16.md). -/
theorem runChecked_conflict (hargs : ∀ c ∈ args, c = none)
    (hfits : ∀ r ∈ regions, r.fits s.params.dmemWords = true) {k : ArgNo} (hk : k ∈ conflicts regions)
    (hleast : ∀ j ∈ conflicts regions, k ≤ j) :
    runChecked s args regions vals body = .next (endedError s .errAlias k) := by
  have hmin : (conflicts regions).min? = some k := List.min?_eq_some_iff.2 ⟨hk, hleast⟩
  rw [runChecked_of_error (e := { code := .errAlias, info := BitVec.ofNat 4 k }), toNat_infoOfArg]
  rw [firstError_of_fits hargs hfits, checkPairs, hmin]
  rfl

/-- With steps 5 to 7 passed, a command completes or ends with the error of a value. -/
theorem runChecked_clear (hargs : ∀ c ∈ args, c = none)
    (hfits : ∀ r ∈ regions, r.fits s.params.dmemWords = true) (hpairs : conflicts regions = [])
    (hvals : ∀ c ∈ vals, ReportsVal c) :
    ∃ t, runChecked s args regions vals body = .next t ∧ (t.status.err = .ok ∨ t.status.err = .errVal) := by
  have hpass : checkPairs regions = none := by
    rw [checkPairs, hpairs]
    rfl
  have hfirst : firstError
      (args ++ regions.map (checkRegion s.params.dmemWords) ++ [checkPairs regions] ++ vals) = firstError vals :=
    (firstError_of_fits hargs hfits).trans (by rw [hpass]; rfl)
  unfold runChecked
  rw [hfirst]
  cases hval : firstError vals with
  | none => exact ⟨_, rfl, .inl rfl⟩
  | some e => exact ⟨_, rfl, .inr (hvals _ (firstError_mem hval) e rfl)⟩

end

end Sys2Proof.Machine
end

section
/-! The check list of each command against the "Operands" of its rule (20_memory.md R90, R94; 60_exceptions.md R475
steps 5 to 8): once steps 3 and 4 pass, a command runs the checks its rule's registers and regions ask for. -/

namespace Sys2Proof.Machine

/-! ### Argument checks that pass -/

theorem argLow_of_lt {s : State} {k : ArgNo} (h : (s.args[k]).toNat < 65536) : s.argLow k = (s.args[k]).toNat :=
  (argIs_spec ⟨rfl, h⟩).1

theorem checkArg_of_lt {s : State} {k : ArgNo} {ok : Bool} (h : (s.args[k]).toNat < 65536) (hok : ok = true) :
    s.checkArg k ok = none :=
  (checkArg_eq_none s k ok).2 ⟨(argIs_spec ⟨rfl, h⟩).2, hok⟩

theorem lt_of_argsPass {i : Instr} {s : State} (h : argsPass i s) {k : ArgNo} (hk : k ∈ addressArgs i) :
    (s.args[k]).toNat < 65536 := (h k).1 hk

/-- The checks of a command whose registers have no range beside their width. -/
theorem addressChecks_pass {i : Instr} {s : State} (h : argsPass i s) :
    ∀ c ∈ (addressArgs i).map fun k => s.checkArg k, c = none := by
  intro c hc
  obtain ⟨k, hk, rfl⟩ := List.mem_map.1 hc
  exact checkArg_of_lt (lt_of_argsPass h hk) rfl

/-- The three widths of A6 are its bytes (45_codebook.md R360). -/
theorem checkWidths_pass {s : State} (h : ∃ w0 w1 w2, widthsAre s w0 w1 w2) : s.checkWidths = none := by
  obtain ⟨w0, w1, w2, hargs, h0, h1, h2⟩ := h
  have hword : (s.arg 6).toNat = w0 + 256 * w1 + 65536 * w2 := hargs
  have hbyte (i : Nat) : ((s.arg 6).extractLsb' i 8).toNat = (w0 + 256 * w1 + 65536 * w2) / 2 ^ i % 256 := by
    rw [BitVec.extractLsb'_toNat, Nat.shiftRight_eq_div_pow, hword]
  have htop : (s.arg 6).extractLsb' 24 8 = 0 := by
    apply BitVec.eq_of_toNat_eq
    rw [hbyte]
    change _ % 256 = 0
    omega
  have hw0 : s.stageWidth 0 = w0 := by rw [State.stageWidth, hbyte]; omega
  have hw1 : s.stageWidth 1 = w1 := by rw [State.stageWidth, hbyte]; omega
  have hw2 : s.stageWidth 2 = w2 := by rw [State.stageWidth, hbyte]; omega
  rw [State.checkWidths, hw0, hw1, hw2]
  exact if_pos ⟨htop, h0, h1, h2⟩

/-- The length of a codebook's history, over the low half of the register `j` of `lT` (notes/assumptions/21.md). -/
theorem checkLMem_pass {s : State} {j : ArgNo} (hlt : (s.args[1]).toNat < 65536)
    (h : s.argLow j ≤ (s.args[1]).toNat ∧ (s.args[1]).toNat ≤ s.params.cbLmemMax) :
    s.checkArg 1 (lMemOk s.params (s.argLow 1) (s.argLow j)) = none := by
  have hlow : s.argLow 1 = (s.args[1]).toNat := argLow_of_lt hlt
  exact checkArg_of_lt hlt (by simpa [lMemOk, hlow] using h)

theorem checkLT_pass {s : State} {j : ArgNo} (hlt : (s.args[j]).toNat < 65536)
    (h : 1 ≤ (s.args[j]).toNat ∧ (s.args[j]).toNat ≤ 80) : s.checkArg j (lTOk (s.argLow j)) = none :=
  checkArg_of_lt hlt (by simpa [lTOk, argLow_of_lt hlt, Nat.one_le_iff_ne_zero] using h)

/-- An order register of the filters is within 31 (41_filters.md R200). -/
theorem filterChecks_pass {s : State} (h : argsPass .filtMa s) :
    ∀ c ∈ [s.checkArg 0, s.checkArg 1, s.checkArg 2, s.checkArg 3, s.checkArg 4 (s.argLow 4 ≤ 31)], c = none := by
  have horder : (s.args[4]).toNat ≤ 31 := (h 4).2 rfl
  have hlt : (s.args[4]).toNat < 65536 := by omega
  have hlow : s.argLow 4 = (s.args[4]).toNat := argLow_of_lt hlt
  have haddress := addressChecks_pass h
  simp only [addressArgs, List.map_cons, List.map_nil, List.forall_mem_cons] at haddress ⊢
  obtain ⟨h0, h1, h2, h3, hnil⟩ := haddress
  exact ⟨h0, h1, h2, h3, checkArg_of_lt hlt (by simpa [hlow] using horder), hnil⟩

theorem autocorrChecks_pass {s : State} (h : argsPass .autocorr s) :
    ∀ c ∈ [s.checkArg 0, s.checkArg 1 (1 ≤ s.argLow 1 && s.argLow 1 ≤ 4096), s.checkArg 2,
      s.checkArg 3 (s.argLow 3 ≤ 10)], c = none := by
  obtain ⟨-, hcount, -⟩ := h 1
  obtain ⟨-, -, horder⟩ := h 3
  have hn : 1 ≤ (s.args[1]).toNat ∧ (s.args[1]).toNat ≤ 4096 := hcount rfl
  have hm : (s.args[3]).toNat ≤ 10 := horder rfl
  have hlt1 : (s.args[1]).toNat < 65536 := by omega
  have hlt3 : (s.args[3]).toNat < 65536 := by omega
  have hlow1 : s.argLow 1 = (s.args[1]).toNat := argLow_of_lt hlt1
  have hlow3 : s.argLow 3 = (s.args[3]).toNat := argLow_of_lt hlt3
  have haddress := addressChecks_pass h
  simp only [addressArgs, List.map_cons, List.map_nil, List.forall_mem_cons] at haddress ⊢
  obtain ⟨h0, -, h2, hnil⟩ := haddress
  refine ⟨h0, checkArg_of_lt hlt1 ?_, h2, checkArg_of_lt hlt3 ?_, hnil⟩
  · simpa [hlow1] using hn
  · simpa [hlow3] using hm

theorem lsfStabChecks_pass {s : State} (h : argsPass .lsfStab s) :
    ∀ c ∈ [s.checkArg 0, s.checkArg 1, s.checkArg 2 (s.argLow 2 == 1 || s.argLow 2 == 2)], c = none := by
  have hsets : (s.args[2]).toNat = 1 ∨ (s.args[2]).toNat = 2 := (h 2).2 rfl
  have hlt : (s.args[2]).toNat < 65536 := by omega
  have hlow : s.argLow 2 = (s.args[2]).toNat := argLow_of_lt hlt
  have haddress := addressChecks_pass h
  simp only [addressArgs, List.map_cons, List.map_nil, List.forall_mem_cons] at haddress ⊢
  obtain ⟨h0, h1, hnil⟩ := haddress
  exact ⟨h0, h1, checkArg_of_lt hlt (by simpa [hlow] using hsets), hnil⟩

theorem lsfInterpChecks_pass {s : State} (h : argsPass .lsfInterp s) :
    ∀ c ∈ [s.checkArg 0, s.checkArg 1, s.checkArg 2,
      if 0 ≤ s.argI16 3 ∧ s.argI16 3 ≤ 16384 then none else some (argError 3)], c = none := by
  have hweight : 0 ≤ arg16 s 3 ∧ arg16 s 3 ≤ 16384 := (h 3).2 rfl
  have haddress := addressChecks_pass h
  simp only [addressArgs, List.map_cons, List.map_nil, List.forall_mem_cons] at haddress ⊢
  obtain ⟨h0, h1, h2, hnil⟩ := haddress
  exact ⟨h0, h1, h2, if_pos (by rwa [argI16_eq]), hnil⟩

theorem searchChecks_pass {s : State} (h : argsPass .acbSearch s) :
    ∀ c ∈ [s.checkArg 0, s.checkArg 1 (lMemOk s.params (s.argLow 1) (s.argLow 3)), s.checkArg 2,
      s.checkArg 3 (lTOk (s.argLow 3)), s.checkArg 4, s.checkArg 5, s.checkWidths], c = none := by
  have haddress := addressChecks_pass h
  simp only [addressArgs, List.map_cons, List.map_nil, List.forall_mem_cons] at haddress ⊢
  obtain ⟨h0, -, h2, -, h4, h5, hnil⟩ := haddress
  obtain ⟨hlt1, hlMem, -, -⟩ := h 1
  obtain ⟨hlt3, -, hlT, -⟩ := h 3
  obtain ⟨-, -, -, hwidths⟩ := h 6
  exact ⟨h0, checkLMem_pass (hlt1 (by simp [addressArgs])) (hlMem rfl), h2,
    checkLT_pass (hlt3 (by simp [addressArgs])) (hlT rfl), h4, h5, checkWidths_pass (hwidths rfl), hnil⟩

theorem cbConstructChecks_pass {s : State} {dir : CbDir} (h : argsPass (.cbConstruct dir) s) :
    ∀ c ∈ [s.checkArg 0, s.checkArg 1 (lMemOk s.params (s.argLow 1) (s.argLow 5)), s.checkArg 2, s.checkArg 3,
      s.checkArg 4, s.checkArg 5 (lTOk (s.argLow 5)), s.checkWidths], c = none := by
  have haddress := addressChecks_pass h
  simp only [addressArgs, List.map_cons, List.map_nil, List.forall_mem_cons] at haddress ⊢
  obtain ⟨h0, -, h2, h3, h4, -, hnil⟩ := haddress
  obtain ⟨hlt1, hlMem, -, -⟩ := h 1
  obtain ⟨hlt5, -, hlT, -⟩ := h 5
  obtain ⟨-, -, -, hwidths⟩ := h 6
  exact ⟨h0, checkLMem_pass (hlt1 (by simp [addressArgs])) (hlMem rfl), h2, h3, h4,
    checkLT_pass (hlt5 (by simp [addressArgs])) (hlT rfl), checkWidths_pass (hwidths rfl), hnil⟩

/-! ### Check lists -/

/-- The regions checked are those of the "Operands" of a rule, in register order, each output in place with the inputs
the rule allows. -/
structure RegionList (i : Instr) (s : State) (regions : List Region) : Prop where
  named : namedRegions i s = regions.map Region.named
  address : ∀ r ∈ regions, r.reg ∈ addressArgs i ∧ r.addr = s.argLow r.reg
  sorted : regions.Pairwise fun r q => r.reg < q.reg
  inPlace : ∀ o ∈ regions, ∀ r ∈ regions, o.isOut = true →
    (mayBeInPlace i o.reg r.reg ↔ r.isOut = false ∧ r.reg ∈ o.inPlace)
  sameLength : ∀ o ∈ regions, ∀ r ∈ regions, r.reg ∈ o.inPlace → o.len = r.len

/-- The outcome is that of the checks that the rule of `i` asks for, and then some body. -/
def RunsCheckList (i : Instr) (s : State) (o : StepOutcome) : Prop :=
  ∃ args regions vals body, o = runChecked s args regions vals body ∧ (argsPass i s → ∀ c ∈ args, c = none) ∧
    RegionList i s regions ∧ ∀ c ∈ vals, ReportsVal c

theorem runsCheckList_runChecked {i : Instr} {s body : State} {args vals : List (Option CmdError)}
    {regions : List Region} (hargs : argsPass i s → ∀ c ∈ args, c = none) (hregions : RegionList i s regions)
    (hvals : ∀ c ∈ vals, ReportsVal c) : RunsCheckList i s (runChecked s args regions vals body) :=
  ⟨_, _, _, _, rfl, hargs, hregions, hvals⟩

theorem regionList_nil {i : Instr} {s : State} (h : namedRegions i s = []) : RegionList i s [] := by
  constructor <;> simp [h]

/-- A command without registers or regions to check. -/
theorem runsCheckList_complete {i : Instr} {s : State} (b : State) (h : namedRegions i s = []) :
    RunsCheckList i s (.next (complete b)) :=
  runsCheckList_runChecked (body := b) (args := []) (vals := []) (by simp) (regionList_nil h) (by simp)

/-! ### The commands with a case before their checks -/

theorem execGainQuant_runsCheckList {s : State} {stg : BitVec 2} (hstg : stg ≠ 3) :
    RunsCheckList (.gainQuant stg) s (execGainQuant stg s) := by
  rw [execGainQuant, if_neg hstg]
  exact runsCheckList_runChecked addressChecks_pass (regionList_nil rfl) (by simp)

theorem execGainDequant_runsCheckList {s : State} {stg : BitVec 2} (hstg : stg ≠ 3) :
    RunsCheckList (.gainDequant stg) s (execGainDequant stg s) := by
  rw [execGainDequant, if_neg hstg]
  exact runsCheckList_runChecked addressChecks_pass (regionList_nil rfl) (by simp)

/-! ### The commands on a context -/

theorem ctxMode_of_ctxAt {s : State} {c : BitVec 4} {x : Ctx} (h : s.ctxAt c.toNat = some x) :
    ctxMode s c = x.mode := by
  simp [ctxMode, h]

section
variable {s : State} {c : BitVec 4} {x : Ctx} (hx : s.ctxAt c.toNat = some x)
include hx

theorem execHpFilt_runsCheckList : RunsCheckList (.hpFilt c) s (execHpFilt c s) := by
  rw [execHpFilt, withCtx_open hx (by simp)]
  exact runsCheckList_runChecked addressChecks_pass
    (by constructor <;> simp [namedRegions, reads, writes, addressArgs, mayBeInPlace]) (by simp)

theorem execSpecAna_runsCheckList (hkind : x.kind = .encoder) :
    RunsCheckList (.specAna c) s (execSpecAna c s) := by
  rw [execSpecAna, withCtx_open hx (by simp [hkind])]
  exact runsCheckList_runChecked addressChecks_pass
    (by constructor <;> simp [namedRegions, reads, writes, addressArgs, mayBeInPlace, ctxMode_of_ctxAt hx]) (by simp)

theorem execSpecSyn_runsCheckList (hkind : x.kind = .decoder) :
    RunsCheckList (.specSyn c) s (execSpecSyn c s) := by
  rw [execSpecSyn, withCtx_open hx (by simp [hkind])]
  exact runsCheckList_runChecked addressChecks_pass
    (by constructor <;> simp [namedRegions, reads, writes, addressArgs, mayBeInPlace, ctxMode_of_ctxAt hx]) (by simp)

theorem execPlcGood_runsCheckList (hkind : x.kind = .decoder) :
    RunsCheckList (.plcGood c) s (execPlcGood c s) := by
  rw [execPlcGood, withCtx_open hx (by simp [hkind])]
  exact runsCheckList_runChecked addressChecks_pass
    (by constructor <;> simp [namedRegions, reads, writes, addressArgs, mayBeInPlace, ctxMode_of_ctxAt hx]) (by simp)

theorem execPlcLost_runsCheckList (hkind : x.kind = .decoder) :
    RunsCheckList (.plcLost c) s (execPlcLost c s) := by
  rw [execPlcLost, withCtx_open hx (by simp [hkind])]
  exact runsCheckList_runChecked addressChecks_pass
    (by constructor <;> simp [namedRegions, writes, addressArgs, mayBeInPlace, ctxMode_of_ctxAt hx]) (by simp)

/-- The byte count of the context's mode passes step 4. -/
theorem execUnpack_runsCheckList (hkind : x.kind = .decoder)
    (hlen : (s.args[1]).toNat = Config.frameBytes x.mode) : RunsCheckList (.unpack c) s (execUnpack c s) := by
  have hcount : s.argU32 1 = Config.frameBytes x.mode := hlen
  have hpos : Config.frameBytes x.mode ≠ 0 := by cases x.mode <;> decide
  have hmode : modeOfLength (Config.frameBytes x.mode) = some x.mode := by cases x.mode <;> rfl
  rw [execUnpack, withCtx_open hx (by simp [hkind])]
  dsimp only
  rw [hcount, if_neg hpos, if_neg (not_not_intro hmode)]
  exact runsCheckList_runChecked addressChecks_pass
    (by constructor <;> simp [namedRegions, reads, writes, addressArgs, mayBeInPlace, ctxMode_of_ctxAt hx, fieldCount])
    (by simp)

theorem execChClose_runsCheckList : RunsCheckList (.chClose c) s (execChClose c s) := by
  rw [execChClose, withCtx_open hx (by simp)]
  exact runsCheckList_complete _ rfl

end

/-! ### The opcode map -/

/-- Once steps 3 and 4 pass, every command runs the checks of its rule. -/
theorem exec_runsCheckList {i : Instr} {s : State} (hwf : i.wellFormed = true) (hready : ready i s) :
    RunsCheckList i s (exec i s) := by
  cases i with
  | nop | sat16 | abs16 | abs32 | adds16 | subs16 | adds32 | subs32 | mul16 | shift32 | shift16 | normw16 | normw32
  | normu32 | sizebits => exact runsCheckList_complete _ rfl
  | vmaxabs16 | dotsc | vscale | vmul | bwexp | levinson | a2lsf | lsf2a | lsfQuant | lsfDequant | pack =>
    exact runsCheckList_runChecked addressChecks_pass
      (by constructor <;> simp [namedRegions, reads, writes, addressArgs, mayBeInPlace, fieldCount]) (by simp)
  | filtMa | filtAr =>
    exact runsCheckList_runChecked filterChecks_pass
      (by constructor <;> simp [namedRegions, reads, writes, addressArgs, mayBeInPlace]) (by simp)
  | autocorr =>
    exact runsCheckList_runChecked autocorrChecks_pass
      (by constructor <;> simp [namedRegions, reads, writes, addressArgs, mayBeInPlace]) (by simp)
  | lsfStab =>
    exact runsCheckList_runChecked lsfStabChecks_pass
      (by constructor <;> simp [namedRegions, reads, writes, addressArgs, mayBeInPlace]) (by simp)
  | lsfInterp =>
    exact runsCheckList_runChecked lsfInterpChecks_pass
      (by constructor <;> simp [namedRegions, reads, writes, addressArgs, mayBeInPlace]) (by simp)
  | acbSearch | bcbSearch =>
    exact runsCheckList_runChecked searchChecks_pass
      (by constructor <;> simp [namedRegions, reads, writes, addressArgs, mayBeInPlace]) (by simp)
  | cbConstruct =>
    exact runsCheckList_runChecked cbConstructChecks_pass
      (by constructor <;> simp [namedRegions, reads, writes, addressArgs, mayBeInPlace]) (by simp)
  | gainQuant => exact execGainQuant_runsCheckList (by simpa [Instr.wellFormed] using hwf)
  | gainDequant => exact execGainDequant_runsCheckList (by simpa [Instr.wellFormed] using hwf)
  | hpFilt =>
    obtain ⟨x, hx⟩ := hready
    exact execHpFilt_runsCheckList hx
  | specAna =>
    obtain ⟨x, hx, hkind⟩ := hready
    exact execSpecAna_runsCheckList hx hkind
  | specSyn =>
    obtain ⟨x, hx, hkind⟩ := hready
    exact execSpecSyn_runsCheckList hx hkind
  | unpack =>
    obtain ⟨x, hx, hkind, hlen⟩ := hready
    exact execUnpack_runsCheckList hx hkind hlen
  | plcGood =>
    obtain ⟨x, hx, hkind⟩ := hready
    exact execPlcGood_runsCheckList hx hkind
  | plcLost =>
    obtain ⟨x, hx, hkind⟩ := hready
    exact execPlcLost_runsCheckList hx hkind
  | chOpen ctx kind mode =>
    have hopen : exec (.chOpen ctx kind mode) s = .next (complete _) := if_pos hready
    exact hopen ▸ runsCheckList_complete _ rfl
  | chClose =>
    obtain ⟨x, hx⟩ := hready
    exact execChClose_runsCheckList hx

end Sys2Proof.Machine
end

section
/-! ERR_ADDR and ERR_ALIAS for every command (20_memory.md R90, R94; 60_exceptions.md R475 steps 6 and 7): the regions
of its check list are those its rule names, so they fit, overlap and clash as the rule says. -/

namespace Sys2Proof.Machine

section
variable {i : Instr} {s : State} {regions : List Region} (h : RegionList i s regions)
include h

theorem RegionList.mem_namedRegions (n : NamedRegion) :
    n ∈ namedRegions i s ↔ ∃ r ∈ regions, r.named = n := by
  rw [h.named, List.mem_map]

theorem RegionList.forall_inside_iff :
    (∀ n ∈ namedRegions i s, n.inside s) ↔ ∀ r ∈ regions, r.fits s.params.dmemWords = true := by
  rw [h.named, List.forall_mem_map]
  exact forall₂_congr fun r _ => named_inside_iff r s

/-- Two registers that pass step 5 are equal when their addresses are. -/
theorem RegionList.args_eq_iff (hpass : argsPass i s) {o r : Region} (ho : o ∈ regions) (hr : r ∈ regions) :
    s.args[o.reg] = s.args[r.reg] ↔ o.addr = r.addr := by
  obtain ⟨hoaddress, hoaddr⟩ := h.address o ho
  obtain ⟨hraddress, hraddr⟩ := h.address r hr
  rw [hoaddr, hraddr, argLow_of_lt ((hpass _).1 hoaddress), argLow_of_lt ((hpass _).1 hraddress)]
  exact BitVec.toNat_inj.symm

/-- The rule's "in place: allowed" with equal address registers is the model's test of it. -/
theorem RegionList.inPlace_iff (hpass : argsPass i s) {o r : Region} (ho : o ∈ regions) (hr : r ∈ regions)
    (hout : o.isOut = true) :
    mayBeInPlace i o.reg r.reg ∧ s.args[o.reg] = s.args[r.reg] ↔ r.isOut = false ∧ o.inPlaceWith r = true := by
  rw [h.inPlace o ho r hr hout, h.args_eq_iff hpass ho hr, inPlaceWith_iff]
  constructor
  · rintro ⟨⟨hin, hmem⟩, haddr⟩
    exact ⟨hin, hmem, haddr, h.sameLength o ho r hr hmem⟩
  · rintro ⟨hin, hmem, haddr, -⟩
    exact ⟨⟨hin, hmem⟩, haddr⟩

/-- With every region inside, the clashes of a rule are the refused pairs of its check list. -/
theorem RegionList.clashes_iff (hpass : argsPass i s)
    (hfits : ∀ r ∈ regions, r.fits s.params.dmemWords = true) (k : ArgNo) :
    clashes i s k ↔ k ∈ conflicts regions := by
  have hhist (r : Region) (hr : r ∈ regions) : r.hist ≤ r.addr := ((fits_iff _ _).1 (hfits r hr)).1
  rw [mem_conflicts h.sorted]
  constructor
  · rintro ⟨n, hn, n', hn', hout, hreg, hne, hmeets, hlower, hnot⟩
    obtain ⟨o, ho, rfl⟩ := (h.mem_namedRegions n).1 hn
    obtain ⟨r, hr, rfl⟩ := (h.mem_namedRegions n').1 hn'
    obtain rfl : o.reg = k := hreg
    exact ⟨o, ho, r, hr, rfl, hne, hout, (named_meets_iff (hhist o ho) (hhist r hr)).1 hmeets, hlower,
      fun hin => hnot ((h.inPlace_iff hpass ho hr hout).2 hin)⟩
  · rintro ⟨o, ho, r, hr, rfl, hne, hout, hoverlaps, hlower, hnot⟩
    exact ⟨o.named, (h.mem_namedRegions _).2 ⟨o, ho, rfl⟩, r.named, (h.mem_namedRegions _).2 ⟨r, hr, rfl⟩, hout, rfl,
      hne, (named_meets_iff (hhist o ho) (hhist r hr)).2 hoverlaps, hlower,
      fun hin => hnot ((h.inPlace_iff hpass ho hr hout).1 hin)⟩

end

/-- Settles O42: every command runs the check list of its rule, so its first region outside ends it, then its lowest
refused pair, and then only a value can. -/
theorem regionErrors : Obligations.RegionErrors := by
  unfold Obligations.RegionErrors
  intro i s hwf hready hpass
  obtain ⟨args, regions, vals, body, hexec, hargs, hlist, hvals⟩ := exec_runsCheckList hwf hready
  rw [hexec]
  refine ⟨fun n hn hout hfirst => ?_, fun hinside => ?_⟩
  · obtain ⟨r, hr, rfl⟩ := (hlist.mem_namedRegions n).1 hn
    exact runChecked_outside (hargs hpass) hlist.sorted hr (fun hfits => hout ((named_inside_iff r s).2 hfits))
      fun q hq hlt => (named_inside_iff q s).1 (hfirst _ ((hlist.mem_namedRegions _).2 ⟨q, hq, rfl⟩) hlt)
  · have hfits := hlist.forall_inside_iff.1 hinside
    have hclash := hlist.clashes_iff hpass hfits
    refine ⟨fun k hk hleast => ?_, fun hnone => ?_⟩
    · exact runChecked_conflict (hargs hpass) hfits ((hclash k).1 hk) fun j hj =>
        not_lt.1 fun hlt => hleast j hlt ((hclash j).2 hj)
    · exact runChecked_clear (hargs hpass) hfits
        (List.eq_nil_iff_forall_not_mem.2 fun k hk => hnone k ((hclash k).2 hk)) hvals

end Sys2Proof.Machine
end

section
/-! The fields of the command word (30_encoding.md R111, R116): a field of a word put back at its place is the word
under the field's mask, and a field put into a word is read back from its own bits alone. -/

namespace Sys2Proof

/-! ### A field put back is the word under its mask -/

theorem place_extract (w : Word32) (lo n : Nat) :
    (w.extractLsb' lo n).setWidth 32 <<< lo = w &&& (BitVec.allOnes n).setWidth 32 <<< lo := by
  apply BitVec.eq_of_getLsbD_eq
  intro i hi
  by_cases hlo : i < lo
  · simp [hlo]
  · have hplace : lo + (i - lo) = i := by omega
    simp only [BitVec.getLsbD_and, BitVec.getLsbD_shiftLeft, BitVec.getLsbD_setWidth, BitVec.getLsbD_extractLsb',
      BitVec.getLsbD_allOnes, hplace]
    ac_rfl

theorem putSh_fieldSh (w : Word32) : putSh (fieldSh w) = w &&& maskSh := place_extract w 8 5

theorem putCtx_fieldCtx (w : Word32) : putCtx (fieldCtx w) = w &&& maskCtx := place_extract w 16 4

theorem putStg_fieldStg (w : Word32) : putStg (fieldStg w) = w &&& maskStg := place_extract w 20 2

/-- A one-bit field whose value is `on` at 1 and `off` at 0. -/
theorem putBit_flag {α : Type} [DecidableEq α] {on off : α} (hne : off ≠ on) (w : Word32) (i : Nat) :
    putBit i ((if wordBit w i then on else off) == on) = w &&& BitVec.twoPow 32 i := by
  rw [BitVec.and_twoPow]
  cases hbit : w.getLsbD i <;> simp [wordBit, putBit, hbit, hne]

theorem putDir_fieldDir (w : Word32) : putDir (fieldDir w) = w &&& maskDir := putBit_flag (by decide) w 13

theorem putRnd_fieldRnd (w : Word32) : putRnd (fieldRnd w) = w &&& maskRnd := putBit_flag (by decide) w 14

theorem putKind_fieldKind (w : Word32) : putKind (fieldKind w) = w &&& maskX := putBit_flag (by decide) w 15

theorem putChirp_fieldChirp (w : Word32) : putChirp (fieldChirp w) = w &&& maskX := putBit_flag (by decide) w 15

theorem putCbDir_fieldCbDir (w : Word32) : putCbDir (fieldCbDir w) = w &&& maskX := putBit_flag (by decide) w 15

theorem putMode_fieldMode (w : Word32) : putMode (fieldMode w) = w &&& maskMode := putBit_flag (by decide) w 22

/-! ### A field put into a word is read back from its own bits alone -/

@[simp] theorem extract_place_same {n lo : Nat} (v : BitVec n) (h : lo + n ≤ 32) :
    (v.setWidth 32 <<< lo).extractLsb' lo n = v := by
  apply BitVec.eq_of_getLsbD_eq
  intro i hi
  have hin : lo + i < 32 := by omega
  simp [hi, hin]

@[simp] theorem wordBit_place_apart {n lo i : Nat} (v : BitVec n) (h : i < lo ∨ lo + n ≤ i) :
    wordBit (v.setWidth 32 <<< lo) i = false := by
  rcases h with hbelow | habove
  · simp [wordBit, hbelow]
  · have hout : n ≤ i - lo := by omega
    simp [wordBit, BitVec.getLsbD_of_ge v _ hout]

@[simp] theorem wordBit_putBit_same {i : Nat} (b : Bool) (h : i < 32) : wordBit (putBit i b) i = b := by
  cases b <;> simp [wordBit, putBit, h]

@[simp] theorem wordBit_putBit_apart {i j : Nat} (b : Bool) (h : i ≠ j) : wordBit (putBit i b) j = false := by
  cases b <;> simp [wordBit, putBit, h]

theorem extract_eq_zero {w : Word32} {lo n : Nat} (h : ∀ i, i < n → wordBit w (lo + i) = false) :
    w.extractLsb' lo n = 0#n := by
  apply BitVec.eq_of_getLsbD_eq
  intro i hi
  rw [BitVec.getLsbD_extractLsb', BitVec.getLsbD_zero, decide_eq_true hi, Bool.true_and]
  exact h i hi

@[simp] theorem extract_place_apart {n lo n' lo' : Nat} (v : BitVec n) (h : lo' + n' ≤ lo ∨ lo + n ≤ lo') :
    (v.setWidth 32 <<< lo).extractLsb' lo' n' = 0#n' :=
  extract_eq_zero fun _ _ => wordBit_place_apart v (by omega)

@[simp] theorem extract_putBit_apart {i lo n : Nat} (b : Bool) (h : i < lo ∨ lo + n ≤ i) :
    (putBit i b).extractLsb' lo n = 0#n :=
  extract_eq_zero fun _ _ => wordBit_putBit_apart b (by omega)

@[simp] theorem wordBit_or (v w : Word32) (i : Nat) : wordBit (v ||| w) i = (wordBit v i || wordBit w i) :=
  BitVec.getLsbD_or

/-- The bits above OPC of a word that is an opcode alone are 0. -/
@[simp] theorem wordBit_ofNat {n i : Nat} (hn : n < 256) (hi : 8 ≤ i) : wordBit (BitVec.ofNat 32 n) i = false := by
  have hpow : 2 ^ 8 ≤ 2 ^ i := Nat.pow_le_pow_right (by decide) hi
  simp [wordBit, BitVec.getLsbD_ofNat, Nat.testBit_lt_two_pow (show n < 2 ^ i by omega)]

@[simp] theorem dir_of_flag (d : ShiftDir) : (if d = .left then .left else .right) = d := by
  cases d <;> rfl

@[simp] theorem rnd_of_flag (r : Rounding) : (if r = .half then .half else .floor) = r := by
  cases r <;> rfl

@[simp] theorem kind_of_flag (k : CtxKind) : (if k = .decoder then .decoder else .encoder) = k := by
  cases k <;> rfl

@[simp] theorem chirp_of_flag (t : ChirpSel) : (if t = .wgt then .wgt else .syn) = t := by
  cases t <;> rfl

@[simp] theorem cbDir_of_flag (d : CbDir) : (if d = .backward then .backward else .forward) = d := by
  cases d <;> rfl

@[simp] theorem mode_of_flag (m : Mode) : (if m = .b then .b else .a) = m := by
  cases m <;> rfl

end Sys2Proof
end

section
/-! The decoder and the encoder (30_encoding.md R112, R115 to R117). What a row of the decoder's table says is said once
(`opcodeRow_spec`): the encoding of its command is OPC with the word's bits under the row's mask, so a word passes the
mask exactly when it is that encoding. -/

namespace Sys2Proof.Machine

/-! ### The rows of the opcode map -/

/-- What a row of the decoder's table, the used bits and the command, says of the word that selects it. -/
structure RowFits (w used : Word32) (i : Instr) : Prop where
  listed : ((fieldOpc w).toNat, used.toNat) ∈ opcodeMap
  opcode : i.opcode = fieldOpc w
  encoding : encode i = (fieldOpc w).setWidth 32 ||| (w &&& used)

/-- What the decoder's table answers for a word, in the terms of `opcodeMap`. -/
def RowSpec (w : Word32) : Option (Word32 × Instr) → Prop
  | none => ∀ row ∈ opcodeMap, (fieldOpc w).toNat ≠ row.1
  | some (used, i) => RowFits w used i

theorem rowFits_of_opc {w used : Word32} {i : Instr} {n : Nat} (hopc : (fieldOpc w).toNat = n)
    (hlisted : (n, used.toNat) ∈ opcodeMap) (hopcode : i.opcode = BitVec.ofNat 8 n)
    (hencode : encode i = BitVec.ofNat 32 n ||| (w &&& used)) : RowFits w used i := by
  subst hopc
  exact ⟨hlisted, by simpa using hopcode, by simpa using hencode⟩

/-- The last case is the table's default; in every other the encoder puts the row's fields back, each of them the word
under its mask, in an order that for CH_OPEN is not the order of its mask. -/
theorem opcodeRow_spec (w : Word32) : RowSpec w (opcodeRow w) := by
  unfold opcodeRow
  split
  case h_45 =>
    simp only [RowSpec, opcodeMap, List.cons_append, List.nil_append, List.forall_mem_cons, List.not_mem_nil,
      false_implies, implies_true, and_true]
    and_intros <;> assumption
  all_goals
    refine rowFits_of_opc ‹_› (by decide) rfl ?_
    simp [encode, BitVec.and_or_distrib_left, BitVec.or_assoc, putSh_fieldSh, putDir_fieldDir, putRnd_fieldRnd,
      putKind_fieldKind, putChirp_fieldChirp, putCbDir_fieldCbDir, putCtx_fieldCtx, putStg_fieldStg,
      putMode_fieldMode] <;>
    ac_rfl

theorem rowFits_of_opcodeRow {w used : Word32} {i : Instr} (h : opcodeRow w = some (used, i)) : RowFits w used i := by
  have hspec := opcodeRow_spec w
  rwa [h] at hspec

theorem opcodeRow_of_unlisted {w : Word32} (h : ∀ row ∈ opcodeMap, row.1 ≠ (fieldOpc w).toNat) :
    opcodeRow w = none := by
  cases hrow : opcodeRow w with
  | none => rfl
  | some row => exact absurd rfl (h _ (rowFits_of_opcodeRow hrow).listed)

/-- R115: the opcode map has one row for each opcode. -/
theorem opcodeMap_nodup : (opcodeMap.map Prod.fst).Nodup := by decide

theorem opcodeRow_of_listed {w : Word32} {used : Nat} (h : ((fieldOpc w).toNat, used) ∈ opcodeMap) :
    ∃ i, opcodeRow w = some (BitVec.ofNat 32 used, i) := by
  cases hrow : opcodeRow w with
  | none =>
    have hunlisted := opcodeRow_spec w
    rw [hrow] at hunlisted
    exact absurd rfl (hunlisted _ h)
  | some row =>
    obtain ⟨used', i⟩ := row
    have hused : used = used'.toNat :=
      congrArg Prod.snd (List.inj_on_of_nodup_map opcodeMap_nodup h (rowFits_of_opcodeRow hrow).listed rfl)
    exact ⟨i, by simp [hused]⟩

/-! ### Match and mask (R116) -/

/-- No opcode uses a bit of OPC as a field. -/
theorem opc_outside_used :
    ∀ row ∈ opcodeMap, BitVec.ofNat 32 row.1 &&& ~~~(BitVec.ofNat 32 row.2) = BitVec.ofNat 32 row.1 := by decide

theorem mask_eq_opc_iff {w used : Word32} {i : Instr} (h : RowFits w used i) :
    w &&& ~~~used = (fieldOpc w).setWidth 32 ↔ encode i = w := by
  constructor
  · intro hmask
    rw [h.encoding, ← hmask, ← BitVec.and_or_distrib_left, BitVec.not_or_self, BitVec.and_allOnes]
  · intro hencode
    have hopc : (fieldOpc w).setWidth 32 &&& ~~~used = (fieldOpc w).setWidth 32 := by
      simpa using opc_outside_used _ h.listed
    calc w &&& ~~~used = ((fieldOpc w).setWidth 32 ||| (w &&& used)) &&& ~~~used := by rw [← h.encoding, hencode]
      _ = (fieldOpc w).setWidth 32 := by simp [BitVec.and_or_distrib_right, BitVec.and_assoc, hopc]

theorem decode_of_opcodeRow_none {w : Word32} (h : opcodeRow w = none) : decode w = .error .illegal := by
  simp only [decode, h]

theorem decode_of_opcodeRow {w used : Word32} {i : Instr} (h : opcodeRow w = some (used, i)) :
    decode w = if encode i = w ∧ i.wellFormed = true then .ok i else .error .reserved := by
  simp only [decode, h, Bool.and_eq_true, decide_eq_true_eq, mask_eq_opc_iff (rowFits_of_opcodeRow h)]

theorem decode_eq_ok_iff {w : Word32} {i : Instr} :
    decode w = .ok i ↔ (∃ used, opcodeRow w = some (used, i)) ∧ encode i = w ∧ i.wellFormed = true := by
  cases hrow : opcodeRow w with
  | none => simp [decode_of_opcodeRow_none hrow]
  | some row =>
    obtain ⟨used, j⟩ := row
    rw [decode_of_opcodeRow hrow]
    constructor
    · intro h
      split at h
      case isTrue hgood =>
        cases h
        exact ⟨⟨used, rfl⟩, hgood⟩
      case isFalse => cases h
    · rintro ⟨⟨_, heq⟩, hgood⟩
      cases heq
      exact if_pos hgood

/-- The encoding of a command selects the command's own row, with every field as it was put there. -/
theorem opcodeRow_encode (i : Instr) : ∃ used, opcodeRow (encode i) = some (used, i) := by
  cases i with
  | mul16 | shift32 | shift16 | vscale | vmul | dotsc =>
    simp [opcodeRow, encode, fieldOpc, fieldSh, fieldDir, fieldRnd, putSh, putDir, putRnd, BitVec.extractLsb'_or]
  | hpFilt | specAna | specSyn | unpack | plcGood | plcLost | chClose | chOpen =>
    simp [opcodeRow, encode, fieldOpc, fieldCtx, fieldKind, fieldMode, putCtx, putKind, putMode, BitVec.extractLsb'_or]
  | bwexp | cbConstruct =>
    simp [opcodeRow, encode, fieldOpc, fieldChirp, fieldCbDir, putChirp, putCbDir, BitVec.extractLsb'_or]
  | gainQuant | gainDequant | pack =>
    simp [opcodeRow, encode, fieldOpc, fieldStg, putStg, fieldMode, putMode, BitVec.extractLsb'_or]
  | _ => exact ⟨0, rfl⟩

/-- Settles O54: the encoding selects the command's own row and so passes its mask. -/
theorem decodeOfEncode : Obligations.DecodeOfEncode := by
  unfold Obligations.DecodeOfEncode
  intro i hwf
  exact decode_eq_ok_iff.2 ⟨opcodeRow_encode i, rfl, hwf⟩

/-- Settles O55: a word that passes its row's mask is the encoding of the row's command. -/
theorem encodeOfDecode : Obligations.EncodeOfDecode := by
  unfold Obligations.EncodeOfDecode
  intro w i h
  exact (decode_eq_ok_iff.1 h).2

/-! ### Illegal and reserved words (R116, R117) -/

/-- The command has no encoding exactly when its STG field is 3. -/
theorem wellFormed_eq_false_iff (i : Instr) :
    i.wellFormed = false ↔ (i.opcode = 0x53 ∨ i.opcode = 0x54) ∧ encode i &&& 0x300000 = 0x300000 := by
  cases i with
  | gainQuant stg | gainDequant stg =>
    revert stg
    decide
  | _ => simp [Instr.wellFormed, Instr.opcode]

theorem fieldOpc_eq_setWidth (w : Word32) : fieldOpc w = w.setWidth 8 :=
  (BitVec.setWidth_eq_extractLsb' (by decide)).symm

/-- Failing the mask or holding STG = 3, as R116 says it, is not being the encoding of the row's command. -/
theorem reserved_iff {w used : Word32} {i : Instr} (h : RowFits w used i) :
    (w &&& ~~~used ≠ BitVec.ofNat 32 (fieldOpc w).toNat ∨
        (((fieldOpc w).toNat = 0x53 ∨ (fieldOpc w).toNat = 0x54) ∧ w &&& 0x300000 = 0x300000)) ↔
      ¬ (encode i = w ∧ i.wellFormed = true) := by
  have hopc (n : Nat) (hn : n < 256) : (fieldOpc w).toNat = n ↔ i.opcode = BitVec.ofNat 8 n := by
    rw [h.opcode, ← BitVec.toNat_inj, BitVec.toNat_ofNat, Nat.mod_eq_of_lt hn]
  rw [BitVec.ofNat_toNat, ne_eq, mask_eq_opc_iff h, hopc 0x53 (by decide), hopc 0x54 (by decide), not_and_or,
    Bool.not_eq_true, wellFormed_eq_false_iff]
  by_cases hencode : encode i = w
  · rw [hencode]
    rfl
  · simp only [hencode, not_false_eq_true, true_or]

/-- Settles O37: a word that selects no row is illegal; one that selects a row is reserved unless it is the encoding of
the row's command and that command is well formed. -/
theorem illegalAndReservedWords : Obligations.IllegalAndReservedWords := by
  unfold Obligations.IllegalAndReservedWords
  intro s w opc
  have hw : w.setWidth 8 = fieldOpc w := (fieldOpc_eq_setWidth w).symm
  have herror (e : DecodeError) (h : decode w = .error e) :
      runCommand s = .next (endedError s (decodeError e).code (decodeError e).info.toNat) := by
    rw [runCommand_of_error h, raise_eq_endedError]
  have hopc : opc = (fieldOpc w).toNat := congrArg BitVec.toNat hw
  refine ⟨fun hunlisted => herror .illegal ?_, fun used hlisted => ?_⟩
  · rw [hopc] at hunlisted
    exact decode_of_opcodeRow_none (opcodeRow_of_unlisted hunlisted)
  · intro bad
    rw [hopc] at hlisted
    obtain ⟨i, hrow⟩ := opcodeRow_of_listed hlisted
    have hfits := rowFits_of_opcodeRow hrow
    have hbad : bad ↔ ¬ (encode i = w ∧ i.wellFormed = true) := by
      rw [← reserved_iff hfits, ← hopc]
    refine ⟨fun h => herror .reserved ?_, fun h => ?_⟩
    · rw [decode_of_opcodeRow hrow, if_neg (hbad.1 h)]
    · have hgood : encode i = w ∧ i.wellFormed = true := not_not.1 (mt hbad.2 h)
      have hdecode : decode w = .ok i := decode_eq_ok_iff.2 ⟨⟨_, hrow⟩, hgood⟩
      exact ⟨i, hdecode, hfits.opcode.trans hw.symm, hgood.2, runCommand_of_ok hdecode⟩

/-! ### Sample words -/

/-- Settles O53: each word is the encoding of the command, which is well formed. -/
theorem sampleWordsDecode : Obligations.SampleWordsDecode := by
  unfold Obligations.SampleWordsDecode
  exact ⟨decodeOfEncode .adds16 rfl, decodeOfEncode (.mul16 15 .right .half) rfl, decodeOfEncode (.dotsc 4 .left) rfl,
    decodeOfEncode (.hpFilt 3) rfl, decodeOfEncode (.bwexp .wgt) rfl, decodeOfEncode .levinson rfl,
    decodeOfEncode .lsfInterp rfl, decodeOfEncode (.specAna 2) rfl, decodeOfEncode (.gainQuant 2) rfl,
    decodeOfEncode (.pack .b) rfl, decodeOfEncode (.plcLost 1) rfl, decodeOfEncode (.chOpen 0 .decoder .b) rfl⟩

end Sys2Proof.Machine
end

section
/-! The scalar commands (40_fixed_point.md R141 to R155): each ends with its value in RES0. The normalisation shifts are
read from `bitlen` by the two bounds that fix it. -/

namespace Sys2Proof.Machine

/-! ### Bit lengths (R159) -/

theorem lt_two_pow_bitlen (v : Nat) : v < 2 ^ bitlen v := (bitlen_le_iff v _).1 le_rfl

theorem two_pow_bitlen_le {v : Nat} (h : 0 < v) : 2 ^ bitlen v ≤ 2 * v := by
  rw [bitlen, if_neg h.ne', Nat.pow_succ, Nat.mul_comm]
  exact Nat.mul_le_mul_left 2 (Nat.log2_self_le h.ne')

/-- Settles O2: `bitlen` is below every exponent that holds the value, itself among them. -/
theorem bitlenIsLeastExponent : Obligations.BitlenIsLeastExponent := by
  unfold Obligations.BitlenIsLeastExponent
  exact ⟨fun v => ⟨lt_two_pow_bitlen v, fun b => (bitlen_le_iff v b).2⟩, by decide, by decide, by decide⟩

/-! ### Results in RES0 (R140) -/

theorem scalar_eq (s : State) (v : Int) : scalar s v = .next (endedRes0 s v) := rfl

theorem sat16_magnitude (v : Int) : sat16 (magnitude v) = min 32767 |v| := by
  have := abs_nonneg v
  rw [magnitude_eq_abs, sat16, clamp, max_eq_right (by omega)]

theorem sat32_magnitude (v : Int) : sat32 (magnitude v) = min (2 ^ 31 - 1) |v| := by
  have := abs_nonneg v
  rw [magnitude_eq_abs, sat32, clamp, max_eq_right (by omega)]
  norm_num

theorem shft_left (v : Int) (n : Nat) (rnd : Rounding) : shft v n .left rnd = v * 2 ^ n := rfl

theorem shft_right_floor (v : Int) (n : Nat) : shft v n .right .floor = v / 2 ^ n := rfl

theorem shft_right_half (v : Int) (n : Nat) :
    shft v n .right .half = if n = 0 then v else (v + 2 ^ (n - 1)) / 2 ^ n := by
  split_ifs with h
  · rw [h]
    exact rshr_zero v
  · exact rshr_of_pos v (Nat.pos_of_ne_zero h)

/-- Settles O3: every scalar command is its value put in RES0, the shifts by the equations of `shft`. -/
theorem scalarResults : Obligations.ScalarResults := by
  unfold Obligations.ScalarResults
  constructor
  · intro s
    simp only [← argI16_eq, ← sat16_magnitude, ← sat32_magnitude]
    exact ⟨rfl, rfl, rfl, rfl, rfl, rfl, rfl, rfl⟩
  · intro s sh dir rnd shifted
    have hshift (v : Int) : shft v sh.toNat dir rnd = shifted v := by
      cases dir with
      | left => exact shft_left v _ rnd
      | right =>
        cases rnd with
        | floor => exact shft_right_floor v _
        | half =>
          simp only [shft_right_half, shifted, BitVec.toNat_eq]
          rfl
    simp only [← argI16_eq, ← hshift]
    exact ⟨rfl, rfl, rfl⟩

/-! ### Normalisation shifts (R152 to R155) -/

/-- Shifted up by the bits it leaves free in a width `w`, a value's power of two is that of the width. -/
theorem two_pow_bitlen_mul {v w : Nat} (h : v < 2 ^ w) : 2 ^ bitlen v * 2 ^ (w - bitlen v) = 2 ^ w := by
  rw [← Nat.pow_add, Nat.add_sub_cancel' ((bitlen_le_iff v w).2 h)]

theorem succ_mul_free_le {v w : Nat} (h : v < 2 ^ w) : (v + 1) * 2 ^ (w - bitlen v) ≤ 2 ^ w :=
  two_pow_bitlen_mul h ▸ Nat.mul_le_mul_right _ (lt_two_pow_bitlen v)

theorem mul_free_lt {v w : Nat} (h : v < 2 ^ w) : v * 2 ^ (w - bitlen v) < 2 ^ w :=
  two_pow_bitlen_mul h ▸ Nat.mul_lt_mul_of_pos_right (lt_two_pow_bitlen v) (by positivity)

theorem le_two_mul_free {v w : Nat} (h : v < 2 ^ w) (hpos : 0 < v) : 2 ^ w ≤ 2 * (v * 2 ^ (w - bitlen v)) := by
  rw [← two_pow_bitlen_mul h, ← Nat.mul_assoc]
  exact Nat.mul_le_mul_right _ (two_pow_bitlen_le hpos)

/-- One more than the value passes the half of the width strictly: the case of a negative operand, whose NOT is `v`. -/
theorem lt_two_mul_succ_free {v w : Nat} (h : v < 2 ^ w) : 2 ^ w < 2 * ((v + 1) * 2 ^ (w - bitlen v)) := by
  have hlt : 2 ^ bitlen v < 2 * (v + 1) := by
    rcases Nat.eq_zero_or_pos v with rfl | hpos
    · decide
    · have := two_pow_bitlen_le hpos
      omega
  rw [← two_pow_bitlen_mul h, ← Nat.mul_assoc]
  exact Nat.mul_lt_mul_of_pos_right hlt (by positivity)

theorem normShift_zero (w : Nat) : normShift w 0 = 0 := rfl

theorem normShift_natCast {v : Nat} (w : Nat) (hpos : 0 < v) : normShift w v = w - bitlen v := by
  have hne : (v : Int) ≠ 0 := by omega
  have hnonneg : ¬ (v : Int) < 0 := by omega
  rw [normShift, if_neg hne, if_neg hnonneg, Int.toNat_natCast]

/-- A negative value is `-(v + 1)` for its bitwise NOT `v`. -/
theorem normShift_neg_succ (w v : Nat) : normShift w (-(v + 1)) = w - bitlen v := by
  have hneg : -((v : Int) + 1) < 0 := by omega
  have hnot : (-(-((v : Int) + 1)) - 1).toNat = v := by omega
  rw [normShift, if_neg hneg.ne, if_pos hneg, hnot]

/-- The value of `w + 1` bits is brought to the upper half of its range, on its own side of 0. -/
theorem normShift_pos {v : Int} {w : Nat} (hpos : 0 < v) (h : v < 2 ^ w) :
    2 ^ w ≤ 2 * (v * 2 ^ normShift w v) ∧ v * 2 ^ normShift w v < 2 ^ w := by
  lift v to Nat using hpos.le
  norm_cast at hpos h
  rw [normShift_natCast w hpos]
  exact_mod_cast And.intro (le_two_mul_free h hpos) (mul_free_lt h)

theorem normShift_neg {v : Int} {w : Nat} (hneg : v < 0) (h : -2 ^ w ≤ v) :
    -2 ^ w ≤ v * 2 ^ normShift w v ∧ 2 * (v * 2 ^ normShift w v) < -2 ^ w := by
  obtain ⟨u, rfl⟩ : ∃ u : Nat, v = -(u + 1) := ⟨(-v - 1).toNat, by omega⟩
  have hu : u < 2 ^ w := by
    zify
    omega
  have hlow : ((u : Int) + 1) * 2 ^ (w - bitlen u) ≤ 2 ^ w := by exact_mod_cast succ_mul_free_le hu
  have hhigh : (2 : Int) ^ w < 2 * ((u + 1) * 2 ^ (w - bitlen u)) := by exact_mod_cast lt_two_mul_succ_free hu
  rw [normShift_neg_succ, neg_mul]
  constructor <;> linarith

/-- NORMW16 and NORMW32: the sign and `w + 1` bits. -/
theorem normShift_spec {v : Int} {w : Nat} (h : -2 ^ (w + 1) ≤ v ∧ v < 2 ^ (w + 1)) :
    (v = 0 → normShift (w + 1) v = 0) ∧
      (0 < v → 2 ^ w ≤ v * 2 ^ normShift (w + 1) v ∧ v * 2 ^ normShift (w + 1) v < 2 ^ (w + 1)) ∧
      (v < 0 → -2 ^ (w + 1) ≤ v * 2 ^ normShift (w + 1) v ∧ v * 2 ^ normShift (w + 1) v < -2 ^ w) := by
  have htwice : (2 : Int) ^ (w + 1) = 2 * 2 ^ w := pow_succ' 2 w
  refine ⟨fun hzero => hzero ▸ normShift_zero _, fun hpos => ?_, fun hneg => ?_⟩
  · obtain ⟨hlow, hhigh⟩ := normShift_pos hpos h.2
    exact ⟨by omega, hhigh⟩
  · obtain ⟨hlow, hhigh⟩ := normShift_neg hneg h.1
    exact ⟨hlow, by omega⟩

/-- NORMU32: all 32 bits. -/
theorem normU32_pos {v : Nat} (hpos : 0 < v) (h : v < 2 ^ 32) :
    2 ^ 31 ≤ v * 2 ^ normU32 v ∧ v * 2 ^ normU32 v < 2 ^ 32 := by
  rw [normU32, if_neg hpos.ne']
  have hlow := le_two_mul_free h hpos
  have hhigh := mul_free_lt h
  omega

/-- Settles O4: the counts are those of `bitlen`, which bring an operand that is not 0 to the top of its width. -/
theorem normalisationResults : Obligations.NormalisationResults := by
  unfold Obligations.NormalisationResults
  intro s
  have h16 : -2 ^ 15 ≤ arg16 s 0 ∧ arg16 s 0 < 2 ^ 15 := ⟨BitVec.le_toInt _, BitVec.toInt_lt⟩
  have h32 : -2 ^ 31 ≤ arg32 s 0 ∧ arg32 s 0 < 2 ^ 31 := ⟨BitVec.le_toInt _, BitVec.toInt_lt⟩
  have hexec16 : exec .normw16 s = .next (endedRes0 s (normShift 15 (arg16 s 0))) := by
    rw [← argI16_eq]
    rfl
  exact ⟨⟨_, hexec16, normShift_spec (w := 14) h16⟩, ⟨_, rfl, normShift_spec (w := 30) h32⟩,
    ⟨normU32 (s.args[0]).toNat, rfl, fun hzero => by rw [hzero, normU32, if_pos rfl],
      fun hpos => normU32_pos hpos (s.args[0]).isLt⟩,
    ⟨bitlen (s.args[0]).toNat, rfl, lt_two_pow_bitlen _, fun b => (bitlen_le_iff _ b).2⟩⟩

end Sys2Proof.Machine
end

section
/-! The vector commands (40_fixed_point.md R160 to R163): what each computes of the words its inputs hold, and how it
ends when its operands and regions pass the checks. -/

namespace Sys2Proof.Machine

theorem readVec_succ (m : Memory) (a n : Nat) : m.readVec a (n + 1) = m.readVec a n ++ [m.readI16 (a + n)] := by
  simp [Memory.readVec, tabulate, List.range_succ]

theorem getElem_readVec {m : Memory} {a n i : Nat} (h : i < (m.readVec a n).length) :
    (m.readVec a n)[i] = m.readI16 (a + i) := by
  simp [Memory.readVec, tabulate]

/-! ### The largest magnitude (R160) -/

theorem abs_le_maxMagnitude {xs : List Int} {x : Int} (h : x ∈ xs) : |x| ≤ maxMagnitude xs :=
  (foldl_max_magnitude xs 0 le_rfl).1 x h

/-- The maximum of a vector that is not empty is reached; where the fold stays at its start 0, by every entry. -/
theorem exists_abs_eq_maxMagnitude {xs : List Int} (h : xs ≠ []) : ∃ x ∈ xs, |x| = maxMagnitude xs := by
  obtain ⟨hupper, -, hzero | hreached⟩ := foldl_max_magnitude xs 0 le_rfl
  · have hhead := List.head_mem h
    exact ⟨xs.head h, hhead, le_antisymm (hupper _ hhead) (hzero.trans_le (abs_nonneg _))⟩
  · exact hreached

theorem firstMagnitude_lt {xs : List Int} (h : xs ≠ []) : firstMagnitude xs (maxMagnitude xs) < xs.length := by
  obtain ⟨x, hx, hmax⟩ := exists_abs_eq_maxMagnitude h
  exact List.findIdx_lt_length_of_exists ⟨x, hx, by simpa [magnitude_eq_abs] using hmax⟩

theorem abs_at_firstMagnitude {xs : List Int} {m : Int} (h : firstMagnitude xs m < xs.length) :
    |xs[firstMagnitude xs m]| = m := by
  have hfound : (magnitude xs[firstMagnitude xs m] == m) = true := List.findIdx_getElem (w := h)
  rwa [beq_iff_eq, magnitude_eq_abs] at hfound

theorem abs_before_firstMagnitude {xs : List Int} {m : Int} {j : Nat} (h : j < firstMagnitude xs m)
    (hj : j < xs.length) : |xs[j]| ≠ m := by
  have hbefore := List.not_of_lt_findIdx h
  simpa [magnitude_eq_abs] using hbefore

/-- The peak of the `n` words at `a` and its first place. -/
theorem peak_readVec (m : Memory) (a : Nat) {n i : Nat} {peak : Int} (hpos : 0 < n)
    (hpeak : maxMagnitude (m.readVec a n) = peak) (hplace : firstMagnitude (m.readVec a n) peak = i) :
    i < n ∧ |m.readI16 (a + i)| = peak ∧ (∀ j, j < n → |m.readI16 (a + j)| ≤ peak) ∧
      ∀ j, j < i → |m.readI16 (a + j)| < peak := by
  subst hpeak hplace
  have hne : m.readVec a n ≠ [] := List.ne_nil_of_length_pos (by simpa using hpos)
  have hlt := firstMagnitude_lt hne
  have hupper (j : Nat) (hj : j < (m.readVec a n).length) : |m.readI16 (a + j)| ≤ maxMagnitude (m.readVec a n) :=
    getElem_readVec hj ▸ abs_le_maxMagnitude (List.getElem_mem hj)
  refine ⟨by simpa using hlt, getElem_readVec hlt ▸ abs_at_firstMagnitude hlt, by simpa using hupper, fun j hj => ?_⟩
  have hjlen := hj.trans hlt
  exact lt_of_le_of_ne (hupper j hjlen) (getElem_readVec hjlen ▸ abs_before_firstMagnitude hj hjlen)

theorem exec_vmaxabs16 {s : State} {x n : Nat} (hx : argIs s 0 x) (hn : argIs s 1 n) (hfit : fits s x n) :
    exec .vmaxabs16 s = .next { ended s with
      res0 := BitVec.ofInt 32 (min (maxMagnitude (s.dmem.readVec x n)) 32767)
      res1 := BitVec.ofNat 32 (if n = 0 then 0 else
        firstMagnitude (s.dmem.readVec x n) (maxMagnitude (s.dmem.readVec x n))) } := by
  show execVmaxabs16 s = _
  unfold execVmaxabs16
  simp only [(argIs_spec hx).1, (argIs_spec hn).1]
  rw [runChecked_ok (by simp [checkArg_of_argIs hx, checkArg_of_argIs hn]) (by simp [input_fits hx hfit]) (by simp)
    (by simp), complete_eq_ended]
  split_ifs <;> rfl

/-! ### The saturating dot product (R161) -/

/-- One more pair of entries is one more step of the accumulation. -/
theorem dotScaled_append (sh : Nat) (dir : ShiftDir) (acc x y : Int) {xs ys : List Int}
    (h : xs.length = ys.length) :
    dotScaled sh dir acc (xs ++ [x]) (ys ++ [y]) =
      sat32 (dotScaled sh dir acc xs ys + dotTerm sh dir (x * y)) := by
  induction xs generalizing acc ys with
  | nil =>
    obtain rfl : ys = [] := List.length_eq_zero_iff.1 h.symm
    rfl
  | cons a xs ih =>
    cases ys with
    | nil => cases h
    | cons b ys => exact ih _ (Nat.succ_inj.1 h)

theorem exec_dotsc {s : State} {sh : BitVec 5} {dir : ShiftDir} {x y n : Nat} (hx : argIs s 0 x) (hy : argIs s 1 y)
    (hn : argIs s 2 n) (hfitx : fits s x n) (hfity : fits s y n) :
    exec (.dotsc sh dir) s =
      .next (endedRes0 s (dotScaled sh.toNat dir 0 (s.dmem.readVec x n) (s.dmem.readVec y n))) := by
  show execDotsc sh dir s = _
  unfold execDotsc
  simp only [(argIs_spec hx).1, (argIs_spec hy).1, (argIs_spec hn).1]
  rw [runChecked_ok (by simp [checkArg_of_argIs hx, checkArg_of_argIs hy, checkArg_of_argIs hn])
    (by simp [input_fits hx hfitx, input_fits hy hfity]) (by simp [pair_input_input]) (by simp)]
  rfl

/-- Settles O5: the maximum is an upper bound that is reached, and the least place that reaches it is given; the
accumulator of DOTSC after `i` steps is the dot product of the first `i` words. -/
theorem vectorReductionResults : Obligations.VectorReductionResults := by
  unfold Obligations.VectorReductionResults
  constructor
  · intro s x n hx hn hfit
    rw [exec_vmaxabs16 hx hn hfit]
    refine ⟨fun hzero => ?_, fun hpos => ?_⟩
    · subst hzero
      rfl
    · rw [if_neg hpos.ne']
      exact ⟨_, _, rfl, peak_readVec s.dmem x hpos rfl rfl⟩
  · intro s sh dir x y n hx hy hn hfitx hfity
    refine ⟨fun i => dotScaled sh.toNat dir 0 (s.dmem.readVec x i) (s.dmem.readVec y i), rfl, fun i _ => ?_,
      exec_dotsc hx hy hn hfitx hfity⟩
    simp only [readVec_succ]
    rw [dotScaled_append _ _ _ _ _ (by simp)]
    cases dir <;> rfl

/-! ### Products (R162, R163) -/

theorem exec_vscale {s : State} {sh : BitVec 5} {dir : ShiftDir} {rnd : Rounding} {x y n : Nat} (hx : argIs s 0 x)
    (hy : argIs s 1 y) (hn : argIs s 2 n) (hfitx : fits s x n) (hfity : fits s y n) (hxy : apart y n x n ∨ y = x) :
    exec (.vscale sh dir rnd) s = .next { ended s with
      dmem := s.dmem.writeVec y ((s.dmem.readVec x n).map fun v => scaledProduct sh.toNat dir rnd v (arg16 s 3)) } := by
  show execVscale sh dir rnd s = _
  unfold execVscale
  simp only [(argIs_spec hx).1, (argIs_spec hy).1, (argIs_spec hn).1, argI16_eq]
  have hpair : pairConflict (s.input 0 n) (s.output 1 n [0]) = none :=
    pair_input_output hx hy (hxy.imp_right fun h => ⟨rfl, h, rfl⟩)
  rw [runChecked_ok (by simp [checkArg_of_argIs hx, checkArg_of_argIs hy, checkArg_of_argIs hn])
    (by simp [input_fits hx hfitx, output_fits hy hfity]) (by simp [hpair]) (by simp)]
  rfl

theorem exec_vmul {s : State} {sh : BitVec 5} {dir : ShiftDir} {rnd : Rounding} {x w y n : Nat} (hx : argIs s 0 x)
    (hw : argIs s 1 w) (hy : argIs s 2 y) (hn : argIs s 3 n) (hfitx : fits s x n) (hfitw : fits s w n)
    (hfity : fits s y n) (hxy : apart y n x n ∨ y = x) (hwy : apart y n w n ∨ y = w) :
    exec (.vmul sh dir rnd) s = .next { ended s with
      dmem := s.dmem.writeVec y
        (List.zipWith (scaledProduct sh.toNat dir rnd) (s.dmem.readVec x n) (s.dmem.readVec w n)) } := by
  show execVmul sh dir rnd s = _
  unfold execVmul
  simp only [(argIs_spec hx).1, (argIs_spec hw).1, (argIs_spec hy).1, (argIs_spec hn).1]
  have hpairx : pairConflict (s.input 0 n) (s.output 2 n [0, 1]) = none :=
    pair_input_output hx hy (hxy.imp_right fun h => ⟨rfl, h, rfl⟩)
  have hpairw : pairConflict (s.input 1 n) (s.output 2 n [0, 1]) = none :=
    pair_input_output hw hy (hwy.imp_right fun h => ⟨rfl, h, rfl⟩)
  rw [runChecked_ok (by simp [checkArg_of_argIs hx, checkArg_of_argIs hw, checkArg_of_argIs hy, checkArg_of_argIs hn])
    (by simp [input_fits hx hfitx, input_fits hw hfitw, output_fits hy hfity])
    (by simp [pair_input_input, hpairx, hpairw]) (by simp)]
  rfl

/-- A vector of `n` saturated values, once written: its words, and every byte outside it. -/
theorem writeVec_sat16 {l : List Int} {n : Nat} {f : Nat → Int} (m : Memory) (y : Nat) (hlen : l.length = n)
    (hentry : ∀ i, i < n → nth l i = sat16 (f i)) :
    wordsAre (m.writeVec y l) y n (fun i => sat16 (f i)) ∧ sameOutside m (m.writeVec y l) y n := by
  subst hlen
  refine ⟨wordsAre_writeVec m y l l.length _ le_rfl (fun v hv => ?_) hentry, sameOutside_writeVec m y l⟩
  obtain ⟨i, hi, rfl⟩ := List.getElem_of_mem hv
  have hval : l[i] = sat16 (f i) := by simpa [nth, hi] using hentry i hi
  exact hval ▸ sat16_range (f i)

/-- Settles O6: the products are taken of the memory at the start and written as one vector. -/
theorem vectorProductResults : Obligations.VectorProductResults := by
  unfold Obligations.VectorProductResults
  constructor
  · intro s sh dir rnd x y n hx hy hn hfitx hfity hxy
    refine ⟨_, exec_vscale hx hy hn hfitx hfity hxy, writeVec_sat16 s.dmem y (by simp) fun i hi => ?_⟩
    rw [nth_map _ _ _ (by simpa using hi), nth_readVec, if_pos hi]
    rfl
  · intro s sh dir rnd x w y n hx hw hy hn hfitx hfitw hfity hxy hwy
    refine ⟨_, exec_vmul hx hw hy hn hfitx hfitw hfity hxy hwy, writeVec_sat16 s.dmem y (by simp) fun i hi => ?_⟩
    rw [nth_zipWith _ _ _ _ (by simpa using hi) (by simpa using hi), nth_readVec, nth_readVec, if_pos hi, if_pos hi]
    rfl

end Sys2Proof.Machine
end

section
/-! Opening and closing a channel context (40_fixed_point.md R180, R181). -/

namespace Sys2Proof.Machine

theorem complete_setCtx (s : State) (c : Nat) (v : Option Ctx) : complete (s.setCtx c v) = (ended s).setCtx c v := rfl

/-- Settles O36: CH_OPEN writes the fresh context, CH_CLOSE none, each in the slot named; a slot written is read back,
and every other is as it was. -/
theorem openAndCloseResults : Obligations.OpenAndCloseResults := by
  unfold Obligations.OpenAndCloseResults
  intro s c
  refine ⟨fun kind mode hlt hclosed => ?_, fun q hopen => ?_, fun v d hlt => ?_⟩
  · show execChOpen c kind mode s = _
    rw [execChOpen, if_pos ⟨hlt, hclosed⟩, complete_setCtx]
    rfl
  · show execChClose c s = _
    rw [execChClose, withCtx_open hopen (by simp), complete_setCtx]
  · rw [ctxAt_setCtx]
    have hslot : c.toNat < (ended s).params.nctx ∧ c.toNat < 16 := ⟨hlt, c.isLt⟩
    simp only [hslot, and_true]
    rfl

end Sys2Proof.Machine
end


section
/-! The filters (41_filters.md R201 to R203): what each computes of the words of its regions, with the history before
them, and how it ends when its operands and regions pass the checks. -/

namespace Sys2Proof.Machine

/-! ### Regions with a history before them (R200) -/

theorem pairConflict_apartWithHistory {r q : Region} (hr : r.hist ≤ r.addr) (hq : q.hist ≤ q.addr)
    (h : apart (r.addr - r.hist) (r.hist + r.len) (q.addr - q.hist) (q.hist + q.len)) : pairConflict r q = none := by
  apply pairConflict_apart
  rw [Bool.eq_false_iff, ne_eq, overlaps_iff]
  unfold apart at h
  omega

theorem fits_withHistory {s : State} {r : Region} (hr : r.hist ≤ r.addr)
    (h : fits s (r.addr - r.hist) (r.hist + r.len)) : r.fits s.params.dmemWords = true :=
  (fits_iff _ r).2 ⟨hr, h.imp_right fun h => by omega⟩

/-- FILT_MA has a history `p` of its input and none of its output, FILT_AR a history `q` of its output and none of its
input; their checks are else the same. -/
theorem runChecked_filter {s body : State} {x y n a o p q : Nat} (hx : argIs s 0 x) (hy : argIs s 1 y)
    (hn : argIs s 2 n) (ha : argIs s 3 a) (ho : argIs s 4 o) (horder : o ≤ 31) (hpx : p ≤ x) (hqy : q ≤ y)
    (hfitx : fits s (x - p) (p + n)) (hfity : fits s (y - q) (q + n)) (hfita : fits s a (o + 1))
    (hxy : apart (y - q) (q + n) (x - p) (p + n) ∨ y = x) (hya : apart (y - q) (q + n) a (o + 1)) :
    runChecked s [s.checkArg 0, s.checkArg 1, s.checkArg 2, s.checkArg 3, s.checkArg 4 (o ≤ 31)]
      [s.input 0 n p, s.output 1 n [0] q, s.input 3 (o + 1)] [] body = .next (ended body) := by
  obtain ⟨rfl, -⟩ := argIs_spec hx
  obtain ⟨rfl, -⟩ := argIs_spec hy
  obtain ⟨rfl, -⟩ := argIs_spec ha
  have hcheck : s.checkArg 4 (o ≤ 31) = none :=
    (checkArg_eq_none s 4 _).2 ⟨(argIs_spec ho).2, decide_eq_true horder⟩
  have hinput : (s.input 0 n p).fits s.params.dmemWords = true := fits_withHistory hpx hfitx
  have houtput : (s.output 1 n [0] q).fits s.params.dmemWords = true := fits_withHistory hqy hfity
  have hpairxy : pairConflict (s.input 0 n p) (s.output 1 n [0] q) = none := by
    rcases hxy with hapart | heq
    · exact pairConflict_apartWithHistory hpx hqy (apart_symm hapart)
    · exact pairConflict_inPlace _ _ rfl rfl ((inPlaceWith_iff _ _).2 ⟨List.mem_singleton_self _, heq, rfl⟩)
  have hpairxa : pairConflict (s.input 0 n p) (s.input 3 (o + 1)) = none := pairConflict_inputs _ _ rfl rfl
  have hpairya : pairConflict (s.output 1 n [0] q) (s.input 3 (o + 1)) = none :=
    pairConflict_apartWithHistory hqy (Nat.zero_le _) (by simpa [State.output, State.input] using hya)
  exact runChecked_ok
    (by simp [checkArg_of_argIs hx, checkArg_of_argIs hy, checkArg_of_argIs hn, checkArg_of_argIs ha, hcheck])
    (by simp [hinput, houtput, input_fits ha hfita]) (by simp [hpairxy, hpairxa, hpairya]) (by simp)

theorem sumTo_eq_total {n : Nat} {f g : Nat → Int} (h : ∀ k, k < n → f k = g k) : sumTo n f = total n g :=
  (total_eq_sumTo n f).trans (Finset.sum_congr rfl fun k hk => h k (Finset.mem_range.1 hk))

theorem lpcDescale_eq (acc : Int) : lpcDescale acc = sat16 (rshr (clamp acc (-2 ^ 27) (2 ^ 27)) 12) := rfl

/-! ### The moving-average filter (R201) -/

theorem exec_filtMa {s : State} {x y n a o : Nat} (hx : argIs s 0 x) (hy : argIs s 1 y) (hn : argIs s 2 n)
    (ha : argIs s 3 a) (ho : argIs s 4 o) (horder : o ≤ 31) (hox : o ≤ x) (hfitx : fits s (x - o) (o + n))
    (hfity : fits s y n) (hfita : fits s a (o + 1)) (hxy : apart y n (x - o) (o + n) ∨ y = x)
    (hya : apart y n a (o + 1)) :
    exec .filtMa s = .next { ended s with
      dmem := s.dmem.writeVec y (filterMa (s.dmem.readVec a (o + 1)) (s.dmem.readVec (x - o) (o + n)) o n) } := by
  show execFiltMa s = _
  unfold execFiltMa
  simp only [(argIs_spec hx).1, (argIs_spec hy).1, (argIs_spec hn).1, (argIs_spec ha).1, (argIs_spec ho).1]
  have hzero : 0 + n = n := Nat.zero_add n
  rw [runChecked_filter (q := 0) hx hy hn ha ho horder hox (Nat.zero_le y) hfitx (by rwa [hzero]) hfita
    (by rwa [hzero]) (by rwa [hzero])]
  rfl

/-- Entry `o + i` of the signal, history first, is the input word `i`. -/
theorem nth_filterMa_readVec (m : Memory) {a x o n i : Nat} (hox : o ≤ x) (hi : i < n) :
    nth (filterMa (m.readVec a (o + 1)) (m.readVec (x - o) (o + n)) o n) i =
      lpcDescale (total (o + 1) fun k => m.readI16 (a + k) * m.readI16 (x + i - k)) := by
  rw [filterMa, nth_tabulate, if_pos hi]
  refine congrArg lpcDescale (sumTo_eq_total fun k hk => ?_)
  have haddr : x - o + (o + i - k) = x + i - k := by omega
  rw [nth_readVec, if_pos hk, nth_readVec, if_pos (by omega), haddr]

/-- Settles O7: the sums are taken of the memory at the start and written as one vector. -/
theorem filtMaResult : Obligations.FiltMaResult := by
  unfold Obligations.FiltMaResult
  intro s x y n a o hx hy hn ha ho horder hox hfitx hfity hfita hxy hya
  refine ⟨_, exec_filtMa hx hy hn ha ho horder hox hfitx hfity hfita hxy hya,
    writeVec_sat16 s.dmem y (filterMa_length _ _ _ _) fun i hi => ?_⟩
  rw [nth_filterMa_readVec s.dmem hox hi, lpcDescale_eq]

/-! ### The all-pole filter (R202) -/

theorem exec_filtAr {s : State} {x y n a o : Nat} (hx : argIs s 0 x) (hy : argIs s 1 y) (hn : argIs s 2 n)
    (ha : argIs s 3 a) (ho : argIs s 4 o) (horder : o ≤ 31) (hoy : o ≤ y) (hfitx : fits s x n)
    (hfity : fits s (y - o) (o + n)) (hfita : fits s a (o + 1)) (hxy : apart (y - o) (o + n) x n ∨ y = x)
    (hya : apart (y - o) (o + n) a (o + 1)) :
    exec .filtAr s = .next { ended s with
      dmem := s.dmem.writeVec y (filterAr (s.dmem.readVec a (o + 1)) o (s.dmem.readVec (y - o) o).reverse
        (s.dmem.readVec x n)) } := by
  show execFiltAr s = _
  unfold execFiltAr
  simp only [(argIs_spec hx).1, (argIs_spec hy).1, (argIs_spec hn).1, (argIs_spec ha).1, (argIs_spec ho).1]
  have hzero : 0 + n = n := Nat.zero_add n
  rw [runChecked_filter (p := 0) hx hy hn ha ho horder (Nat.zero_le x) hoy (by rwa [hzero]) hfity hfita
    (by rwa [hzero]) hya]
  rfl

theorem filterAr_range (a : List Int) (o : Nat) (past xs : List Int) :
    ∀ v ∈ filterAr a o past xs, -32768 ≤ v ∧ v ≤ 32767 := by
  induction xs generalizing past with
  | nil => simp [filterAr]
  | cons x xs ih => exact List.forall_mem_cons.2 ⟨sat16_range _, ih _⟩

theorem nth_reverse_readVec (m : Memory) {a n i : Nat} (hi : i < n) :
    nth (m.readVec a n).reverse i = m.readI16 (a + (n - 1 - i)) := by
  simp [nth, hi, getElem_readVec]

/-- The output `k + 1` places before output `i`, or the history word there, is the word of the final memory. -/
theorem feedback_eq_readI16 {m : Memory} {y o n i k : Nat} {l : List Int} (hlen : l.length = n)
    (hrange : ∀ v ∈ l, -32768 ≤ v ∧ v ≤ 32767) (hoy : o ≤ y) (hi : i < n) (hk : k < o) :
    (if k < i then nth l (i - 1 - k) else nth (m.readVec (y - o) o).reverse (k - i)) =
      (m.writeVec y l).readI16 (y + i - (k + 1)) := by
  split_ifs with hki
  · have haddr : y + i - (k + 1) = y + (i - 1 - k) := by omega
    rw [haddr, readI16_writeVec_nth m y l _ (by omega) hrange]
  · have haddr : y - o + (o - 1 - (k - i)) = y + i - (k + 1) := by omega
    rw [nth_reverse_readVec m (by omega), haddr, readI16_writeVec_apart m y l _ (.inl (by omega))]

theorem nth_filterAr_readVec (m : Memory) {a x y o n i : Nat} {l : List Int}
    (hl : filterAr (m.readVec a (o + 1)) o (m.readVec (y - o) o).reverse (m.readVec x n) = l) (hoy : o ≤ y)
    (hi : i < n) :
    nth l i = lpcDescale (m.readI16 a * m.readI16 (x + i) -
      total o fun k => m.readI16 (a + (k + 1)) * (m.writeVec y l).readI16 (y + i - (k + 1))) := by
  have hlen : l.length = n := by rw [← hl, filterAr_length, readVec_length]
  have hrange : ∀ v ∈ l, -32768 ≤ v ∧ v ≤ 32767 := hl ▸ filterAr_range _ _ _ _
  have hentry := nth_filterAr (m.readVec a (o + 1)) o (m.readVec x n) (m.readVec (y - o) o).reverse i
    (by simpa using hi)
  rw [hl, nth_readVec, if_pos (Nat.succ_pos o), nth_readVec, if_pos hi, Nat.add_zero] at hentry
  rw [hentry]
  congr 2
  refine sumTo_eq_total fun k hk => ?_
  rw [nth_readVec, if_pos (by omega), feedback_eq_readI16 hlen hrange hoy hi hk]

/-- Settles O8: the outputs fed back read the same in the final memory, where they are 16-bit words, and the history
before them is not written. -/
theorem filtArResult : Obligations.FiltArResult := by
  unfold Obligations.FiltArResult
  intro s x y n a o hx hy hn ha ho horder hoy hfitx hfity hfita hxy hya
  refine ⟨_, exec_filtAr hx hy hn ha ho horder hoy hfitx hfity hfita hxy hya,
    writeVec_sat16 s.dmem y (by simp [filterAr_length]) fun i hi => ?_⟩
  rw [nth_filterAr_readVec s.dmem rfl hoy hi, lpcDescale_eq]

/-! ### The high-pass filter (R203) -/

/-- The high-pass memory after one more sample. -/
def hpNext (acc : Int → Int → Int → Int → Int → Int) (h : HpMem) (x : Int) : HpMem :=
  { x0 := x, x1 := h.x0, y0 := clamp (acc x h.x0 h.x1 h.y0 h.y1) (-hpBound) hpBound, y1 := h.y0 }

theorem hpFilter_append (acc : Int → Int → Int → Int → Int → Int) (h : HpMem) (xs : List Int) (x : Int) :
    hpFilter acc h (xs ++ [x]) =
      ((hpFilter acc h xs).1 ++ [sat16 (rshr (hpNext acc (hpFilter acc h xs).2 x).y0 13)],
        hpNext acc (hpFilter acc h xs).2 x) := by
  induction xs generalizing h with
  | nil => rfl
  | cons x' xs ih => simp only [List.cons_append, hpFilter, ih]

/-- The high-pass memory after the first `i` words at `x`. -/
def hpAfter (acc : Int → Int → Int → Int → Int → Int) (h : HpMem) (m : Memory) (x i : Nat) : HpMem :=
  (hpFilter acc h (m.readVec x i)).2

section
variable (acc : Int → Int → Int → Int → Int → Int) (h : HpMem) (m : Memory) (x : Nat)

theorem hpAfter_zero : hpAfter acc h m x 0 = h := rfl

theorem hpAfter_succ (i : Nat) :
    hpAfter acc h m x (i + 1) = hpNext acc (hpAfter acc h m x i) (m.readI16 (x + i)) := by
  rw [hpAfter, readVec_succ, hpFilter_append]
  rfl

theorem hpAfter_x0_succ (i : Nat) : (hpAfter acc h m x (i + 1)).x0 = m.readI16 (x + i) := by
  rw [hpAfter_succ]
  rfl

theorem hpAfter_x1_succ (i : Nat) : (hpAfter acc h m x (i + 1)).x1 = (hpAfter acc h m x i).x0 := by
  rw [hpAfter_succ]
  rfl

theorem hpAfter_y0_succ (i : Nat) :
    (hpAfter acc h m x (i + 1)).y0 = clamp (acc (m.readI16 (x + i)) (hpAfter acc h m x i).x0
      (hpAfter acc h m x i).x1 (hpAfter acc h m x i).y0 (hpAfter acc h m x i).y1) (-268435456) 268435456 := by
  rw [hpAfter_succ]
  rfl

theorem hpAfter_y1_succ (i : Nat) : (hpAfter acc h m x (i + 1)).y1 = (hpAfter acc h m x i).y0 := by
  rw [hpAfter_succ]
  rfl

/-- An output is the last accumulator after its sample, descaled; later samples do not change it. -/
theorem nth_hpFilter_readVec {n i : Nat} (hi : i < n) :
    nth (hpFilter acc h (m.readVec x n)).1 i = sat16 (rshr (hpAfter acc h m x (i + 1)).y0 13) := by
  induction n with
  | zero => exact absurd hi (Nat.not_lt_zero i)
  | succ n ih =>
    have hlen : (hpFilter acc h (m.readVec x n)).1.length = n := by rw [hpFilter_length, readVec_length]
    rw [readVec_succ, hpFilter_append]
    rcases Nat.lt_succ_iff_lt_or_eq.1 hi with hlt | rfl
    · rw [nth, List.getD_append _ _ _ _ (by rwa [hlen]), ← nth, ih hlt]
    · rw [nth, List.getD_append_right _ _ _ _ hlen.le, hlen, Nat.sub_self, hpAfter_succ]
      rfl

end

theorem exec_hpFilt {s : State} {c : BitVec 4} {q : Ctx} {x y n : Nat} (hq : s.ctxAt c.toNat = some q)
    (hx : argIs s 0 x) (hy : argIs s 1 y) (hn : argIs s 2 n) (hfitx : fits s x n) (hfity : fits s y n)
    (hxy : apart y n x n ∨ y = x) :
    exec (.hpFilt c) s = .next
      { (ended s).setCtx c.toNat
          (some (q.setHpMem (hpAfter (Config.hpAcc q.kind (hpCoef q.kind)) q.hpMem s.dmem x n))) with
        dmem := s.dmem.writeVec y
          (hpFilter (Config.hpAcc q.kind (hpCoef q.kind)) q.hpMem (s.dmem.readVec x n)).1 } := by
  show execHpFilt c s = _
  rw [execHpFilt, withCtx_open hq (by simp)]
  simp only [(argIs_spec hx).1, (argIs_spec hy).1, (argIs_spec hn).1]
  have hpair : pairConflict (s.input 0 n) (s.output 1 n [0]) = none :=
    pair_input_output hx hy (hxy.imp_right fun h => ⟨rfl, h, rfl⟩)
  rw [runChecked_ok (by simp [checkArg_of_argIs hx, checkArg_of_argIs hy, checkArg_of_argIs hn])
    (by simp [input_fits hx hfitx, output_fits hy hfity]) (by simp [hpair]) (by simp)]
  rfl

/-- Settles O9: the samples and the accumulators are the older entries of the high-pass memory after each sample, whose
newer entries are the older ones a sample later. -/
theorem hpFiltResult : Obligations.HpFiltResult := by
  unfold Obligations.HpFiltResult
  intro s c q x y n hq hx hy hn hfitx hfity hxy
  refine ⟨fun i => (hpAfter (Config.hpAcc q.kind (hpCoef q.kind)) q.hpMem s.dmem x i).x1,
    fun i => (hpAfter (Config.hpAcc q.kind (hpCoef q.kind)) q.hpMem s.dmem x i).y1,
    s.dmem.writeVec y (hpFilter (Config.hpAcc q.kind (hpCoef q.kind)) q.hpMem (s.dmem.readVec x n)).1,
    ?_, fun i _ => ?_, ?_, writeVec_sat16 s.dmem y (by simp [hpFilter_length]) fun i hi => ?_⟩
  · simp only [hpAfter_x1_succ, hpAfter_y1_succ, hpAfter_zero]
    exact ⟨rfl, rfl, rfl, rfl⟩
  · simp only [hpAfter_x1_succ, hpAfter_y1_succ, hpAfter_x0_succ, hpAfter_y0_succ, true_and]
  · simp only [hpAfter_x1_succ, hpAfter_y1_succ]
    exact exec_hpFilt hq hx hy hn hfitx hfity hxy
  · simp only [hpAfter_y1_succ]
    exact nth_hpFilter_readVec _ _ _ _ hi

end Sys2Proof.Machine
end

section
/-! The autocorrelation (42_lpc.md R240 to R242): its scale factor, its sums and their bound. -/

namespace Sys2Proof.Machine

/-! ### The scale factor (R241) -/

theorem maxMagnitude_nonneg (xs : List Int) : 0 ≤ maxMagnitude xs := (foldl_max_magnitude xs 0 le_rfl).2.1

theorem maxMagnitude_le {xs : List Int} {b : Int} (hb : 0 ≤ b) (h : ∀ x ∈ xs, |x| ≤ b) : maxMagnitude xs ≤ b := by
  obtain ⟨-, -, hzero | ⟨x, hx, hreached⟩⟩ := foldl_max_magnitude xs 0 le_rfl
  · exact hzero.trans_le hb
  · exact hreached.symm.trans_le (h x hx)

theorem abs_nth_le_maxMagnitude (xs : List Int) (i : Nat) : |nth xs i| ≤ maxMagnitude xs := by
  rcases Nat.lt_or_ge i xs.length with hi | hi
  · simpa [nth, hi] using abs_le_maxMagnitude (List.getElem_mem hi)
  · simpa [nth, hi] using maxMagnitude_nonneg xs

theorem acScale_eq (xs : List Int) :
    acScale xs = if maxMagnitude xs = 0 then 0
      else bitlen xs.length - normShift 31 (min 32767 (maxMagnitude xs) ^ 2) := by
  have hzero : min 32767 (maxMagnitude xs) = 0 ↔ maxMagnitude xs = 0 := by omega
  simp only [acScale, hzero, sq]

theorem normShift_le (n : Nat) (v : Int) : normShift n v ≤ n := by
  unfold normShift
  split_ifs
  · exact Nat.zero_le n
  · exact Nat.sub_le _ _
  · exact Nat.sub_le _ _

/-- The square of the peak, held to 16 bits, is normalised as a 32-bit value. -/
theorem normShift_peak {peak : Int} (h : 0 < peak) :
    2 ^ 30 ≤ min 32767 peak ^ 2 * 2 ^ normShift 31 (min 32767 peak ^ 2) ∧
      min 32767 peak ^ 2 * 2 ^ normShift 31 (min 32767 peak ^ 2) < 2 ^ 31 := by
  have hsq : 0 < min 32767 peak ^ 2 := by positivity
  have hfits : min 32767 peak ^ 2 ≤ 32767 ^ 2 := pow_le_pow_left₀ (by omega) (min_le_left _ _) 2
  obtain ⟨-, hpos, -⟩ := normShift_spec (v := min 32767 peak ^ 2) (w := 30) ⟨by omega, by omega⟩
  exact hpos hsq

/-- The peak is at most 32768; there the square exceeds the one normalised, but not 2^31 once shifted: its shift is at
most 1. -/
theorem peak_sq_mul_le {peak : Int} {t : Nat} (hpeak : peak ≤ 32768)
    (h : min 32767 peak ^ 2 * 2 ^ t < 2 ^ 31) : peak ^ 2 * 2 ^ t ≤ 2 ^ 31 := by
  rcases le_or_gt peak 32767 with hle | hgt
  · rw [min_eq_right hle] at h
    exact h.le
  · obtain rfl : peak = 32768 := by omega
    have hshift : (2 : Int) ^ t < 2 ^ 2 := by
      norm_num at h ⊢
      omega
    have ht : t ≤ 1 := Nat.lt_succ_iff.1 ((pow_lt_pow_iff_right₀ one_lt_two).1 hshift)
    calc (32768 : Int) ^ 2 * 2 ^ t ≤ 32768 ^ 2 * 2 ^ 1 :=
          mul_le_mul_of_nonneg_left (pow_le_pow_right₀ one_le_two ht) (by norm_num)
      _ = 2 ^ 31 := by norm_num

/-- The scale factor is what the length needs beyond `t` bits, and a product leaves `t` bits free. -/
theorem acScale_spec {xs : List Int} (hrange : ∀ v ∈ xs, -32768 ≤ v ∧ v ≤ 32767) (hlen : xs.length ≤ 4096) :
    ∃ t, t ≤ 31 ∧ acScale xs = bitlen xs.length - t ∧ maxMagnitude xs ^ 2 ≤ 2 ^ (31 - t) := by
  have hupper : maxMagnitude xs ≤ 32768 :=
    maxMagnitude_le (by norm_num) fun v hv => abs_le.2 ⟨(hrange v hv).1, by linarith [(hrange v hv).2]⟩
  rw [acScale_eq]
  split_ifs with hzero
  · have hbits : bitlen xs.length ≤ 31 := (bitlen_le_iff _ _).2 (by omega)
    exact ⟨31, le_rfl, by omega, by simp [hzero]⟩
  · have hpos : 0 < maxMagnitude xs := lt_of_le_of_ne (maxMagnitude_nonneg xs) (Ne.symm hzero)
    have ht := normShift_le 31 (min 32767 (maxMagnitude xs) ^ 2)
    refine ⟨_, ht, rfl, ?_⟩
    have hsq := peak_sq_mul_le hupper (normShift_peak hpos).2
    generalize normShift 31 (min 32767 (maxMagnitude xs) ^ 2) = t at ht hsq ⊢
    have hsplit : (2 : Int) ^ 31 = 2 ^ (31 - t) * 2 ^ t := by rw [← pow_add, Nat.sub_add_cancel ht]
    rw [hsplit] at hsq
    exact le_of_mul_le_mul_right hsq (by positivity)

/-! ### The sums (R240) and their bound (R242) -/

theorem sum_eq_total (l : List Int) : l.sum = total l.length (nth l) := by
  rw [total, Finset.sum_range, ← Fin.sum_univ_getElem]
  exact Finset.sum_congr rfl fun i _ => by simp [nth]

theorem total_congr {n : Nat} {f g : Nat → Int} (h : ∀ i, i < n → f i = g i) : total n f = total n g :=
  Finset.sum_congr rfl fun i hi => h i (Finset.mem_range.1 hi)

theorem nth_drop (l : List Int) (k i : Nat) : nth (l.drop k) i = nth l (i + k) := by
  simp [nth, List.getD_eq_getElem?_getD, Nat.add_comm]

theorem acLag_eq_total (xs : List Int) (s k : Nat) :
    acLag xs s k = total (xs.length - k) fun j => nth xs j * nth xs (j + k) / 2 ^ s := by
  have hlen : (List.zipWith (fun x y => asr (x * y) s) xs (xs.drop k)).length = xs.length - k := by simp
  rw [acLag, sum_eq_total, hlen]
  refine total_congr fun j hj => ?_
  rw [nth_zipWith _ _ _ _ (by omega) (by simpa using hj), nth_drop]
  rfl

theorem acLag_readVec (m : Memory) (x n s k : Nat) :
    acLag (m.readVec x n) s k = total (n - k) fun j => m.readI16 (x + j) * m.readI16 (x + j + k) / 2 ^ s := by
  rw [acLag_eq_total, readVec_length]
  refine total_congr fun j hj => ?_
  rw [nth_readVec, if_pos (by omega), nth_readVec, if_pos (by omega), Nat.add_assoc]

/-- A product of entries, scaled, keeps a bound that the square of the peak keeps before the scaling. -/
theorem scaledTerm_bound {xs : List Int} {s : Nat} {c : Int} (h : maxMagnitude xs ^ 2 ≤ c * 2 ^ s) (i j : Nat) :
    -c ≤ nth xs i * nth xs j / 2 ^ s ∧ nth xs i * nth xs j / 2 ^ s ≤ c := by
  have hproduct : |nth xs i * nth xs j| ≤ c * 2 ^ s := by
    rw [abs_mul]
    refine le_trans ?_ h
    rw [sq]
    exact mul_le_mul (abs_nth_le_maxMagnitude xs i) (abs_nth_le_maxMagnitude xs j) (abs_nonneg _)
      (maxMagnitude_nonneg xs)
  obtain ⟨hlow, hhigh⟩ := abs_le.1 hproduct
  have hpow : (0 : Int) < 2 ^ s := by positivity
  exact ⟨(Int.le_ediv_iff_mul_le hpow).2 (by linarith), Int.ediv_le_of_le_mul hpow hhigh⟩

/-- There are fewer than `2 ^ bitlen n` terms, and the scaled products leave as many bits free: `t` before the scaling
and `bitlen n - t` by it. -/
theorem acPartialSum_range {xs : List Int} (hrange : ∀ v ∈ xs, -32768 ≤ v ∧ v ≤ 32767) (hlen : xs.length ≤ 4096)
    (k : Nat) {p : Nat} (hp : p ≤ xs.length) :
    -2 ^ 31 ≤ total p (fun j => nth xs j * nth xs (j + k) / 2 ^ acScale xs) ∧
      total p (fun j => nth xs j * nth xs (j + k) / 2 ^ acScale xs) < 2 ^ 31 := by
  obtain ⟨t, ht, hscale, hpeak⟩ := acScale_spec hrange hlen
  have hbits : bitlen xs.length ≤ 13 := (bitlen_le_iff _ _).2 (by omega)
  have hsplit : (2 : Int) ^ (31 - t) = 2 ^ (31 - t - acScale xs) * 2 ^ acScale xs := by
    rw [← pow_add, Nat.sub_add_cancel (by omega)]
  rw [hsplit] at hpeak
  obtain ⟨hlow, hhigh⟩ := total_bound p (fun j => nth xs j * nth xs (j + k) / 2 ^ acScale xs) _
    fun j _ => scaledTerm_bound hpeak j (j + k)
  have hcount : (p : Int) < 2 ^ bitlen xs.length := by exact_mod_cast hp.trans_lt (lt_two_pow_bitlen _)
  have hbound : (p : Int) * 2 ^ (31 - t - acScale xs) < 2 ^ 31 :=
    calc (p : Int) * 2 ^ (31 - t - acScale xs)
        < 2 ^ bitlen xs.length * 2 ^ (31 - t - acScale xs) := mul_lt_mul_of_pos_right hcount (by positivity)
      _ = 2 ^ (bitlen xs.length + (31 - t - acScale xs)) := (pow_add _ _ _).symm
      _ ≤ 2 ^ 31 := pow_le_pow_right₀ one_le_two (by omega)
  constructor <;> linarith

/-- Settles O11: the bound of every partial sum, for a lag within the vector. -/
theorem autocorrNeverOverflows : Obligations.AutocorrNeverOverflows := by
  unfold Obligations.AutocorrNeverOverflows
  intro xs hrange _ hlen k p hkp
  exact acPartialSum_range hrange hlen k (by omega)

/-! ### AUTOCORR -/

theorem exec_autocorr {s : State} {x n r o : Nat} (hx : argIs s 0 x) (hn : argIs s 1 n) (hr : argIs s 2 r)
    (ho : argIs s 3 o) (hcount : 1 ≤ n ∧ n ≤ 4096) (horder : o ≤ 10) (hfitx : fits s x n)
    (hfitr : fits s r (2 * (o + 1))) (hxr : apart r (2 * (o + 1)) x n) :
    exec .autocorr s = .next { ended s with
      dmem := s.dmem.writeVec r (halves (autocorr (s.dmem.readVec x n) o))
      res0 := BitVec.ofNat 32 (acScale (s.dmem.readVec x n)) } := by
  show execAutocorr s = _
  unfold execAutocorr
  simp only [(argIs_spec hx).1, (argIs_spec hn).1, (argIs_spec hr).1, (argIs_spec ho).1]
  have hcheckn : s.checkArg 1 (1 ≤ n && n ≤ 4096) = none :=
    (checkArg_eq_none s 1 _).2 ⟨(argIs_spec hn).2, by simpa using hcount⟩
  have hchecko : s.checkArg 3 (o ≤ 10) = none :=
    (checkArg_eq_none s 3 _).2 ⟨(argIs_spec ho).2, by simpa using horder⟩
  have hpair : pairConflict (s.input 0 n) (s.output 2 (2 * (o + 1))) = none := pair_input_output hx hr (.inl hxr)
  rw [runChecked_ok (by simp [checkArg_of_argIs hx, checkArg_of_argIs hr, hcheckn, hchecko])
    (by simp [input_fits hx hfitx, output_fits hr hfitr]) (by simp [hpair]) (by simp)]
  rfl

/-- Each lag is an `i32`, so it reads back from its two words. -/
theorem readI32_writeVec_autocorr (m : Memory) {x n r o k : Nat} (hn : n ≤ 4096) (hk : k ≤ o) :
    (m.writeVec r (halves (autocorr (m.readVec x n) o))).readI32 (r + 2 * k) =
      total (n - k) fun j => m.readI16 (x + j) * m.readI16 (x + j + k) / 2 ^ acScale (m.readVec x n) := by
  have hentry : (autocorr (m.readVec x n) o).getD k 0 = acLag (m.readVec x n) (acScale (m.readVec x n)) k :=
    (nth_tabulate _ _ _).trans (if_pos (by omega))
  have hlag := acPartialSum_range (readVec_range m x n) (by simpa using hn) k
    (Nat.sub_le (m.readVec x n).length k)
  rw [← acLag_eq_total] at hlag
  rw [readI32_writeVec_halves m r _ k (by rw [autocorr_length]; omega) (hentry ▸ hlag), hentry, acLag_readVec]

/-- Settles O10: the peak and the shift are those of `acScale`, and the sums read back because they do not
overflow. -/
theorem autocorrResult : Obligations.AutocorrResult := by
  unfold Obligations.AutocorrResult
  intro s x n r o hx hn hr ho hpos hcount horder hfitx hfitr hxr
  obtain ⟨hplace, hreached, hupper, -⟩ := peak_readVec s.dmem x hpos rfl rfl
  refine ⟨maxMagnitude (s.dmem.readVec x n), normShift 31 (min 32767 (maxMagnitude (s.dmem.readVec x n)) ^ 2),
    acScale (s.dmem.readVec x n), _, ⟨hupper, _, hplace, hreached⟩, normShift_peak, ?_,
    exec_autocorr hx hn hr ho ⟨hpos, hcount⟩ horder hfitx hfitr hxr,
    fun k hk => readI32_writeVec_autocorr s.dmem hcount hk, ?_⟩
  · rw [acScale_eq, readVec_length]
    split_ifs <;> omega
  · have hframe := sameOutside_writeVec s.dmem r (halves (autocorr (s.dmem.readVec x n) o))
    rwa [halves_length, autocorr_length] at hframe

end Sys2Proof.Machine
end

section
/-! The Levinson-Durbin step (42_lpc.md R250 to R253): where it stops being stable, and what it writes then. -/

namespace Sys2Proof.Machine

/-- The recursion has not failed before reflection coefficient `j`: `R[0]` is positive and none before it exceeds the
threshold (R252, R253). -/
def stableUpTo (r : List Int) (j : Nat) : Bool :=
  decide (0 < nth r 0) && (List.range j).all fun i => |nth (levArith r).k i| ≤ 32750

theorem stableUpTo_iff (r : List Int) (j : Nat) :
    stableUpTo r j = true ↔ 0 < nth r 0 ∧ ∀ i, i < j → |nth (levArith r).k i| ≤ 32750 := by
  simp [stableUpTo]

/-- Unstable at 0, no reflection coefficient counts. -/
theorem unstableAt_zero (k l : List Int) : unstableAt 0 k = unstableAt 0 l := by simp [unstableAt]

theorem levArith_fail_spec (r : List Int) :
    ((levArith r).fail = 0 ↔ ∀ j, j < 10 → |nth (levArith r).k j| ≤ 32750) ∧
      ((levArith r).fail ≠ 0 → ∃ p, p < 10 ∧ (levArith r).fail = p + 1 ∧
        (∀ j, j < p → |nth (levArith r).k j| ≤ 32750) ∧ 32750 < |nth (levArith r).k p|) := by
  have hfind := firstUnstable_spec (levArith r).k 0
  have hfail : (levArith r).fail = firstUnstable (0 + 1) (levArith r).k := rfl
  rw [levArith_k_length, ← hfail] at hfind
  simpa only [Nat.zero_add, Nat.add_comm 1] using hfind

/-- LEVINSON is stable throughout, or unstable from the first `f` reflection coefficients on. -/
theorem levinson_cases (r : List Int) :
    (stableUpTo r 10 = true ∧ levinson r = { a := (levArith r).a, k := (levArith r).k, stable := true }) ∨
      ∃ f, f ≤ 10 ∧ (∀ j, stableUpTo r j = true ↔ j < f) ∧ levinson r = unstableAt f (levArith r).k := by
  obtain ⟨hnone, hfirst⟩ := levArith_fail_spec r
  simp only [stableUpTo_iff]
  rcases le_or_gt (nth r 0) 0 with hzero | hpos
  · refine .inr ⟨0, by omega, fun j => by omega, ?_⟩
    rw [levinson, if_pos hzero]
    exact unstableAt_zero _ _
  · by_cases hfail : (levArith r).fail = 0
    · refine .inl ⟨⟨hpos, hnone.1 hfail⟩, ?_⟩
      simp only [levinson, if_neg (not_le.2 hpos), if_pos hfail]
    · obtain ⟨p, hp, hindex, hbefore, hat⟩ := hfirst hfail
      refine .inr ⟨p + 1, hp, fun j => ⟨fun hstable => ?_, fun hj => ⟨hpos, fun i hi => hbefore i (by omega)⟩⟩, ?_⟩
      · by_contra hbeyond
        exact absurd (hstable.2 p (by omega)) (not_le.2 hat)
      · simp only [levinson, if_neg (not_le.2 hpos), if_neg hfail, ← hindex]

theorem levinson_stable (r : List Int) : (levinson r).stable = stableUpTo r 10 := by
  rcases levinson_cases r with ⟨hstable, heq⟩ | ⟨f, hf, hupTo, heq⟩
  · rw [heq, hstable]
  · have hunstable : stableUpTo r 10 = false := Bool.eq_false_iff.2 fun h => absurd ((hupTo 10).1 h) (by omega)
    rw [heq, hunstable]
    rfl

theorem nth_identityFilter (i : Nat) : nth identityFilter i = if i = 0 then 4096 else 0 := by
  cases i with
  | zero => rfl
  | succ i =>
    show nth (tabulate 10 fun _ => 0) i = _
    simp [nth_tabulate]

theorem nth_levinson_a (r : List Int) (i : Nat) :
    nth (levinson r).a i =
      if stableUpTo r 10 then nth (levArith r).a i else if i = 0 then 4096 else 0 := by
  rw [← levinson_stable]
  rcases levinson_cases r with ⟨-, heq⟩ | ⟨f, -, -, heq⟩
  · simp [heq]
  · simpa [heq, unstableAt] using nth_identityFilter i

theorem nth_levinson_k (r : List Int) {j : Nat} (hj : j < 10) :
    nth (levinson r).k j = if stableUpTo r j then nth (levArith r).k j else 0 := by
  rcases levinson_cases r with ⟨hstable, heq⟩ | ⟨f, -, hupTo, heq⟩
  · obtain ⟨hpos, hall⟩ := (stableUpTo_iff r 10).1 hstable
    have hj' : stableUpTo r j = true := (stableUpTo_iff r j).2 ⟨hpos, fun i hi => hall i (by omega)⟩
    rw [heq, hj', if_pos rfl]
  · simp only [heq, unstableAt, nth_tabulate, if_pos hj, hupTo]

theorem levinson_range (r : List Int) :
    (∀ v ∈ (levinson r).a, -32768 ≤ v ∧ v ≤ 32767) ∧ ∀ v ∈ (levinson r).k, -32768 ≤ v ∧ v ≤ 32767 := by
  rcases levinson_cases r with ⟨-, heq⟩ | ⟨f, -, -, heq⟩ <;> rw [heq]
  · exact ⟨levArith_a_range r, levArith_k_range r⟩
  · refine ⟨List.forall_mem_cons.2 ⟨by norm_num, tabulate_range fun _ _ => by norm_num⟩,
      tabulate_range fun j _ => ?_⟩
    split_ifs
    · exact nth_range (levArith_k_range r) j
    · norm_num

theorem exec_levinson {s : State} {r a k : Nat} (hr : argIs s 0 r) (ha : argIs s 1 a) (hk : argIs s 2 k)
    (hfitr : fits s r 22) (hfita : fits s a 11) (hfitk : fits s k 10) (har : apart a 11 r 22)
    (hkr : apart k 10 r 22) (hak : apart a 11 k 10) {q : Levinson}
    (hq : levinson (tabulate 11 fun i => s.dmem.readI32 (r + 2 * i)) = q) :
    exec .levinson s = .next (alsoUnstable (!q.stable) { ended s with
      dmem := (s.dmem.writeVec a q.a).writeVec k q.k
      res0 := if q.stable then 1 else 0 }) := by
  show execLevinson s = _
  unfold execLevinson
  simp only [(argIs_spec hr).1, (argIs_spec ha).1, (argIs_spec hk).1, hq]
  have hpaira : pairConflict (s.input 0 22) (s.output 1 11) = none := pair_input_output hr ha (.inl har)
  have hpairk : pairConflict (s.input 0 22) (s.output 2 10) = none := pair_input_output hr hk (.inl hkr)
  have hpairak : pairConflict (s.output 1 11) (s.output 2 10) = none := pair_output_output hk ha hak
  rw [runChecked_ok (by simp [checkArg_of_argIs hr, checkArg_of_argIs ha, checkArg_of_argIs hk])
    (by simp [input_fits hr hfitr, output_fits ha hfita, output_fits hk hfitk])
    (by simp [hpaira, hpairk, hpairak]) (by simp), complete_eq_ended]
  cases q.stable <;> simp [ended, alsoUnstable, State.setRes0, State.setUnstable, State.writeVec]

/-- Settles O12: the outputs of `levinson` by the coefficient at which it fails, written apart from each other. -/
theorem levinsonResult : Obligations.LevinsonResult := by
  unfold Obligations.LevinsonResult
  intro s r a k hr ha hk hfitr hfita hfitk har hkr hak R K upTo
  have hupTo : upTo = stableUpTo R := rfl
  obtain ⟨hlena, hlenk⟩ := levinson_length R
  obtain ⟨hrangea, hrangek⟩ := levinson_range R
  refine ⟨(s.dmem.writeVec a (levinson R).a).writeVec k (levinson R).k, ?_, ?_, ?_, ?_⟩
  · rw [hupTo, ← levinson_stable]
    exact exec_levinson hr ha hk hfitr hfita hfitk har hkr hak rfl
  · exact wordsAre_writeVec_apart k _
      (wordsAre_writeVec s.dmem a _ 11 _ hlena.ge hrangea fun i _ => nth_levinson_a R i) (by rwa [hlenk])
  · exact wordsAre_writeVec _ k _ 10 _ hlenk.ge hrangek fun j hj => nth_levinson_k R hj
  · simpa only [hlena, hlenk] using sameOutside2_writeVec s.dmem a (levinson R).a k (levinson R).k

end Sys2Proof.Machine
end

section
/-! From prediction coefficients to line spectral frequencies (42_lpc.md R260 to R263): the constraints on the grid and
the conversion, and what A2LSF writes. -/

namespace Sys2Proof.Machine

/-! ### The grid and the conversion (R262, R263) -/

/-- A value kept to a constraint meets it, whatever was drawn, when the default does. -/
theorem admitted_ok {α : Type} {ok : α → Bool} {dflt : α} (raw : α) (h : ok dflt = true) :
    ok (admitted ok dflt raw) = true := by
  unfold admitted
  split_ifs with hraw
  exacts [hraw, h]

theorem cosGrid_decreases {j : Nat} (hj : j < gridN) : cosGrid (j + 1) < cosGrid j := by
  have hrises : risesTo gridN (fun i => -cosGrid i) = true :=
    admitted_ok (ok := fun f : Nat → Int => risesTo gridN fun i => -f i) _ (by simp [risesTo])
  simp only [risesTo, List.all_eq_true, List.mem_range, decide_eq_true_eq] at hrises
  exact neg_lt_neg_iff.1 (hrises j hj)

theorem lsp2lsf_antitone {x : Int} (hlow : -32768 ≤ x) (hhigh : x < 32767) : lsp2lsf (x + 1) ≤ lsp2lsf x := by
  have hfalls : ((List.range 65535).all fun j => lsp2lsf ((j : Int) - 32767) ≤ lsp2lsf ((j : Int) - 32768)) = true :=
    admitted_ok (ok := fun f : Int → Int =>
      (List.range 65535).all fun j => f ((j : Int) - 32767) ≤ f ((j : Int) - 32768)) _
      (List.all_eq_true.2 fun _ _ => decide_eq_true le_rfl)
  rw [List.all_eq_true] at hfalls
  have hstep := of_decide_eq_true (hfalls (x + 32768).toNat (List.mem_range.2 (by omega)))
  have hupper : ((x + 32768).toNat : Int) - 32767 = x + 1 := by omega
  have hlower : ((x + 32768).toNat : Int) - 32768 = x := by omega
  rwa [hupper, hlower] at hstep

/-! ### A2LSF (R260, R261) -/

theorem nth_sumPoly_readVec (m : Memory) (a : Nat) {i : Nat} (hi : i < 5) :
    nth (tabulate 6 (sumPoly (m.readVec a 11))) (i + 1) =
      m.readI16 (a + (i + 1)) + m.readI16 (a + (10 - i)) - nth (tabulate 6 (sumPoly (m.readVec a 11))) i := by
  simp only [nth_tabulate, if_pos (show i + 1 < 6 by omega), if_pos (show i < 6 by omega), sumPoly, nth_readVec,
    if_pos (show i + 1 < 11 by omega), if_pos (show 10 - i < 11 by omega)]

theorem nth_diffPoly_readVec (m : Memory) (a : Nat) {i : Nat} (hi : i < 5) :
    nth (tabulate 6 (diffPoly (m.readVec a 11))) (i + 1) =
      m.readI16 (a + (i + 1)) - m.readI16 (a + (10 - i)) + nth (tabulate 6 (diffPoly (m.readVec a 11))) i := by
  simp only [nth_tabulate, if_pos (show i + 1 < 6 by omega), if_pos (show i < 6 by omega), diffPoly, nth_readVec,
    if_pos (show i + 1 < 11 by omega), if_pos (show 10 - i < 11 by omega)]

/-- From the start of the search, `10 + GRID_N` rounds reach its end. -/
theorem roots_spec (P Q : List Int) :
    ∃ (onP : Bool) (x y : Int) (j : Nat), Searches P Q onP x y j (roots P Q) ∧
      ((roots P Q).length = 10 ∨ j = gridN) := by
  obtain ⟨onP, x, y, j, hsearch, hend⟩ := rootSearch_spec P Q (10 + gridN) true (cosGrid 0) _ 0 [] .start (by simp)
    (Nat.zero_le _) le_rfl
  exact ⟨onP, x, y, j, hsearch, by rwa [roots, List.length_reverse]⟩

theorem nth_lpcToLsf {a lsp : List Int}
    (h : roots (tabulate 6 (sumPoly a)) (tabulate 6 (diffPoly a)) = lsp) {i : Nat} (hi : i < 10) :
    nth (lpcToLsf a).1 i =
      if lsp.length < 10 then nth (ints Config.lsfMean) i else lsp2lsf (nth lsp i) := by
  simp only [lpcToLsf, h]
  split_ifs with hfew
  · rfl
  · exact nth_map _ _ _ (by omega)

theorem exec_a2lsf {s : State} {a f : Nat} (ha : argIs s 0 a) (hf : argIs s 1 f) (hfita : fits s a 11)
    (hfitf : fits s f 10) (hfa : apart f 10 a 11) :
    exec .a2lsf s = .next { ended s with
      dmem := s.dmem.writeVec f (lpcToLsf (s.dmem.readVec a 11)).1
      res0 := BitVec.ofNat 32 (lpcToLsf (s.dmem.readVec a 11)).2 } := by
  show execA2lsf s = _
  unfold execA2lsf
  simp only [(argIs_spec ha).1, (argIs_spec hf).1]
  have hpair : pairConflict (s.input 0 11) (s.output 1 10) = none := pair_input_output ha hf (.inl hfa)
  rw [runChecked_ok (by simp [checkArg_of_argIs ha, checkArg_of_argIs hf])
    (by simp [input_fits ha hfita, output_fits hf hfitf]) (by simp [hpair]) (by simp)]
  rfl

/-- Settles O13: the roots are those the search ends with, and the vector written is made of them or is the mean
vector. -/
theorem aToLsfResult : Obligations.AtoLsfResult := by
  unfold Obligations.AtoLsfResult
  refine ⟨⟨fun j hj => cosGrid_decreases hj, fun x => lsp2lsf_antitone⟩, fun s a f ha hf hfita hfitf hfa => ?_⟩
  have hframe := sameOutside_writeVec s.dmem f (lpcToLsf (s.dmem.readVec a 11)).1
  rw [lpcToLsf_length] at hframe
  exact ⟨tabulate 6 (sumPoly (s.dmem.readVec a 11)), tabulate 6 (diffPoly (s.dmem.readVec a 11)), _, _,
    ⟨tabulate_length _ _, rfl, fun i hi => nth_sumPoly_readVec s.dmem a hi⟩,
    ⟨tabulate_length _ _, rfl, fun i hi => nth_diffPoly_readVec s.dmem a hi⟩,
    roots_spec _ _, roots_length_le _ _, exec_a2lsf ha hf hfita hfitf hfa,
    wordsAre_writeVec s.dmem f _ 10 _ (lpcToLsf_length _).ge (lpcToLsf_range _) fun i hi => nth_lpcToLsf rfl hi,
    hframe⟩

end Sys2Proof.Machine
end

section
/-! LSF quantisation by split codebooks (43_lsf.md R290 to R295): the nearest entry of a split, and the look-up that
undoes it. -/

namespace Sys2Proof.Machine

/-! ### A command with one input and one output -/

theorem runChecked_inOut {s body : State} {args vals : List (Option CmdError)} {a b n p : Nat} {inPlace : List ArgNo}
    (ha : argIs s 0 a) (hb : argIs s 1 b) (hargs : ∀ c ∈ args, c = none) (hfita : fits s a n) (hfitb : fits s b p)
    (hba : apart b p a n ∨ (inPlace.contains 0 = true ∧ b = a ∧ p = n)) (hvals : ∀ c ∈ vals, c = none) :
    runChecked s args [s.input 0 n, s.output 1 p inPlace] vals body = .next (complete body) := by
  have hpair : pairConflict (s.input 0 n) (s.output 1 p inPlace) = none := pair_input_output ha hb hba
  exact runChecked_ok hargs (by simp [input_fits ha hfita, output_fits hb hfitb]) (by simp [hpair]) hvals

/-- A vector of `n` 16-bit values, once written: its words, and every byte outside it. -/
theorem writeVec_result {l : List Int} {n : Nat} {f : Nat → Int} (m : Memory) (y : Nat) (hlen : l.length = n)
    (hrange : ∀ v ∈ l, -32768 ≤ v ∧ v ≤ 32767) (hentry : ∀ i, i < n → nth l i = f i) :
    wordsAre (m.writeVec y l) y n f ∧ sameOutside m (m.writeVec y l) y n := by
  subst hlen
  exact ⟨wordsAre_writeVec m y l l.length f le_rfl hrange hentry, sameOutside_writeVec m y l⟩

/-! ### The entries three indices name (R295) -/

theorem wordsAre_append {m : Memory} {a : Nat} {k l : List Int}
    (h : wordsAre m a (k.length + l.length) (nth (k ++ l))) :
    wordsAre m a k.length (nth k) ∧ wordsAre m (a + k.length) l.length (nth l) := by
  constructor
  · intro i hi
    rw [h i (by omega), nth, nth, List.getD_append _ _ _ _ hi]
  · intro i hi
    rw [Nat.add_assoc, h (k.length + i) (by omega), nth, nth, List.getD_append_right _ _ _ _ (by omega),
      Nat.add_sub_cancel_left]

section
variable {i0 i1 i2 : Nat} (h0 : i0 < 64) (h1 : i1 < 128) (h2 : i2 < 128)
include h0 h1 h2

theorem indicesInRange_of_lt : indicesInRange [(i0 : Int), (i1 : Int), (i2 : Int)] = true := by
  rw [indicesInRange, List.all_eq_true]
  intro i hi
  have hi : i < 3 := List.mem_range.1 hi
  rw [decide_eq_true_eq]
  interval_cases i
  · show 0 ≤ (i0 : Int) ∧ (i0 : Int) < 64
    omega
  · show 0 ≤ (i1 : Int) ∧ (i1 : Int) < 128
    omega
  · show 0 ≤ (i2 : Int) ∧ (i2 : Int) < 128
    omega

theorem lsfDequant_length : (lsfDequant [(i0 : Int), (i1 : Int), (i2 : Int)]).length = 10 := by
  simp [lsfDequant, nth, lsfCb1_entry_length i0 h0, lsfCb2_entry_length i1 h1, lsfCb3_entry_length i2 h2]

/-- A written LSF set, split by split. -/
theorem wordsAre_lsfDequant {m : Memory} {q : Nat}
    (h : wordsAre m q 10 (nth (lsfDequant [(i0 : Int), (i1 : Int), (i2 : Int)]))) :
    wordsAre m q 3 (nth (cbEntry lsfCb1 i0)) ∧ wordsAre m (q + 3) 3 (nth (cbEntry lsfCb2 i1)) ∧
      wordsAre m (q + 6) 4 (nth (cbEntry lsfCb3 i2)) := by
  have hlen1 := lsfCb1_entry_length i0 h0
  have hlen2 := lsfCb2_entry_length i1 h1
  have hlen3 := lsfCb3_entry_length i2 h2
  have hall : wordsAre m q ((cbEntry lsfCb1 i0 ++ cbEntry lsfCb2 i1).length + (cbEntry lsfCb3 i2).length)
      (nth (cbEntry lsfCb1 i0 ++ cbEntry lsfCb2 i1 ++ cbEntry lsfCb3 i2)) := by
    rw [List.length_append, hlen1, hlen2, hlen3]
    exact h
  obtain ⟨h12, hthird⟩ := wordsAre_append hall
  rw [List.length_append] at h12
  obtain ⟨hfirst, hsecond⟩ := wordsAre_append h12
  rw [List.length_append] at hthird
  rw [hlen1, hlen2, hlen3] at hthird
  rw [hlen1] at hfirst
  rw [hlen1, hlen2] at hsecond
  exact ⟨hfirst, hsecond, hthird⟩

end

theorem lsfDequant_range (ix : List Int) : ∀ v ∈ lsfDequant ix, -32768 ≤ v ∧ v ≤ 32767 := by
  intro v hv
  rw [lsfDequant, List.mem_append, List.mem_append] at hv
  obtain (hv | hv) | hv := hv
  · exact cbEntry_range lsfCb1 _ (by simp) v hv
  · exact cbEntry_range lsfCb2 _ (by simp) v hv
  · exact cbEntry_range lsfCb3 _ (by simp) v hv

/-! ### The nearest entry (R290) -/

/-- The squared error of entry `c` against the words at `a`, as R290 writes it. -/
def errorAt (m : Memory) (a len : Nat) (cb : List (List Int)) (c : Nat) : Int :=
  total len fun i => (m.readI16 (a + i) - nth (cbEntry cb c) i) ^ 2

theorem splitError_readVec (m : Memory) (a : Nat) {len c : Nat} {cb : List (List Int)}
    (hlen : (cbEntry cb c).length = len) :
    splitError (m.readVec a len) (cbEntry cb c) = errorAt m a len cb c := by
  have hzip : (List.zipWith (fun x y => (x - y) * (x - y)) (m.readVec a len) (cbEntry cb c)).length = len := by
    simp [hlen]
  rw [splitError, sum_eq_total, hzip]
  refine total_congr fun i hi => ?_
  rw [nth_zipWith _ _ _ _ (by simpa using hi) (by omega), nth_readVec, if_pos hi, sq]

theorem nearest_readVec (m : Memory) (a : Nat) {len size best : Nat} {cb : List (List Int)} (hsize : cb.length = size)
    (hpos : 0 < size) (hlen : ∀ c, c < size → (cbEntry cb c).length = len)
    (hbest : nearest cb (m.readVec a len) = best) :
    best < size ∧ (∀ c, c < size → errorAt m a len cb best ≤ errorAt m a len cb c) ∧
      ∀ c, c < best → errorAt m a len cb best < errorAt m a len cb c := by
  subst hsize
  obtain ⟨hlt, hleast, hfirst⟩ := argMin_spec (fun c => splitError (m.readVec a len) (cbEntry cb c)) cb.length hpos
  rw [← nearest, hbest] at hlt hleast hfirst
  refine ⟨hlt, fun c hc => ?_, fun c hc => ?_⟩
  · simpa only [splitError_readVec m a (hlen _ hlt), splitError_readVec m a (hlen _ hc)] using hleast c hc
  · simpa only [splitError_readVec m a (hlen _ hlt), splitError_readVec m a (hlen _ (hc.trans hlt))] using hfirst c hc

/-- The three indices of R290 are each in their table. -/
theorem lsfQuant_indices (f : List Int) :
    ∃ i0 i1 i2 : Nat, i0 < 64 ∧ i1 < 128 ∧ i2 < 128 ∧ nearest lsfCb1 (f.take 3) = i0 ∧
      nearest lsfCb2 ((f.drop 3).take 3) = i1 ∧ nearest lsfCb3 ((f.drop 6).take 4) = i2 ∧
      (lsfQuant f).2 = [(i0 : Int), (i1 : Int), (i2 : Int)] := by
  refine ⟨_, _, _, ?_, ?_, ?_, rfl, rfl, rfl, rfl⟩
  · exact lsfCb1_length ▸ nearest_lt lsfCb1 _ (by simp [lsfCb1_length])
  · exact lsfCb2_length ▸ nearest_lt lsfCb2 _ (by simp [lsfCb2_length])
  · exact lsfCb3_length ▸ nearest_lt lsfCb3 _ (by simp [lsfCb3_length])

/-- Looking up the indices of a quantised set gives the set: both sides are the entries at those indices. -/
theorem lsfDequant_lsfQuant (f : List Int) : lsfDequant (lsfQuant f).2 = (lsfQuant f).1 := rfl

/-! ### LSF_QUANT -/

theorem exec_lsfQuant {s : State} {f q ix : Nat} (hf : argIs s 0 f) (hq : argIs s 1 q) (hix : argIs s 2 ix)
    (hfitf : fits s f 10) (hfitq : fits s q 10) (hfitix : fits s ix 3) (hqf : apart q 10 f 10 ∨ q = f)
    (hixf : apart ix 3 f 10) (hixq : apart ix 3 q 10) :
    exec .lsfQuant s = .next { ended s with
      dmem := (s.dmem.writeVec q (lsfQuant (s.dmem.readVec f 10)).1).writeVec ix
        (lsfQuant (s.dmem.readVec f 10)).2 } := by
  show execLsfQuant s = _
  unfold execLsfQuant
  simp only [(argIs_spec hf).1, (argIs_spec hq).1, (argIs_spec hix).1]
  have hpairq : pairConflict (s.input 0 10) (s.output 1 10 [0]) = none :=
    pair_input_output hf hq (hqf.imp_right fun h => ⟨rfl, h, rfl⟩)
  have hpairix : pairConflict (s.input 0 10) (s.output 2 3) = none := pair_input_output hf hix (.inl hixf)
  have hpairs : pairConflict (s.output 1 10 [0]) (s.output 2 3) = none :=
    pair_output_output hix hq (apart_symm hixq)
  rw [runChecked_ok (by simp [checkArg_of_argIs hf, checkArg_of_argIs hq, checkArg_of_argIs hix])
    (by simp [input_fits hf hfitf, output_fits hq hfitq, output_fits hix hfitix])
    (by simp [hpairq, hpairix, hpairs]) (by simp)]
  rfl

theorem take_drop_readVec (m : Memory) (a : Nat) {n k j : Nat} (h : k + j ≤ n) :
    ((m.readVec a n).drop k).take j = m.readVec (a + k) j := by
  refine List.ext_getElem (by simp; omega) fun i _ _ => ?_
  rw [List.getElem_take, List.getElem_drop, getElem_readVec, getElem_readVec, Nat.add_assoc]

/-- Settles O14: the indices are the nearest entries of the words at the start, and the entries written are those the
indices name. -/
theorem lsfQuantResult : Obligations.LsfQuantResult := by
  unfold Obligations.LsfQuantResult
  intro s f q ix hf hq hix hfitf hfitq hfitix hqf hixf hixq
  obtain ⟨i0, i1, i2, h0, h1, h2, hnear0, hnear1, hnear2, hidx⟩ := lsfQuant_indices (s.dmem.readVec f 10)
  rw [← List.drop_zero (l := s.dmem.readVec f 10), take_drop_readVec _ _ (by omega)] at hnear0
  rw [take_drop_readVec _ _ (by omega)] at hnear1 hnear2
  obtain ⟨-, hleast0, hfirst0⟩ := nearest_readVec _ _ lsfCb1_length (by norm_num) lsfCb1_entry_length hnear0
  obtain ⟨-, hleast1, hfirst1⟩ := nearest_readVec _ _ lsfCb2_length (by norm_num) lsfCb2_entry_length hnear1
  obtain ⟨-, hleast2, hfirst2⟩ := nearest_readVec _ _ lsfCb3_length (by norm_num) lsfCb3_entry_length hnear2
  have hexec := exec_lsfQuant hf hq hix hfitf hfitq hfitix hqf hixf hixq
  rw [← lsfDequant_lsfQuant, hidx] at hexec
  have hlen := lsfDequant_length h0 h1 h2
  obtain ⟨hset, -⟩ := writeVec_result s.dmem q hlen (lsfDequant_range _) fun i _ => rfl
  obtain ⟨hset0, hset1, hset2⟩ := wordsAre_lsfDequant h0 h1 h2
    (wordsAre_writeVec_apart ix [(i0 : Int), (i1 : Int), (i2 : Int)] hset (apart_symm hixq))
  refine ⟨fun b => [i0, i1, i2].getD b 0, _, hexec, ?_, ?_, ?_⟩
  · intro b lo len size cb hsplit err
    simp only [List.mem_cons, Prod.mk.injEq, List.not_mem_nil, or_false] at hsplit
    obtain ⟨rfl, rfl, rfl, rfl, rfl⟩ | ⟨rfl, rfl, rfl, rfl, rfl⟩ | ⟨rfl, rfl, rfl, rfl, rfl⟩ := hsplit
    · exact ⟨h0, hleast0, hfirst0, hset0⟩
    · exact ⟨h1, hleast1, hfirst1, hset1⟩
    · exact ⟨h2, hleast2, hfirst2, hset2⟩
  · refine wordsAre_writeVec _ ix _ 3 _ le_rfl ?_ fun i hi => ?_
    · simp only [List.forall_mem_cons]
      exact ⟨by omega, by omega, by omega, by simp⟩
    · interval_cases i <;> rfl
  · have hframe := sameOutside2_writeVec s.dmem q (lsfDequant [(i0 : Int), (i1 : Int), (i2 : Int)]) ix
      [(i0 : Int), (i1 : Int), (i2 : Int)]
    rwa [hlen] at hframe

/-! ### LSF_DEQUANT -/

theorem exec_lsfDequant {s : State} {ix q : Nat} (hix : argIs s 0 ix) (hq : argIs s 1 q) (hfitix : fits s ix 3)
    (hfitq : fits s q 10) (hqix : apart q 10 ix 3) (hrange : indicesInRange (s.dmem.readVec ix 3) = true) :
    exec .lsfDequant s = .next { ended s with
      dmem := s.dmem.writeVec q (lsfDequant (s.dmem.readVec ix 3)) } := by
  show execLsfDequant s = _
  unfold execLsfDequant
  simp only [(argIs_spec hix).1, (argIs_spec hq).1]
  rw [runChecked_inOut hix hq (by simp [checkArg_of_argIs hix, checkArg_of_argIs hq]) hfitix hfitq (.inl hqix)
    (by simp [checkVal, hrange])]
  rfl

/-- Settles O15: the three words read are indices in their tables, whose entries are written one after the other. -/
theorem lsfDequantResults : Obligations.LsfDequantResults := by
  unfold Obligations.LsfDequantResults
  constructor
  · intro s ix q hix hq hfitix hfitq hqix i0 i1 i2 h0 h1 h2 hread0 hread1 hread2
    have hindices : s.dmem.readVec ix 3 = [(i0 : Int), (i1 : Int), (i2 : Int)] := by
      rw [← hread0, ← hread1, ← hread2]
      rfl
    have hexec := exec_lsfDequant hix hq hfitix hfitq hqix (hindices ▸ indicesInRange_of_lt h0 h1 h2)
    rw [hindices] at hexec
    obtain ⟨hset, hframe⟩ := writeVec_result s.dmem q (lsfDequant_length h0 h1 h2) (lsfDequant_range _) fun i _ => rfl
    obtain ⟨hset0, hset1, hset2⟩ := wordsAre_lsfDequant h0 h1 h2 hset
    exact ⟨_, hexec, hset0, hset1, hset2, hframe⟩
  · intro f
    obtain ⟨i0, i1, i2, h0, h1, h2, -, -, -, hidx⟩ := lsfQuant_indices f
    exact ⟨hidx ▸ indicesInRange_of_lt h0 h1 h2, lsfDequant_lsfQuant f⟩

end Sys2Proof.Machine
end

section
/-! The stability pass (43_lsf.md R300): what treating one coefficient does to the working copy, and the two passes over
the sets as one run over the coefficients. -/

namespace Sys2Proof.Machine

/-! ### One coefficient -/

theorem nth_set {l : List Int} {p : Nat} (h : p < l.length) (v : Int) (i : Nat) :
    nth (l.set p v) i = if i = p then v else nth l i := by
  simp only [nth, List.getD_eq_getElem?_getD, List.getElem?_set, h, eq_comm (a := p)]
  split_ifs <;> rfl

/-- A coefficient kept to the lower bound. -/
def clampedLow (P : StabParams) (x : Int) : Int := if x < P.lo then P.lo else x

/-- A coefficient kept to both bounds, the lower one first. -/
def clamped (P : StabParams) (x : Int) : Int := if clampedLow P x > P.hi then P.hi else clampedLow P x

theorem stabClamp_spec (P : StabParams) {p : Nat} {w : Stab} (hp : p < w.1.length) :
    (∀ i, nth (stabClamp P p w).1 i = if i = p then clamped P (nth w.1 p) else nth w.1 i) ∧
      (stabClamp P p w).2 =
        (w.2 || decide (nth w.1 p < P.lo) || decide (clampedLow P (nth w.1 p) > P.hi)) := by
  unfold stabClamp clamped clampedLow
  by_cases hlow : nth w.1 p < P.lo
  · by_cases hhigh : P.lo > P.hi
    · simp +contextual [hlow, hhigh, nth_set, hp]
    · simp [hlow, hhigh, nth_set, hp]
  · by_cases hhigh : nth w.1 p > P.hi
    · simp [hlow, hhigh, nth_set, hp]
    · simp +contextual [hlow, hhigh]

/-- Coefficient `m` of a set is separated from the next one `y`: it has one, and the two are close. -/
abbrev TooClose (P : StabParams) (m : Nat) (x y : Int) : Prop := m < 9 ∧ y - x < P.eps

/-- Coefficient `m` after the separation from the next one: the lower of the two moved down, if they are close. -/
def spreadLow (P : StabParams) (m : Nat) (x y : Int) : Int :=
  if TooClose P m x y then (if y < x then sat16 (y - P.eps2) else sat16 (x - P.eps2)) else x

/-- The next coefficient after it: the upper of the two moved up. -/
def spreadHigh (P : StabParams) (m : Nat) (x y : Int) : Int :=
  if TooClose P m x y then (if y < x then sat16 (x + P.eps2) else sat16 (y + P.eps2)) else y

/-- The separation at place `p` of the working copy, which holds coefficient `m` of its set: the last one has no next. -/
def stabSeparate (P : StabParams) (m p : Nat) (w : Stab) : Stab := if m < 9 then stabSpread P p w else w

theorem stabSeparate_length (P : StabParams) (m p : Nat) (w : Stab) :
    (stabSeparate P m p w).1.length = w.1.length := by
  unfold stabSeparate
  split_ifs
  exacts [stabSpread_length P p w, rfl]

/-- An entry where nothing has moved. -/
theorem nth_unmoved (l : List Int) (p i : Nat) :
    nth l i = if i = p then nth l p else if i = p + 1 then nth l (p + 1) else nth l i := by
  split_ifs with h h
  exacts [h ▸ rfl, h ▸ rfl, rfl]

theorem stabSeparate_spec (P : StabParams) {m p : Nat} {w : Stab} (hp : p < w.1.length)
    (hnext : m < 9 → p + 1 < w.1.length) :
    (∀ i, nth (stabSeparate P m p w).1 i =
      if i = p then spreadLow P m (nth w.1 p) (nth w.1 (p + 1))
      else if i = p + 1 then spreadHigh P m (nth w.1 p) (nth w.1 (p + 1)) else nth w.1 i) ∧
      (stabSeparate P m p w).2 = (w.2 || decide (TooClose P m (nth w.1 p) (nth w.1 (p + 1)))) := by
  unfold stabSeparate spreadLow spreadHigh TooClose
  by_cases hm : m < 9
  · have hp' := hnext hm
    unfold stabSpread
    by_cases hclose : nth w.1 (p + 1) - nth w.1 p < P.eps
    · by_cases hcrossed : nth w.1 (p + 1) < nth w.1 p
      · simp [hm, hclose, hcrossed, nth_set, hp, hp']
      · simp only [hm, hclose, hcrossed, if_true, if_false, and_self]
        refine ⟨fun i => ?_, by simp⟩
        rw [nth_set (by simpa using hp'), nth_set hp]
        by_cases hi : i = p
        · simp [hi]
        · simp [hi]
    · simpa [hm, hclose] using nth_unmoved w.1 p
  · simpa [hm] using nth_unmoved w.1 p

/-- Coefficient `m` of set `set` treated: separated from the next one, then clamped. -/
def stabTreat (P : StabParams) (set m : Nat) (w : Stab) : Stab :=
  stabClamp P (10 * set + m) (stabSeparate P m (10 * set + m) w)

theorem stabTreat_length (P : StabParams) (set m : Nat) (w : Stab) :
    (stabTreat P set m w).1.length = w.1.length :=
  (stabClamp_length _ _ _).trans (stabSeparate_length _ _ _ _)

theorem stabTreat_spec (P : StabParams) {set m p : Nat} {w : Stab} {x y : Int} (hplace : 10 * set + m = p)
    (hp : p < w.1.length) (hnext : m < 9 → p + 1 < w.1.length) (hx : nth w.1 p = x) (hy : nth w.1 (p + 1) = y) :
    (∀ i, nth (stabTreat P set m w).1 i =
      if i = p then clamped P (spreadLow P m x y) else if i = p + 1 then spreadHigh P m x y else nth w.1 i) ∧
      (stabTreat P set m w).2 = (w.2 || decide (TooClose P m x y) || decide (spreadLow P m x y < P.lo) ||
        decide (clampedLow P (spreadLow P m x y) > P.hi)) := by
  subst hplace hx hy
  obtain ⟨hsep, hsepflag⟩ := stabSeparate_spec P hp hnext
  obtain ⟨hclamp, hclampflag⟩ := stabClamp_spec P (w := stabSeparate P m (10 * set + m) w)
    ((stabSeparate_length P m _ w).symm ▸ hp)
  rw [hsep, if_pos rfl] at hclampflag
  rw [hsepflag] at hclampflag
  refine ⟨fun i => ?_, hclampflag⟩
  rw [stabTreat, hclamp, hsep, hsep, if_pos rfl]
  by_cases hi : i = 10 * set + m
  · rw [if_pos hi, if_pos hi]
  · rw [if_neg hi, if_neg hi, if_neg hi]

/-! ### Values of 16 bits -/

/-- The working copy holds 16-bit values. -/
def Stab.InRange (w : Stab) : Prop := ∀ v ∈ w.1, -32768 ≤ v ∧ v ≤ 32767

theorem range_set {l : List Int} (h : ∀ v ∈ l, -32768 ≤ v ∧ v ≤ 32767) (p : Nat) {x : Int}
    (hx : -32768 ≤ x ∧ x ≤ 32767) : ∀ v ∈ l.set p x, -32768 ≤ v ∧ v ≤ 32767 := by
  intro v hv
  obtain hv | rfl := List.mem_or_eq_of_mem_set hv
  exacts [h v hv, hx]

theorem stabSeparate_inRange (P : StabParams) (m p : Nat) {w : Stab} (h : w.InRange) :
    (stabSeparate P m p w).InRange := by
  unfold stabSeparate stabSpread
  dsimp only
  split_ifs
  · exact range_set (range_set h _ (sat16_range _)) _ (sat16_range _)
  · exact range_set (range_set h _ (sat16_range _)) _ (sat16_range _)
  · exact h
  · exact h

theorem stabClamp_inRange {P : StabParams} (hlo : -32768 ≤ P.lo ∧ P.lo ≤ 32767) (hhi : -32768 ≤ P.hi ∧ P.hi ≤ 32767)
    (p : Nat) {w : Stab} (h : w.InRange) : (stabClamp P p w).InRange := by
  have hlow : Stab.InRange (if nth w.1 p < P.lo then (w.1.set p P.lo, true) else w) := by
    split_ifs
    exacts [range_set h p hlo, h]
  unfold stabClamp
  dsimp only
  generalize (if nth w.1 p < P.lo then (w.1.set p P.lo, true) else w) = w' at hlow ⊢
  split_ifs
  exacts [range_set hlow p hhi, hlow]

/-! ### The run over the coefficients -/

/-- The coefficients of a set that are treated: the last one is clamped only if LSF_CLAMP_LAST is set. -/
def treatedLen (P : StabParams) : Nat := if P.clampLast then 10 else 9

/-- Coefficient `t` of the run over both passes: its set within the pass, and its number within the set. -/
def stabTreatAt (P : StabParams) (ns : Nat) (w : Stab) (t : Nat) : Stab :=
  stabTreat P (t % (treatedLen P * ns) / treatedLen P) (t % treatedLen P) w

/-- The working copy and its flag after `t` coefficients of the run. -/
def stabAfter (P : StabParams) (ns : Nat) (v : List Int) (t : Nat) : Stab :=
  (List.range t).foldl (stabTreatAt P ns) (v, false)

theorem treatedLen_pos (P : StabParams) : 0 < treatedLen P := by
  unfold treatedLen
  split_ifs <;> omega

theorem stabAfter_succ (P : StabParams) (ns : Nat) (v : List Int) (t : Nat) :
    stabAfter P ns v (t + 1) = stabTreatAt P ns (stabAfter P ns v t) t := by
  rw [stabAfter, List.range_succ, List.foldl_append]
  rfl

theorem stabAfter_length (P : StabParams) (ns : Nat) (v : List Int) (t : Nat) :
    (stabAfter P ns v t).1.length = v.length :=
  foldl_stab_length (fun w _ => stabTreat_length P _ _ w) _ _

theorem stabAfter_inRange {P : StabParams} (hlo : -32768 ≤ P.lo ∧ P.lo ≤ 32767) (hhi : -32768 ≤ P.hi ∧ P.hi ≤ 32767)
    (ns : Nat) {v : List Int} (hv : ∀ x ∈ v, -32768 ≤ x ∧ x ≤ 32767) (t : Nat) : (stabAfter P ns v t).InRange := by
  induction t with
  | zero => exact hv
  | succ t ih =>
    rw [stabAfter_succ]
    exact stabClamp_inRange hlo hhi _ (stabSeparate_inRange P _ _ ih)

/-- A run over `m` blocks of `n` moves is one run over `n * m` moves. -/
theorem foldl_range_blocks {α : Type} (g : Nat → Nat → α → α) {n : Nat} (hn : 0 < n) (m : Nat) (w : α) :
    (List.range m).foldl (fun w j => (List.range n).foldl (fun w i => g j i w) w) w =
      (List.range (n * m)).foldl (fun w t => g (t / n) (t % n) w) w := by
  induction m with
  | zero => rfl
  | succ m ih =>
    rw [List.range_succ, List.foldl_append, ih, List.foldl_cons, List.foldl_nil, Nat.mul_succ, List.range_add,
      List.foldl_append, List.foldl_map]
    refine List.foldl_ext _ _ _ fun w i hi => ?_
    have hi : i < n := List.mem_range.1 hi
    rw [Nat.mul_add_div hn, Nat.div_eq_of_lt hi, Nat.mul_add_mod, Nat.mod_eq_of_lt hi, Nat.add_zero]

theorem stabSet_eq_foldl (P : StabParams) (w : Stab) (set : Nat) :
    stabSet P w set = (List.range (treatedLen P)).foldl (fun w m => stabTreat P set m w) w := by
  have hsweep : (List.range 9).foldl (fun w m => stabClamp P (10 * set + m) (stabSpread P (10 * set + m) w)) w =
      (List.range 9).foldl (fun w m => stabTreat P set m w) w :=
    List.foldl_ext _ _ _ fun w m hm => by rw [stabTreat, stabSeparate, if_pos (List.mem_range.1 hm)]
  unfold stabSet treatedLen
  dsimp only
  rw [hsweep]
  split_ifs
  · rw [List.range_succ, List.foldl_append]
    rfl
  · rfl

theorem stabPass_eq_foldl (P : StabParams) (ns : Nat) (w : Stab) :
    stabPass P ns w = (List.range (treatedLen P * ns)).foldl
      (fun w t => stabTreat P (t / treatedLen P) (t % treatedLen P) w) w := by
  rw [← foldl_range_blocks (stabTreat P) (treatedLen_pos P)]
  exact List.foldl_ext _ _ _ fun w set _ => stabSet_eq_foldl P w set

/-- Both passes are one run over the coefficients. -/
theorem stabilise_eq_stabAfter (P : StabParams) {ns : Nat} (hns : 0 < ns) (v : List Int) :
    stabilise P ns v = stabAfter P ns v (2 * (treatedLen P * ns)) := by
  have hpasses := foldl_range_blocks (fun _ t => stabTreat P (t / treatedLen P) (t % treatedLen P))
    (Nat.mul_pos (treatedLen_pos P) hns) 2 (v, false)
  rw [Nat.mul_comm _ 2] at hpasses
  simp only [← stabPass_eq_foldl, Nat.mod_mul_right_mod] at hpasses
  exact hpasses

theorem stabAfter_step {P : StabParams} {ns : Nat} {v : List Int} (hns : 0 < ns) (hv : v.length = 10 * ns) (t : Nat)
    {p : Nat} (hplace : 10 * (t % (treatedLen P * ns) / treatedLen P) + t % treatedLen P = p) {x y : Int}
    (hx : nth (stabAfter P ns v t).1 p = x) (hy : nth (stabAfter P ns v t).1 (p + 1) = y) :
    (∀ i, nth (stabAfter P ns v (t + 1)).1 i =
      if i = p then clamped P (spreadLow P (t % treatedLen P) x y)
      else if i = p + 1 then spreadHigh P (t % treatedLen P) x y else nth (stabAfter P ns v t).1 i) ∧
      (stabAfter P ns v (t + 1)).2 = ((stabAfter P ns v t).2 || decide (TooClose P (t % treatedLen P) x y) ||
        decide (spreadLow P (t % treatedLen P) x y < P.lo) ||
        decide (clampedLow P (spreadLow P (t % treatedLen P) x y) > P.hi)) := by
  have hset : t % (treatedLen P * ns) / treatedLen P < ns :=
    Nat.div_lt_of_lt_mul (Nat.mod_lt _ (Nat.mul_pos (treatedLen_pos P) hns))
  have hcoef : t % treatedLen P < 10 :=
    (Nat.mod_lt _ (treatedLen_pos P)).trans_le (by unfold treatedLen; split_ifs <;> omega)
  have hlen : (stabAfter P ns v t).1.length = 10 * ns := (stabAfter_length P ns v t).trans hv
  rw [stabAfter_succ]
  exact stabTreat_spec P hplace (by omega) (by omega) hx hy

/-! ### LSF_STAB -/

theorem exec_lsfStab {s : State} {f o ns : Nat} (hf : argIs s 0 f) (ho : argIs s 1 o) (hns : argIs s 2 ns)
    (hsets : ns = 1 ∨ ns = 2) (hfitf : fits s f (10 * ns)) (hfito : fits s o (10 * ns))
    (hof : apart o (10 * ns) f (10 * ns) ∨ o = f) {w : Stab}
    (hw : stabilise (stabParams s.params) ns (s.dmem.readVec f (10 * ns)) = w) :
    exec .lsfStab s = .next { ended s with dmem := s.dmem.writeVec o w.1, res0 := if w.2 then 1 else 0 } := by
  show execLsfStab s = _
  unfold execLsfStab
  simp only [(argIs_spec hf).1, (argIs_spec ho).1, (argIs_spec hns).1, hw]
  have hcount : s.checkArg 2 (ns == 1 || ns == 2) = none :=
    (checkArg_eq_none s 2 _).2 ⟨(argIs_spec hns).2, by simpa using hsets⟩
  rw [runChecked_inOut hf ho (by simp [checkArg_of_argIs hf, checkArg_of_argIs ho, hcount]) hfitf hfito
    (hof.imp_right fun h => ⟨rfl, h, rfl⟩) (by simp)]
  cases w.2 <;> rfl

/-- Settles O16: the passes run over the coefficients one by one, on a working copy of 16-bit values that is written at
the end. -/
theorem lsfStabResult : Obligations.LsfStabResult := by
  unfold Obligations.LsfStabResult
  intro s f o ns hf ho hns hsets hfitf hfito hof eps eps2 lo hi len
  have hpos : 0 < ns := by omega
  have hlen : (s.dmem.readVec f (10 * ns)).length = 10 * ns := readVec_length _ _ _
  have hwhole := stabilise_eq_stabAfter (stabParams s.params) hpos (s.dmem.readVec f (10 * ns))
  obtain ⟨hwords, hframe⟩ := writeVec_result s.dmem o ((stabAfter_length _ _ _ _).trans hlen)
    (stabAfter_inRange (P := stabParams s.params) (toInt16_range _) (toInt16_range _) ns (readVec_range s.dmem f _)
      (2 * (len * ns))) fun i _ => rfl
  refine ⟨fun t => nth (stabAfter (stabParams s.params) ns (s.dmem.readVec f (10 * ns)) t).1,
    fun t => (stabAfter (stabParams s.params) ns (s.dmem.readVec f (10 * ns)) t).2, _, fun i hi => ?_, rfl,
    fun t _ => ?_, exec_lsfStab hf ho hns hsets hfitf hfito hof hwhole, hwords, hframe⟩
  · exact (nth_readVec _ _ _ _).trans (if_pos hi)
  · obtain ⟨hentries, hflag⟩ := stabAfter_step (P := stabParams s.params) hpos hlen t rfl rfl rfl
    exact ⟨fun i _ => hentries i, hflag⟩

end Sys2Proof.Machine
end

section
/-! The coefficients of a sub-frame (43_lsf.md R310, 42_lpc.md R270, 41_filters.md R204): the blend of two LSF sets, its
prediction coefficients, and their bandwidth expansion. -/

namespace Sys2Proof.Machine

/-! ### LSF_INTERP (R310) -/

theorem exec_lsfInterp {s : State} {fa fb o : Nat} (ha : argIs s 0 fa) (hb : argIs s 1 fb) (ho : argIs s 2 o)
    (hweight : 0 ≤ arg16 s 3 ∧ arg16 s 3 ≤ 16384) (hfita : fits s fa 10) (hfitb : fits s fb 10) (hfito : fits s o 10)
    (hoa : apart o 10 fa 10 ∨ o = fa) (hob : apart o 10 fb 10 ∨ o = fb) :
    exec .lsfInterp s = .next { ended s with
      dmem := s.dmem.writeVec o (lsfBlend (arg16 s 3) (s.dmem.readVec fa 10) (s.dmem.readVec fb 10)) } := by
  show execLsfInterp s = _
  unfold execLsfInterp
  simp only [(argIs_spec ha).1, (argIs_spec hb).1, (argIs_spec ho).1, argI16_eq, if_pos hweight]
  have hpaira : pairConflict (s.input 0 10) (s.output 2 10 [0, 1]) = none :=
    pair_input_output ha ho (hoa.imp_right fun h => ⟨rfl, h, rfl⟩)
  have hpairb : pairConflict (s.input 1 10) (s.output 2 10 [0, 1]) = none :=
    pair_input_output hb ho (hob.imp_right fun h => ⟨rfl, h, rfl⟩)
  rw [runChecked_ok (by simp [checkArg_of_argIs ha, checkArg_of_argIs hb, checkArg_of_argIs ho])
    (by simp [input_fits ha hfita, input_fits hb hfitb, output_fits ho hfito])
    (by simp [pair_input_input, hpaira, hpairb]) (by simp)]
  rfl

theorem nth_lsfBlend_readVec (w : Int) (m : Memory) (fa fb : Nat) {i : Nat} (hi : i < 10) :
    nth (lsfBlend w (m.readVec fa 10) (m.readVec fb 10)) i =
      sat16 (rshr (w * m.readI16 (fa + i) + (16384 - w) * m.readI16 (fb + i)) 14) := by
  rw [lsfBlend, nth_tabulate, if_pos hi, nth_readVec, if_pos hi, nth_readVec, if_pos hi]

/-! ### LSF2A (R270) -/

theorem exec_lsf2a {s : State} {f a : Nat} (hf : argIs s 0 f) (ha : argIs s 1 a) (hfitf : fits s f 10)
    (hfita : fits s a 11) (haf : apart a 11 f 10) :
    exec .lsf2a s = .next { ended s with dmem := s.dmem.writeVec a (lsf2aFn (s.dmem.readVec f 10)) } := by
  show execLsf2a s = _
  unfold execLsf2a
  simp only [(argIs_spec hf).1, (argIs_spec ha).1]
  rw [runChecked_inOut hf ha (by simp [checkArg_of_argIs hf, checkArg_of_argIs ha]) hfitf hfita (.inl haf) (by simp)]
  rfl

theorem nth_lsf2aFn (f : List Int) (i : Nat) :
    nth (lsf2aFn f) i = if i = 0 then 4096 else nth (ints (Config.lsf2aRaw f)) (i - 1) := by
  cases i <;> rfl

/-! ### BWEXP (R204) -/

theorem exec_bwexp {s : State} (table : ChirpSel) {a b : Nat} (ha : argIs s 0 a) (hb : argIs s 1 b)
    (hfita : fits s a 11) (hfitb : fits s b 11) (hba : apart b 11 a 11 ∨ b = a) :
    exec (.bwexp table) s = .next { ended s with
      dmem := s.dmem.writeVec b (expand (chirp table) (s.dmem.readVec a 11)) } := by
  show execBwexp table s = _
  unfold execBwexp
  simp only [(argIs_spec ha).1, (argIs_spec hb).1]
  rw [runChecked_inOut ha hb (by simp [checkArg_of_argIs ha, checkArg_of_argIs hb]) hfita hfitb
    (hba.imp_right fun h => ⟨rfl, h, rfl⟩) (by simp)]
  rfl

theorem nth_expand_readVec (t : List Int) (m : Memory) (a : Nat) {i : Nat} (hi : i < 11) :
    nth (expand t (m.readVec a 11)) i = sat16 (rshr (m.readI16 (a + i) * nth t i) 15) := by
  rw [expand, nth_tabulate, if_pos hi, nth_readVec, if_pos hi]

/-- Settles O17: each command writes one vector, computed of the memory at the start. -/
theorem subframeCoefficientResults : Obligations.SubframeCoefficientResults := by
  unfold Obligations.SubframeCoefficientResults
  refine ⟨?_, ?_, ?_⟩
  · intro s fa fb o ha hb ho hlow hhigh hfita hfitb hfito hoa hob
    exact ⟨_, exec_lsfInterp ha hb ho ⟨hlow, hhigh⟩ hfita hfitb hfito hoa hob,
      writeVec_sat16 s.dmem o (lsfBlend_length _ _ _) fun i hi => nth_lsfBlend_readVec _ s.dmem fa fb hi⟩
  · intro s f a hf ha hfitf hfita haf
    exact ⟨_, exec_lsf2a hf ha hfitf hfita haf,
      writeVec_result s.dmem a (lsf2aFn_length _) (lsf2aFn_range _) fun i _ => nth_lsf2aFn _ i⟩
  · intro s a b ha hb hfita hfitb hba
    have hresult (table : ChirpSel) : ∃ m, exec (.bwexp table) s = .next { ended s with dmem := m } ∧
        wordsAre m b 11 (fun i => sat16 (rshr (s.dmem.readI16 (a + i) * nth (chirp table) i) 15)) ∧
        sameOutside s.dmem m b 11 :=
      ⟨_, exec_bwexp table ha hb hfita hfitb hba,
        writeVec_sat16 s.dmem b (expand_length _ _) fun i hi => nth_expand_readVec _ s.dmem a hi⟩
    exact ⟨hresult .syn, hresult .wgt⟩

end Sys2Proof.Machine
end

section
/-! The spectral pipelines (44_spectral_pipelines.md R330 to R340): the fields of an analysis as blocks, one for each
LSF set or sub-frame, the commands that write them, and what the decoder rebuilds from the encoder's indices. -/

namespace Sys2Proof.Machine

/-! ### LSF sets of a frame -/

/-- A frame has one or two LSF sets (44_spectral_pipelines.md R332). -/
theorem nLsfSet_range {p : Params} (hp : ParamsOk p) (m : Mode) :
    1 ≤ (p.frame m).nLsfSet ∧ (p.frame m).nLsfSet ≤ 2 := by
  obtain ⟨hlow, hmono, hhigh⟩ := hp.nLsfSet
  cases m with
  | a => exact ⟨hlow, hmono.trans hhigh⟩
  | b => exact ⟨hlow.trans hmono, hhigh⟩

/-- The look-up reads three words, however many follow (43_lsf.md R295). -/
theorem lsfDequant_take (ix : List Int) : lsfDequant (ix.take 3) = lsfDequant ix := by
  simp [lsfDequant, nth, List.getD_eq_getElem?_getD]

theorem lsfQuant_idx_range (f : List Int) : ∀ v ∈ (lsfQuant f).2, -32768 ≤ v ∧ v ≤ 32767 := by
  obtain ⟨i0, i1, i2, h0, h1, h2, -, -, -, hidx⟩ := lsfQuant_indices f
  rw [hidx]
  simp only [List.forall_mem_cons]
  exact ⟨by omega, by omega, by omega, by simp⟩

theorem flatMap_range {α : Type} {l : List α} {f : α → List Int}
    (h : ∀ i, ∀ v ∈ f i, -32768 ≤ v ∧ v ≤ 32767) : ∀ v ∈ l.flatMap f, -32768 ≤ v ∧ v ≤ 32767 := by
  intro v hv
  obtain ⟨i, -, hvi⟩ := List.mem_flatMap.1 hv
  exact h i v hvi

/-! ### Coefficient sets of the sub-frames (R330, R340) -/

theorem coefSets_range (p : Params) (m : Mode) (t : ChirpSel) (old sets : List Int) :
    ∀ v ∈ coefSets p m t old sets, -32768 ≤ v ∧ v ≤ 32767 :=
  flatMap_range fun _ => expand_range _ _

theorem coefSets_block (p : Params) {m : Mode} (t : ChirpSel) (old sets : List Int) {j : Nat}
    (hj : j < Config.nsub m) :
    ((coefSets p m t old sets).drop (11 * j)).take 11 =
      expand (chirp t) (lsf2aFn (lsfBlend (interpRow p m j).w (selectSet old sets (interpRow p m j).src)
        (selectSet old sets (interpRow p m j).dst))) :=
  flatMap_block (Config.nsub m) _ 11 (fun _ => expand_length _ _) j hj

/-- The LSF set a row of an interpolation table names, of a frame's sets given one by one. -/
def namedSet (old : List Int) (sets : Nat → List Int) : LsfSel → List Int
  | .old => old
  | .set0 => sets 0
  | .set1 => sets 1

/-- With one or two LSF sets a row of an interpolation table names the second only in mode B with two. -/
theorem interpRow_set1 {p : Params} (hp : ParamsOk p) (m : Mode) (j : Nat) :
    ∀ sel ∈ [(interpRow p m j).src, (interpRow p m j).dst], sel = .set1 → m = .b ∧ (p.frame m).nLsfSet = 2 := by
  intro sel hsel hset1
  obtain ⟨hmode, hcount⟩ := ((interpRow_spec p m j).1 sel hsel).2 hset1
  exact ⟨hmode, le_antisymm (nLsfSet_range hp m).2 hcount⟩

/-! ### The masks (R330) -/

/-- A mask has no bit beyond its list. -/
theorem maskOf_lt (l : List Bool) : maskOf l < 2 ^ l.length := by
  induction l with
  | nil => simp [maskOf]
  | cons b l ih =>
    rw [maskOf, List.length_cons, pow_succ]
    split_ifs <;> omega

/-- The mask of a flag of each of `n` sets: bit `i` is that of set `i`, and no bit is beyond the sets. -/
theorem maskOf_map_range (n : Nat) (f : Nat → Bool) :
    (∀ i, i < n → (Int.toNat (maskOf ((List.range n).map f))).testBit i = f i) ∧
      0 ≤ maskOf ((List.range n).map f) ∧ maskOf ((List.range n).map f) < 2 ^ n := by
  refine ⟨fun i hi => ?_, (maskOf_testBit _ 0).2, ?_⟩
  · rw [(maskOf_testBit _ i).1]
    simp [List.getD_eq_getElem?_getD, hi]
  · simpa using maskOf_lt ((List.range n).map f)

/-! ### The analysis of a frame (R330) -/

section
variable (p : Params) (x : Ctx) (frame : List Int)

/-- The unquantised LSF sets of a frame, one after another. -/
def Ctx.unquantised : List Int :=
  (List.range (p.frame x.mode).nLsfSet).flatMap fun i => (analyseSet (x.analyse p frame).hist i).lu

/-- The quantised LSF sets of a frame after the stability pass. -/
def Ctx.quantised : List Int :=
  (stabilise (stabParams p) (p.frame x.mode).nLsfSet
    ((List.range (p.frame x.mode).nLsfSet).flatMap fun i => (analyseSet (x.analyse p frame).hist i).lq)).1

theorem analyse_idx : (x.analyse p frame).idx =
    (List.range (p.frame x.mode).nLsfSet).flatMap fun i => (analyseSet (x.analyse p frame).hist i).idx :=
  List.flatMap_map _ _ _

theorem analyse_syn :
    (x.analyse p frame).syn = coefSets p x.mode .syn (ints x.lsfOld) (x.quantised p frame) := by
  rw [Ctx.quantised, ← List.flatMap_map]
  rfl

theorem analyse_wgt :
    (x.analyse p frame).wgt = coefSets p x.mode .wgt (ints x.lsfOldU) (x.unquantised p frame) := by
  rw [Ctx.unquantised, ← List.flatMap_map]
  rfl

theorem analyse_lq : (x.analyse p frame).lq = lastSet p x.mode (x.quantised p frame) := by
  rw [Ctx.quantised, ← List.flatMap_map]
  rfl

theorem analyse_lu : (x.analyse p frame).lu = lastSet p x.mode (x.unquantised p frame) := by
  rw [Ctx.unquantised, ← List.flatMap_map]
  rfl

theorem analyse_umask : (x.analyse p frame).umask =
    maskOf ((List.range (p.frame x.mode).nLsfSet).map fun i => !(analyseSet (x.analyse p frame).hist i).stable) :=
  congrArg maskOf List.map_map

theorem analyse_fmask : (x.analyse p frame).fmask =
    maskOf ((List.range (p.frame x.mode).nLsfSet).map fun i =>
      decide ((analyseSet (x.analyse p frame).hist i).nroots < 10)) :=
  congrArg maskOf List.map_map

theorem analyse_hist_length : (x.analyse p frame).hist.length = 240 := by
  show (((ints x.anaHist ++ frame).drop frame.length).take 240).length = 240
  simp

theorem analyse_idx_range : ∀ v ∈ (x.analyse p frame).idx, -32768 ≤ v ∧ v ≤ 32767 := by
  rw [analyse_idx]
  exact flatMap_range fun _ => lsfQuant_idx_range _

theorem analyse_idx_block {i : Nat} (hi : i < (p.frame x.mode).nLsfSet) :
    ((x.analyse p frame).idx.drop (3 * i)).take 3 = (analyseSet (x.analyse p frame).hist i).idx := by
  rw [analyse_idx]
  exact flatMap_block _ _ 3 (fun _ => (lsfQuant_length _).2) i hi

theorem unquantised_block {i : Nat} (hi : i < (p.frame x.mode).nLsfSet) :
    ((x.unquantised p frame).drop (10 * i)).take 10 = (analyseSet (x.analyse p frame).hist i).lu :=
  flatMap_block _ _ 10 (fun _ => lpcToLsf_length _) i hi

/-- The unquantised set a row of an interpolation table names, among the sets the mode has. -/
theorem selectSet_unquantised (hp : ParamsOk p) (old : List Int) {sel : LsfSel}
    (hsel : sel = .set1 → (p.frame x.mode).nLsfSet = 2) :
    selectSet old (x.unquantised p frame) sel =
      namedSet old (fun i => (analyseSet (x.analyse p frame).hist i).lu) sel := by
  cases sel with
  | old => rfl
  | set0 => exact unquantised_block p x frame (nLsfSet_range hp x.mode).1
  | set1 => exact unquantised_block p x frame (i := 1) (by rw [hsel rfl]; omega)

end

/-- Settles O19: each field of the analysis is a list of blocks, one for each set or sub-frame. -/
theorem analysisIsThePipeline : Obligations.AnalysisIsThePipeline := by
  unfold Obligations.AnalysisIsThePipeline
  intro p q frame hp _ r ns
  obtain ⟨hubit, humask⟩ := maskOf_map_range ns fun i => !(analyseSet r.hist i).stable
  obtain ⟨hfbit, hfmask⟩ := maskOf_map_range ns fun i => decide ((analyseSet r.hist i).nroots < 10)
  rw [← analyse_umask] at humask
  rw [← analyse_fmask] at hfmask
  have hns := (nLsfSet_range hp q.mode).1
  refine ⟨fun i => levinson (autocorr (windowed r.hist i) 10), fun i => (analyseSet r.hist i).lu,
    fun i => (analyseSet r.hist i).lq, rfl, analyse_hist_length p q frame, fun i hi => ?_,
    analyse_idx_length p q frame, humask, hfmask, analyse_lq p q frame, ?_, fun j hj => ?_⟩
  · exact ⟨rfl, rfl, rfl, analyse_idx_block p q frame hi, (analyse_umask p q frame) ▸ hubit i hi,
      (analyse_fmask p q frame) ▸ hfbit i hi⟩
  · exact (analyse_lu p q frame).trans (unquantised_block p q frame (by omega))
  · have hset1 := interpRow_set1 hp q.mode j
    refine ⟨hset1, (interpRow_spec p q.mode j).2, ?_, ?_⟩
    · rw [analyse_syn, coefSets_block p _ _ _ hj]
      rfl
    · rw [analyse_wgt, coefSets_block p _ _ _ hj,
        selectSet_unquantised p q frame hp _ fun h => (hset1 _ (by simp) h).2,
        selectSet_unquantised p q frame hp _ fun h => (hset1 _ (by simp) h).2]
      rfl

/-! ### SPEC_ANA -/

theorem exec_specAna {s : State} {c : BitVec 4} {q : Ctx} {fr ix syn wgt : Nat} (hq : s.ctxAt c.toNat = some q)
    (hkind : q.kind = .encoder) (hfr : argIs s 0 fr) (hix : argIs s 1 ix) (hsyn : argIs s 2 syn)
    (hwgt : argIs s 3 wgt) {n k l : Nat} (hn : Config.frameLen q.mode = n)
    (hk : 3 * (s.params.frame q.mode).nLsfSet = k) (hl : 11 * Config.nsub q.mode = l) (hfitfr : fits s fr n)
    (hfitix : fits s ix k) (hfitsyn : fits s syn l) (hfitwgt : fits s wgt l) (hixfr : apart ix k fr n)
    (hsynfr : apart syn l fr n) (hwgtfr : apart wgt l fr n) (hixsyn : apart ix k syn l) (hixwgt : apart ix k wgt l)
    (hsynwgt : apart syn l wgt l) {r : Analysis} (hr : q.analyse s.params (s.dmem.readVec fr n) = r) :
    exec (.specAna c) s = .next (alsoUnstable (r.umask != 0)
      { (ended s).setCtx c.toNat (some (q.analysed r)) with
        dmem := ((s.dmem.writeVec ix r.idx).writeVec syn r.syn).writeVec wgt r.wgt
        res0 := BitVec.ofInt 32 r.umask
        res1 := BitVec.ofInt 32 r.fmask }) := by
  show execSpecAna c s = _
  rw [execSpecAna, withCtx_open hq (by simp [hkind])]
  simp only [(argIs_spec hfr).1, (argIs_spec hix).1, (argIs_spec hsyn).1, (argIs_spec hwgt).1, hn, hk, hl, hr]
  have hpairix : pairConflict (s.input 0 n) (s.output 1 k) = none := pair_input_output hfr hix (.inl hixfr)
  have hpairsyn : pairConflict (s.input 0 n) (s.output 2 l) = none := pair_input_output hfr hsyn (.inl hsynfr)
  have hpairwgt : pairConflict (s.input 0 n) (s.output 3 l) = none := pair_input_output hfr hwgt (.inl hwgtfr)
  have hpairixsyn : pairConflict (s.output 1 k) (s.output 2 l) = none := pair_output_output hsyn hix hixsyn
  have hpairixwgt : pairConflict (s.output 1 k) (s.output 3 l) = none := pair_output_output hwgt hix hixwgt
  have hpairsynwgt : pairConflict (s.output 2 l) (s.output 3 l) = none := pair_output_output hwgt hsyn hsynwgt
  rw [runChecked_ok
    (by simp [checkArg_of_argIs hfr, checkArg_of_argIs hix, checkArg_of_argIs hsyn, checkArg_of_argIs hwgt])
    (by simp [input_fits hfr hfitfr, output_fits hix hfitix, output_fits hsyn hfitsyn, output_fits hwgt hfitwgt])
    (by simp [hpairix, hpairsyn, hpairwgt, hpairixsyn, hpairixwgt, hpairsynwgt]) (by simp)]
  cases r.umask != 0 <;>
    simp [complete_eq_ended, ended, alsoUnstable, State.updateIf, State.setUnstable, State.setRes0, State.setRes1,
      State.setCtx, State.writeVec]

/-- Settles O18: three vectors of 16-bit values, written one after another to regions that are apart. -/
theorem specAnaResult : Obligations.SpecAnaResult := by
  unfold Obligations.SpecAnaResult
  intro s c q fr ix syn wgt hq hkind hfr hix hsyn hwgt n ns nb hfitfr hfitix hfitsyn hfitwgt hixfr hsynfr hwgtfr
    hixsyn hixwgt hsynwgt r
  have hlenix : r.idx.length = 3 * ns := analyse_idx_length _ _ _
  have hlensyn : r.syn.length = 11 * nb := coefSets_length _ _ _ _ _
  have hlenwgt : r.wgt.length = 11 * nb := coefSets_length _ _ _ _ _
  obtain ⟨hwordsix, -⟩ := writeVec_result s.dmem ix hlenix (analyse_idx_range _ _ _) fun i _ => rfl
  obtain ⟨hwordssyn, -⟩ := writeVec_result (s.dmem.writeVec ix r.idx) syn hlensyn (coefSets_range _ _ _ _ _)
    fun i _ => rfl
  obtain ⟨hwordswgt, -⟩ := writeVec_result ((s.dmem.writeVec ix r.idx).writeVec syn r.syn) wgt hlenwgt
    (coefSets_range _ _ _ _ _) fun i _ => rfl
  refine ⟨_, exec_specAna hq hkind hfr hix hsyn hwgt rfl rfl rfl hfitfr hfitix hfitsyn hfitwgt hixfr hsynfr hwgtfr
    hixsyn hixwgt hsynwgt rfl, ?_, ?_, hwordswgt, ?_⟩
  · exact wordsAre_writeVec_apart wgt _ (wordsAre_writeVec_apart syn _ hwordsix (hlensyn ▸ hixsyn))
      (hlenwgt ▸ hixwgt)
  · exact wordsAre_writeVec_apart wgt _ hwordssyn (hlenwgt ▸ hsynwgt)
  · simpa only [hlenix, hlensyn, hlenwgt] using sameOutside3_writeVec s.dmem ix r.idx syn r.syn wgt r.wgt

/-! ### SPEC_SYN (R340) -/

/-- A block of a written vector. -/
theorem wordsAre_block {m : Memory} {a n k len : Nat} {l : List Int} (h : wordsAre m a n (nth l)) (hk : k + len ≤ n) :
    wordsAre m (a + k) len (nth ((l.drop k).take len)) := by
  intro i hi
  rw [Nat.add_assoc, h (k + i) (by omega)]
  simp [nth, List.getD_eq_getElem?_getD, hi]

/-- The index words of `n` LSF sets, each set's three in their tables. -/
theorem indicesInRange_readVec {m : Memory} {a n : Nat} (h : ∀ i, i < n →
    (0 ≤ m.readI16 (a + 3 * i) ∧ m.readI16 (a + 3 * i) < 64) ∧
    (0 ≤ m.readI16 (a + (3 * i + 1)) ∧ m.readI16 (a + (3 * i + 1)) < 128) ∧
    (0 ≤ m.readI16 (a + (3 * i + 2)) ∧ m.readI16 (a + (3 * i + 2)) < 128)) :
    indicesInRange (m.readVec a (3 * n)) = true := by
  rw [indicesInRange, List.all_eq_true]
  intro i hi
  have hi : i < 3 * n := by simpa using hi
  rw [decide_eq_true_eq, nth_readVec, if_pos hi]
  obtain ⟨h0, h1, h2⟩ := h (i / 3) (by omega)
  rcases (by omega : i = 3 * (i / 3) ∨ i = 3 * (i / 3) + 1 ∨ i = 3 * (i / 3) + 2) with hplace | hplace | hplace
  · rw [splitSize, if_pos (by omega), hplace]
    exact h0
  · rw [splitSize, if_neg (by omega), hplace]
    exact h1
  · rw [splitSize, if_neg (by omega), hplace]
    exact h2

/-- The LSF sets the index words of `n` sets at `a` name, one after another. -/
def setsAt (m : Memory) (a n : Nat) : List Int :=
  (List.range n).flatMap fun i =>
    cbEntry lsfCb1 (m.readI16 (a + 3 * i)).toNat ++ cbEntry lsfCb2 (m.readI16 (a + (3 * i + 1))).toNat ++
      cbEntry lsfCb3 (m.readI16 (a + (3 * i + 2))).toNat

theorem flatMap_lsfDequant_readVec (m : Memory) (a n : Nat) :
    ((List.range n).flatMap fun i => lsfDequant ((m.readVec a (3 * n)).drop (3 * i))) = setsAt m a n := by
  refine List.flatMap_congr fun i hi => ?_
  have hi : i < n := List.mem_range.1 hi
  rw [← lsfDequant_take, take_drop_readVec m a (by omega)]
  rfl

theorem synthesise_readVec (p : Params) (x : Ctx) (m : Memory) (a : Nat) {n : Nat} {w : Stab}
    (hn : (p.frame x.mode).nLsfSet = n) (hw : stabilise (stabParams p) n (setsAt m a n) = w) :
    x.synthesise p (m.readVec a (3 * n)) =
      { syn := coefSets p x.mode .syn (ints x.lsfOld) w.1, lq := lastSet p x.mode w.1, change := w.2 } := by
  subst hn hw
  rw [← flatMap_lsfDequant_readVec]
  rfl

theorem exec_specSyn {s : State} {c : BitVec 4} {q : Ctx} {ix syn : Nat} (hq : s.ctxAt c.toNat = some q)
    (hkind : q.kind = .decoder) (hix : argIs s 0 ix) (hsyn : argIs s 1 syn) {k l : Nat}
    (hk : 3 * (s.params.frame q.mode).nLsfSet = k) (hl : 11 * Config.nsub q.mode = l) (hfitix : fits s ix k)
    (hfitsyn : fits s syn l) (hsynix : apart syn l ix k) (hrange : indicesInRange (s.dmem.readVec ix k) = true)
    {r : Synthesis} (hr : q.synthesise s.params (s.dmem.readVec ix k) = r) :
    exec (.specSyn c) s = .next
      { (ended s).setCtx c.toNat (some (q.synthesised r)) with
        dmem := s.dmem.writeVec syn r.syn
        res0 := if r.change then 1 else 0 } := by
  show execSpecSyn c s = _
  rw [execSpecSyn, withCtx_open hq (by simp [hkind])]
  simp only [(argIs_spec hix).1, (argIs_spec hsyn).1, hk, hl, hr]
  rw [runChecked_inOut hix hsyn (by simp [checkArg_of_argIs hix, checkArg_of_argIs hsyn]) hfitix hfitsyn (.inl hsynix)
    (by simp [checkVal, hrange])]
  cases r.change <;> rfl

/-- Settles O20: the words read name the sets that are stabilised, and the coefficient sets are the blocks of the vector
written. -/
theorem specSynResult : Obligations.SpecSynResult := by
  unfold Obligations.SpecSynResult
  intro s c q ix syn hq hkind hix hsyn ns nb hfitix hfitsyn hsynix hindices sets stab pick
  have hexec := exec_specSyn hq hkind hix hsyn rfl rfl hfitix hfitsyn hsynix (indicesInRange_readVec hindices)
    (synthesise_readVec s.params q s.dmem ix rfl rfl)
  obtain ⟨hwords, hframe⟩ := writeVec_result s.dmem syn
    (coefSets_length s.params q.mode .syn (ints q.lsfOld) stab.1) (coefSets_range _ _ _ _ _) fun i _ => rfl
  refine ⟨_, hexec, fun j hj => ?_, hframe⟩
  have hblock := wordsAre_block hwords (show 11 * j + 11 ≤ 11 * Config.nsub q.mode by omega)
  rw [coefSets_block s.params _ _ _ hj] at hblock
  exact hblock

/-! ### The decoder and the encoder (R340) -/

/-- The encoder's indices name the sets it quantised to. -/
theorem flatMap_lsfDequant_analyse (p : Params) (x : Ctx) (frame : List Int) :
    ((List.range (p.frame x.mode).nLsfSet).flatMap fun i => lsfDequant ((x.analyse p frame).idx.drop (3 * i))) =
      (List.range (p.frame x.mode).nLsfSet).flatMap fun i => (analyseSet (x.analyse p frame).hist i).lq := by
  refine List.flatMap_congr fun i hi => ?_
  rw [← lsfDequant_take, analyse_idx_block p x frame (List.mem_range.1 hi)]
  exact lsfDequant_lsfQuant _

/-- Settles O21: both sides stabilise the same quantised sets and blend them with the same old one. -/
theorem decoderRebuildsEncoderFilters : Obligations.DecoderRebuildsEncoderFilters := by
  unfold Obligations.DecoderRebuildsEncoderFilters
  intro p e d frame _ hmode hold _
  rw [analyse_syn, analyse_lq, Ctx.quantised, ← flatMap_lsfDequant_analyse, hmode, hold]
  exact ⟨rfl, rfl⟩

end Sys2Proof.Machine
end

section
/-! The stage search of the codebook engine (45_codebook.md R353, R354): what the fold over the candidates ends with,
why the refinement keeps it, and the index and raw gain it gives. -/

namespace Sys2Proof.Machine

/-! ### Candidates (R353) -/

theorem dot_self_eq_sum_sq (v : List Int) : dot v v = (v.map fun y => y ^ 2).sum := by
  simp only [dot, List.zipWith_self, sq]

theorem candidate_e (P : CbParams) (h : List Int) (lMem lT : Nat) (tgt : List Int) (t i : Nat) :
    (candidate P h lMem lT tgt t i).e = ((cbVector P h lMem lT i).map fun y => y ^ 2).sum := dot_self_eq_sum_sq _

theorem candidate_c (P : CbParams) (h : List Int) (lMem : Nat) {lT : Nat} {tgt : List Int} (htgt : tgt.length = lT)
    (t i : Nat) :
    (candidate P h lMem lT tgt t i).c =
      if t = 0 then max (total lT fun n => nth tgt n * nth (cbVector P h lMem lT i) n) 0
      else total lT fun n => nth tgt n * nth (cbVector P h lMem lT i) n := by
  rw [candidate, dot_eq_total _ _ lT (.inl htgt)]

/-! ### The coarse search (R353) -/

/-- Candidate `k` is the best of `f 0, ..., f (n-1)`: its vector is not zero, its criterion is the largest of those
whose vector is not, and it is the first with that criterion. The comparison of `c²/e` is multiplied out. -/
structure BestAt (f : Nat → Candidate) (n k : Nat) : Prop where
  lt : k < n
  nonzero : (f k).e ≠ 0
  largest : ∀ i, i < n → (f i).e ≠ 0 → (f i).c ^ 2 * (f k).e ≤ (f k).c ^ 2 * (f i).e
  first : ∀ i, i < k → (f i).e ≠ 0 → (f i).c ^ 2 * (f k).e < (f k).c ^ 2 * (f i).e

/-- What a search over the candidates `f 0, ..., f (n-1)` has to end with: none when every energy is 0, else
the best. -/
def IsBest (f : Nat → Candidate) (n : Nat) : Option Candidate → Prop
  | none => ∀ i, i < n → (f i).e = 0
  | some b => ∃ k, f k = b ∧ BestAt f n k

/-- The comparison of criteria, multiplied out, is transitive. -/
theorem criterion_lt_trans {x y z : Candidate} (hx : 0 < x.e) (hy : 0 < y.e) (hz : 0 < z.e)
    (hxy : x.c ^ 2 * y.e ≤ y.c ^ 2 * x.e) (hyz : y.c ^ 2 * z.e < z.c ^ 2 * y.e) :
    x.c ^ 2 * z.e < z.c ^ 2 * x.e := by
  refine lt_of_mul_lt_mul_right ?_ hy.le
  calc x.c ^ 2 * z.e * y.e = x.c ^ 2 * y.e * z.e := by ring
    _ ≤ y.c ^ 2 * x.e * z.e := mul_le_mul_of_nonneg_right hxy hz.le
    _ = y.c ^ 2 * z.e * x.e := by ring
    _ < z.c ^ 2 * y.e * x.e := mul_lt_mul_of_pos_right hyz hx
    _ = z.c ^ 2 * x.e * y.e := by ring

section
variable {f : Nat → Candidate} (hpos : ∀ i, 0 ≤ (f i).e)
include hpos

theorem isBest_better {n : Nat} {o : Option Candidate} (h : IsBest f n o) : IsBest f (n + 1) (better o (f n)) := by
  cases o with
  | none =>
    by_cases hzero : (f n).e = 0
    · rw [better, if_pos hzero]
      intro i hi
      obtain hi | rfl := Nat.lt_succ_iff_lt_or_eq.1 hi
      exacts [h i hi, hzero]
    · rw [better, if_neg hzero]
      refine ⟨n, rfl, n.lt_succ_self, hzero, fun i hi hne => ?_, fun i hi hne => absurd (h i hi) hne⟩
      obtain hi | rfl := Nat.lt_succ_iff_lt_or_eq.1 hi
      exacts [absurd (h i hi) hne, le_rfl]
  | some b =>
    obtain ⟨k, rfl, hk⟩ := h
    by_cases hmore : (f n).e ≠ 0 ∧ (f n).c ^ 2 * (f k).e > (f k).c ^ 2 * (f n).e
    · rw [better, if_pos hmore]
      have hbeats (i : Nat) (hi : i < n) (hne : (f i).e ≠ 0) : (f i).c ^ 2 * (f n).e < (f n).c ^ 2 * (f i).e :=
        criterion_lt_trans ((hpos i).lt_of_ne' hne) ((hpos k).lt_of_ne' hk.nonzero) ((hpos n).lt_of_ne' hmore.1)
          (hk.largest i hi hne) hmore.2
      refine ⟨n, rfl, n.lt_succ_self, hmore.1, fun i hi hne => ?_, hbeats⟩
      obtain hi | rfl := Nat.lt_succ_iff_lt_or_eq.1 hi
      exacts [(hbeats i hi hne).le, le_rfl]
    · rw [better, if_neg hmore]
      refine ⟨k, rfl, hk.lt.trans n.lt_succ_self, hk.nonzero, fun i hi hne => ?_, hk.first⟩
      obtain hi | rfl := Nat.lt_succ_iff_lt_or_eq.1 hi
      · exact hk.largest i hi hne
      · exact not_lt.1 fun hlt => hmore ⟨hne, hlt⟩

theorem coarseBest_isBest (n : Nat) : IsBest f n (coarseBest ((List.range n).map f)) := by
  induction n with
  | zero => exact fun i hi => absurd hi i.not_lt_zero
  | succ n ih =>
    have hstep : coarseBest ((List.range (n + 1)).map f) = better (coarseBest ((List.range n).map f)) (f n) := by
      simp [coarseBest, List.range_succ]
    exact hstep ▸ isBest_better hpos ih

end

/-! ### The refinement (R354) -/

/-- Candidates that are no better than `b` leave `b` the best. -/
theorem foldl_better_of_le {b : Candidate} {cs : List Candidate}
    (h : ∀ x ∈ cs, x.e ≠ 0 → x.c ^ 2 * b.e ≤ b.c ^ 2 * x.e) : cs.foldl better (some b) = some b := by
  induction cs with
  | nil => rfl
  | cons x cs ih =>
    have hkeep : better (some b) x = some b := if_neg fun hmore => (h x (.head _) hmore.1).not_gt hmore.2
    rw [List.foldl_cons, hkeep]
    exact ih fun y hy => h y (.tail _ hy)

theorem refineBest_of_isBest {f : Nat → Candidate} {n : Nat} {o : Option Candidate} (h : IsBest f n o) :
    refineBest ((List.range n).map f) o = o := by
  cases o with
  | none => rfl
  | some b =>
    obtain ⟨k, rfl, hk⟩ := h
    refine foldl_better_of_le fun x hx => ?_
    obtain ⟨i, hi, rfl⟩ := List.mem_map.1 (List.mem_filter.1 hx).1
    exact hk.largest i (List.mem_range.1 hi)

section
variable (P : CbParams) (h : List Int) (lMem lT : Nat) (tgt : List Int) (t : Nat)

theorem coarseBest_candidate (n : Nat) : IsBest (candidate P h lMem lT tgt t) n
    (coarseBest ((List.range n).map (candidate P h lMem lT tgt t))) :=
  coarseBest_isBest (fun _ => dot_self_nonneg _) n

/-! ### The index and the raw gain (R353) -/

/-- All that a stage search can give. -/
theorem stageSearch_cases (w : Nat) :
    ((∀ i, i < stageSize lMem lT w → (candidate P h lMem lT tgt t i).e = 0) ∧
      stageSearch P h lMem lT tgt t w = (0, 0)) ∨
    ∃ k, BestAt (candidate P h lMem lT tgt t) (stageSize lMem lT w) k ∧ stageSearch P h lMem lT tgt t w =
      (k, Int.tdiv ((candidate P h lMem lT tgt t k).c * 16384) (candidate P h lMem lT tgt t k).e) := by
  have hbest := coarseBest_candidate P h lMem lT tgt t (stageSize lMem lT w)
  simp only [stageSearch, refineBest_of_isBest hbest]
  generalize coarseBest ((List.range (stageSize lMem lT w)).map (candidate P h lMem lT tgt t)) = o at hbest ⊢
  cases o with
  | none => exact .inl ⟨hbest, rfl⟩
  | some b =>
    obtain ⟨k, rfl, hk⟩ := hbest
    exact .inr ⟨k, hk, rfl⟩

end

/-- Settles O22: the coarse search ends with the best candidate, which the refinement keeps. -/
theorem stageSearchIsOptimal : Obligations.StageSearchIsOptimal := by
  unfold Obligations.StageSearchIsOptimal
  intro p h tgt lMem lT t w htgt v size corr c e r
  have hc (i : Nat) : (candidate (cbParams p) h lMem lT tgt t i).c = c i := candidate_c _ h lMem htgt t i
  have he (i : Nat) : (candidate (cbParams p) h lMem lT tgt t i).e = e i := candidate_e _ h lMem lT tgt t i
  obtain ⟨hzero, hr⟩ | ⟨k, hk, hr⟩ := stageSearch_cases (cbParams p) h lMem lT tgt t w
  · refine ⟨fun _ => hr, fun ⟨i, hi, hne⟩ => absurd ((he i).symm.trans (hzero i hi)) hne⟩
  · rw [hc, he] at hr
    obtain ⟨hlt, hnonzero, hlargest, hfirst⟩ := hk
    simp only [hc, he] at hnonzero hlargest hfirst
    refine ⟨fun hzero => absurd (hzero k hlt) hnonzero, fun _ => ?_⟩
    rw [show r = _ from hr]
    exact ⟨hlt, hnonzero, hlargest, hfirst, rfl⟩

/-- Settles O23: the best of all candidates is no worse than those near it. -/
theorem refinementKeepsTheBest : Obligations.RefinementKeepsTheBest := by
  unfold Obligations.RefinementKeepsTheBest
  intro p h tgt lMem lT t w
  exact refineBest_of_isBest (coarseBest_candidate (cbParams p) h lMem lT tgt t _)

end Sys2Proof.Machine
end

section
/-! Gains of the codebook engine (45_codebook.md R352, R355, R375, R380): the nearest level of a stage's table, and the
level an index names. -/

namespace Sys2Proof.Machine

/-! ### Levels (R352, R355) -/

theorem gainLevel_eq (scaleMin : Int) (table : List Int) (sc : Int) (k : Nat) :
    gainLevel scaleMin table sc k = rshr (max |sc| scaleMin * nth table k) 14 := by
  rw [gainLevel, magnitude_eq_abs]

theorem gainQuantise_lt (scaleMin : Int) {table : List Int} (g sc : Int) (h : 0 < table.length) :
    (gainQuantise scaleMin table g sc).1 < table.length := (argMin_spec _ _ h).1

theorem gainQuantise_nearest (scaleMin : Int) {table : List Int} (g sc : Int) (h : 0 < table.length) {k : Nat}
    (hk : (gainQuantise scaleMin table g sc).1 = k) :
    (∀ j, j < table.length → |g - gainLevel scaleMin table sc k| ≤ |g - gainLevel scaleMin table sc j|) ∧
      ∀ j, j < k → |g - gainLevel scaleMin table sc k| < |g - gainLevel scaleMin table sc j| := by
  subst hk
  simp only [← magnitude_eq_abs]
  exact (argMin_spec _ _ h).2

/-! ### The stages' tables (R352) -/

/-- The three stages, each with its table and the number of levels. -/
abbrev gainTables : List (BitVec 2 × List Int × Nat) := [(0, gainCb5, 32), (1, gainCb4, 16), (2, gainCb3, 8)]

theorem exists_gainTable {stg : BitVec 2} (h : stg ≠ 3) :
    ∃ (table : List Int) (levels : Nat), (stg, table, levels) ∈ gainTables := by
  have hstg : stg = 0 ∨ stg = 1 ∨ stg = 2 := by
    revert stg
    decide
  obtain rfl | rfl | rfl := hstg
  exacts [⟨gainCb5, 32, by simp⟩, ⟨gainCb4, 16, by simp⟩, ⟨gainCb3, 8, by simp⟩]

section
variable {s : State} {stg : BitVec 2} {table : List Int} {levels : Nat} (h : (stg, table, levels) ∈ gainTables)
include h

theorem gainTable_spec (p : Params) : stg ≠ 3 ∧ (cbParams p).gains stg.toNat = table ∧ table.length = levels ∧
    gainCount stg.toNat = (levels : Int) ∧ 0 < levels ∧ levels ≤ 32 := by
  simp only [gainTables, List.mem_cons, Prod.mk.injEq, List.not_mem_nil, or_false] at h
  obtain ⟨rfl, rfl, rfl⟩ | ⟨rfl, rfl, rfl⟩ | ⟨rfl, rfl, rfl⟩ := h
  · exact ⟨by decide, rfl, gainCb5_length, rfl, by norm_num⟩
  · exact ⟨by decide, rfl, gainCb4_length, rfl, by norm_num⟩
  · exact ⟨by decide, rfl, gainCb3_length, rfl, by norm_num⟩

/-! ### GAIN_QUANT (R375) -/

theorem exec_gainQuant {sc k : Nat} (hsc : argIs s 1 sc)
    (hk : (gainQuantise s.params.gainScaleMin table (arg32 s 0) (arg16 s 1)).1 = k) :
    exec (.gainQuant stg) s = .next { ended s with
      res0 := BitVec.ofNat 32 k
      res1 := BitVec.ofInt 32 (gainLevel s.params.gainScaleMin table (arg16 s 1) k) } := by
  obtain ⟨hstg, htable, -⟩ := gainTable_spec h s.params
  subst hk
  show execGainQuant stg s = _
  rw [execGainQuant, if_neg hstg]
  dsimp only
  rw [htable, argI16_eq, runChecked_ok (by simp [checkArg_of_argIs hsc]) (by simp) (by simp) (by simp)]
  rfl

/-! ### GAIN_DEQUANT (R380) -/

theorem execGainDequant_eq (s : State) {k : Nat} (hk : argIs s 0 k) : exec (.gainDequant stg) s =
    runChecked s [s.checkArg 0, s.checkArg 1] [] [checkVal 0 (decide (k < levels))]
      (s.setRes0 (gainLevel s.params.gainScaleMin table (arg16 s 1) k)) := by
  obtain ⟨hstg, htable, -, hcount, -⟩ := gainTable_spec h s.params
  show execGainDequant stg s = _
  rw [execGainDequant, if_neg hstg]
  simp only [htable, hcount, argI16_eq, (argIs_spec hk).1, Nat.cast_lt]
  rfl

theorem exec_gainDequant {k sc : Nat} (hk : argIs s 0 k) (hsc : argIs s 1 sc) (hlt : k < levels) :
    exec (.gainDequant stg) s = .next (endedRes0 s (gainLevel s.params.gainScaleMin table (arg16 s 1) k)) := by
  rw [execGainDequant_eq h s hk, runChecked_ok (by simp [checkArg_of_argIs hk, checkArg_of_argIs hsc]) (by simp)
    (by simp) (by simp [checkVal, hlt])]
  rfl

theorem exec_gainDequant_outside {k sc : Nat} (hk : argIs s 0 k) (hsc : argIs s 1 sc) (hle : levels ≤ k) :
    exec (.gainDequant stg) s = .next (endedError s .errVal 0) := by
  have hval : checkVal 0 (decide (k < levels)) = some { code := .errVal, info := 0 } :=
    if_neg (by simpa using hle)
  rw [execGainDequant_eq h s hk, hval, checkArg_of_argIs hk, checkArg_of_argIs hsc]
  exact runChecked_of_error (e := { code := .errVal, info := 0 }) rfl

end

/-- Settles O27: the least minimiser of the distance is quantised to, and both commands give the level of an index. -/
theorem gainResults : Obligations.GainResults := by
  unfold Obligations.GainResults
  refine ⟨?_, ?_, ?_⟩
  · intro s stg table levels h hsc level
    obtain ⟨-, -, rfl, -, hpos, -⟩ := gainTable_spec h s.params
    have hlevel : level = gainLevel s.params.gainScaleMin table (arg16 s 1) :=
      funext fun k => (gainLevel_eq _ _ _ k).symm
    rw [hlevel]
    exact ⟨_, gainQuantise_lt _ _ _ hpos, exec_gainQuant h ⟨rfl, hsc⟩ rfl, gainQuantise_nearest _ _ _ hpos rfl⟩
  · intro s stg table levels k h hk hsc
    rw [← gainLevel_eq]
    exact ⟨exec_gainDequant h hk ⟨rfl, hsc⟩, exec_gainDequant_outside h hk ⟨rfl, hsc⟩⟩
  · intro s t u stg hstg hsc ht hparams hindex hscale
    obtain ⟨table, levels, h⟩ := exists_gainTable hstg
    obtain ⟨-, -, hlen, -, hpos, hle⟩ := gainTable_spec h s.params
    subst hlen
    obtain ⟨k, hk⟩ : ∃ k, (gainQuantise s.params.gainScaleMin table (arg32 s 0) (arg16 s 1)).1 = k := ⟨_, rfl⟩
    have hlt : k < table.length := hk ▸ gainQuantise_lt _ _ _ hpos
    obtain rfl := Host.Outcome.next.inj ((exec_gainQuant h ⟨rfl, hsc⟩ hk).symm.trans ht)
    have hu : argIs u 0 k :=
      ⟨(congrArg BitVec.toNat hindex).trans (Nat.mod_eq_of_lt (by omega)), by omega⟩
    have hscale' : arg16 u 1 = arg16 s 1 := congrArg (fun word => (word.setWidth 16).toInt) hscale
    refine ⟨_, exec_gainDequant h hu ⟨congrArg BitVec.toNat hscale, hsc⟩ hlt, rfl, ?_⟩
    rw [hparams, hscale']
    rfl

end Sys2Proof.Machine
end

section
/-! The three-stage search (45_codebook.md R356, R357): the stages one after the other, and the correction of the
stage-0 gain index. -/

namespace Sys2Proof.Machine

/-! ### The stages (R356) -/

section
variable (P : CbParams) (h : List Int) (lMem lT : Nat) (tgt : List Int) (w : Nat → Nat)

/-- The target and the scale that stage `t` starts with. -/
def stageInput : Nat → List Int × Int
  | 0 => (tgt, 16384)
  | t + 1 =>
    let r := runStage P h lMem lT (stageInput t).1 (stageInput t).2 t (w t)
    (nextTarget P h lMem lT (stageInput t).1 r, r.gq)

/-- What stage `t` leaves. -/
def stageOutput (t : Nat) : StageResult :=
  runStage P h lMem lT (stageInput P h lMem lT tgt w t).1 (stageInput P h lMem lT tgt w t).2 t (w t)

/-- The search is stages 0 to 2, and the correction of the stage-0 gain index. -/
theorem cbSearch_eq : cbSearch P h lMem lT tgt (w 0) (w 1) (w 2) =
    let r := stageOutput P h lMem lT tgt w
    { idx := [((r 0).idx : Int), ((r 1).idx : Int), ((r 2).idx : Int)]
      gidx := [(gainFix P h lMem lT tgt (r 0) (r 1) (r 2) : Int), ((r 1).gidx : Int), ((r 2).gidx : Int)] } := rfl

end

theorem gains_cbParams (p : Params) (t : Nat) :
    (cbParams p).gains t = if t = 0 then gainCb5 else if t = 1 then gainCb4 else gainCb3 := by
  match t with
  | 0 => rfl
  | 1 => rfl
  | _ + 2 => rfl

/-! ### The gain correction (R357) -/

/-- The last number below `n` with a property is the largest one. -/
theorem getLast?_filter_range (good : Nat → Bool) (n d : Nat) {g : Nat}
    (hg : ((List.range n).filter good).getLast?.getD d = g) :
    ((∃ k, k < n ∧ good k = true) → (g < n ∧ good g = true) ∧ ∀ k, k < n → good k = true → k ≤ g) ∧
      ((∀ k, k < n → ¬ good k = true) → g = d) := by
  induction n with
  | zero => exact ⟨fun ⟨k, hk, _⟩ => absurd hk k.not_lt_zero, fun _ => hg.symm⟩
  | succ n ih =>
    rw [List.range_succ, List.filter_append] at hg
    by_cases hn : good n = true
    · have hlast : n = g := by simpa [hn] using hg
      subst hlast
      exact ⟨fun _ => ⟨⟨n.lt_succ_self, hn⟩, fun k hk _ => Nat.le_of_lt_succ hk⟩,
        fun hnone => absurd hn (hnone n n.lt_succ_self)⟩
    · obtain ⟨hsome, hnone⟩ := ih (by simpa [hn] using hg)
      have hbelow {k : Nat} (hk : k < n + 1) (hgood : good k = true) : k < n :=
        (Nat.lt_succ_iff_lt_or_eq.1 hk).resolve_right fun heq => hn (heq ▸ hgood)
      refine ⟨fun ⟨k, hk, hgood⟩ => ?_, fun hall => hnone fun k hk => hall k (hk.trans n.lt_succ_self)⟩
      obtain ⟨⟨hlt, hg'⟩, hmax⟩ := hsome ⟨k, hbelow hk hgood, hgood⟩
      exact ⟨⟨hlt.trans n.lt_succ_self, hg'⟩, fun j hj hgoodj => hmax j (hbelow hj hgoodj) hgoodj⟩

theorem dot_self_eq_total {v : List Int} {n : Nat} {f : Nat → Int} (hlen : v.length = n)
    (h : ∀ i, i < n → nth v i = f i) : dot v v = total n fun i => f i ^ 2 := by
  rw [dot_eq_total v v n (.inl hlen)]
  exact total_congr fun i hi => by rw [h i hi, sq]

/-- The level of a stage-0 index against the scale of unity is the table's entry. -/
theorem rshr_unity_mul (v : Int) : rshr (16384 * v) 14 = v := by
  rw [rshr_succ, asr]
  omega

/-- Gain index `k` is admissible for the coded vectors `y` of the target (R357). -/
def Admissible (P : CbParams) (lT : Nat) (tgt : List Int) (r0 : StageResult) (y : Nat → Nat → Int) (k : Nat) : Prop :=
  r0.gidx ≤ k ∧ k ≤ 31 ∧ total lT (fun n => y k n ^ 2) ≤ total lT (fun n => nth tgt n ^ 2) ∧
    nth P.gain5 k < 2 * r0.craw

theorem gainFix_spec (P : CbParams) (h : List Int) (lMem : Nat) {lT : Nat} {tgt : List Int} (htgt : tgt.length = lT)
    {r0 r1 r2 : StageResult} {v : Nat → List Int} (hv : v = cbVector P h lMem lT) {g : Nat}
    (hg : gainFix P h lMem lT tgt r0 r1 r2 = g) {y : Nat → Nat → Int}
    (hy : y = fun k n => sat16 (rshr (nth P.gain5 k * nth (v r0.idx) n) 14 + rshr (r1.gq * nth (v r1.idx) n) 14 +
      rshr (r2.gq * nth (v r2.idx) n) 14)) :
    ((∃ k, Admissible P lT tgt r0 y k) →
      Admissible P lT tgt r0 y g ∧ ∀ k, Admissible P lT tgt r0 y k → k ≤ g) ∧
    ((∀ k, ¬ Admissible P lT tgt r0 y k) → g = r0.gidx) := by
  subst hv
  have hcoded (k : Nat) : dot (codedWith P (cbVector P h lMem lT r0.idx) (cbVector P h lMem lT r1.idx)
      (cbVector P h lMem lT r2.idx) r1.gq r2.gq lT k) (codedWith P (cbVector P h lMem lT r0.idx)
      (cbVector P h lMem lT r1.idx) (cbVector P h lMem lT r2.idx) r1.gq r2.gq lT k) =
      total lT fun n => y k n ^ 2 :=
    dot_self_eq_total (tabulate_length _ _) fun n hn => by
      rw [codedWith, nth_tabulate, if_pos hn, rshr_unity_mul, hy]
  have hlast := getLast?_filter_range _ 32 _ hg
  simp only [hcoded, dot_self_eq_total htgt fun _ _ => rfl, decide_eq_true_eq] at hlast
  have hiff (k : Nat) : Admissible P lT tgt r0 y k ↔ k < 32 ∧ r0.gidx ≤ k ∧
      total lT (fun n => y k n ^ 2) ≤ total lT (fun n => nth tgt n ^ 2) ∧ nth P.gain5 k < 2 * r0.craw := by
    unfold Admissible
    omega
  simpa only [hiff, and_imp, not_and] using hlast

/-- Settles O24: the stages by what each starts with, the gain index by the last admissible one. -/
theorem threeStageSearch : Obligations.ThreeStageSearch := by
  unfold Obligations.ThreeStageSearch
  intro p h tgt lMem lT w htgt
  let P := cbParams p
  let r := stageOutput P h lMem lT tgt w
  refine ⟨fun t => (stageInput P h lMem lT tgt w t).1, fun t => (stageInput P h lMem lT tgt w t).2,
    fun t => (r t).idx, fun t => (r t).gidx, fun t => (r t).craw, fun t => (r t).gq,
    gainFix P h lMem lT tgt (r 0) (r 1) (r 2), rfl, rfl, fun t _ => ?_, ?_, rfl, rfl⟩
  · rw [← gains_cbParams p]
    exact ⟨rfl, rfl, rfl, rfl⟩
  · exact gainFix_spec P h lMem htgt rfl rfl rfl

end Sys2Proof.Machine
end

section
/-! The codebook searches as commands (45_codebook.md R360, R365): the ranges of the indices found, and how the commands
end. -/

namespace Sys2Proof.Machine

/-! ### Ranges of the indices -/

theorem stageSearch_lt (P : CbParams) (h : List Int) (lMem lT : Nat) (tgt : List Int) (t w : Nat) :
    (stageSearch P h lMem lT tgt t w).1 < 2 ^ w := by
  obtain ⟨-, hr⟩ | ⟨k, hk, hr⟩ := stageSearch_cases P h lMem lT tgt t w
  · rw [hr]
    exact Nat.two_pow_pos w
  · rw [hr]
    exact hk.lt.trans_le (min_le_right _ _)

theorem gains_length (p : Params) (t : Nat) :
    0 < ((cbParams p).gains t).length ∧ ((cbParams p).gains t).length ≤ 32 := by
  rw [gains_cbParams]
  split_ifs
  · simp [gainCb5_length]
  · simp [gainCb4_length]
  · simp [gainCb3_length]

section
variable (p : Params) (h : List Int) (lMem lT : Nat) (tgt : List Int)

theorem stageOutput_lt (w : Nat → Nat) (t : Nat) :
    (stageOutput (cbParams p) h lMem lT tgt w t).idx < 2 ^ w t ∧
      (stageOutput (cbParams p) h lMem lT tgt w t).gidx < 32 := by
  obtain ⟨hpos, hle⟩ := gains_length p t
  exact ⟨stageSearch_lt _ _ _ _ _ _ _, (gainQuantise_lt _ _ _ hpos).trans_le hle⟩

theorem gainFix_lt {r0 : StageResult} (hr0 : r0.gidx < 32) (r1 r2 : StageResult) :
    gainFix (cbParams p) h lMem lT tgt r0 r1 r2 < 32 := by
  have hmem (l : List Nat) (good : Nat → Bool) (hl : ∀ k ∈ l, k < 32) :
      (l.filter good).getLast?.getD r0.gidx < 32 := by
    cases hlast : (l.filter good).getLast? with
    | none => exact hr0
    | some k => exact hl k (List.mem_filter.1 (List.mem_of_getLast? hlast)).1
  exact hmem _ _ fun k hk => List.mem_range.1 hk

/-- With widths of at most 8 bits the six indices are 16-bit values. -/
theorem cbSearch_range {w : Nat → Nat} (hw : ∀ t, t < 3 → w t ≤ 8) {r : SearchResult}
    (hr : cbSearch (cbParams p) h lMem lT tgt (w 0) (w 1) (w 2) = r) :
    (r.idx.length = 3 ∧ ∀ v ∈ r.idx, -32768 ≤ v ∧ v ≤ 32767) ∧
      r.gidx.length = 3 ∧ ∀ v ∈ r.gidx, -32768 ≤ v ∧ v ≤ 32767 := by
  have hlt := stageOutput_lt p h lMem lT tgt w
  have hsmall {k : Nat} (hk : k < 2 ^ 8) : -32768 ≤ (k : Int) ∧ (k : Int) ≤ 32767 := by omega
  have hidx (t : Nat) (ht : t < 3) :=
    hsmall ((hlt t).1.trans_le (Nat.pow_le_pow_right (by norm_num) (hw t ht)))
  have hgidx (t : Nat) := hsmall ((hlt t).2.trans (by norm_num))
  have hfix (r1 r2 : StageResult) := hsmall ((gainFix_lt p h lMem lT tgt (hlt 0).2 r1 r2).trans (by norm_num))
  subst hr
  rw [cbSearch_eq]
  simp only [List.forall_mem_cons]
  exact ⟨⟨rfl, hidx 0 (by omega), hidx 1 (by omega), hidx 2 (by omega), by simp⟩, rfl, hfix _ _, hgidx 1, hgidx 2,
    by simp⟩

end

/-! ### The operands (R350, R360) -/

/-- The bytes of A6 are the widths. -/
theorem stageWidth_of_widthsAre {s : State} {w0 w1 w2 : Nat} (h : widthsAre s w0 w1 w2) :
    s.stageWidth 0 = w0 ∧ s.stageWidth 1 = w1 ∧ s.stageWidth 2 = w2 := by
  obtain ⟨hargs, h0, h1, h2⟩ := h
  have hword : (s.arg 6).toNat = w0 + 256 * w1 + 65536 * w2 := hargs
  have hbyte (t : Nat) : s.stageWidth t = (w0 + 256 * w1 + 65536 * w2) / 2 ^ (8 * t) % 256 := by
    rw [State.stageWidth, BitVec.extractLsb'_toNat, Nat.shiftRight_eq_div_pow, hword]
  rw [hbyte, hbyte, hbyte]
  omega

theorem checkLMem_of_argIs {s : State} {lMem lT : Nat} (hlMem : argIs s 1 lMem) (hle : lT ≤ lMem)
    (hmax : lMem ≤ s.params.cbLmemMax) : s.checkArg 1 (lMemOk s.params lMem lT) = none :=
  (checkArg_eq_none s 1 _).2 ⟨(argIs_spec hlMem).2, by simp [lMemOk, hle, hmax]⟩

theorem checkLT_of_argIs {s : State} {j : ArgNo} {lT : Nat} (hlT : argIs s j lT) (hpos : 1 ≤ lT) (hle : lT ≤ 80) :
    s.checkArg j (lTOk lT) = none :=
  (checkArg_eq_none s j _).2 ⟨(argIs_spec hlT).2, by simp [lTOk, hle]; omega⟩

/-! ### The searches (R360, R365) -/

theorem searchCommand_eq {s : State} (order : List Int → List Int) {h lMem tg lT ix gx w0 w1 w2 : Nat}
    (hh : argIs s 0 h) (hlMem : argIs s 1 lMem) (htg : argIs s 2 tg) (hlT : argIs s 3 lT) (hix : argIs s 4 ix)
    (hgx : argIs s 5 gx) (hw : widthsAre s w0 w1 w2) (hpos : 1 ≤ lT) (hle : lT ≤ 80) (hlTMem : lT ≤ lMem)
    (hmax : lMem ≤ s.params.cbLmemMax) (hfith : fits s h lMem) (hfittg : fits s tg lT) (hfitix : fits s ix 3)
    (hfitgx : fits s gx 3) (hixh : apart ix 3 h lMem) (hixtg : apart ix 3 tg lT) (hgxh : apart gx 3 h lMem)
    (hgxtg : apart gx 3 tg lT) (hixgx : apart ix 3 gx 3) {r : SearchResult}
    (hr : cbSearch (cbParams s.params) (order (s.dmem.readVec h lMem)) lMem lT (order (s.dmem.readVec tg lT)) w0 w1 w2 =
      r) :
    searchCommand order s = .next { ended s with
      dmem := (s.dmem.writeVec ix r.idx).writeVec gx r.gidx
      res0 := BitVec.ofNat 32 (codebookSize lMem lT)
      res1 := BitVec.ofInt 32 (nth gainCb5 (nth r.gidx 0).toNat) } := by
  obtain ⟨hw0, hw1, hw2⟩ := stageWidth_of_widthsAre hw
  unfold searchCommand
  simp only [(argIs_spec hh).1, (argIs_spec hlMem).1, (argIs_spec htg).1, (argIs_spec hlT).1, (argIs_spec hix).1,
    (argIs_spec hgx).1, hw0, hw1, hw2, hr]
  have hpairix : pairConflict (s.input 0 lMem) (s.output 4 3) = none := pair_input_output hh hix (.inl hixh)
  have hpairgx : pairConflict (s.input 0 lMem) (s.output 5 3) = none := pair_input_output hh hgx (.inl hgxh)
  have hpairtgix : pairConflict (s.input 2 lT) (s.output 4 3) = none := pair_input_output htg hix (.inl hixtg)
  have hpairtggx : pairConflict (s.input 2 lT) (s.output 5 3) = none := pair_input_output htg hgx (.inl hgxtg)
  have hpairs : pairConflict (s.output 4 3) (s.output 5 3) = none := pair_output_output hgx hix hixgx
  rw [runChecked_ok
    (by simp [checkArg_of_argIs hh, checkArg_of_argIs htg, checkArg_of_argIs hix, checkArg_of_argIs hgx,
      checkLMem_of_argIs hlMem hlTMem hmax, checkLT_of_argIs hlT hpos hle, checkWidths_pass ⟨_, _, _, hw⟩])
    (by simp [input_fits hh hfith, input_fits htg hfittg, output_fits hix hfitix, output_fits hgx hfitgx])
    (by simp [pair_input_input, hpairix, hpairgx, hpairtgix, hpairtggx, hpairs]) (by simp)]
  rw [State.setRes0, BitVec.ofInt_natCast]
  rfl

/-- Settles O25: the two commands are one search, over the vectors as they are or reversed. -/
theorem codebookSearchResults : Obligations.CodebookSearchResults := by
  unfold Obligations.CodebookSearchResults
  intro s h lMem tg lT ix gx w0 w1 w2 hh hlMem htg hlT hix hgx hw hpos hle hlTMem hmax hfith hfittg hfitix hfitgx
    hixh hixtg hgxh hgxtg hixgx i r hir
  obtain ⟨order, hi, hr⟩ : ∃ order : List Int → List Int, exec i s = searchCommand order s ∧
      cbSearch (cbParams s.params) (order (s.dmem.readVec h lMem)) lMem lT (order (s.dmem.readVec tg lT)) w0 w1 w2 =
        r := by
    simp only [List.mem_cons, Prod.mk.injEq, List.not_mem_nil, or_false] at hir
    obtain ⟨rfl, rfl⟩ | ⟨rfl, rfl⟩ := hir
    exacts [⟨id, rfl, rfl⟩, ⟨List.reverse, rfl, rfl⟩]
  obtain ⟨-, ⟨-, hw0⟩, ⟨-, hw1⟩, -, hw2⟩ := id hw
  obtain ⟨⟨hlenix, hrangeix⟩, hlengx, hrangegx⟩ := cbSearch_range s.params _ lMem lT _
    (w := fun t => [w0, w1, w2].getD t 0) (fun t ht => by interval_cases t <;> assumption) hr
  obtain ⟨hwordsix, -⟩ := writeVec_result s.dmem ix hlenix hrangeix fun i _ => rfl
  obtain ⟨hwordsgx, -⟩ := writeVec_result (s.dmem.writeVec ix r.idx) gx hlengx hrangegx fun i _ => rfl
  refine ⟨_, hi.trans (searchCommand_eq order hh hlMem htg hlT hix hgx hw hpos hle hlTMem hmax hfith hfittg hfitix
    hfitgx hixh hixtg hgxh hgxtg hixgx hr), ?_, hwordsgx, ?_⟩
  · exact wordsAre_writeVec_apart gx _ hwordsix (hlengx ▸ hixgx)
  · simpa only [hlenix, hlengx] using sameOutside2_writeVec s.dmem ix r.idx gx r.gidx

end Sys2Proof.Machine
end

section
/-! The codebook vectors and their reconstruction (45_codebook.md R351, R370). -/

namespace Sys2Proof.Machine

/-! ### The codebook vectors (R351) -/

theorem take_drop_eq_map_nth (g : List Int) {k n : Nat} (h : k + n ≤ g.length) :
    (g.drop k).take n = (List.range n).map fun j => nth g (k + j) := by
  refine List.ext_getElem (by simp; omega) fun j hj _ => ?_
  have hlt : k + j < g.length := by
    simp only [List.length_take, List.length_drop] at hj
    omega
  simp [nth, hlt]

/-- An entry of a section: a window of the history, or an interpolated lag. -/
theorem sectionVector_eq (p : Params) {g : List Int} {lMem lT : Nat} (hg : g.length = lMem) (hle : lT ≤ lMem)
    (i : Nat) : sectionVector (cbParams p) g lMem lT i =
      if i ≤ lMem - lT then (List.range lT).map fun n => nth g (lMem - lT - i + n)
      else ints (Config.cbAug g lMem (i - (lMem - lT + 1))) := by
  unfold sectionVector
  split_ifs with hi
  · exact take_drop_eq_map_nth g (by omega)
  · rfl

theorem sectionVector_length (p : Params) {g : List Int} {lMem lT i : Nat} (hg : g.length = lMem) (hle : lT ≤ lMem)
    (hi : i < sectionSize lMem lT) : (sectionVector (cbParams p) g lMem lT i).length = lT := by
  rw [sectionVector_eq p hg hle]
  split_ifs with hwindow
  · simp
  · rw [ints_length]
    unfold sectionSize augCount at hi
    split_ifs at hi <;> omega

theorem cbVector_base (P : CbParams) (h : List Int) {lMem lT i : Nat} (hi : i < sectionSize lMem lT) :
    cbVector P h lMem lT i = sectionVector P h lMem lT i := if_pos hi

theorem cbVector_filtered (P : CbParams) (h : List Int) (lMem lT i : Nat) :
    cbVector P h lMem lT (sectionSize lMem lT + i) = sectionVector P (P.smooth h) lMem lT i := by
  rw [cbVector, if_neg (by omega), Nat.add_sub_cancel_left]

theorem cbSmooth_length (h : List Int) : (cbSmooth h).length = h.length := tabulate_length _ _

/-! ### The reconstruction (R370) -/

theorem timeOrder_eq (dir : CbDir) (l : List Int) : timeOrder dir l = if dir = .backward then l.reverse else l := by
  cases dir <;> rfl

theorem nth_reverse {l : List Int} {n i : Nat} (hl : l.length = n) (hi : i < n) :
    nth l.reverse i = nth l (n - 1 - i) := by
  subst hl
  rw [nth, nth, List.getD_eq_getElem?_getD, List.getD_eq_getElem?_getD, List.getElem?_reverse hi]

theorem nth_timeOrder (dir : CbDir) {l : List Int} {n i : Nat} (hl : l.length = n) (hi : i < n) :
    nth (timeOrder dir l) i = if dir = .backward then nth l (n - 1 - i) else nth l i := by
  cases dir
  · rfl
  · exact nth_reverse hl hi

theorem timeOrder_range (dir : CbDir) {l : List Int} (h : ∀ v ∈ l, -32768 ≤ v ∧ v ≤ 32767) :
    ∀ v ∈ timeOrder dir l, -32768 ≤ v ∧ v ≤ 32767 := by
  cases dir
  · exact h
  · exact fun v hv => h v (List.mem_reverse.1 hv)

theorem cbRebuild_range (P : CbParams) (g : List Int) (lMem lT : Nat) (idx gidx : List Int) :
    ∀ v ∈ cbRebuild P g lMem lT idx gidx, -32768 ≤ v ∧ v ≤ 32767 := tabulate_range fun _ _ => sat16_range _

theorem nth_cbRebuild (p : Params) (g : List Int) {lMem lT i0 i1 i2 k0 k1 k2 n : Nat} (hn : n < lT) {q0 q1 q2 : Int}
    (hq0 : q0 = rshr (max 16384 p.gainScaleMin * nth gainCb5 k0) 14)
    (hq1 : q1 = rshr (max |q0| p.gainScaleMin * nth gainCb4 k1) 14)
    (hq2 : q2 = rshr (max |q1| p.gainScaleMin * nth gainCb3 k2) 14) :
    nth (cbRebuild (cbParams p) g lMem lT [(i0 : Int), (i1 : Int), (i2 : Int)] [(k0 : Int), (k1 : Int), (k2 : Int)]) n =
      sat16 (rshr (q0 * nth (cbVector (cbParams p) g lMem lT i0) n) 14 +
        rshr (q1 * nth (cbVector (cbParams p) g lMem lT i1) n) 14 +
        rshr (q2 * nth (cbVector (cbParams p) g lMem lT i2) n) 14) := by
  have hlevel0 : gainLevel p.gainScaleMin gainCb5 16384 k0 = q0 := hq0.symm
  have hlevel1 : gainLevel p.gainScaleMin gainCb4 q0 k1 = q1 := (gainLevel_eq _ _ _ _).trans hq1.symm
  have hlevel2 : gainLevel p.gainScaleMin gainCb3 q1 k2 = q2 := (gainLevel_eq _ _ _ _).trans hq2.symm
  subst hlevel2 hlevel1 hlevel0
  exact (nth_tabulate _ _ _).trans (if_pos hn)

/-! ### CB_CONSTRUCT (R370) -/

theorem readVec_three {m : Memory} {a : Nat} {x y z : Int}
    (h : m.readI16 a = x ∧ m.readI16 (a + 1) = y ∧ m.readI16 (a + 2) = z) : m.readVec a 3 = [x, y, z] := by
  obtain ⟨rfl, rfl, rfl⟩ := h
  rfl

/-- The check of a value read, stage by stage (notes/assumptions/18.md). -/
theorem checkVal_inRange (j : ArgNo) {l : List Int} {t i : Nat} {size : Int} (hread : nth l t = i)
    (hi : (i : Int) < size) : checkVal j (decide (0 ≤ nth l t ∧ nth l t < size)) = none := by
  rw [hread]
  exact if_pos (by simpa using hi)

theorem exec_cbConstruct {s : State} (dir : CbDir) {h lMem ix gx o lT w0 w1 w2 : Nat} (hh : argIs s 0 h)
    (hlMem : argIs s 1 lMem) (hix : argIs s 2 ix) (hgx : argIs s 3 gx) (ho : argIs s 4 o) (hlT : argIs s 5 lT)
    (hw : widthsAre s w0 w1 w2) (hpos : 1 ≤ lT) (hle : lT ≤ 80) (hlTMem : lT ≤ lMem)
    (hmax : lMem ≤ s.params.cbLmemMax) (hfith : fits s h lMem) (hfitix : fits s ix 3) (hfitgx : fits s gx 3)
    (hfito : fits s o lT) (hoh : apart o lT h lMem) (hoix : apart o lT ix 3) (hogx : apart o lT gx 3)
    {i0 i1 i2 k0 k1 k2 : Nat} (hi : i0 < stageSize lMem lT w0 ∧ i1 < stageSize lMem lT w1 ∧ i2 < stageSize lMem lT w2)
    (hk : k0 < 32 ∧ k1 < 16 ∧ k2 < 8) (hidx : s.dmem.readVec ix 3 = [(i0 : Int), (i1 : Int), (i2 : Int)])
    (hgidx : s.dmem.readVec gx 3 = [(k0 : Int), (k1 : Int), (k2 : Int)]) :
    exec (.cbConstruct dir) s = .next { ended s with
      dmem := s.dmem.writeVec o (timeOrder dir (cbRebuild (cbParams s.params)
        (timeOrder dir (s.dmem.readVec h lMem)) lMem lT [(i0 : Int), (i1 : Int), (i2 : Int)]
        [(k0 : Int), (k1 : Int), (k2 : Int)])) } := by
  obtain ⟨hw0, hw1, hw2⟩ := stageWidth_of_widthsAre hw
  obtain ⟨hi0, hi1, hi2⟩ := hi
  obtain ⟨hk0, hk1, hk2⟩ := hk
  show execCbConstruct dir s = _
  unfold execCbConstruct
  simp only [(argIs_spec hh).1, (argIs_spec hlMem).1, (argIs_spec hix).1, (argIs_spec hgx).1, (argIs_spec ho).1,
    (argIs_spec hlT).1, hw0, hw1, hw2, hidx, hgidx]
  have hpairh : pairConflict (s.input 0 lMem) (s.output 4 lT) = none := pair_input_output hh ho (.inl hoh)
  have hpairix : pairConflict (s.input 2 3) (s.output 4 lT) = none := pair_input_output hix ho (.inl hoix)
  have hpairgx : pairConflict (s.input 3 3) (s.output 4 lT) = none := pair_input_output hgx ho (.inl hogx)
  rw [runChecked_ok
    (by simp [checkArg_of_argIs hh, checkArg_of_argIs hix, checkArg_of_argIs hgx, checkArg_of_argIs ho,
      checkLMem_of_argIs hlMem hlTMem hmax, checkLT_of_argIs hlT hpos hle, checkWidths_pass ⟨_, _, _, hw⟩])
    (by simp [input_fits hh hfith, input_fits hix hfitix, input_fits hgx hfitgx, output_fits ho hfito])
    (by simp [pair_input_input, hpairh, hpairix, hpairgx])
    (by
      simp only [List.forall_mem_cons]
      exact ⟨checkVal_inRange 2 rfl (Int.ofNat_lt.2 hi0), checkVal_inRange 3 rfl (Int.ofNat_lt.2 hk0),
        checkVal_inRange 2 rfl (Int.ofNat_lt.2 hi1), checkVal_inRange 3 rfl (Int.ofNat_lt.2 hk1),
        checkVal_inRange 2 rfl (Int.ofNat_lt.2 hi2), checkVal_inRange 3 rfl (Int.ofNat_lt.2 hk2), by simp⟩)]
  rfl

/-- Settles O26: the sections by their windows and lags, the vector written entry by entry. -/
theorem cbConstructResult : Obligations.CbConstructResult := by
  unfold Obligations.CbConstructResult
  constructor
  · intro p h lMem lT i hlen hpos hle size vector smoothed hi
    have hsmooth : (cbSmooth h).length = lMem := (cbSmooth_length h).trans hlen
    have hsmoothed : cbSmooth h = smoothed := by
      subst hlen
      rfl
    have hbase : sectionVector (cbParams p) h lMem lT i = vector h := sectionVector_eq p hlen hle i
    have hfiltered : sectionVector (cbParams p) (cbSmooth h) lMem lT i = vector smoothed :=
      hsmoothed ▸ sectionVector_eq p hsmooth hle i
    rw [← hbase, ← hfiltered]
    exact ⟨⟨cbVector_base _ _ hi, cbVector_filtered _ _ _ _ _⟩, sectionVector_length p hlen hle hi,
      sectionVector_length p hsmooth hle hi⟩
  · intro s dir h lMem ix gx o lT w0 w1 w2 hh hlMem hix hgx ho hlT hw hpos hle hlTMem hmax hfith hfitix hfitgx hfito hoh
      hoix hogx size i0 i1 i2 k0 k1 k2 hi hk hidx hgidx hist v q0 q1 q2 y
    have hexec := exec_cbConstruct dir hh hlMem hix hgx ho hlT hw hpos hle hlTMem hmax hfith hfitix hfitgx hfito hoh
      hoix hogx hi hk (readVec_three hidx) (readVec_three hgidx)
    rw [timeOrder_eq dir (s.dmem.readVec h lMem)] at hexec
    have hlen := cbRebuild_length (cbParams s.params) (if dir = .backward then hist.reverse else hist) lMem lT
      [(i0 : Int), (i1 : Int), (i2 : Int)] [(k0 : Int), (k1 : Int), (k2 : Int)]
    have hentry (n : Nat) (hn : n < lT) := nth_cbRebuild s.params (if dir = .backward then hist.reverse else hist)
      (lMem := lMem) (i0 := i0) (i1 := i1) (i2 := i2) hn (q0 := q0) (q1 := q1) (q2 := q2) rfl rfl rfl
    obtain ⟨hwords, hframe⟩ := writeVec_result s.dmem o ((timeOrder_length dir _).trans hlen)
      (timeOrder_range dir (cbRebuild_range _ _ _ _ _ _))
      (f := fun n => if dir = .backward then y (lT - 1 - n) else y n) fun n hn => by rw [nth_timeOrder dir hlen hn, hentry n hn, hentry (lT - 1 - n) (by omega)]
    exact ⟨_, hexec, hwords, hframe⟩

end Sys2Proof.Machine
end

section
/-! The layout of a coded frame (46_bitstream.md R401, R402): the widths of its fields, and the place of every
field bit. -/

namespace Sys2Proof.Machine

/-! ### Blocks of three -/

theorem getD_append_add {α : Type} {k : List α} {n : Nat} (hk : k.length = n) (l : List α) (i : Nat) (d : α) :
    (k ++ l).getD (n + i) d = l.getD i d := by
  rw [List.getD_append_right _ _ _ _ (by omega), hk, Nat.add_sub_cancel_left]

theorem length_flatten_three {bs : List (List Nat)} (hbs : ∀ b ∈ bs, b.length = 3) :
    bs.flatten.length = 3 * bs.length := by
  rw [List.length_flatten, List.map_congr_left hbs, List.map_const', List.sum_replicate_nat, Nat.mul_comm]

/-- Entry `j` of block `i`. -/
theorem getD_flatten_three {bs : List (List Nat)} (hbs : ∀ b ∈ bs, b.length = 3) {i j : Nat} (hi : i < bs.length)
    (hj : j < 3) : bs.flatten.getD (3 * i + j) 0 = (bs.getD i []).getD j 0 := by
  induction bs generalizing i with
  | nil => simp at hi
  | cons b bs ih =>
    obtain ⟨hb, hbs⟩ := List.forall_mem_cons.1 hbs
    rw [List.flatten_cons]
    cases i with
    | zero =>
      rw [Nat.mul_zero, Nat.zero_add, List.getD_append _ _ _ _ (by omega)]
      rfl
    | succ i =>
      rw [Nat.mul_succ, Nat.add_comm _ 3, Nat.add_assoc, getD_append_add hb]
      exact ih hbs (by simpa using hi)

/-! ### The fields of a frame (R401) -/

/-- The widths of a vector's three codebook indices, as a block of fields. -/
def bookBlock (w : Nat × Nat × Nat) : List Nat := [w.1, w.2.1, w.2.2]

theorem length_flatten_bookBlocks (cbW : List (Nat × Nat × Nat)) :
    (cbW.map bookBlock).flatten.length = 3 * cbW.length := by
  rw [length_flatten_three (List.forall_mem_map.2 fun _ _ => rfl), List.length_map]

theorem length_flatten_replicate (n a b c : Nat) : (List.replicate n [a, b, c]).flatten.length = 3 * n := by
  rw [length_flatten_three (by simp), List.length_replicate]

section
variable (p : Params) (m : Mode)

/-- The parts of a frame in canonical order: LSF indices, header, state samples, codebook indices, gain indices. -/
theorem fieldWidths_eq : fieldWidths p m =
    (List.replicate (p.frame m).nLsfSet [6, 7, 7]).flatten ++ ([(p.frame m).startW, 1, 6] ++
      (List.replicate (p.frame m).nState 3 ++ (((p.frame m).cbW.map bookBlock).flatten ++
        (List.replicate (p.frame m).cbW.length [5, 4, 3]).flatten))) := by
  simp only [fieldWidths, List.flatMap, List.append_assoc]
  rfl

theorem fieldWidths_length : (fieldWidths p m).length =
    3 * (p.frame m).nLsfSet + 3 + (p.frame m).nState + 3 * (p.frame m).cbW.length + 3 * (p.frame m).cbW.length := by
  rw [fieldWidths_eq]
  simp only [List.length_append, length_flatten_replicate, length_flatten_bookBlocks, List.length_replicate,
    List.length_cons, List.length_nil]
  omega

theorem fieldWidth_lsf {i j : Nat} (hi : i < (p.frame m).nLsfSet) (hj : j < 3) :
    fieldWidth p m (3 * i + j) = [6, 7, 7].getD j 0 := by
  rw [fieldWidth, fieldWidths_eq, List.getD_append _ _ _ _ (by rw [length_flatten_replicate]; omega),
    getD_flatten_three (by simp) (by simpa) hj, List.getD_replicate _ hi]

theorem fieldWidth_header {j : Nat} (hj : j < 3) :
    fieldWidth p m (3 * (p.frame m).nLsfSet + j) = [(p.frame m).startW, 1, 6].getD j 0 := by
  rw [fieldWidth, fieldWidths_eq, getD_append_add (length_flatten_replicate _ _ _ _), List.getD_append _ _ _ _ hj]

theorem fieldWidth_state {i : Nat} (hi : i < (p.frame m).nState) :
    fieldWidth p m (3 * (p.frame m).nLsfSet + 3 + i) = 3 := by
  rw [fieldWidth, fieldWidths_eq, Nat.add_assoc, getD_append_add (length_flatten_replicate _ _ _ _),
    getD_append_add (n := 3) rfl, List.getD_append _ _ _ _ (by simpa), List.getD_replicate _ hi]

theorem fieldWidth_book {v j : Nat} (hv : v < (p.frame m).cbW.length) (hj : j < 3) :
    fieldWidth p m (3 * (p.frame m).nLsfSet + 3 + (p.frame m).nState + 3 * v + j) =
      (bookBlock ((p.frame m).cbW.getD v (0, 0, 0))).getD j 0 := by
  have hblock : ((p.frame m).cbW.map bookBlock).getD v [] = bookBlock ((p.frame m).cbW.getD v (0, 0, 0)) := by
    simp [List.getD_eq_getElem?_getD, hv]
  simp only [fieldWidth, fieldWidths_eq, Nat.add_assoc]
  rw [getD_append_add (length_flatten_replicate _ _ _ _), getD_append_add (n := 3) rfl,
    getD_append_add List.length_replicate, List.getD_append _ _ _ _ (by rw [length_flatten_bookBlocks]; omega),
    getD_flatten_three (List.forall_mem_map.2 fun _ _ => rfl) (by rwa [List.length_map]) hj, hblock]

theorem fieldWidth_gain {v j : Nat} (hv : v < (p.frame m).cbW.length) (hj : j < 3) :
    fieldWidth p m (3 * (p.frame m).nLsfSet + 3 + (p.frame m).nState + 3 * (p.frame m).cbW.length + 3 * v + j) =
      [5, 4, 3].getD j 0 := by
  simp only [fieldWidth, fieldWidths_eq, Nat.add_assoc]
  rw [getD_append_add (length_flatten_replicate _ _ _ _), getD_append_add (n := 3) rfl,
    getD_append_add List.length_replicate, getD_append_add (length_flatten_bookBlocks _),
    getD_flatten_three (by simp) (by simpa) hj, List.getD_replicate _ hv]

theorem startField_lt : startField p m < (fieldWidths p m).length := by
  rw [fieldWidths_length, startField]
  omega

/-- Without a table: one segment a field, in order (R402). -/
theorem layout_canonical (h : (p.frame m).layout = none) :
    (layout p m).length = (fieldWidths p m).length ∧ ∀ f, f < (fieldWidths p m).length →
      (layout p m)[f]? = some { f := f, hi := fieldWidth p m f - 1, lo := 0 } := by
  rw [layout, h, Option.getD_none]
  refine ⟨by simp [canonicalLayout], fun f hf => ?_⟩
  simp [canonicalLayout, fieldWidth, hf]

end

/-! ### The bits of a segment (R402) -/

theorem segment_bits_length (g : Segment) : (Segment.bits g).length = g.hi + 1 - g.lo := by simp [Segment.bits]

theorem mem_segment_bits (g : Segment) (f b : Nat) : (f, b) ∈ Segment.bits g ↔ g.f = f ∧ g.lo ≤ b ∧ b ≤ g.hi := by
  simp only [Segment.bits, List.mem_reverse, List.mem_map, List.mem_range, Prod.mk.injEq]
  constructor
  · rintro ⟨i, hi, rfl, rfl⟩
    exact ⟨rfl, by omega, by omega⟩
  · rintro ⟨rfl, hlo, hhi⟩
    exact ⟨b - g.lo, by omega, rfl, by omega⟩

theorem segment_bits_nodup (g : Segment) : (Segment.bits g).Nodup :=
  List.nodup_reverse.2 (List.nodup_range.map fun i j h => by simpa using h)

/-- Bit `hi` first: bit `b` of a segment stands `hi - b` places after its start. -/
theorem getElem?_segment_bits {g : Segment} {b : Nat} (hlo : g.lo ≤ b) (hhi : b ≤ g.hi) :
    (Segment.bits g)[g.hi - b]? = some (g.f, b) := by
  rw [Segment.bits, List.getElem?_reverse (by simp; omega)]
  simp only [List.length_map, List.length_range, List.getElem?_map]
  rw [List.getElem?_range (by omega)]
  simp only [Option.map_some, Option.some.injEq, Prod.mk.injEq, true_and]
  omega

/-! ### The bits of a layout (R402) -/

theorem layoutBits_cons (g : Segment) (l : List Segment) : layoutBits (g :: l) = Segment.bits g ++ layoutBits l := rfl

theorem segmentStart_succ (g : Segment) (l : List Segment) (i : Nat) :
    segmentStart (g :: l) (i + 1) = (Segment.bits g).length + segmentStart l i := by
  simp [segmentStart, segment_bits_length]

theorem layoutBits_length (l : List Segment) : (layoutBits l).length = segmentStart l l.length := by
  simp [layoutBits, segmentStart, List.length_flatMap, segment_bits_length]

/-- Bit `b` of segment `i` stands at the segment's start and `hi - b` places on. -/
theorem getElem?_layoutBits {l : List Segment} {i : Nat} {g : Segment} (hg : l[i]? = some g) {b : Nat} (hlo : g.lo ≤ b)
    (hhi : b ≤ g.hi) : (layoutBits l)[segmentStart l i + (g.hi - b)]? = some (g.f, b) := by
  induction l generalizing i with
  | nil => simp at hg
  | cons g' l ih =>
    rw [layoutBits_cons]
    cases i with
    | zero =>
      obtain rfl : g' = g := by simpa using hg
      have hstart : segmentStart (g' :: l) 0 = 0 := rfl
      rw [hstart, Nat.zero_add, List.getElem?_append_left (by rw [segment_bits_length]; omega)]
      exact getElem?_segment_bits hlo hhi
    | succ i =>
      rw [segmentStart_succ, Nat.add_assoc, List.getElem?_append_right (by omega), Nat.add_sub_cancel_left]
      exact ih (by simpa using hg)

/-- A field bit is placed once for each segment that names it. -/
theorem count_layoutBits (l : List Segment) (f b : Nat) :
    (layoutBits l).count (f, b) = l.countP fun g => g.f = f ∧ g.lo ≤ b ∧ b ≤ g.hi := by
  induction l with
  | nil => rfl
  | cons g l ih =>
    rw [layoutBits_cons, List.count_append, ih, List.countP_cons, (segment_bits_nodup g).count, add_comm]
    simp only [mem_segment_bits, decide_eq_true_eq]

section
variable {p : Params} {m : Mode} (hframe : FrameOk p m)
include hframe

/-- The layout places the bits of the fields, and no others. -/
theorem mem_layoutBits {f b : Nat} :
    (f, b) ∈ layoutBits (layout p m) ↔ f < (fieldWidths p m).length ∧ b < fieldWidth p m f := by
  constructor
  · intro hmem
    obtain ⟨g, hg, hbit⟩ := List.mem_flatMap.1 hmem
    obtain ⟨rfl, -, hhi⟩ := (mem_segment_bits g f b).1 hbit
    obtain ⟨hf, -, hwidth⟩ := hframe.segments g hg
    exact ⟨hf, hhi.trans_lt hwidth⟩
  · rintro ⟨hf, hb⟩
    rw [← List.count_pos_iff, count_layoutBits, hframe.once f hf b hb]
    exact Nat.one_pos

theorem layoutBits_nodup : (layoutBits (layout p m)).Nodup := by
  rw [List.nodup_iff_count_eq_one]
  rintro ⟨f, b⟩ hmem
  obtain ⟨hf, hb⟩ := (mem_layoutBits hframe).1 hmem
  rw [count_layoutBits, hframe.once f hf b hb]

/-- The layout places as many bits as the fields have. -/
theorem layoutBits_length_eq_sum : (layoutBits (layout p m)).length = (fieldWidths p m).sum := by
  have hbits : (layoutBits (layout p m)).toFinset =
      ((Finset.range (fieldWidths p m).length).sigma fun f => Finset.range (fieldWidth p m f)).map
        (Equiv.sigmaEquivProd Nat Nat).toEmbedding := by
    ext ⟨f, b⟩
    simp [mem_layoutBits hframe, Equiv.sigmaEquivProd]
  rw [← List.toFinset_card_of_nodup (layoutBits_nodup hframe), hbits, Finset.card_map, Finset.card_sigma]
  simp only [Finset.card_range, Finset.sum_range, fieldWidth]
  simp

theorem layoutBits_length_le : (layoutBits (layout p m)).length ≤ 8 * Config.frameBytes m :=
  (layoutBits_length_eq_sum hframe).trans_le hframe.total

/-- The place of a field bit, found by searching for it. -/
theorem framePos_of_getElem? {k f b : Nat} (h : (layoutBits (layout p m))[k]? = some (f, b)) :
    framePos (layout p m) f b = k := by
  obtain ⟨hk, hbit⟩ := List.getElem?_eq_some_iff.1 h
  rw [framePos, ← hbit]
  exact (layoutBits_nodup hframe).idxOf_getElem k hk

theorem getElem?_framePos {f b : Nat} (hf : f < (fieldWidths p m).length) (hb : b < fieldWidth p m f) :
    (layoutBits (layout p m))[framePos (layout p m) f b]? = some (f, b) :=
  List.getElem?_idxOf ((mem_layoutBits hframe).2 ⟨hf, hb⟩)

theorem fieldWidth_range {f : Nat} (hf : f < (fieldWidths p m).length) :
    1 ≤ fieldWidth p m f ∧ fieldWidth p m f ≤ 16 := by
  rw [fieldWidth, List.getD_eq_getElem _ _ hf]
  exact hframe.widths _ (List.getElem_mem hf)

end

end Sys2Proof.Machine
end

section
/-! The frame in memory (46_bitstream.md R405, R410; 20_memory.md R86, R87): the words PACK and UNPACK write, bit by bit,
and that each undoes the other (R415). -/

namespace Sys2Proof.Machine

/-! ### Sums of bits -/

/-- The sum of the powers of two at the set bits, read as a mask. -/
theorem sumTo_bits_eq_maskOf (n : Nat) (f : Nat → Bool) :
    (sumTo n fun b => if f b then 2 ^ b else 0) = maskOf ((List.range n).map f) := by
  rw [total_eq_sumTo]
  induction n generalizing f with
  | zero => rfl
  | succ n ih =>
    rw [List.range_succ_eq_map, List.map_cons, List.map_map, maskOf, Finset.sum_range_succ', ← ih, Finset.mul_sum,
      add_comm]
    congr 1
    refine Finset.sum_congr rfl fun b _ => ?_
    simp only [Function.comp_apply]
    split_ifs <;> ring

theorem toNat_ofInt16 {v : Int} (h : 0 ≤ v ∧ v < 65536) : (BitVec.ofInt 16 v).toNat = v.toNat := by
  rw [BitVec.toNat_ofInt]
  omega

/-- A mask of at most 16 bits as a word: its value. -/
theorem toNat_maskWord {n : Nat} (hn : n ≤ 16) (f : Nat → Bool) :
    (BitVec.ofInt 16 (maskOf ((List.range n).map f))).toNat = (maskOf ((List.range n).map f)).toNat ∧
    (maskOf ((List.range n).map f)).toNat < 2 ^ n := by
  obtain ⟨-, hpos, hlt⟩ := maskOf_map_range n f
  have hpow : (2 : Int) ^ n ≤ 2 ^ 16 := pow_le_pow_right₀ (by norm_num) hn
  refine ⟨toNat_ofInt16 (by omega), ?_⟩
  zify
  rwa [Int.toNat_of_nonneg hpos]

/-- A mask of at most 16 bits as a word: its bits, and none beyond them. -/
theorem getLsbD_maskWord {n : Nat} (hn : n ≤ 16) (f : Nat → Bool) (b : Nat) :
    (BitVec.ofInt 16 (maskOf ((List.range n).map f))).getLsbD b = (decide (b < n) && f b) := by
  obtain ⟨hword, hlt⟩ := toNat_maskWord hn f
  rw [← BitVec.testBit_toNat, hword]
  rcases Nat.lt_or_ge b n with hb | hb
  · simp [hb, (maskOf_map_range n f).1 b hb]
  · rw [Nat.testBit_eq_false_of_lt (hlt.trans_le (Nat.pow_le_pow_right (by norm_num) hb))]
    simp [Nat.not_lt.2 hb]

/-! ### Fields and frames as words (R405, R410; 20_memory.md R86, R87) -/

theorem getD_readU16s (m : Memory) (a : Nat) {n i : Nat} (hi : i < n) :
    (m.readU16s a n).getD i 0 = (m.readWord (a + i)).toNat := by
  simp [Memory.readU16s, List.getD_eq_getElem?_getD, hi]

theorem bufferBit_readU16s (m : Memory) (y : Nat) {n k : Nat} (hk : k < 8 * n) :
    bufferBit (m.readU16s y n) k = frameBitAt m y k := by
  rw [bufferBit, getD_readU16s m y (by omega), BitVec.testBit_toNat]
  rfl

theorem frameBits_of_getElem? {l : List Segment} {k f b : Nat} (h : (layoutBits l)[k]? = some (f, b))
    (fields : List Nat) : frameBits l fields k = (fields.getD f 0).testBit b := by
  simp only [frameBits, h]

theorem frameBits_of_le {l : List Segment} {k : Nat} (h : (layoutBits l).length ≤ k) (fields : List Nat) :
    frameBits l fields k = false := by
  simp only [frameBits, List.getElem?_eq_none h]

/-- Bit `j` of a byte is the frame bit `7 - j` places on (20_memory.md R87). -/
theorem frameByte_eq_maskOf (bits : Nat → Bool) (k : Nat) :
    frameByte bits k = maskOf ((List.range 8).map fun j => bits (8 * k + (7 - j))) := by
  rw [← sumTo_bits_eq_maskOf, frameByte, total_eq_sumTo, total_eq_sumTo, ← Finset.sum_range_reflect]
  refine Finset.sum_congr rfl fun j hj => ?_
  have hj : j < 8 := Finset.mem_range.1 hj
  rw [show 7 - (8 - 1 - j) = j by omega]

section
variable (m : Memory) (y : Nat) (l : List Segment) (fields : List Nat) {n : Nat}

/-- The byte word of a frame packed into the memory. -/
theorem readWord_packFields {k : Nat} (hk : k < n) : (m.writeVec y (packFields l n fields)).readWord (y + k) =
    BitVec.ofInt 16 (maskOf ((List.range 8).map fun j => frameBits l fields (8 * k + (7 - j)))) := by
  rw [readWord_writeVec, packFields_length, if_pos (by omega), Nat.add_sub_cancel_left, ← frameByte_eq_maskOf]
  exact congrArg _ ((nth_tabulate _ _ _).trans (if_pos hk))

theorem getLsbD_packFields {k : Nat} (hk : k < n) (b : Nat) :
    ((m.writeVec y (packFields l n fields)).readWord (y + k)).getLsbD b =
      (decide (b < 8) && frameBits l fields (8 * k + (7 - b))) := by
  rw [readWord_packFields m y l fields hk, getLsbD_maskWord (by norm_num)]

/-- The frame bits of a frame packed into the memory. -/
theorem frameBitAt_packFields {k : Nat} (hk : k < 8 * n) :
    frameBitAt (m.writeVec y (packFields l n fields)) y k = frameBits l fields k := by
  rw [frameBitAt, getLsbD_packFields m y l fields (by omega), decide_eq_true (by omega), Bool.true_and]
  congr 1
  omega

end

/-! ### The frame and the fields in the memory -/

/-- The bytes PACK makes of the fields at `fd`. -/
def packedFrame (p : Params) (mode : Mode) (m : Memory) (fd : Nat) : List Int :=
  packFields (layout p mode) (Config.frameBytes mode) (m.readU16s fd (fieldCount p mode))

/-- The fields UNPACK makes of the frame at `y`. -/
def unpackedFields (p : Params) (mode : Mode) (m : Memory) (y : Nat) : List Int :=
  unpackFields (layout p mode) (fieldWidths p mode) (m.readU16s y (Config.frameBytes mode))

section
variable {p : Params} {mode : Mode} (m mem : Memory) (y fd : Nat)

theorem packedFrame_length : (packedFrame p mode mem fd).length = Config.frameBytes mode := packFields_length _ _ _

theorem unpackedFields_length : (unpackedFields p mode mem y).length = (fieldWidths p mode).length :=
  unpackFields_length _ _ _

/-- The bits of a field, read from their places. -/
theorem nth_unpackedFields {f : Nat} (hf : f < (fieldWidths p mode).length) :
    nth (unpackedFields p mode mem y) f = maskOf ((List.range (fieldWidth p mode f)).map fun b =>
      bufferBit (mem.readU16s y (Config.frameBytes mode)) (framePos (layout p mode) f b)) := by
  rw [← sumTo_bits_eq_maskOf]
  simp [nth, unpackedFields, unpackFields, unpackField, fieldWidth, List.getD_eq_getElem?_getD, hf]

theorem readWord_unpackedFields {f : Nat} (hf : f < (fieldWidths p mode).length) :
    (m.writeVec fd (unpackedFields p mode mem y)).readWord (fd + f) =
      BitVec.ofInt 16 (nth (unpackedFields p mode mem y) f) := by
  rw [readWord_writeVec, unpackedFields_length, if_pos (by omega), Nat.add_sub_cancel_left]
  rfl

variable (hframe : FrameOk p mode)
include hframe

/-- A frame bit the layout names holds its field bit. -/
theorem frameBitAt_packedFrame {k f b : Nat} (h : (layoutBits (layout p mode))[k]? = some (f, b)) :
    frameBitAt (m.writeVec y (packedFrame p mode mem fd)) y k = (mem.readWord (fd + f)).getLsbD b := by
  have hk : k < (layoutBits (layout p mode)).length := (List.getElem?_eq_some_iff.1 h).1
  have hf : f < fieldCount p mode := ((mem_layoutBits hframe).1 (List.mem_of_getElem? h)).1
  rw [packedFrame, frameBitAt_packFields _ _ _ _ (hk.trans_le (layoutBits_length_le hframe)), frameBits_of_getElem? h,
    getD_readU16s mem fd hf, BitVec.testBit_toNat]

/-- A field's word holds the frame bits at the places of its bits, and nothing beyond its width. -/
theorem getLsbD_unpackedFields {f : Nat} (hf : f < (fieldWidths p mode).length) (b : Nat) :
    ((m.writeVec fd (unpackedFields p mode mem y)).readWord (fd + f)).getLsbD b =
      (decide (b < fieldWidth p mode f) && frameBitAt mem y (framePos (layout p mode) f b)) := by
  rw [readWord_unpackedFields _ _ _ _ hf, nth_unpackedFields _ _ hf, getLsbD_maskWord (fieldWidth_range hframe hf).2]
  by_cases hb : b < fieldWidth p mode f
  · have hplace := (List.getElem?_eq_some_iff.1 (getElem?_framePos hframe hf hb)).1
    rw [bufferBit_readU16s _ _ (hplace.trans_le (layoutBits_length_le hframe))]
  · rw [decide_eq_false hb, Bool.false_and, Bool.false_and]

/-- A field is zero-extended: its word holds its value, below its width (R410). -/
theorem toNat_unpackedFields {f : Nat} (hf : f < (fieldWidths p mode).length) :
    ((m.writeVec fd (unpackedFields p mode mem y)).readWord (fd + f)).toNat < 2 ^ fieldWidth p mode f ∧
    nth (unpackedFields p mode mem y) f = ((m.writeVec fd (unpackedFields p mode mem y)).readWord (fd + f)).toNat := by
  rw [readWord_unpackedFields _ _ _ _ hf, nth_unpackedFields _ _ hf]
  obtain ⟨hword, hlt⟩ := toNat_maskWord (fieldWidth_range hframe hf).2 fun b =>
    bufferBit (mem.readU16s y (Config.frameBytes mode)) (framePos (layout p mode) f b)
  rw [hword]
  exact ⟨hlt, (Int.toNat_of_nonneg (maskOf_map_range _ _).2.1).symm⟩

end

/-! ### Both ways (R415) -/

section
variable {p : Params} {mode : Mode} (hframe : FrameOk p mode) (m m' mem : Memory) (y fd fd' y' : Nat)
include hframe

/-- A field that fits its width, packed and unpacked. -/
theorem readWord_unpacked_packed {f : Nat} (hf : f < (fieldWidths p mode).length)
    (hfit : (mem.readWord (fd + f)).toNat < 2 ^ fieldWidth p mode f) :
    (m.writeVec fd' (unpackedFields p mode (m'.writeVec y (packedFrame p mode mem fd)) y)).readWord (fd' + f) =
      mem.readWord (fd + f) := by
  refine BitVec.eq_of_getLsbD_eq fun b _ => ?_
  rw [getLsbD_unpackedFields _ _ _ _ hframe hf]
  rcases Nat.lt_or_ge b (fieldWidth p mode f) with hb | hb
  · rw [decide_eq_true hb, Bool.true_and, frameBitAt_packedFrame _ _ _ _ hframe (getElem?_framePos hframe hf hb)]
  · rw [decide_eq_false (Nat.not_lt.2 hb), Bool.false_and, ← BitVec.testBit_toNat,
      Nat.testBit_eq_false_of_lt (hfit.trans_le (Nat.pow_le_pow_right (by norm_num) hb))]

variable (hpadding : ∀ k, (fieldWidths p mode).sum ≤ k → k < 8 * Config.frameBytes mode → frameBitAt mem y k = false)
include hpadding

/-- A frame bit, unpacked and packed: a field's bit at its place, or padding. -/
theorem frameBits_unpacked {k : Nat} (hk : k < 8 * Config.frameBytes mode) :
    frameBits (layout p mode)
      ((m.writeVec fd (unpackedFields p mode mem y)).readU16s fd (fieldCount p mode)) k = frameBitAt mem y k := by
  cases hbit : (layoutBits (layout p mode))[k]? with
  | none =>
    have hlen := List.getElem?_eq_none_iff.1 hbit
    rw [frameBits_of_le hlen, hpadding k ((layoutBits_length_eq_sum hframe).symm.trans_le hlen) hk]
  | some fb =>
    obtain ⟨hf, hb⟩ := (mem_layoutBits hframe).1 (List.mem_of_getElem? hbit)
    rw [frameBits_of_getElem? hbit, getD_readU16s _ _ (n := fieldCount p mode) hf, BitVec.testBit_toNat,
      getLsbD_unpackedFields _ _ _ _ hframe hf, decide_eq_true hb, Bool.true_and, framePos_of_getElem? hframe hbit]

/-- A byte of a frame whose padding is 0, unpacked and packed. -/
theorem readWord_packed_unpacked {k : Nat} (hk : k < Config.frameBytes mode) :
    (m'.writeVec y' (packedFrame p mode (m.writeVec fd (unpackedFields p mode mem y)) fd)).readWord (y' + k) =
      mem.readWord (y + k) &&& 0xFF := by
  have hmask : ∀ b, b < 16 → (0xFF : Word16).getLsbD b = decide (b < 8) := by decide
  refine BitVec.eq_of_getLsbD_eq fun b hb => ?_
  rw [packedFrame, getLsbD_packFields _ _ _ _ hk, BitVec.getLsbD_and, hmask b hb]
  by_cases hb : b < 8
  · rw [decide_eq_true hb, Bool.true_and, Bool.and_true, frameBits_unpacked hframe _ _ _ _ hpadding (by omega),
      frameBitAt, show (8 * k + (7 - b)) / 8 = k by omega, show 7 - (8 * k + (7 - b)) % 8 = b by omega]
  · rw [decide_eq_false hb, Bool.false_and, Bool.and_false]

end

end Sys2Proof.Machine
end

section
/-! PACK and UNPACK (46_bitstream.md R405 to R415): their checks, their ends, and the statements about them. -/

namespace Sys2Proof.Machine

/-! ### A command that ends without an error -/

/-- A run of the checks that ends without an error ran the body. -/
theorem complete_of_runChecked {s t body : State} {args vals : List (Option CmdError)} {regions : List Region}
    (hargs : ∀ c ∈ args, Reports c) (hvals : ∀ c ∈ vals, Reports c)
    (h : runChecked s args regions vals body = .next t) (hok : t.status.err = .ok) : t = complete body := by
  obtain ⟨-, -, -, -, ht⟩ | ⟨e, he, rfl⟩ := runChecked_cases h
  · exact ht
  · have hcode : e.code = .ok := hok
    simp only [List.mem_append, List.mem_map, List.mem_singleton] at he
    obtain ((he | ⟨r, -, he⟩) | he) | he := he
    · exact absurd hcode (hargs _ he e rfl)
    · exact absurd hcode (reports_checkRegion _ r e he)
    · exact absurd hcode (reports_checkPairs _ e he.symm)
    · exact absurd hcode (hvals _ he e rfl)

/-! ### PACK (R405) -/

theorem fieldsFit_readU16s {widths : List Nat} (m : Memory) (a : Nat)
    (h : ∀ f, f < widths.length → (m.readWord (a + f)).toNat < 2 ^ widths.getD f 0) :
    fieldsFit widths (m.readU16s a widths.length) = true := by
  rw [fieldsFit, List.all_eq_true]
  intro fit hfit
  obtain ⟨f, hf, rfl⟩ := List.getElem_of_mem hfit
  have hlt : f < widths.length := by
    rw [List.length_zipWith] at hf
    omega
  have hword := h f hlt
  rw [List.getD_eq_getElem _ _ hlt] at hword
  simpa [Memory.readU16s] using hword

theorem exec_pack {s : State} (mode : Mode) {fd y : Nat} (hfd : argIs s 0 fd) (hy : argIs s 1 y)
    (hfitfd : fits s fd (fieldWidths s.params mode).length) (hfity : fits s y (Config.frameBytes mode))
    (happart : apart y (Config.frameBytes mode) fd (fieldWidths s.params mode).length)
    (hfields : ∀ f, f < (fieldWidths s.params mode).length →
      (s.dmem.readWord (fd + f)).toNat < 2 ^ fieldWidth s.params mode f) :
    exec (.pack mode) s = .next { ended s with
      dmem := s.dmem.writeVec y (packedFrame s.params mode s.dmem fd)
      res0 := BitVec.ofNat 32 (Config.frameBytes mode) } := by
  show execPack mode s = _
  unfold execPack
  simp only [(argIs_spec hfd).1, (argIs_spec hy).1, fieldCount]
  rw [runChecked_inOut hfd hy (by simp [checkArg_of_argIs hfd, checkArg_of_argIs hy]) hfitfd hfity (.inl happart)
    (by simp [checkVal, fieldsFit_readU16s s.dmem fd hfields]), State.setRes0, BitVec.ofInt_natCast]
  rfl

/-- What a PACK without an error leaves in the memory. -/
theorem dmem_of_pack {s t : State} {mode : Mode} {fd y : Nat} (hfd : argIs s 0 fd) (hy : argIs s 1 y)
    (h : exec (.pack mode) s = .next t) (hok : t.status.err = .ok) :
    t.dmem = s.dmem.writeVec y (packedFrame s.params mode s.dmem fd) := by
  have hend := complete_of_runChecked (by simp) (by simp) h hok
  simp only [(argIs_spec hfd).1, (argIs_spec hy).1] at hend
  exact hend ▸ rfl

/-! ### UNPACK (R410, R412) -/

theorem modeBit_eq (mode : Mode) : BitVec.ofInt 32 (modeBit mode) = if mode = .a then 0 else 1 := by
  cases mode <;> rfl

/-- The body of UNPACK. -/
def unpackBody (s : State) (mode : Mode) (y fd : Nat) : State :=
  ((s.writeVec fd (unpackedFields s.params mode s.dmem y)).setRes0 (modeBit mode)).updateIf
    (!startLegal s.params mode (unpackedFields s.params mode s.dmem y)) State.setBiterr

section
variable {s : State} {c : BitVec 4} {q : Ctx} (hq : s.ctxAt c.toNat = some q) (hkind : q.kind = .decoder)
include hq hkind

theorem exec_unpack_empty (hlen : (s.args[1]).toNat = 0) : exec (.unpack c) s =
    .next (alsoBiterr true { ended s with res0 := if q.mode = .a then 0 else 1 }) := by
  have hcount : s.argU32 1 = 0 := hlen
  show execUnpack c s = _
  rw [execUnpack, withCtx_open hq (by simp [hkind])]
  dsimp only
  rw [if_pos hcount, ← modeBit_eq]
  simp [complete_eq_ended, ended, alsoBiterr, State.setBiterr, State.setRes0]

/-- With the byte count of the context's mode, UNPACK runs its checks and its body. -/
theorem execUnpack_frame {y fd : Nat} (hlen : (s.args[1]).toNat = Config.frameBytes q.mode) (hy : argIs s 0 y)
    (hfd : argIs s 2 fd) : exec (.unpack c) s = runChecked s [s.checkArg 0, s.checkArg 2]
      [s.input 0 (Config.frameBytes q.mode), s.output 2 (fieldWidths s.params q.mode).length] []
      (unpackBody s q.mode y fd) := by
  have hcount : s.argU32 1 = Config.frameBytes q.mode := hlen
  have hpos : Config.frameBytes q.mode ≠ 0 := by cases q.mode <;> decide
  have hmode : modeOfLength (Config.frameBytes q.mode) = some q.mode := by cases q.mode <;> rfl
  show execUnpack c s = _
  rw [execUnpack, withCtx_open hq (by simp [hkind])]
  simp only [hcount, if_neg hpos, if_neg (not_not_intro hmode), (argIs_spec hy).1, (argIs_spec hfd).1]
  rfl

end

theorem exec_unpack {s : State} {c : BitVec 4} {q : Ctx} (hq : s.ctxAt c.toNat = some q) (hkind : q.kind = .decoder)
    {y fd : Nat} (hy : argIs s 0 y) (hlen : (s.args[1]).toNat = Config.frameBytes q.mode) (hfd : argIs s 2 fd)
    (hfity : fits s y (Config.frameBytes q.mode)) (hfitfd : fits s fd (fieldWidths s.params q.mode).length)
    (happart : apart fd (fieldWidths s.params q.mode).length y (Config.frameBytes q.mode)) :
    exec (.unpack c) s = .next (alsoBiterr
      (!startLegal s.params q.mode (unpackedFields s.params q.mode s.dmem y)) { ended s with
        dmem := s.dmem.writeVec fd (unpackedFields s.params q.mode s.dmem y)
        res0 := if q.mode = .a then 0 else 1 }) := by
  have hpair := pair_input_output (l := []) hy hfd (.inl happart)
  rw [execUnpack_frame hq hkind hlen hy hfd,
    runChecked_ok (by simp [checkArg_of_argIs hy, checkArg_of_argIs hfd])
      (by simp [input_fits hy hfity, output_fits hfd hfitfd]) (by simp [hpair]) (by simp), unpackBody, ← modeBit_eq]
  cases startLegal s.params q.mode (unpackedFields s.params q.mode s.dmem y) <;>
    simp [complete_eq_ended, ended, alsoBiterr, State.updateIf, State.setBiterr, State.setRes0, State.writeVec]

/-- What an UNPACK without an error leaves in the memory: the context was a decoder's, and the checks passed. -/
theorem dmem_of_unpack {s t : State} {c : BitVec 4} {q : Ctx} (hq : s.ctxAt c.toNat = some q) {y fd : Nat}
    (hy : argIs s 0 y) (hlen : (s.args[1]).toNat = Config.frameBytes q.mode) (hfd : argIs s 2 fd)
    (h : exec (.unpack c) s = .next t) (hok : t.status.err = .ok) :
    t.dmem = s.dmem.writeVec fd (unpackedFields s.params q.mode s.dmem y) := by
  obtain ⟨x, hx, hkind, -⟩ | hctx := withCtx_cases h
  · obtain rfl : q = x := Option.some.inj (hq.symm.trans hx)
    have hend := complete_of_runChecked (by simp) (by simp)
      ((execUnpack_frame hq (hkind _ rfl) hlen hy hfd).symm.trans h) hok
    rw [hend, unpackBody]
    cases startLegal s.params q.mode (unpackedFields s.params q.mode s.dmem y) <;> rfl
  · obtain rfl : t = raise ctxError s := by simpa using hctx
    exact nomatch hok

/-- The start index is legal when it lies between 1 and the largest one (R412). -/
theorem not_startLegal_eq {p : Params} {mode : Mode} {fields : List Int} {v : Nat}
    (h : nth fields (startField p mode) = v) : (!startLegal p mode fields) =
      (decide (v < 1) || decide ((p.frame mode).startMax < v)) := by
  rw [startLegal, h, ← decide_not, ← Bool.decide_or, decide_eq_decide]
  omega

/-! ### The statements -/

/-- Settles O28: the field table by its parts, the frame bit by bit from the layout's order. -/
theorem packResult : Obligations.PackResult := by
  unfold Obligations.PackResult
  refine ⟨fun p mode => ⟨fieldWidths_length p mode, fun i hi => ?_, ?_, fun i => fieldWidth_state p mode,
    fun v hv => ⟨?_, ?_⟩⟩, fun s mode fd y hp hfd hy hfitfd hfity happart hfields => ?_⟩
  · exact ⟨fieldWidth_lsf p mode hi (j := 0) (by norm_num), fieldWidth_lsf p mode hi (j := 1) (by norm_num),
      fieldWidth_lsf p mode hi (j := 2) (by norm_num)⟩
  · exact ⟨fieldWidth_header p mode (j := 0) (by norm_num), fieldWidth_header p mode (j := 1) (by norm_num),
      fieldWidth_header p mode (j := 2) (by norm_num)⟩
  · exact congrArg₂ _ (fieldWidth_book p mode hv (j := 0) (by norm_num)) (congrArg₂ _
      (fieldWidth_book p mode hv (j := 1) (by norm_num)) (fieldWidth_book p mode hv (j := 2) (by norm_num)))
  · exact ⟨fieldWidth_gain p mode hv (j := 0) (by norm_num), fieldWidth_gain p mode hv (j := 1) (by norm_num),
      fieldWidth_gain p mode hv (j := 2) (by norm_num)⟩
  · have hframe := hp.frame mode
    have houtside := sameOutside_writeVec s.dmem y (packedFrame s.params mode s.dmem fd)
    rw [packedFrame_length] at houtside
    refine ⟨layout_canonical s.params mode, _, exec_pack mode hfd hy hfitfd hfity happart hfields,
      fun i g hg b hlo hhi => frameBitAt_packedFrame _ _ _ _ hframe (getElem?_layoutBits hg hlo hhi),
      fun k hstart hk => ?_, fun k hk => ?_, houtside⟩
    · rw [packedFrame, frameBitAt_packFields _ _ _ _ hk, frameBits_of_le ((layoutBits_length _).trans_le hstart)]
    · rw [packedFrame, readWord_packFields _ _ _ _ hk]
      obtain ⟨hword, hlt⟩ := toNat_maskWord (n := 8) (by norm_num) fun j =>
        frameBits (layout s.params mode) (s.dmem.readU16s fd (fieldCount s.params mode)) (8 * k + (7 - j))
      exact hword.trans_lt hlt

/-- Settles O29: a field bit is read from its place, which is the one its segment gives it. -/
theorem unpackResult : Obligations.UnpackResult := by
  unfold Obligations.UnpackResult
  intro s c q hq hkind mode nf n table start modeNo
  refine ⟨exec_unpack_empty hq hkind, fun hp y fd hy hlen hfd hfity hfitfd happart => ?_⟩
  have hframe := hp.frame q.mode
  have hstart := not_startLegal_eq (toNat_unpackedFields s.dmem s.dmem y fd hframe (startField_lt s.params q.mode)).2
  have houtside := sameOutside_writeVec s.dmem fd (unpackedFields s.params q.mode s.dmem y)
  rw [unpackedFields_length] at houtside
  refine ⟨_, hstart ▸ exec_unpack hq hkind hy hlen hfd hfity hfitfd happart, fun i g hg b hlo hhi => ?_,
    fun f hf => (toNat_unpackedFields _ _ _ _ hframe hf).1, houtside⟩
  have hplace := getElem?_layoutBits hg hlo hhi
  obtain ⟨hf, hb⟩ := (mem_layoutBits hframe).1 (List.mem_of_getElem? hplace)
  rw [getLsbD_unpackedFields _ _ _ _ hframe hf, decide_eq_true hb, Bool.true_and, framePos_of_getElem? hframe hplace]

/-- Settles O30: the memories the commands leave, word by word. -/
theorem packUnpackRoundTrip : Obligations.PackUnpackRoundTrip := by
  unfold Obligations.PackUnpackRoundTrip
  constructor
  · intro s t u v c q fd y fd' hp hparams nf n hfd hy hfields hpack hokt hmem hq hy' hlen hfd' hunpack hokv f hf
    rw [dmem_of_unpack hq hy' hlen hfd' hunpack hokv, hparams, hmem, dmem_of_pack hfd hy hpack hokt]
    exact readWord_unpacked_packed (hp.frame q.mode) _ _ _ _ _ _ hf (hfields f hf)
  · intro s t u v c q y fd y' hp hparams n hq hy hlen hfd hpadding hunpack hokt hmem hfd' hy' hpack hokv k hk
    rw [dmem_of_pack hfd' hy' hpack hokv, hparams, hmem, dmem_of_unpack hq hy hlen hfd hunpack hokt]
    exact readWord_packed_unpacked (hp.frame q.mode) _ _ _ _ _ _ hpadding hk

end Sys2Proof.Machine
end

section
/-! Errors before the checks of a command, and errors as such (60_exceptions.md R472, R475 steps 3 and 4). -/

namespace Sys2Proof.Machine

/-- Settles O38: of the two ends of a command one is the error, which writes the report alone. -/
theorem errorsArePrecise : Obligations.ErrorsArePrecise := by
  unfold Obligations.ErrorsArePrecise
  intro i s t h herr
  obtain ⟨e, -, hend⟩ | ⟨b, hend, -, -⟩ := exec_ends i s
  · obtain rfl : t = raise e s := by simpa [h] using hend
    exact ⟨e.info.toNat, e.info.isLt, raise_eq_endedError e s⟩
  · obtain rfl : t = complete b := by simpa [h] using hend
    exact absurd rfl herr

/-! ### ERR_CTX (R475 step 3) -/

theorem raise_ctxError (s : State) : raise ctxError s = endedError s .errCtx 15 := raise_eq_endedError _ _

/-- A command on a context that is closed, or not there. -/
theorem withCtx_closed {s : State} {c : BitVec 4} {kind : Option CtxKind} {k : Ctx → StepOutcome}
    (h : s.ctxAt c.toNat = none) : withCtx s c kind k = .next (endedError s .errCtx 15) := by
  rw [withCtx, h, ← raise_ctxError]

/-- A command on a context of the other kind. -/
theorem withCtx_otherKind {s : State} {c : BitVec 4} {kind : CtxKind} {k : Ctx → StepOutcome} {x : Ctx}
    (h : s.ctxAt c.toNat = some x) (hkind : kind ≠ x.kind) :
    withCtx s c (some kind) k = .next (endedError s .errCtx 15) := by
  rw [withCtx, h, ← raise_ctxError]
  simp [hkind]

theorem exec_chOpen_refused {s : State} {c : BitVec 4} {kind : CtxKind} {mode : Mode}
    (h : ¬ (c.toNat < s.params.nctx ∧ s.ctxAt c.toNat = none)) :
    exec (.chOpen c kind mode) s = .next (endedError s .errCtx 15) := by
  rw [← raise_ctxError]
  exact if_neg h

theorem ctxAt_beyond {s : State} {c : Nat} (h : s.params.nctx ≤ c) : s.ctxAt c = none := by
  rw [ctxAt_eq, if_neg h.not_gt]

/-! ### ERR_FORMAT (R475 step 4) -/

theorem eq_frameBytes_of_modeOfLength {len : Nat} {mode : Mode} (h : modeOfLength len = some mode) :
    len = Config.frameBytes mode := by
  unfold modeOfLength at h
  split_ifs at h with ha hb
  · obtain rfl := Option.some.inj h
    exact ha
  · obtain rfl := Option.some.inj h
    exact hb

theorem exec_unpack_wrongLength {s : State} {c : BitVec 4} {q : Ctx} (hq : s.ctxAt c.toNat = some q)
    (hkind : q.kind = .decoder) (hzero : (s.args[1]).toNat ≠ 0) (hlen : (s.args[1]).toNat ≠ Config.frameBytes q.mode) :
    exec (.unpack c) s = .next (endedError s .errFormat 1) := by
  have hzero' : s.argU32 1 ≠ 0 := hzero
  have hmode : modeOfLength (s.argU32 1) ≠ some q.mode := fun h => hlen (eq_frameBytes_of_modeOfLength h)
  show execUnpack c s = _
  rw [execUnpack, withCtx_open hq (by simp [hkind])]
  dsimp only
  rw [if_neg hzero', if_pos hmode, raise_eq_endedError]
  rfl

/-- Settles O40: the check of the context, then of UNPACK's byte count, each before every other check. -/
theorem contextAndFormatErrors : Obligations.ContextAndFormatErrors := by
  unfold Obligations.ContextAndFormatErrors
  refine ⟨fun s c kind mode => ⟨fun hclosed i hi => ?_, fun hbeyond => ?_, fun q hq => ⟨?_, fun hkind => ?_,
    fun hkind i hi => ?_⟩⟩, fun s c q hq hkind hzero hlen => ?_⟩
  · simp only [List.mem_cons, List.not_mem_nil, or_false] at hi
    obtain rfl | rfl | rfl | rfl | rfl | rfl | rfl := hi <;> exact withCtx_closed hclosed
  · exact ⟨ctxAt_beyond hbeyond, exec_chOpen_refused fun h => hbeyond.not_gt h.1⟩
  · exact exec_chOpen_refused fun h => by simp [hq] at h
  · exact withCtx_otherKind hq (by simp [hkind])
  · simp only [List.mem_cons, List.not_mem_nil, or_false] at hi
    obtain rfl | rfl | rfl | rfl := hi <;> exact withCtx_otherKind hq (by simp [hkind])
  · refine exec_unpack_wrongLength hq hkind hzero fun h => hlen ?_
    rw [h]
    cases q.mode <;> rfl

end Sys2Proof.Machine
end

section
/-! The host while a command is under way, reset, and the end of every accepted command (70_reset_and_hazards.md R510,
R520, R530). -/

namespace Sys2Proof.Machine

/-! ### Writes while a command is under way (R520) -/

/-- Only STATUS takes a write. -/
theorem writeBusy_ignored {r : HostReg} (hr : r ≠ .status) (v : Word32) (s : State) :
    writeBusy r v s = s.setHostviol := by
  cases r with
  | status => exact absurd rfl hr
  | _ => rfl

/-- Settles O49: the writes by the register they reach. -/
theorem writesWhileBusy : Obligations.WritesWhileBusy := by
  unfold Obligations.WritesWhileBusy
  refine fun s v hb => ⟨fun offset hoffset => ?_, fun hbit => ?_⟩
  · have hreg : ∃ r, accessedReg offset 32 = some r ∧ r ≠ .status := by
      simp only [List.mem_cons, List.not_mem_nil, or_false] at hoffset
      obtain rfl | rfl | rfl | rfl | rfl | rfl | rfl | rfl | rfl | rfl | rfl := hoffset <;>
        exact ⟨_, rfl, by decide⟩
    obtain ⟨r, hoffset, hr⟩ := hreg
    rw [hostAccess_write_busy r v hb hoffset, writeBusy_ignored hr]
    rfl
  · rw [hostAccess_write_status, hbit]
    simp

/-! ### Reset (R510) -/

theorem ctxAt_resetDrawn (p : Params) (m : Memory) (c : Nat) : (State.resetDrawn p m).ctxAt c = none := by
  rw [ctxAt_eq]
  split_ifs
  · obtain hc | hc := Nat.lt_or_ge c 16
    · simp [State.resetDrawn, hc]
    · rw [Vector.getElem?_eq_none hc]
      rfl
  · rfl

theorem ctxopen_resetDrawn (p : Params) (m : Memory) : (State.resetDrawn p m).ctxopen = 0 := by
  refine BitVec.eq_of_getLsbD_eq fun c hc => ?_
  rw [getLsbD_ctxopen _ hc, ctxAt_resetDrawn]
  simp

theorem statusWord_reset : Status.reset.word = 0 := by decide

/-- Settles O59: with no command under way each read is that of the register at its offset. -/
theorem resetValues : Obligations.ResetValues := by
  unfold Obligations.ResetValues
  refine fun p m r hr => ⟨?_, ctxAt_resetDrawn p m, rfl, rfl⟩
  simp only [List.mem_cons, List.not_mem_nil, or_false] at hr
  obtain rfl | rfl | rfl | rfl | rfl | rfl | rfl | rfl | rfl | rfl | rfl | rfl | rfl | rfl | rfl | rfl := hr
  on_goal 16 => exact ctxopen_resetDrawn p m
  on_goal 3 => exact statusWord_reset
  all_goals rfl

/-- Without a table every bit of every field is in the one segment of its field (46_bitstream.md R402), so a frame mode
is admissible when its widths are. -/
theorem frameOk_canonical {p : Params} {m : Mode} (hlayout : (p.frame m).layout = none)
    (hwidths : ∀ w ∈ fieldWidths p m, 1 ≤ w ∧ w ≤ 16) (htotal : (fieldWidths p m).sum ≤ 8 * Config.frameBytes m) :
    FrameOk p m := by
  obtain ⟨hlen, hsegment⟩ := layout_canonical p m hlayout
  have hpos {f : Nat} (hf : f < (fieldWidths p m).length) : 1 ≤ fieldWidth p m f := by
    rw [fieldWidth, List.getD_eq_getElem _ _ hf]
    exact (hwidths _ (List.getElem_mem hf)).1
  have hshape : ∀ g ∈ layout p m, g.f < (fieldWidths p m).length ∧ g.lo = 0 ∧ g.hi = fieldWidth p m g.f - 1 := by
    intro g hg
    obtain ⟨f, hf, hget⟩ := List.getElem_of_mem hg
    have hf' : f < (fieldWidths p m).length := hlen ▸ hf
    obtain rfl := Option.some.inj ((List.getElem?_eq_some_iff.2 ⟨hf, hget⟩).symm.trans (hsegment f hf'))
    exact ⟨hf', rfl, rfl⟩
  have hfields : (layout p m).map Segment.f = List.range (fieldWidths p m).length := by
    refine List.ext_getElem (by simp [hlen]) fun f hf hf' => ?_
    rw [List.length_map] at hf
    have hget := (List.getElem?_eq_getElem hf).symm.trans (hsegment f (hlen ▸ hf))
    rw [List.getElem_map, Option.some.inj hget, List.getElem_range]
  refine ⟨hwidths, htotal, fun g hg => ?_, fun f hf b hb => ?_⟩
  · obtain ⟨hf, hlo, hhi⟩ := hshape g hg
    have := hpos hf
    exact ⟨hf, by omega, by omega⟩
  · have hcount : ((layout p m).countP fun g => g.f = f ∧ g.lo ≤ b ∧ b ≤ g.hi) =
        (layout p m).countP ((· == f) ∘ Segment.f) := by
      refine List.countP_congr fun g hg => ?_
      obtain ⟨-, hlo, hhi⟩ := hshape g hg
      simp only [decide_eq_true_eq, Function.comp_apply, beq_iff_eq, and_iff_left_iff_imp]
      rintro rfl
      omega
    rw [hcount, ← List.countP_map, hfields]
    exact List.count_eq_one_of_mem List.nodup_range (List.mem_range.2 hf)

theorem frameOk_default (m : Mode) : FrameOk Params.default m := by
  cases m <;> exact frameOk_canonical rfl (by decide) (by decide)

theorem paramsOk_default : ParamsOk Params.default where
  dmemWords := by decide
  nctx := by decide
  nLsfSet := by decide
  frame := frameOk_default
  cbLmemMax := by decide
  gainScaleMin := by decide
  lags := by decide
  corrLen := by decide
  gainLvl := by decide
  noiseThr := by decide
  mix := trivial
  lagInit := by decide

/-- Settles O58: the draw is the memory after reset, the report is clear, and no context is open. -/
theorem resetMeetsTheInvariants : Obligations.ResetMeetsTheInvariants := by
  unfold Obligations.ResetMeetsTheInvariants
  refine ⟨⟨rfl, paramsOk_default⟩, fun p m hp hwf hspace => ⟨⟨hwf, hspace⟩, ?_, hp, fun c x hx => ?_⟩⟩
  · simp [statusInv, State.resetDrawn, Status.reset]
  · rw [ctxAt_resetDrawn] at hx
    exact nomatch hx

/-! ### Every accepted command ends (R530) -/

/-- No access of the host changes the list of turns. -/
theorem hostAccess_turns (a : HostAccess) (s : State) : (hostAccess a s).turns = s.turns := by
  cases a with
  | read offset width =>
    cases hreg : accessedReg offset width with
    | none =>
      rw [hostAccess_read_refused hreg]
      rfl
    | some r =>
      cases hb : s.status.busy with
      | true =>
        rw [hostAccess_read_busy r hb hreg]
        cases r <;> rfl
      | false =>
        rw [hostAccess_read_idle r hb hreg]
        cases r with
        | ddata =>
          change (readDdata s).turns = s.turns
          unfold readDdata
          split_ifs <;> rfl
        | _ => rfl
  | write offset width v =>
    cases hreg : accessedReg offset width with
    | none =>
      rw [hostAccess_write_refused v hreg]
      rfl
    | some r =>
      have hstatus : (writeStatus v s).turns = s.turns := by
        unfold writeStatus
        cases v.getLsbD 16 <;> rfl
      cases hb : s.status.busy with
      | true =>
        rw [hostAccess_write_busy r v hb hreg]
        cases r with
        | status => exact hstatus
        | _ => rfl
      | false =>
        rw [hostAccess_write_idle r v hb hreg]
        cases r with
        | status => exact hstatus
        | ddata =>
          change (writeDdata v s).turns = s.turns
          unfold writeDdata
          split_ifs <;> rfl
        | _ => rfl

/-- The engine's turn ends the command under way, if there is one, and takes no other turn. -/
theorem engineTurn_ends (s : State) : ∃ t, engineTurn s = .next t ∧ t.status.busy = false ∧ t.turns = s.turns := by
  cases hb : s.status.busy with
  | false => exact ⟨s, engineTurn_idle hb, hb, rfl⟩
  | true =>
    rw [engineTurn_busy hb]
    cases hd : decode s.cmd with
    | error e => exact ⟨_, runCommand_of_error hd, rfl, rfl⟩
    | ok i =>
      rw [runCommand_of_ok hd]
      obtain ⟨e, -, hend⟩ | ⟨b, hend, hkeeps, -⟩ := exec_ends i s
      · exact ⟨_, hend, rfl, rfl⟩
      · exact ⟨_, hend, rfl, hkeeps.turns⟩

/-- A step takes the first turn off the list. -/
theorem step_takes_turn {s : State} {turn : Turn} {rest : List Turn} (h : s.turns = turn :: rest) :
    ∃ t, step s = .next t ∧ t.turns = rest := by
  cases turn with
  | host a => exact ⟨_, step_host h, hostAccess_turns a _⟩
  | engine =>
    obtain ⟨t, hstep, -, hturns⟩ := engineTurn_ends { s with turns := rest }
    exact ⟨t, (step_engine (.inl h)).trans hstep, hturns⟩

theorem run_succ {s t : State} (k : Nat) (h : step s = .next t) :
    Host.Core.run Sys2Proof.core (k + 1) s = Host.Core.run Sys2Proof.core k t := by
  have hcore : Sys2Proof.core.step s = .next t := h
  simp only [Host.Core.run, hcore]

/-- Settles O60: each step takes a turn off the list, and with none left the engine ends the command. -/
theorem acceptedCommandEnds : Obligations.AcceptedCommandEnds := by
  unfold Obligations.AcceptedCommandEnds
  intro s
  induction hturns : s.turns generalizing s with
  | nil =>
    obtain ⟨t, hstep, hb, -⟩ := engineTurn_ends { s with turns := [] }
    exact ⟨t, run_succ 0 ((step_engine (.inr ⟨hturns, rfl⟩)).trans hstep), hb⟩
  | cons turn rest ih =>
    obtain ⟨u, hstep, hrest⟩ := step_takes_turn hturns
    obtain ⟨t, hrun, hb⟩ := ih u hrest
    exact ⟨t, (run_succ _ hstep).trans hrun, hb⟩

end Sys2Proof.Machine
end

section
/-! The pitch estimate (47_plc.md R430, R431): the fold over the lags is the coarse search of the codebook engine over
their scores, so what that search ends with is what this one does. -/

namespace Sys2Proof.Machine

/-! ### The score of a lag (R431) -/

section
variable (p : Params) (z : List Int)

/-- The correlation of the last PLC_CORR_LEN samples with those `l` before them. -/
def lagCorr (l : Nat) : Int :=
  total p.plcCorrLen fun n => nth z (z.length - p.plcCorrLen + n) * nth z (z.length - p.plcCorrLen - l + n)

/-- The energy of the last PLC_CORR_LEN samples. -/
def lastEnergy : Int := total p.plcCorrLen fun n => nth z (z.length - p.plcCorrLen + n) ^ 2

/-- The energy of the samples `l` before them. -/
def lagEnergy (l : Nat) : Int := total p.plcCorrLen fun n => nth z (z.length - p.plcCorrLen - l + n) ^ 2

/-- A lag that takes part in the search. -/
def LiveLag (l : Nat) : Prop :=
  (p.plcLagMin ≤ l ∧ l ≤ p.plcLagMax) ∧ 0 < lagCorr p z l ∧ 0 < lastEnergy p z ∧ 0 < lagEnergy p z l

end

theorem nth_window (z : List Int) (k : Nat) {n i : Nat} (hi : i < n) : nth ((z.drop k).take n) i = nth z (k + i) := by
  simp [nth, List.getD_eq_getElem?_getD, hi]

section
variable {p : Params} (hp : ParamsOk p) {z : List Int} (hz : 320 ≤ z.length)
include hp hz

theorem lagScore_eq {l : Nat} (hmax : l ≤ p.plcLagMax) : lagScore p z l =
    if 0 < lagCorr p z l ∧ 0 < lastEnergy p z ∧ 0 < lagEnergy p z l then
      some { lag := l, c := lagCorr p z l, ee := lastEnergy p z * lagEnergy p z l }
    else none := by
  have hroom : l + p.plcCorrLen ≤ z.length := by
    have := hp.corrLen.2
    omega
  have hlast : ((z.drop (z.length - p.plcCorrLen)).take p.plcCorrLen).length = p.plcCorrLen := by simp; omega
  have hback : ((z.drop (z.length - p.plcCorrLen - l)).take p.plcCorrLen).length = p.plcCorrLen := by simp; omega
  rw [lagScore, dot_eq_total _ _ _ (.inl hlast), dot_self_eq_total hlast fun i hi => nth_window z _ hi,
    dot_self_eq_total hback fun i hi => nth_window z _ hi,
    total_congr (g := fun n => nth z (z.length - p.plcCorrLen + n) * nth z (z.length - p.plcCorrLen - l + n))
      fun i hi => by rw [nth_window z _ hi, nth_window z _ hi]]
  rfl

theorem lagScore_of_live {l : Nat} (h : LiveLag p z l) : lagScore p z l =
    some { lag := l, c := lagCorr p z l, ee := lastEnergy p z * lagEnergy p z l } := by
  obtain ⟨⟨-, hmax⟩, hpos⟩ := h
  rw [lagScore_eq hp hz hmax, if_pos hpos]

theorem lagScore_of_not_live {l : Nat} (hmin : p.plcLagMin ≤ l) (hmax : l ≤ p.plcLagMax) (h : ¬ LiveLag p z l) :
    lagScore p z l = none := by
  rw [lagScore_eq hp hz hmax, if_neg fun hpos => h ⟨⟨hmin, hmax⟩, hpos⟩]

end

/-! ### The fold over the lags as a search over candidates -/

/-- A score as a candidate of a search: its energy is the product of the two. -/
def LagScore.candidate (x : LagScore) : Candidate := { i := x.lag, c := x.c, e := x.ee }

/-- A lag without a score is a candidate that is never chosen. -/
def lagCandidate (x : Option LagScore) : Candidate := (x.map LagScore.candidate).getD { i := 0, c := 0, e := 0 }

theorem better_lagCandidate (o : Option LagScore) {x : Option LagScore} (hx : ∀ y, x = some y → y.ee ≠ 0) :
    better (o.map LagScore.candidate) (lagCandidate x) = (betterLag o x).map LagScore.candidate := by
  cases x with
  | none => cases o <;> simp [better, betterLag, lagCandidate]
  | some y =>
    have hy := hx y rfl
    cases o with
    | none => simp [better, betterLag, lagCandidate, LagScore.candidate, hy]
    | some b =>
      simp only [better, betterLag, lagCandidate, LagScore.candidate, Option.map_some, Option.getD_some, ne_eq, hy,
        not_false_eq_true, true_and]
      split_ifs <;> rfl

theorem foldl_better_lagCandidate {xs : List (Option LagScore)} (hxs : ∀ x ∈ xs, ∀ y, x = some y → y.ee ≠ 0) :
    ∀ o : Option LagScore, (xs.map lagCandidate).foldl better (o.map LagScore.candidate) =
      (xs.foldl betterLag o).map LagScore.candidate := by
  induction xs with
  | nil => exact fun _ => rfl
  | cons x xs ih =>
    intro o
    rw [List.map_cons, List.foldl_cons, better_lagCandidate o (hxs x (.head _)), List.foldl_cons]
    exact ih (fun x hx => hxs x (.tail _ hx)) _

/-- The scores of the lags searched, from PLC_LAG_MIN on. -/
def lagScores (p : Params) (z : List Int) : List (Option LagScore) :=
  (List.range (p.plcLagMax + 1 - p.plcLagMin)).map fun i => lagScore p z (i + p.plcLagMin)

theorem pitchEstimate_eq (p : Params) (z : List Int) : pitchEstimate p z =
    (((lagScores p z).foldl betterLag none).map fun b => (some b.lag, min 32767 (32768 * b.c ^ 2 / b.ee))).getD
      (none, 0) := by
  have hscores : ((List.range (p.plcLagMax + 1 - p.plcLagMin)).map (· + p.plcLagMin)).map (lagScore p z) =
      lagScores p z := by
    rw [List.map_map]
    rfl
  rw [pitchEstimate, hscores]
  cases (lagScores p z).foldl betterLag none <;> rfl

/-- The candidate at place `i` of the search. -/
def lagCandidateAt (p : Params) (z : List Int) (i : Nat) : Candidate := lagCandidate (lagScore p z (i + p.plcLagMin))

/-- What the fold over the lags ends with: nothing if no lag has a score, else the best. -/
theorem foldl_lagScores_isBest (p : Params) (z : List Int) :
    IsBest (lagCandidateAt p z) (p.plcLagMax + 1 - p.plcLagMin)
      (((lagScores p z).foldl betterLag none).map LagScore.candidate) := by
  have hscored : ∀ x ∈ lagScores p z, ∀ y, x = some y → y.ee ≠ 0 := by
    intro x hx y hy
    obtain ⟨i, -, rfl⟩ := List.mem_map.1 hx
    exact (lagScore_spec hy).2.ne'
  have hnonneg (i : Nat) : 0 ≤ (lagCandidateAt p z i).e := by
    unfold lagCandidateAt
    cases hscore : lagScore p z (i + p.plcLagMin) with
    | none => exact le_rfl
    | some y => exact (lagScore_spec hscore).2.le
  have hbest := coarseBest_isBest hnonneg (p.plcLagMax + 1 - p.plcLagMin)
  have hmap : (List.range (p.plcLagMax + 1 - p.plcLagMin)).map (lagCandidateAt p z) =
      (lagScores p z).map lagCandidate := by
    rw [lagScores, List.map_map]
    rfl
  rwa [hmap, coarseBest, ← Option.map_none LagScore.candidate, foldl_better_lagCandidate hscored] at hbest

/-! ### The estimate (R431) -/

section
variable {p : Params} (hp : ParamsOk p) {z : List Int} (hz : 320 ≤ z.length)
include hp hz

theorem lagCandidateAt_of_live {l : Nat} (h : LiveLag p z l) :
    l - p.plcLagMin < p.plcLagMax + 1 - p.plcLagMin ∧ lagCandidateAt p z (l - p.plcLagMin) =
      { i := l, c := lagCorr p z l, e := lastEnergy p z * lagEnergy p z l } ∧
      (lagCandidateAt p z (l - p.plcLagMin)).e ≠ 0 := by
  obtain ⟨⟨hmin, hmax⟩, -, hlast, hback⟩ := id h
  have hcand : lagCandidateAt p z (l - p.plcLagMin) =
      { i := l, c := lagCorr p z l, e := lastEnergy p z * lagEnergy p z l } := by
    rw [lagCandidateAt, Nat.sub_add_cancel hmin, lagScore_of_live hp hz h]
    rfl
  refine ⟨by omega, hcand, ?_⟩
  rw [hcand]
  exact (Int.mul_pos hlast hback).ne'

/-- A candidate that can be chosen is a lag that takes part. -/
theorem live_of_lagCandidateAt {i : Nat} (hi : i < p.plcLagMax + 1 - p.plcLagMin)
    (h : (lagCandidateAt p z i).e ≠ 0) : LiveLag p z (i + p.plcLagMin) := by
  by_contra hlive
  have hscore := lagScore_of_not_live hp hz (by omega) (by omega) hlive
  exact h (by rw [lagCandidateAt, hscore]; rfl)

theorem pitchEstimate_of_none (h : ∀ l, ¬ LiveLag p z l) : pitchEstimate p z = (none, 0) := by
  have hbest := foldl_lagScores_isBest p z
  rw [pitchEstimate_eq]
  cases hfold : (lagScores p z).foldl betterLag none with
  | none => rfl
  | some b =>
    rw [hfold] at hbest
    obtain ⟨k, -, hk⟩ := hbest
    exact absurd (live_of_lagCandidateAt hp hz hk.lt hk.nonzero) (h _)

theorem pitchEstimate_of_live (h : ∃ l, LiveLag p z l) : ∃ l, LiveLag p z l ∧
    pitchEstimate p z =
      (some l, min 32767 (32768 * lagCorr p z l ^ 2 / (lastEnergy p z * lagEnergy p z l))) ∧
    (∀ k, LiveLag p z k → lagCorr p z k ^ 2 * (lastEnergy p z * lagEnergy p z l) ≤
      lagCorr p z l ^ 2 * (lastEnergy p z * lagEnergy p z k)) ∧
    (∀ k, LiveLag p z k → k < l → lagCorr p z k ^ 2 * (lastEnergy p z * lagEnergy p z l) <
      lagCorr p z l ^ 2 * (lastEnergy p z * lagEnergy p z k)) := by
  have hbest := foldl_lagScores_isBest p z
  rw [pitchEstimate_eq]
  cases hfold : (lagScores p z).foldl betterLag none with
  | none =>
    rw [hfold] at hbest
    obtain ⟨l, hl⟩ := h
    obtain ⟨hlt, -, hne⟩ := lagCandidateAt_of_live hp hz hl
    exact absurd (hbest _ hlt) hne
  | some b =>
    rw [hfold] at hbest
    obtain ⟨k, hb, hk⟩ := hbest
    have hlive := live_of_lagCandidateAt hp hz hk.lt hk.nonzero
    obtain ⟨-, hcand, -⟩ := lagCandidateAt_of_live hp hz hlive
    rw [Nat.add_sub_cancel] at hcand
    obtain ⟨-, -, hlargest, hfirst⟩ := hk
    rw [hb] at hcand
    simp only [hb, hcand] at hlargest hfirst
    obtain ⟨lag, c, ee⟩ := b
    simp only [LagScore.candidate, Candidate.mk.injEq] at hcand
    obtain ⟨rfl, rfl, rfl⟩ := hcand
    refine ⟨_, hlive, rfl, fun j hj => ?_, fun j hj hlt => ?_⟩
    · obtain ⟨hjlt, hjcand, hjne⟩ := lagCandidateAt_of_live hp hz hj
      simpa only [hjcand] using hlargest _ hjlt hjne
    · obtain ⟨-, hjcand, hjne⟩ := lagCandidateAt_of_live hp hz hj
      have hmin : p.plcLagMin ≤ j := hj.1.1
      simpa only [hjcand] using hfirst (j - p.plcLagMin) (by omega) hjne

end

/-- Settles O31: the fold over the lags ends with the best of the live ones. -/
theorem pitchEstimateIsOptimal : Obligations.PitchEstimateIsOptimal := by
  unfold Obligations.PitchEstimateIsOptimal
  intro p z hp hz
  exact ⟨pitchEstimate_of_none hp hz, pitchEstimate_of_live hp hz⟩

end Sys2Proof.Machine
end

section
/-! The concealment synthesis (47_plc.md R430, R432): the seeds, the noise they make, and the blend. -/

namespace Sys2Proof.Machine

/-! ### Lists by their entries -/

theorem map_eq_tabulate (f : Int → Int) {l : List Int} {n : Nat} (hlen : l.length = n) :
    l.map f = tabulate n fun i => f (nth l i) := by
  refine List.ext_getElem (by simp [hlen]) fun i hi _ => ?_
  rw [List.length_map] at hi
  simp [tabulate, nth, hi]

theorem tabulate_congr {n : Nat} {f g : Nat → Int} (h : ∀ i, i < n → f i = g i) : tabulate n f = tabulate n g :=
  List.map_congr_left fun i hi => h i (List.mem_range.1 hi)

/-! ### The noise (R432) -/

/-- Sample `n` of the noise, from the seed drawn for it and the samples before it, the latest first. -/
def noiseSample (pr : List Int) (len n : Nat) (seed : Int) (past : List Int) : Int :=
  if n < noiseLag seed then nth pr (len + n - noiseLag seed) else nth past (noiseLag seed - 1)

section
variable (p : Params) (pr : List Int) (len : Nat)

theorem noise_succ (k n : Nat) (seed : Int) (past : List Int) :
    noise p pr len (k + 1) n seed past =
      noise p pr len k (n + 1) (lcgStep p seed) (noiseSample pr len n (lcgStep p seed) past :: past) := rfl

/-- The seed moves on by one step a sample. -/
theorem noise_seed (k : Nat) : ∀ (n : Nat) (seed : Int) (past : List Int),
    (noise p pr len k n seed past).2 = (lcgStep p)^[k] seed := by
  induction k with
  | zero => exact fun _ _ _ => rfl
  | succ k ih => exact fun n seed past => ih _ _ _

/-- The samples of before stay. -/
theorem nth_noise_of_lt (k : Nat) : ∀ {n : Nat} (seed : Int) {past : List Int} {i : Nat}, past.length = n → i < n →
    nth (noise p pr len k n seed past).1 i = nth past (n - 1 - i) := by
  induction k with
  | zero => exact fun _ _ _ hpast hi => nth_reverse hpast hi
  | succ k ih =>
    intro n seed past i hpast hi
    rw [noise_succ, ih _ (by simp [hpast]) (by omega), show n + 1 - 1 - i = n - 1 - i + 1 by omega]
    rfl

/-- Each new sample is one of the reference or of the noise, as far back as its seed says. -/
theorem nth_noise_add (k : Nat) : ∀ {n : Nat} (seed : Int) {past : List Int} {i : Nat}, past.length = n → i < k →
    nth (noise p pr len k n seed past).1 (n + i) =
      if n + i < noiseLag ((lcgStep p)^[i + 1] seed) then nth pr (len + (n + i) - noiseLag ((lcgStep p)^[i + 1] seed))
      else nth (noise p pr len k n seed past).1 (n + i - noiseLag ((lcgStep p)^[i + 1] seed)) := by
  induction k with
  | zero => exact fun _ _ _ _ hi => absurd hi (Nat.not_lt_zero _)
  | succ k ih =>
    intro n seed past i hpast hi
    have hlen : (noiseSample pr len n (lcgStep p seed) past :: past).length = n + 1 := by simp [hpast]
    cases i with
    | zero =>
      simp only [noise_succ, Nat.add_zero, Nat.zero_add, Function.iterate_one]
      rw [nth_noise_of_lt p pr len k _ hlen (by omega), Nat.add_sub_cancel, Nat.sub_self]
      change noiseSample pr len n (lcgStep p seed) past = _
      have hlag : 53 ≤ noiseLag (lcgStep p seed) := Nat.le_add_right _ _
      obtain hlt | hge := Nat.lt_or_ge n (noiseLag (lcgStep p seed))
      · rw [if_pos hlt]
        exact if_pos hlt
      · rw [if_neg hge.not_gt, nth_noise_of_lt p pr len k _ hlen (by omega),
          show n + 1 - 1 - (n - noiseLag (lcgStep p seed)) = noiseLag (lcgStep p seed) - 1 + 1 by omega]
        exact if_neg hge.not_gt
    | succ i =>
      have hnext := ih (lcgStep p seed) hlen (by omega : i < k)
      rw [Nat.add_assoc, Nat.add_comm 1 i] at hnext
      exact hnext

end

/-! ### The blend (R432) -/

/-- The gain of the `k`-th loss in a row: the last level from the fourth on. -/
theorem gainLvl_eq (v : Vector Int 4) (k : Nat) :
    v[min k 3] = if k = 0 then v[0] else if k = 1 then v[1] else if k = 2 then v[2] else v[3] := by
  obtain rfl | rfl | rfl | h : k = 0 ∨ k = 1 ∨ k = 2 ∨ 3 ≤ k := by omega
  · rfl
  · rfl
  · rfl
  · simp only [Nat.min_eq_right h]
    rw [if_neg (by omega), if_neg (by omega), if_neg (by omega)]

section
variable (p : Params) (pr : List Int) (lag : Nat) (per seed : Int) (k : Nat)

/-- The noise of a whole frame. -/
def frameNoise (p : Params) (pr : List Int) (seed : Int) : List Int :=
  (noise p pr pr.length pr.length 0 seed []).1

/-- Sample `i` of the blend of pitch repetition and noise. -/
def blendAt (i : Nat) : Int :=
  rshr (plcMix p.plcMix per * nth pr (pr.length - lag + i % lag) +
    (32768 - plcMix p.plcMix per) * nth (frameNoise p pr seed) i) 15

theorem frameNoise_length : (frameNoise p pr seed).length = pr.length := by
  rw [frameNoise, noise_length]
  simp

theorem nth_frameNoise {i : Nat} (hi : i < pr.length) : nth (frameNoise p pr seed) i =
    if i < noiseLag ((lcgStep p)^[i + 1] seed) then nth pr (pr.length + i - noiseLag ((lcgStep p)^[i + 1] seed))
    else nth (frameNoise p pr seed) (i - noiseLag ((lcgStep p)^[i + 1] seed)) := by
  have hnew := nth_noise_add p pr pr.length pr.length seed (n := 0) (past := []) rfl hi
  rw [Nat.zero_add] at hnew
  exact hnew

theorem conceal_eq :
    let quiet := decide (total pr.length (fun i => blendAt p pr lag per seed i ^ 2) * p.plcNoiseThr <
      total pr.length fun i => nth pr i ^ 2)
    conceal p pr lag per seed k =
      { out := tabulate pr.length fun i => sat16 (rshr (p.plcGainLvl[min k 3] *
          if quiet then nth (frameNoise p pr seed) i else blendAt p pr lag per seed i) 15)
        seed := (lcgStep p)^[pr.length] seed, gain := p.plcGainLvl[min k 3], pitchWeight := plcMix p.plcMix per
        noiseOnly := quiet } := by
  intro quiet
  have hblend : dot (tabulate pr.length (blendAt p pr lag per seed)) (tabulate pr.length (blendAt p pr lag per seed)) =
      total pr.length fun i => blendAt p pr lag per seed i ^ 2 :=
    dot_self_eq_total (tabulate_length _ _) fun i hi => by rw [nth_tabulate, if_pos hi]
  have hreference : dot pr pr = total pr.length fun i => nth pr i ^ 2 := dot_self_eq_total rfl fun _ _ => rfl
  have hquiet : decide (dot (tabulate pr.length (blendAt p pr lag per seed))
      (tabulate pr.length (blendAt p pr lag per seed)) * p.plcNoiseThr < dot pr pr) = quiet := by
    rw [hblend, hreference]
  have hout : ((if quiet then frameNoise p pr seed else tabulate pr.length (blendAt p pr lag per seed)).map fun v =>
      sat16 (rshr (p.plcGainLvl[min k 3] * v) 15)) = tabulate pr.length fun i => sat16 (rshr (p.plcGainLvl[min k 3] *
          if quiet then nth (frameNoise p pr seed) i else blendAt p pr lag per seed i) 15) := by
    cases quiet with
    | true => exact map_eq_tabulate _ (frameNoise_length p pr seed)
    | false =>
      refine (map_eq_tabulate _ (tabulate_length _ _)).trans (tabulate_congr fun i hi => ?_)
      rw [nth_tabulate, if_pos hi]
      rfl
  rw [← hout, ← noise_seed p pr pr.length pr.length 0 seed [], ← hquiet]
  rfl

end

/-- Settles O32: the seeds are the iterates of the generator, the noise and the blend those of a frame. -/
theorem concealmentSynthesis : Obligations.ConcealmentSynthesis := by
  unfold Obligations.ConcealmentSynthesis
  intro p pr lag per seed k _ _ _ n gain
  refine ⟨fun i => (lcgStep p)^[i] seed, nth (frameNoise p pr seed), blendAt p pr lag per seed, plcMix p.plcMix per,
    fun hmix => ?_, fun levels hmix => ?_, rfl, fun i _ => Function.iterate_succ_apply' _ _ _,
    fun i hi => nth_frameNoise p pr seed hi, fun i _ => rfl, ?_⟩
  · rw [hmix]
    rfl
  · rw [hmix]
    rfl
  · have hgain : p.plcGainLvl[min k 3] = gain := gainLvl_eq p.plcGainLvl k
    intro quiet
    rw [conceal_eq, hgain]

end Sys2Proof.Machine
end

section
/-! PLC_GOOD and PLC_LOST (47_plc.md R435, R440): the context each leaves, the vector it writes, and why the candidate
of the one is the output of the other. -/

namespace Sys2Proof.Machine

/-! ### The context (R435, R440) -/

theorem conceal_range (p : Params) (pr : List Int) (lag : Nat) (per seed : Int) (k : Nat) :
    ∀ v ∈ (conceal p pr lag per seed k).out, -32768 ≤ v ∧ v ≤ 32767 := by
  intro v hv
  obtain ⟨y, -, rfl⟩ := List.mem_map.1 hv
  exact sat16_range _

/-- A residual that is written is the one read back. -/
theorem residual_setResidual (x : Ctx) {r : List Int} (hlen : r.length = Config.frameLen x.mode)
    (hr : ∀ v ∈ r, -32768 ≤ v ∧ v ≤ 32767) : (x.setResidual r).residual = r := by
  have hframe : Config.frameLen x.mode ≤ 240 := by cases x.mode <;> decide
  have hints : ints (words 240 (r ++ (ints x.prevRes).drop r.length)) = r ++ (ints x.prevRes).drop r.length := by
    refine ints_words 240 _ (by simp; omega) fun v hv => ?_
    obtain hv | hv := List.mem_append.1 hv
    · exact hr v hv
    · exact ints_range _ v (List.mem_of_mem_drop hv)
  change (ints (words 240 (r ++ (ints x.prevRes).drop r.length))).take (Config.frameLen x.mode) = r
  rw [hints, ← hlen, List.take_left]

section
variable (p : Params) (x : Ctx) (r lp : List Int)

theorem goodFrame_per : (x.goodFrame p r lp).per.toInt = (pitchEstimate p (x.residual ++ r)).2 := by
  obtain ⟨-, hnonneg, hle⟩ := pitchEstimate_range p (x.residual ++ r)
  exact toInt_ofInt16 (by omega)

/-- The concealment after a good frame: of the new residual, with no loss before it. -/
theorem conceal_goodFrame (hlen : r.length = Config.frameLen x.mode) (hr : ∀ v ∈ r, -32768 ≤ v ∧ v ≤ 32767) :
    (x.goodFrame p r lp).conceal p = conceal p r (x.goodFrame p r lp).lag.toInt.toNat
      (pitchEstimate p (x.residual ++ r)).2 x.seed.toInt 0 := by
  have hresidual : (x.goodFrame p r lp).residual = r := residual_setResidual x hlen hr
  rw [Ctx.conceal, hresidual, goodFrame_per]
  rfl

end

/-- The count of losses stays at its largest value. -/
theorem lossCnt_succ (w : Word16) :
    BitVec.ofNat 16 (min (w.toNat + 1) 65535) = if w = 65535 then 65535 else w + 1 := by
  split_ifs with h
  · subst h
    rfl
  · have hne : w.toNat ≠ 65535 := fun hw => h (BitVec.eq_of_toNat_eq hw)
    have hlt := w.isLt
    apply BitVec.eq_of_toNat_eq
    rw [BitVec.toNat_ofNat, BitVec.toNat_add, Nat.min_eq_left (by omega)]
    rfl

/-! ### PLC_GOOD -/

/-- The body of PLC_GOOD, with the context `x` after the good frame. -/
def plcGoodBody (s : State) (c : BitVec 4) (x : Ctx) (cd : Nat) : State :=
  (((s.writeVec cd (x.conceal s.params).out).setCtx c.toNat (some x)).setRes0 x.lag.toInt).setRes1 x.per.toInt

theorem exec_plcGood_checked {s : State} {c : BitVec 4} {q : Ctx} {cd : Nat} (hq : s.ctxAt c.toNat = some q)
    (hkind : q.kind = .decoder) (hcd : argIs s 2 cd) :
    exec (.plcGood c) s = runChecked s [s.checkArg 0, s.checkArg 1, s.checkArg 2]
      [s.input 0 (Config.frameLen q.mode), s.input 1 11, s.output 2 (Config.frameLen q.mode)] []
      (plcGoodBody s c (q.goodFrame s.params (s.dmem.readVec (s.argLow 0) (Config.frameLen q.mode))
        (s.dmem.readVec (s.argLow 1) 11)) cd) := by
  show execPlcGood c s = _
  rw [execPlcGood, withCtx_open hq (by simp [hkind])]
  simp only [(argIs_spec hcd).1]
  rfl

theorem exec_plcGood {s : State} {c : BitVec 4} {q : Ctx} {r lp cd n : Nat} (hq : s.ctxAt c.toNat = some q)
    (hkind : q.kind = .decoder) (hr : argIs s 0 r) (hlp : argIs s 1 lp) (hcd : argIs s 2 cd)
    (hn : Config.frameLen q.mode = n) (hfitr : fits s r n) (hfitlp : fits s lp 11) (hfitcd : fits s cd n)
    (hcdr : apart cd n r n) (hcdlp : apart cd n lp 11) :
    exec (.plcGood c) s = .next
      (complete (plcGoodBody s c (q.goodFrame s.params (s.dmem.readVec r n) (s.dmem.readVec lp 11)) cd)) := by
  have hpairr : pairConflict (s.input 0 n) (s.output 2 n) = none := pair_input_output hr hcd (.inl hcdr)
  have hpairlp : pairConflict (s.input 1 11) (s.output 2 n) = none := pair_input_output hlp hcd (.inl hcdlp)
  rw [exec_plcGood_checked hq hkind hcd, hn, (argIs_spec hr).1, (argIs_spec hlp).1]
  exact runChecked_ok (by simp [checkArg_of_argIs hr, checkArg_of_argIs hlp, checkArg_of_argIs hcd])
    (by simp [input_fits hr hfitr, input_fits hlp hfitlp, output_fits hcd hfitcd])
    (by simp [pair_input_input, hpairr, hpairlp]) (by simp)

/-- Settles O33: the candidate is the concealment of the context after the good frame. -/
theorem plcGoodResult : Obligations.PlcGoodResult := by
  unfold Obligations.PlcGoodResult
  intro s c q r lp cd hq hkind hr hlp hcd n hfitr hfitlp hfitcd hcdr hcdlp res p lag
  have hlen : res.length = n := readVec_length _ _ _
  have hlag : (q.goodFrame s.params res (s.dmem.readVec lp 11)).lag = lag := by
    change (p.1.map (BitVec.ofNat 16)).getD q.lag = match p.1 with
      | none => q.lag
      | some l => BitVec.ofNat 16 l
    cases p.1 <;> rfl
  have hper : (q.goodFrame s.params res (s.dmem.readVec lp 11)).per.toInt = p.2 := goodFrame_per _ _ _ _
  have hctx : q.goodFrame s.params res (s.dmem.readVec lp 11) =
      { q with
        prevRes := words 240 (res ++ (ints q.prevRes).drop n)
        prevLpc := words 11 (s.dmem.readVec lp 11)
        lag := lag, per := BitVec.ofInt 16 p.2, lossCnt := 0 } := by
    rw [← hlag, ← hlen]
    rfl
  have hconceal := conceal_goodFrame s.params q res (s.dmem.readVec lp 11) hlen (readVec_range _ _ _)
  rw [hlag] at hconceal
  have hexec := exec_plcGood hq hkind hr hlp hcd rfl hfitr hfitlp hfitcd hcdr hcdlp
  obtain ⟨hwords, hframe⟩ := writeVec_result s.dmem cd (conceal_length s.params _) (conceal_range _ _ _ _ _ _)
    (f := nth ((q.goodFrame s.params res (s.dmem.readVec lp 11)).conceal s.params).out) fun i _ => rfl
  refine ⟨_, ?_, hconceal ▸ hwords, hframe⟩
  rw [hexec, plcGoodBody, hlag, hper, hctx]
  rfl

/-! ### PLC_LOST -/

/-- The body of PLC_LOST. -/
def plcLostBody (s : State) (c : BitVec 4) (q : Ctx) (o lp : Nat) : State :=
  (((((s.writeVec o (q.conceal s.params).out).writeVec lp (ints q.prevLpc)).setCtx c.toNat
    (some (q.lostFrame s.params))).setRes0 (q.conceal s.params).gain).setRes1 (q.conceal s.params).pitchWeight).updateIf
      (q.conceal s.params).noiseOnly State.setNoiseonly

theorem complete_plcLostBody (s : State) (c : BitVec 4) (q : Ctx) (o lp : Nat) :
    complete (plcLostBody s c q o lp) = alsoNoiseonly (q.conceal s.params).noiseOnly
      { (ended s).setCtx c.toNat (some (q.lostFrame s.params)) with
        dmem := (s.dmem.writeVec o (q.conceal s.params).out).writeVec lp (ints q.prevLpc)
        res0 := BitVec.ofInt 32 (q.conceal s.params).gain
        res1 := BitVec.ofInt 32 (q.conceal s.params).pitchWeight } := by
  unfold plcLostBody
  cases (q.conceal s.params).noiseOnly <;>
    simp [complete_eq_ended, ended, alsoNoiseonly, State.updateIf, State.setNoiseonly, State.setRes0, State.setRes1,
      State.setCtx, State.writeVec]

theorem exec_plcLost_checked {s : State} {c : BitVec 4} {q : Ctx} {o lp : Nat} (hq : s.ctxAt c.toNat = some q)
    (hkind : q.kind = .decoder) (ho : s.argLow 0 = o) (hlp : s.argLow 1 = lp) :
    exec (.plcLost c) s = runChecked s [s.checkArg 0, s.checkArg 1]
      [s.output 0 (Config.frameLen q.mode), s.output 1 11] [] (plcLostBody s c q o lp) := by
  subst ho hlp
  show execPlcLost c s = _
  rw [execPlcLost, withCtx_open hq (by simp [hkind])]
  rfl

theorem exec_plcLost {s : State} {c : BitVec 4} {q : Ctx} {o lp : Nat} (hq : s.ctxAt c.toNat = some q)
    (hkind : q.kind = .decoder) (ho : argIs s 0 o) (hlp : argIs s 1 lp) (hfito : fits s o (Config.frameLen q.mode))
    (hfitlp : fits s lp 11) (holp : apart o (Config.frameLen q.mode) lp 11) :
    exec (.plcLost c) s = .next (complete (plcLostBody s c q o lp)) := by
  have hpair := pair_output_output (l := []) (l' := []) hlp ho holp
  rw [exec_plcLost_checked hq hkind (argIs_spec ho).1 (argIs_spec hlp).1]
  exact runChecked_ok (by simp [checkArg_of_argIs ho, checkArg_of_argIs hlp])
    (by simp [output_fits ho hfito, output_fits hlp hfitlp]) (by simp [hpair]) (by simp)

/-- Settles O34: the concealed residual and the last coefficients, written apart from each other. -/
theorem plcLostResult : Obligations.PlcLostResult := by
  unfold Obligations.PlcLostResult
  intro s c q o lp hq hkind ho hlp n hfito hfitlp holp r
  have hlen : r.out.length = n := conceal_length s.params q
  have hctx : q.lostFrame s.params =
      { q with
        prevRes := words 240 (r.out ++ (ints q.prevRes).drop n), seed := BitVec.ofInt 16 r.seed
        lossCnt := if q.lossCnt = 65535 then 65535 else q.lossCnt + 1 } := by
    rw [← lossCnt_succ, ← hlen]
    rfl
  obtain ⟨hwordso, -⟩ := writeVec_result s.dmem o hlen (conceal_range _ _ _ _ _ _) fun i _ => rfl
  obtain ⟨hwordslp, -⟩ := writeVec_result (s.dmem.writeVec o r.out) lp (ints_length q.prevLpc) (ints_range _)
    fun i _ => rfl
  have hframe := sameOutside2_writeVec s.dmem o r.out lp (ints q.prevLpc)
  rw [hlen, ints_length] at hframe
  refine ⟨_, ?_, ?_, hwordslp, hframe⟩
  · rw [exec_plcLost hq hkind ho hlp hfito hfitlp holp, complete_plcLostBody, hctx]
    rfl
  · exact wordsAre_writeVec_apart lp _ hwordso (by rwa [ints_length])

/-! ### The candidate (R435) -/

/-- A run of the checks that ends without an error found no pair of regions to refuse. -/
theorem pairs_of_runChecked {s t body : State} {args vals : List (Option CmdError)} {regions : List Region}
    (hargs : ∀ c ∈ args, Reports c) (hvals : ∀ c ∈ vals, Reports c)
    (h : runChecked s args regions vals body = .next t) (hok : t.status.err = .ok) :
    regions.Pairwise fun r q => pairConflict r q = none := by
  obtain ⟨-, -, hpairs, -, -⟩ | ⟨e, he, rfl⟩ := runChecked_cases h
  · exact hpairs
  · have hcode : e.code = .ok := hok
    simp only [List.mem_append, List.mem_map, List.mem_singleton] at he
    obtain ((he | ⟨r, -, he⟩) | he) | he := he
    · exact absurd hcode (hargs _ he e rfl)
    · exact absurd hcode (reports_checkRegion _ r e he)
    · exact absurd hcode (reports_checkPairs _ e he.symm)
    · exact absurd hcode (hvals _ he e rfl)

theorem apart_of_pairConflict {s : State} {k j : ArgNo} {n m : Nat} {l l' : List ArgNo}
    (h : pairConflict (s.output k n l) (s.output j m l') = none) : apart (s.argLow k) n (s.argLow j) m := by
  have hoverlaps : ¬ (s.output k n l).overlaps (s.output j m l') = true := by
    intro hov
    simp [pairConflict, hov] at h
  rw [overlaps_iff] at hoverlaps
  simp only [State.output] at hoverlaps
  unfold apart
  omega

/-- PLC_GOOD leaves the context in its slot. -/
theorem ctxAt_plcGoodBody {s : State} {c : BitVec 4} {q : Ctx} (hq : s.ctxAt c.toNat = some q) (x : Ctx) (cd : Nat) :
    (complete (plcGoodBody s c x cd)).ctxAt c.toNat = some x :=
  (ctxAt_setCtx (s.writeVec cd (x.conceal s.params).out) c.toNat (some x) c.toNat).trans
    (if_pos ⟨rfl, ctxAt_some_lt hq⟩)

theorem dmem_plcGoodBody (s : State) (c : BitVec 4) (x : Ctx) (cd : Nat) :
    (complete (plcGoodBody s c x cd)).dmem = s.dmem.writeVec cd (x.conceal s.params).out := rfl

/-- What a PLC_GOOD without an error leaves: the candidate in the memory, and the context it is the concealment of. -/
theorem plcGood_leaves {s t : State} {c : BitVec 4} {q : Ctx} {cd : Nat} (hq : s.ctxAt c.toNat = some q)
    (hcd : argIs s 2 cd) (h : exec (.plcGood c) s = .next t) (hok : t.status.err = .ok) :
    ∃ x, t.ctxAt c.toNat = some x ∧ x.mode = q.mode ∧ t.dmem = s.dmem.writeVec cd (x.conceal s.params).out := by
  obtain ⟨x, hx, hkind, -⟩ | hctx := withCtx_cases h
  · obtain rfl : q = x := Option.some.inj (hq.symm.trans hx)
    rw [exec_plcGood_checked hq (hkind _ rfl) hcd] at h
    obtain rfl := complete_of_runChecked (by simp) (by simp) h hok
    exact ⟨_, ctxAt_plcGoodBody hq _ _, rfl, dmem_plcGoodBody _ _ _ _⟩
  · obtain rfl : t = raise ctxError s := by simpa using hctx
    exact nomatch hok

/-- What a PLC_LOST without an error leaves in the memory: its outputs are apart, so the coefficients, written last, do
not reach the residual. -/
theorem plcLost_leaves {u v : State} {c : BitVec 4} {q : Ctx} {o : Nat} (hq : u.ctxAt c.toNat = some q)
    (ho : argIs u 0 o) (h : exec (.plcLost c) u = .next v) (hok : v.status.err = .ok) :
    wordsAre v.dmem o (Config.frameLen q.mode) (nth (q.conceal u.params).out) := by
  obtain ⟨x, hx, hkind, -⟩ | hctx := withCtx_cases h
  · obtain rfl : q = x := Option.some.inj (hq.symm.trans hx)
    have hrun := (exec_plcLost_checked hq (hkind _ rfl) (argIs_spec ho).1 rfl).symm.trans h
    have hapart := apart_of_pairConflict
      (List.rel_of_pairwise_cons (pairs_of_runChecked (by simp) (by simp) hrun hok) (.head _))
    rw [(argIs_spec ho).1] at hapart
    obtain ⟨hwords, -⟩ := writeVec_result u.dmem o (conceal_length u.params q) (conceal_range _ _ _ _ _ _)
      (f := nth (q.conceal u.params).out) fun i _ => rfl
    rw [complete_of_runChecked (by simp) (by simp) hrun hok, complete_plcLostBody]
    exact wordsAre_writeVec_apart _ _ hwords (by rwa [ints_length])
  · obtain rfl : v = raise ctxError u := by simpa using hctx
    exact nomatch hok

/-- Settles O35: the candidate and the concealed residual are the concealment of the same context. -/
theorem candidateIsTheNextLoss : Obligations.CandidateIsTheNextLoss := by
  unfold Obligations.CandidateIsTheNextLoss
  intro s t u v c q q' cd o hq hcd hgood hokt hq' hparams hu ho hlost hokv i hi
  obtain ⟨x, hx, hmode, hmem⟩ := plcGood_leaves hq hcd hgood hokt
  obtain rfl : q' = x := Option.some.inj (hq'.symm.trans hx)
  rw [← hmode] at hi
  rw [plcLost_leaves hu ho hlost hokv i hi, hparams, hmem]
  have hlen := conceal_length s.params q'
  exact (readI16_writeVec_nth s.dmem cd _ i (hlen ▸ hi) (conceal_range _ _ _ _ _ _)).symm

end Sys2Proof.Machine
end

section
/-! ERR_ARG for every command (60_exceptions.md R471, R475 step 5): the argument checks of a command, register by
register, against the ranges of its rule; then the first register that fails its own. -/

namespace Sys2Proof.Machine

/-! ### One register -/

theorem argUpperClear_iff (s : State) (k : ArgNo) : s.argUpperClear k = true ↔ (s.args[k]).toNat < 65536 := by
  constructor
  · intro h
    obtain ⟨hval, hlt⟩ := (argIs_iff s k _).2 ⟨h, rfl⟩
    exact hval ▸ hlt
  · exact fun h => (argIs_spec ⟨rfl, h⟩).2

/-- The check of register `k` passes when the register does, else it reports the register. -/
def ChecksArg (i : Instr) (s : State) (k : ArgNo) (c : Option CmdError) : Prop :=
  (argOk i s k → c = none) ∧ (¬ argOk i s k → c = some (argError k))

/-- A register with a range `ok` beside its width. -/
theorem checksArg_range {i : Instr} {s : State} {k : ArgNo} (ok : Nat → Bool)
    (h : argOk i s k ↔ (s.args[k]).toNat < 65536 ∧ ok (s.args[k]).toNat = true) :
    ChecksArg i s k (s.checkArg k (ok (s.argLow k))) := by
  have hiff : argOk i s k ↔ s.argUpperClear k = true ∧ ok (s.argLow k) = true := by
    rw [h, argUpperClear_iff]
    exact and_congr_right fun hlt => by rw [argLow_of_lt hlt]
  refine ⟨fun hok => ?_, fun hbad => ?_⟩
  · exact (checkArg_eq_none s k _).2 (hiff.1 hok)
  · rw [State.checkArg, if_neg]
    rwa [Bool.and_eq_true, ← hiff]

/-- An address or a length without a range of its own. -/
theorem checksArg_address {i : Instr} {s : State} {k : ArgNo} (h : argOk i s k ↔ (s.args[k]).toNat < 65536) :
    ChecksArg i s k (s.checkArg k) :=
  checksArg_range (fun _ => true) (by simpa using h)

/-- The bytes of A6 are three widths exactly when the check of A6 says so (45_codebook.md R360). -/
theorem widthsAre_of_checkWidths {s : State} (h : s.checkWidths = none) : ∃ w0 w1 w2, widthsAre s w0 w1 w2 := by
  unfold State.checkWidths at h
  split_ifs at h with hwidths
  obtain ⟨htop, h0, h1, h2⟩ := hwidths
  have hbyte (i : Nat) : ((s.arg 6).extractLsb' i 8).toNat = (s.arg 6).toNat / 2 ^ i % 256 := by
    rw [BitVec.extractLsb'_toNat, Nat.shiftRight_eq_div_pow]
  have htop' : (s.arg 6).toNat / 2 ^ 24 % 256 = 0 := by
    rw [← hbyte, htop]
    rfl
  have hlt := (s.arg 6).isLt
  refine ⟨_, _, _, ?_, h0, h1, h2⟩
  change (s.arg 6).toNat = _
  simp only [State.stageWidth, hbyte]
  omega

theorem checksArg_widths {i : Instr} {s : State} (h : argOk i s 6 ↔ ∃ w0 w1 w2, widthsAre s w0 w1 w2) :
    ChecksArg i s 6 s.checkWidths := by
  refine ⟨fun hok => checkWidths_pass (h.1 hok), fun hbad => ?_⟩
  have hfail : s.checkWidths ≠ none := fun hnone => hbad (h.2 (widthsAre_of_checkWidths hnone))
  unfold State.checkWidths at hfail ⊢
  split_ifs at hfail ⊢ with hwidths
  · exact absurd rfl hfail
  · rfl

/-! ### The registers of a command, in order -/

/-- The argument checks of a command, in register order: those of the registers that can fail. -/
structure ArgList (i : Instr) (s : State) (args : List (Option CmdError)) (regs : List ArgNo) : Prop where
  checks : List.Forall₂ (ChecksArg i s) regs args
  sorted : regs.Pairwise (· < ·)
  others : ∀ k, k ∉ regs → argOk i s k

/-- The first register that fails its check is the one reported. -/
theorem firstError_of_checksArg {i : Instr} {s : State} {regs : List ArgNo} {args : List (Option CmdError)}
    (hchecks : List.Forall₂ (ChecksArg i s) regs args) (hsorted : regs.Pairwise (· < ·)) {k : ArgNo} (hk : k ∈ regs)
    (hpass : ∀ j : ArgNo, j < k → argOk i s j) (hbad : ¬ argOk i s k) (rest : List (Option CmdError)) :
    firstError (args ++ rest) = some (argError k) := by
  induction hchecks with
  | nil => exact absurd hk List.not_mem_nil
  | cons hcheck _ ih =>
    obtain ⟨hfirst, hsorted⟩ := List.pairwise_cons.1 hsorted
    obtain rfl | hk := List.mem_cons.1 hk
    · rw [hcheck.2 hbad]
      rfl
    · rw [hcheck.1 (hpass _ (hfirst k hk))]
      exact ih hsorted hk

/-- The outcome is that of the argument checks that the rule of `i` asks for, and then of whatever follows. -/
def RunsArgList (i : Instr) (s : State) (o : StepOutcome) : Prop :=
  ∃ args regions vals body regs, o = runChecked s args regions vals body ∧ ArgList i s args regs

theorem runsArgList_runChecked {i : Instr} {s body : State} {args vals : List (Option CmdError)}
    {regions : List Region} {regs : List ArgNo} (h : ArgList i s args regs) :
    RunsArgList i s (runChecked s args regions vals body) := ⟨_, _, _, _, _, rfl, h⟩

theorem ArgList.congr {i i' : Instr} {s : State} {args : List (Option CmdError)} {regs : List ArgNo}
    (h : ArgList i s args regs) (hsame : argOk i s = argOk i' s) : ArgList i' s args regs := by
  have hchecks : ChecksArg i s = ChecksArg i' s := by
    unfold ChecksArg
    rw [hsame]
  exact ⟨hchecks ▸ h.checks, h.sorted, hsame ▸ h.others⟩

theorem runsArgList_complete {i : Instr} {s : State} (b : State) (h : ∀ k, argOk i s k) :
    RunsArgList i s (.next (complete b)) :=
  runsArgList_runChecked (body := b) (args := []) (regions := []) (vals := []) ⟨.nil, .nil, fun k _ => h k⟩

theorem RunsArgList.badArg {i : Instr} {s : State} {o : StepOutcome} (h : RunsArgList i s o) {k : ArgNo}
    (hpass : ∀ j : ArgNo, j < k → argOk i s j) (hbad : ¬ argOk i s k) : o = .next (endedError s .errArg k) := by
  obtain ⟨args, regions, vals, body, regs, rfl, hchecks, hsorted, hothers⟩ := h
  have hk : k ∈ regs := by_contra fun hk => hbad (hothers k hk)
  rw [runChecked_of_error (e := argError k), argError, toNat_infoOfArg]
  rw [List.append_assoc, List.append_assoc]
  exact firstError_of_checksArg hchecks hsorted hk hpass hbad _

/-! ### The argument checks of the commands -/

/-- A command whose registers have no range beside their width. -/
theorem argList_addresses {i : Instr} {s : State}
    (hplain : ∀ k, argOk i s k ↔ (k ∈ addressArgs i → (s.args[k]).toNat < 65536))
    (hsorted : (addressArgs i).Pairwise (· < ·)) :
    ArgList i s ((addressArgs i).map fun k => s.checkArg k) (addressArgs i) where
  checks := by
    refine List.forall₂_map_right_iff.2 (List.forall₂_same.2 fun k hk => checksArg_address ?_)
    rw [hplain k]
    exact ⟨fun h => h hk, fun h _ => h⟩
  sorted := hsorted
  others k hk := (hplain k).2 fun h => absurd h hk

section
variable (s : State)

theorem argList_filter :
    ArgList .filtMa s [s.checkArg 0, s.checkArg 1, s.checkArg 2, s.checkArg 3, s.checkArg 4 (s.argLow 4 ≤ 31)]
      [0, 1, 2, 3, 4] where
  checks := by
    refine .cons (checksArg_address ?_) (.cons (checksArg_address ?_) (.cons (checksArg_address ?_)
      (.cons (checksArg_address ?_) (.cons (checksArg_range (fun n => n ≤ 31) ?_) .nil))))
    all_goals simp [argOk, addressArgs]
    omega
  sorted := by decide
  others := by simp +contextual [argOk, addressArgs]

theorem argList_autocorr :
    ArgList .autocorr s [s.checkArg 0, s.checkArg 1 (1 ≤ s.argLow 1 && s.argLow 1 ≤ 4096), s.checkArg 2,
      s.checkArg 3 (s.argLow 3 ≤ 10)] [0, 1, 2, 3] where
  checks := by
    refine .cons (checksArg_address ?_) (.cons (checksArg_range (fun n => 1 ≤ n && n ≤ 4096) ?_)
      (.cons (checksArg_address ?_) (.cons (checksArg_range (fun n => n ≤ 10) ?_) .nil)))
    all_goals simp [argOk, addressArgs]
    omega
  sorted := by decide
  others := by simp +contextual [argOk, addressArgs]

theorem argList_lsfStab :
    ArgList .lsfStab s [s.checkArg 0, s.checkArg 1, s.checkArg 2 (s.argLow 2 == 1 || s.argLow 2 == 2)]
      [0, 1, 2] where
  checks := by
    refine .cons (checksArg_address ?_) (.cons (checksArg_address ?_)
      (.cons (checksArg_range (fun n => n == 1 || n == 2) ?_) .nil))
    all_goals simp [argOk, addressArgs]
    omega
  sorted := by decide
  others := by simp +contextual [argOk, addressArgs]

theorem argList_lsfInterp :
    ArgList .lsfInterp s [s.checkArg 0, s.checkArg 1, s.checkArg 2,
      if 0 ≤ s.argI16 3 ∧ s.argI16 3 ≤ 16384 then none else some (argError 3)] [0, 1, 2, 3] where
  checks := by
    have hweight : argOk .lsfInterp s 3 ↔ 0 ≤ s.argI16 3 ∧ s.argI16 3 ≤ 16384 := by
      rw [argI16_eq]
      simp [argOk, addressArgs]
    refine .cons (checksArg_address ?_) (.cons (checksArg_address ?_) (.cons (checksArg_address ?_)
      (.cons ⟨fun hok => if_pos (hweight.1 hok), fun hbad => if_neg (hweight.not.1 hbad)⟩ .nil)))
    all_goals simp [argOk, addressArgs]
  sorted := by decide
  others := by simp +contextual [argOk, addressArgs]

theorem argList_search :
    ArgList .acbSearch s [s.checkArg 0, s.checkArg 1 (lMemOk s.params (s.argLow 1) (s.argLow 3)), s.checkArg 2,
      s.checkArg 3 (lTOk (s.argLow 3)), s.checkArg 4, s.checkArg 5, s.checkWidths] [0, 1, 2, 3, 4, 5, 6] where
  checks := by
    refine .cons (checksArg_address ?_) (.cons (checksArg_range (fun n => lMemOk s.params n (s.argLow 3)) ?_)
      (.cons (checksArg_address ?_) (.cons (checksArg_range lTOk ?_) (.cons (checksArg_address ?_)
        (.cons (checksArg_address ?_) (.cons (checksArg_widths ?_) .nil))))))
    all_goals simp [argOk, addressArgs, lMemOk, lTOk]
  sorted := by decide
  others := by simp +contextual [argOk, addressArgs]

theorem argList_cbConstruct (dir : CbDir) :
    ArgList (.cbConstruct dir) s [s.checkArg 0, s.checkArg 1 (lMemOk s.params (s.argLow 1) (s.argLow 5)),
      s.checkArg 2, s.checkArg 3, s.checkArg 4, s.checkArg 5 (lTOk (s.argLow 5)), s.checkWidths]
      [0, 1, 2, 3, 4, 5, 6] where
  checks := by
    refine .cons (checksArg_address ?_) (.cons (checksArg_range (fun n => lMemOk s.params n (s.argLow 5)) ?_)
      (.cons (checksArg_address ?_) (.cons (checksArg_address ?_) (.cons (checksArg_address ?_)
        (.cons (checksArg_range lTOk ?_) (.cons (checksArg_widths ?_) .nil))))))
    all_goals simp [argOk, addressArgs, lMemOk, lTOk]
  sorted := by decide
  others := by simp +contextual [argOk, addressArgs]

end

/-! ### The opcode map -/

/-- A command whose registers have no range beside their width, and whose checks are of its address registers. -/
theorem runsArgList_addresses {i : Instr} {s body : State} {vals : List (Option CmdError)} {regions : List Region}
    (hplain : ∀ k, argOk i s k = ((k ∈ addressArgs i → (s.args[k]).toNat < 65536) ∧ True))
    (hsorted : (addressArgs i).Pairwise (· < ·)) :
    RunsArgList i s (runChecked s ((addressArgs i).map fun k => s.checkArg k) regions vals body) :=
  runsArgList_runChecked (argList_addresses (fun k => by rw [hplain k, and_true]) hsorted)

theorem runsArgList_withCtx {i : Instr} {s : State} {c : BitVec 4} {kind : Option CtxKind} {k : Ctx → StepOutcome}
    {x : Ctx} (hx : s.ctxAt c.toNat = some x) (hkind : ∀ kd, kind = some kd → x.kind = kd)
    (h : RunsArgList i s (k x)) : RunsArgList i s (withCtx s c kind k) := by
  rwa [withCtx_open hx hkind]

/-- The byte count of the context's mode passes step 4. -/
theorem execUnpack_runsArgList {s : State} {c : BitVec 4} {x : Ctx} (hx : s.ctxAt c.toNat = some x)
    (hkind : x.kind = .decoder) (hlen : (s.args[1]).toNat = Config.frameBytes x.mode) :
    RunsArgList (.unpack c) s (execUnpack c s) := by
  have hcount : s.argU32 1 = Config.frameBytes x.mode := hlen
  have hpos : Config.frameBytes x.mode ≠ 0 := by cases x.mode <;> decide
  have hmode : modeOfLength (Config.frameBytes x.mode) = some x.mode := by cases x.mode <;> rfl
  refine runsArgList_withCtx hx (by simp [hkind]) ?_
  dsimp only
  rw [hcount, if_neg hpos, if_neg (not_not_intro hmode)]
  exact runsArgList_addresses (fun _ => rfl) (by simp [addressArgs])

/-- Once steps 3 and 4 pass, every command makes the argument checks of its rule. -/
theorem exec_runsArgList {i : Instr} {s : State} (hwf : i.wellFormed = true) (hready : ready i s) :
    RunsArgList i s (exec i s) := by
  cases i with
  | nop | sat16 | abs16 | abs32 | adds16 | subs16 | adds32 | subs32 | mul16 | shift32 | shift16 | normw16 | normw32
  | normu32 | sizebits => exact runsArgList_complete _ fun k => by simp [argOk, addressArgs]
  | vmaxabs16 | dotsc | vscale | vmul | bwexp | levinson | a2lsf | lsf2a | lsfQuant | lsfDequant | pack =>
    exact runsArgList_addresses (fun _ => rfl) (by simp [addressArgs])
  | filtMa => exact runsArgList_runChecked (argList_filter s)
  | filtAr => exact runsArgList_runChecked ((argList_filter s).congr rfl)
  | autocorr => exact runsArgList_runChecked (argList_autocorr s)
  | lsfStab => exact runsArgList_runChecked (argList_lsfStab s)
  | lsfInterp => exact runsArgList_runChecked (argList_lsfInterp s)
  | acbSearch => exact runsArgList_runChecked (argList_search s)
  | bcbSearch => exact runsArgList_runChecked ((argList_search s).congr rfl)
  | cbConstruct dir => exact runsArgList_runChecked (argList_cbConstruct s dir)
  | gainQuant stg | gainDequant stg =>
    have hstg : stg ≠ 3 := by simpa [Instr.wellFormed] using hwf
    simp only [exec, execGainQuant, execGainDequant, if_neg hstg]
    exact runsArgList_addresses (fun _ => rfl) (by simp [addressArgs])
  | hpFilt =>
    obtain ⟨x, hx⟩ := hready
    exact runsArgList_withCtx hx (by simp) (runsArgList_addresses (fun _ => rfl) (by simp [addressArgs]))
  | specAna | specSyn | plcGood | plcLost =>
    obtain ⟨x, hx, hkind⟩ := hready
    exact runsArgList_withCtx hx (by simp [hkind]) (runsArgList_addresses (fun _ => rfl) (by simp [addressArgs]))
  | unpack =>
    obtain ⟨x, hx, hkind, hlen⟩ := hready
    exact execUnpack_runsArgList hx hkind hlen
  | chOpen ctx kind mode =>
    have hopen : exec (.chOpen ctx kind mode) s = .next (complete _) := if_pos hready
    exact hopen ▸ runsArgList_complete _ fun k => by simp [argOk, addressArgs]
  | chClose =>
    obtain ⟨x, hx⟩ := hready
    exact runsArgList_withCtx hx (by simp) (runsArgList_complete _ fun k => by simp [argOk, addressArgs])

theorem exec_badArg {i : Instr} {s : State} {k : ArgNo} (hwf : i.wellFormed = true) (hready : ready i s)
    (hpass : ∀ j : ArgNo, j < k → argOk i s j) (hbad : ¬ argOk i s k) :
    exec i s = .next (endedError s .errArg k) := (exec_runsArgList hwf hready).badArg hpass hbad

/-! ### Each range on its own -/

section
variable {s : State}

/-- The registers below `k` hold 16-bit values. -/
def LowArgs (s : State) (k : ArgNo) : Prop := ∀ j : ArgNo, j < k → (s.args[j]).toNat < 65536

/-- The order of a filter (41_filters.md R200). -/
theorem exec_badOrder {i : Instr} (hi : i ∈ [Instr.filtMa, .filtAr]) (hlow : LowArgs s 4)
    (hbad : 31 < (s.args[4]).toNat) : exec i s = .next (endedError s .errArg 4) := by
  have hpass (j : ArgNo) (hj : j < 4) : argOk .filtMa s j := ⟨fun _ => hlow j hj, fun h => absurd h hj.ne⟩
  have hfail : ¬ argOk .filtMa s 4 := fun h => hbad.not_ge (h.2 rfl)
  simp only [List.mem_cons, List.not_mem_nil, or_false] at hi
  obtain rfl | rfl := hi
  · exact exec_badArg (i := .filtMa) rfl trivial hpass hfail
  · exact exec_badArg (i := .filtAr) rfl trivial hpass hfail

/-- The length of AUTOCORR (42_lpc.md R240). -/
theorem exec_autocorr_badLength (hlow : LowArgs s 1) (hbad : ¬ (1 ≤ (s.args[1]).toNat ∧ (s.args[1]).toNat ≤ 4096)) :
    exec .autocorr s = .next (endedError s .errArg 1) :=
  exec_badArg (i := .autocorr) rfl trivial
    (fun j hj => ⟨fun _ => hlow j hj, fun h => absurd h hj.ne, fun h => absurd h (hj.trans (by decide)).ne⟩)
    fun h => hbad (h.2.1 rfl)

/-- The order of AUTOCORR (42_lpc.md R240). -/
theorem exec_autocorr_badOrder (hlow : LowArgs s 3) (hlength : 1 ≤ (s.args[1]).toNat ∧ (s.args[1]).toNat ≤ 4096)
    (hbad : 10 < (s.args[3]).toNat) : exec .autocorr s = .next (endedError s .errArg 3) :=
  exec_badArg (i := .autocorr) rfl trivial (fun j hj => ⟨fun _ => hlow j hj, fun _ => hlength, fun h => absurd h hj.ne⟩)
    fun h => hbad.not_ge (h.2.2 rfl)

/-- The count of LSF sets (43_lsf.md R300). -/
theorem exec_lsfStab_badCount (hlow : LowArgs s 2) (hbad : ¬ ((s.args[2]).toNat = 1 ∨ (s.args[2]).toNat = 2)) :
    exec .lsfStab s = .next (endedError s .errArg 2) :=
  exec_badArg (i := .lsfStab) rfl trivial (fun j hj => ⟨fun _ => hlow j hj, fun h => absurd h hj.ne⟩) fun h => hbad (h.2 rfl)

/-- The weight of LSF_INTERP (43_lsf.md R310). -/
theorem exec_lsfInterp_badWeight (hlow : LowArgs s 3) (hbad : ¬ (0 ≤ arg16 s 3 ∧ arg16 s 3 ≤ 16384)) :
    exec .lsfInterp s = .next (endedError s .errArg 3) :=
  exec_badArg (i := .lsfInterp) rfl trivial (fun j hj => ⟨fun _ => hlow j hj, fun h => absurd h hj.ne⟩) fun h => hbad (h.2 rfl)

/-- The length of a codebook's history, over the length `lT` in register `j` (45_codebook.md R350). -/
def LMemInRange (s : State) (j : ArgNo) : Prop :=
  (s.args[j]).toNat ≤ (s.args[1]).toNat ∧ (s.args[1]).toNat ≤ s.params.cbLmemMax

/-- The length of a codebook vector in register `j` (45_codebook.md R350). -/
def LTInRange (s : State) (j : ArgNo) : Prop := 1 ≤ (s.args[j]).toNat ∧ (s.args[j]).toNat ≤ 80

theorem argOk_acbSearch_iff (hlT : (s.args[3]).toNat < 65536) (k : ArgNo) : argOk .acbSearch s k ↔
    (k ∈ addressArgs .acbSearch → (s.args[k]).toNat < 65536) ∧ (k = 1 → LMemInRange s 3) ∧ (k = 3 → LTInRange s 3) ∧
      (k = 6 → ∃ w0 w1 w2, widthsAre s w0 w1 w2) := by
  have hlow : s.argLow 3 = (s.args[3]).toNat := argLow_of_lt hlT
  simp only [argOk, hlow]
  exact Iff.rfl

theorem argOk_cbConstruct_iff (dir : CbDir) (hlT : (s.args[5]).toNat < 65536) (k : ArgNo) :
    argOk (.cbConstruct dir) s k ↔
      (k ∈ addressArgs (.cbConstruct dir) → (s.args[k]).toNat < 65536) ∧ (k = 1 → LMemInRange s 5) ∧
      (k = 5 → LTInRange s 5) ∧ (k = 6 → ∃ w0 w1 w2, widthsAre s w0 w1 w2) := by
  have hlow : s.argLow 5 = (s.args[5]).toNat := argLow_of_lt hlT
  simp only [argOk, hlow]
  exact Iff.rfl

/-- The three ranges of a codebook command, `lT` in register `j`: with the registers before it right, each bad one is
the one reported. -/
theorem codebook_badArgs {i : Instr} {j : ArgNo} (hj : 1 < j ∧ j < 6)
    (hok : ∀ k, argOk i s k ↔ (k ∈ addressArgs i → (s.args[k]).toNat < 65536) ∧ (k = 1 → LMemInRange s j) ∧
      (k = j → LTInRange s j) ∧ (k = 6 → ∃ w0 w1 w2, widthsAre s w0 w1 w2))
    (hexec : ∀ k : ArgNo, (∀ l : ArgNo, l < k → argOk i s l) → ¬ argOk i s k →
      exec i s = .next (endedError s .errArg k)) :
    (LowArgs s 1 → ¬ LMemInRange s j → exec i s = .next (endedError s .errArg 1)) ∧
    (LowArgs s j → LMemInRange s j → ¬ LTInRange s j → exec i s = .next (endedError s .errArg j)) ∧
    (LowArgs s 6 → LMemInRange s j → LTInRange s j → (¬ ∃ w0 w1 w2, widthsAre s w0 w1 w2) →
      exec i s = .next (endedError s .errArg 6)) := by
  obtain ⟨h1, h6⟩ := hj
  refine ⟨fun hlow hbad => hexec 1 (fun l hl => (hok l).2 ⟨fun _ => hlow l hl, fun h => absurd h hl.ne,
      fun h => absurd h (hl.trans h1).ne, fun h => absurd h (hl.trans (h1.trans h6)).ne⟩) fun h => ?_,
    fun hlow hlMem hbad => hexec j (fun l hl => (hok l).2 ⟨fun _ => hlow l hl, fun _ => hlMem, fun h => absurd h hl.ne,
      fun h => absurd h (hl.trans h6).ne⟩) fun h => ?_,
    fun hlow hlMem hrange hbad => hexec 6 (fun l hl => (hok l).2 ⟨fun _ => hlow l hl, fun _ => hlMem, fun _ => hrange,
      fun h => absurd h hl.ne⟩) fun h => ?_⟩
  · exact hbad (((hok 1).1 h).2.1 rfl)
  · exact hbad (((hok j).1 h).2.2.1 rfl)
  · exact hbad (((hok 6).1 h).2.2.2 rfl)

theorem search_badArgs {i : Instr} (hi : i ∈ [Instr.acbSearch, .bcbSearch]) (hlT : (s.args[3]).toNat < 65536) :
    (LowArgs s 1 → ¬ LMemInRange s 3 → exec i s = .next (endedError s .errArg 1)) ∧
    (LowArgs s 3 → LMemInRange s 3 → ¬ LTInRange s 3 → exec i s = .next (endedError s .errArg 3)) ∧
    (LowArgs s 6 → LMemInRange s 3 → LTInRange s 3 → (¬ ∃ w0 w1 w2, widthsAre s w0 w1 w2) →
      exec i s = .next (endedError s .errArg 6)) := by
  simp only [List.mem_cons, List.not_mem_nil, or_false] at hi
  obtain rfl | rfl := hi
  · exact codebook_badArgs (i := .acbSearch) (j := 3) (by decide) (argOk_acbSearch_iff hlT)
      fun k => exec_badArg (i := .acbSearch) rfl trivial
  · exact codebook_badArgs (i := .bcbSearch) (j := 3) (by decide) (argOk_acbSearch_iff hlT)
      fun k => exec_badArg (i := .bcbSearch) rfl trivial

theorem cbConstruct_badArgs (dir : CbDir) (hlT : (s.args[5]).toNat < 65536) :
    (LowArgs s 1 → ¬ LMemInRange s 5 → exec (.cbConstruct dir) s = .next (endedError s .errArg 1)) ∧
    (LowArgs s 5 → LMemInRange s 5 → ¬ LTInRange s 5 → exec (.cbConstruct dir) s = .next (endedError s .errArg 5)) ∧
    (LowArgs s 6 → LMemInRange s 5 → LTInRange s 5 → (¬ ∃ w0 w1 w2, widthsAre s w0 w1 w2) →
      exec (.cbConstruct dir) s = .next (endedError s .errArg 6)) :=
  codebook_badArgs (by decide) (argOk_cbConstruct_iff dir hlT) fun k => exec_badArg (i := .cbConstruct dir) rfl trivial

end

/-- Settles O41: the first register that fails its check, for every command; then the ranges, one by one. -/
theorem argumentErrors : Obligations.ArgumentErrors := by
  unfold Obligations.ArgumentErrors
  refine ⟨fun i s k => exec_badArg, ?_⟩
  intro s c hc top
  have hlow {n : Nat} {k : ArgNo} (hn : k.val ≤ n) (h : ∀ j, j < n → c j < 65536) : LowArgs s k := fun j hj =>
    (hc j).trans_lt (h j ((Fin.lt_def.1 hj).trans_le hn))
  have hfirst (h : c 0 < 65536) : LowArgs s 1 := hlow (n := 1) le_rfl fun j hj => by rwa [Nat.lt_one_iff.1 hj]
  have h1 : (s.args[1]).toNat = c 1 := hc 1
  have h2 : (s.args[2]).toNat = c 2 := hc 2
  have h3 : (s.args[3]).toNat = c 3 := hc 3
  have h4 : (s.args[4]).toNat = c 4 := hc 4
  have h5 : (s.args[5]).toNat = c 5 := hc 5
  have hlMem {j : ArgNo} {lT : Nat} (hj : (s.args[j]).toNat = lT) : LMemInRange s j ↔ lT ≤ c 1 ∧ c 1 ≤ top := by
    rw [LMemInRange, hj, h1]
  have hlT {j : ArgNo} {lT : Nat} (hj : (s.args[j]).toNat = lT) : LTInRange s j ↔ 1 ≤ lT ∧ lT ≤ 80 := by
    rw [LTInRange, hj]
  refine ⟨fun i hi h hbad => ?_, fun h hbad => ?_, fun h hmin hmax hbad => ?_, fun h hne1 hne2 => ?_,
    fun h hbad => ?_, fun i hi => ⟨fun h h3' hbad => ?_, fun h hle hmax hbad => ?_,
      fun h hmin hmax hle htop hwidths => ?_⟩, fun dir => ⟨fun h h5' hbad => ?_, fun h hle hmax hbad => ?_,
      fun h hmin hmax hle htop hwidths => ?_⟩⟩
  · exact exec_badOrder hi (hlow le_rfl h) (h4 ▸ hbad)
  · exact exec_autocorr_badLength (hfirst h) (by rw [h1]; omega)
  · exact exec_autocorr_badOrder (hlow le_rfl h) (h1 ▸ ⟨hmin, hmax⟩) (h3 ▸ hbad)
  · exact exec_lsfStab_badCount (hlow le_rfl h) (by rw [h2]; omega)
  · exact exec_lsfInterp_badWeight (hlow le_rfl h) (by omega)
  · exact (search_badArgs hi (h3 ▸ h3')).1 (hfirst h) ((hlMem h3).not.2 (by omega))
  · exact (search_badArgs hi (h3.trans_lt (h 3 (by norm_num)))).2.1 (hlow (by decide) h) ((hlMem h3).2 ⟨hle, hmax⟩)
      ((hlT h3).not.2 (by omega))
  · exact (search_badArgs hi (h3.trans_lt (h 3 (by norm_num)))).2.2 (hlow le_rfl h) ((hlMem h3).2 ⟨hle, htop⟩)
      ((hlT h3).2 ⟨hmin, hmax⟩) hwidths
  · exact (cbConstruct_badArgs dir (h5 ▸ h5')).1 (hfirst h) ((hlMem h5).not.2 (by omega))
  · exact (cbConstruct_badArgs dir (h5.trans_lt (h 5 (by norm_num)))).2.1 (hlow (by decide) h)
      ((hlMem h5).2 ⟨hle, hmax⟩) ((hlT h5).not.2 (by omega))
  · exact (cbConstruct_badArgs dir (h5.trans_lt (h 5 (by norm_num)))).2.2 (hlow le_rfl h) ((hlMem h5).2 ⟨hle, htop⟩)
      ((hlT h5).2 ⟨hmin, hmax⟩) hwidths

end Sys2Proof.Machine
end

section
/-! The check order, whole, for VMUL (60_exceptions.md R475 steps 5 to 7): from the first failing register, the first
region outside and the refused pairs of every command. -/

namespace Sys2Proof.Machine

theorem inside_iff_fits (s : State) (k : ArgNo) (a n : Nat) (out : Bool) :
    NamedRegion.inside ⟨k, a, n, out⟩ s ↔ fits s a n := by
  unfold NamedRegion.inside fits
  dsimp only
  omega

theorem meets_iff_not_apart (k j : ArgNo) (a n b m : Nat) (o o' : Bool) :
    NamedRegion.meets ⟨k, a, n, o⟩ ⟨j, b, m, o'⟩ ↔ ¬ apart a n b m := by
  unfold NamedRegion.meets apart
  dsimp only
  constructor
  · rintro ⟨i, hi, hi'⟩
    omega
  · exact fun h => ⟨max (a : Int) b, by omega, by omega⟩

section
variable {s : State} {sh : BitVec 5} {dir : ShiftDir} {rnd : Rounding}

theorem argOk_vmul_iff (k : ArgNo) : argOk (.vmul sh dir rnd) s k ↔ (k < 4 → (s.args[k]).toNat < 65536) := by
  have hregs : k ∈ addressArgs (.vmul sh dir rnd) ↔ k < 4 := by
    show k ∈ ([0, 1, 2, 3] : List ArgNo) ↔ k < 4
    revert k
    decide
  rw [← hregs]
  exact ⟨And.left, fun h => ⟨h, trivial⟩⟩

variable {x w y n : Nat}

theorem namedRegions_vmul (hx : argIs s 0 x) (hw : argIs s 1 w) (hy : argIs s 2 y) (hn : argIs s 3 n) :
    namedRegions (.vmul sh dir rnd) s = [⟨0, x, n, false⟩, ⟨1, w, n, false⟩, ⟨2, y, n, true⟩] := by
  show [reads s 0 (s.argLow 3), reads s 1 (s.argLow 3), writes s 2 (s.argLow 3)] = _
  rw [reads, reads, writes, (argIs_spec hx).1, (argIs_spec hw).1, (argIs_spec hy).1, (argIs_spec hn).1]

/-- Only the product is written, over a factor it meets if not in place with it. -/
theorem clashes_vmul_iff (hx : argIs s 0 x) (hw : argIs s 1 w) (hy : argIs s 2 y) (hn : argIs s 3 n) (k : ArgNo) :
    clashes (.vmul sh dir rnd) s k ↔ k = 2 ∧ ((¬ apart y n x n ∧ y ≠ x) ∨ (¬ apart y n w n ∧ y ≠ w)) := by
  have hplace (j : ArgNo) {v : Nat} (hv : argIs s j v) : s.args[(2 : ArgNo)] = s.args[j] ↔ y = v := by
    rw [← BitVec.toNat_inj, show (s.args[(2 : ArgNo)]).toNat = y from hy.1, show (s.args[j]).toNat = v from hv.1]
  unfold clashes
  rw [namedRegions_vmul hx hw hy hn]
  constructor
  · rintro ⟨o, ho, r, hr, hout, rfl, hne, hmeets, -, hplaced⟩
    have hout' : o = ⟨2, y, n, true⟩ := by
      simp only [List.mem_cons, List.not_mem_nil, or_false] at ho
      obtain rfl | rfl | rfl := ho
      · cases hout
      · cases hout
      · rfl
    subst hout'
    refine ⟨rfl, ?_⟩
    simp only [List.mem_cons, List.not_mem_nil, or_false] at hr
    obtain rfl | rfl | rfl := hr
    · exact .inl ⟨(meets_iff_not_apart ..).1 hmeets, fun h => hplaced ⟨⟨rfl, .inl rfl⟩, (hplace 0 hx).2 h⟩⟩
    · exact .inr ⟨(meets_iff_not_apart ..).1 hmeets, fun h => hplaced ⟨⟨rfl, .inr rfl⟩, (hplace 1 hw).2 h⟩⟩
    · exact absurd rfl hne
  · rintro ⟨rfl, ⟨hmeets, hne⟩ | ⟨hmeets, hne⟩⟩
    · refine ⟨_, .tail _ (.tail _ (.head _)), _, .head _, rfl, rfl, nofun, (meets_iff_not_apart ..).2 hmeets,
        nofun, fun h => hne ((hplace 0 hx).1 h.2)⟩
    · refine ⟨_, .tail _ (.tail _ (.head _)), _, .tail _ (.head _), rfl, rfl, nofun,
        (meets_iff_not_apart ..).2 hmeets, nofun, fun h => hne ((hplace 1 hw).1 h.2)⟩

end

theorem LowArgs.next {s : State} {k j : ArgNo} (h : LowArgs s k) (hk : (s.args[k]).toNat < 65536)
    (hj : (j : Nat) = k + 1) : LowArgs s j := by
  intro i hi
  obtain rfl | hne := eq_or_ne i k
  · exact hk
  · exact h i (by rw [Fin.lt_def] at hi ⊢; rw [← Fin.val_inj.ne] at hne; omega)

/-- Settles O43: the first failing register, the first region outside, then the product over a factor. -/
theorem vmulChecksInOrder : Obligations.VmulChecksInOrder := by
  unfold Obligations.VmulChecksInOrder
  intro s sh dir rnd x w y n hx hw hy hn answer
  have hbad (k : ArgNo) (hk : k < 4) (hlow : LowArgs s k) (hbig : 65536 ≤ (s.args[k]).toNat) : answer .errArg k :=
    exec_badArg (i := .vmul sh dir rnd) rfl trivial (fun j hj => (argOk_vmul_iff j).2 fun _ => hlow j hj)
      fun h => hbig.not_gt ((argOk_vmul_iff k).1 h hk)
  have hlow0 : LowArgs s 0 := fun j hj => absurd hj (Fin.not_lt_zero j)
  split
  case isTrue hx' => exact hbad 0 (by decide) hlow0 (hx ▸ hx')
  case isFalse hx' =>
  have hlow1 := hlow0.next (j := 1) (hx ▸ not_le.1 hx') rfl
  split
  case isTrue hw' => exact hbad 1 (by decide) hlow1 (hw ▸ hw')
  case isFalse hw' =>
  have hlow2 := hlow1.next (j := 2) (hw ▸ not_le.1 hw') rfl
  split
  case isTrue hy' => exact hbad 2 (by decide) hlow2 (hy ▸ hy')
  case isFalse hy' =>
  have hlow3 := hlow2.next (j := 3) (hy ▸ not_le.1 hy') rfl
  split
  case isTrue hn' => exact hbad 3 (by decide) hlow3 (hn ▸ hn')
  case isFalse hn' =>
  have hlow4 := hlow3.next (j := 4) (hn ▸ not_le.1 hn') rfl
  have hx : argIs s 0 x := ⟨hx, not_le.1 hx'⟩
  have hw : argIs s 1 w := ⟨hw, not_le.1 hw'⟩
  have hy : argIs s 2 y := ⟨hy, not_le.1 hy'⟩
  have hn : argIs s 3 n := ⟨hn, not_le.1 hn'⟩
  obtain ⟨houtside, hinside⟩ := regionErrors (.vmul sh dir rnd) s rfl trivial fun k => (argOk_vmul_iff k).2 (hlow4 k)
  simp only [namedRegions_vmul hx hw hy hn, List.forall_mem_cons, inside_iff_fits] at houtside hinside
  split
  case isTrue hfitx => exact houtside.1 hfitx ⟨nofun, nofun, nofun, nofun⟩
  case isFalse hfitx =>
  rw [not_not] at hfitx
  split
  case isTrue hfitw => exact houtside.2.1 hfitw ⟨fun _ => hfitx, nofun, nofun, nofun⟩
  case isFalse hfitw =>
  rw [not_not] at hfitw
  split
  case isTrue hfity => exact houtside.2.2.1 hfity ⟨fun _ => hfitx, fun _ => hfitw, nofun, nofun⟩
  case isFalse hfity =>
  rw [not_not] at hfity
  split
  case isTrue hclash =>
    refine (hinside ⟨hfitx, hfitw, hfity, nofun⟩).1 2 ((clashes_vmul_iff hx hw hy hn 2).2 ⟨rfl, hclash⟩) ?_
    exact fun j hj h => hj.ne ((clashes_vmul_iff hx hw hy hn j).1 h).1
  case isFalse hclear =>
    obtain ⟨hxy, hwy⟩ := not_or.1 hclear
    exact ⟨_, exec_vmul hx hw hy hn hfitx hfitw hfity (or_iff_not_imp_left.2 (not_and_not_right.1 hxy))
      (or_iff_not_imp_left.2 (not_and_not_right.1 hwy)), rfl⟩

end Sys2Proof.Machine
end

section
/-! A value out of its range (60_exceptions.md R470, R475 step 8): with steps 5 to 7 passed, a command whose values are
all reported by one register ends with ERR_VAL and that register. -/

namespace Sys2Proof.Machine

/-- The error of a value, reported by register `k`. -/
def valError (k : ArgNo) : CmdError := { code := .errVal, info := BitVec.ofNat 4 k }

theorem checkVal_false (k : ArgNo) : checkVal k false = some (valError k) := rfl

theorem checkVal_uniform (k : ArgNo) (ok : Bool) : checkVal k ok = none ∨ checkVal k ok = some (valError k) := by
  cases ok
  · exact .inr rfl
  · exact .inl rfl

theorem checkVal_eq_none {k : ArgNo} {ok : Bool} : checkVal k ok = none ↔ ok = true := by
  cases ok
  · exact ⟨nofun, nofun⟩
  · exact ⟨fun _ => rfl, fun _ => rfl⟩

/-- With one error only to be reported, the order of the checks does not matter. -/
theorem firstError_of_uniform {cs : List (Option CmdError)} {e : CmdError} (huniform : ∀ c ∈ cs, c = none ∨ c = some e)
    (hbad : ∃ c ∈ cs, c ≠ none) : firstError cs = some e := by
  induction cs with
  | nil => simp at hbad
  | cons c cs ih =>
    obtain ⟨hc, hcs⟩ := List.forall_mem_cons.1 huniform
    obtain rfl | rfl := hc
    · exact ih hcs (by simpa using hbad)
    · rfl

theorem runChecked_badVal {s body : State} {args vals : List (Option CmdError)} {regions : List Region} {k : ArgNo}
    (hargs : ∀ c ∈ args, c = none) (hfits : ∀ r ∈ regions, r.fits s.params.dmemWords = true)
    (hpairs : regions.Pairwise fun r q => pairConflict r q = none)
    (huniform : ∀ c ∈ vals, c = none ∨ c = some (valError k)) (hbad : ∃ c ∈ vals, c ≠ none) :
    runChecked s args regions vals body = .next (endedError s .errVal k) := by
  have hfirst : firstError (args ++ regions.map (checkRegion s.params.dmemWords) ++ [checkPairs regions] ++ vals) =
      some (valError k) := by
    rw [firstError_of_fits hargs hfits, (checkPairs_eq_none _).2 hpairs]
    exact (firstError_of_uniform huniform hbad : firstError vals = _)
  rw [runChecked_of_error hfirst, valError, toNat_infoOfArg]

theorem runChecked_inOut_badVal {s body : State} {k : ArgNo} {ok : Bool} {a b n p : Nat} (ha : argIs s 0 a)
    (hb : argIs s 1 b) (hfita : fits s a n) (hfitb : fits s b p) (hba : apart b p a n) (hbad : ¬ ok = true) :
    runChecked s [s.checkArg 0, s.checkArg 1] [s.input 0 n, s.output 1 p] [checkVal k ok] body =
      .next (endedError s .errVal k) := by
  have hpair : pairConflict (s.input 0 n) (s.output 1 p) = none := pair_input_output ha hb (.inl hba)
  exact runChecked_badVal (by simp [checkArg_of_argIs ha, checkArg_of_argIs hb])
    (by simp [input_fits ha hfita, output_fits hb hfitb]) (by simp [hpair]) (by simp [checkVal_uniform])
    ⟨_, .head _, fun h => hbad (checkVal_eq_none.1 h)⟩

/-! ### LSF_DEQUANT and SPEC_SYN -/

theorem readI16_of_indicesInRange {m : Memory} {a n i : Nat} (h : indicesInRange (m.readVec a n) = true) (hi : i < n) :
    0 ≤ m.readI16 (a + i) ∧ m.readI16 (a + i) < splitSize i := by
  rw [indicesInRange, List.all_eq_true] at h
  have hentry := h i (by simpa using hi)
  rwa [decide_eq_true_eq, nth_readVec, if_pos hi] at hentry

theorem exec_lsfDequant_badIndex {s : State} {ix q : Nat} (hix : argIs s 0 ix) (hq : argIs s 1 q) (hfitix : fits s ix 3)
    (hfitq : fits s q 10) (hqix : apart q 10 ix 3) {i : Nat} (hi : i < 3)
    (hbad : ¬ (0 ≤ s.dmem.readI16 (ix + i) ∧ s.dmem.readI16 (ix + i) < splitSize i)) :
    exec .lsfDequant s = .next (endedError s .errVal 0) := by
  show execLsfDequant s = _
  unfold execLsfDequant
  rw [(argIs_spec hix).1]
  exact runChecked_inOut_badVal hix hq hfitix hfitq hqix fun h => hbad (readI16_of_indicesInRange h hi)

theorem exec_specSyn_badIndex {s : State} {c : BitVec 4} {q : Ctx} {ix syn : Nat} (hq : s.ctxAt c.toNat = some q)
    (hkind : q.kind = .decoder) (hix : argIs s 0 ix) (hsyn : argIs s 1 syn)
    (hfitix : fits s ix (3 * (s.params.frame q.mode).nLsfSet)) (hfitsyn : fits s syn (11 * Config.nsub q.mode))
    (happart : apart syn (11 * Config.nsub q.mode) ix (3 * (s.params.frame q.mode).nLsfSet)) {i : Nat}
    (hi : i < 3 * (s.params.frame q.mode).nLsfSet)
    (hbad : ¬ (0 ≤ s.dmem.readI16 (ix + i) ∧ s.dmem.readI16 (ix + i) < splitSize i)) :
    exec (.specSyn c) s = .next (endedError s .errVal 0) := by
  show execSpecSyn c s = _
  rw [execSpecSyn, withCtx_open hq (by simp [hkind]), (argIs_spec hix).1]
  exact runChecked_inOut_badVal hix hsyn hfitix hfitsyn happart fun h => hbad (readI16_of_indicesInRange h hi)

/-! ### PACK -/

theorem readWord_of_fieldsFit {widths : List Nat} {m : Memory} {a f : Nat}
    (h : fieldsFit widths (m.readU16s a widths.length) = true) (hf : f < widths.length) :
    (m.readWord (a + f)).toNat < 2 ^ widths.getD f 0 := by
  rw [fieldsFit, List.all_eq_true] at h
  have hlen : (m.readU16s a widths.length).length = widths.length := by simp [Memory.readU16s]
  have hfit := h _ (List.getElem_mem (n := f) (by simp [hlen, hf]))
  rw [List.getD_eq_getElem _ _ hf]
  simpa [Memory.readU16s] using hfit

theorem exec_pack_badField {s : State} (mode : Mode) {fd y f : Nat} (hfd : argIs s 0 fd) (hy : argIs s 1 y)
    (hfitfd : fits s fd (fieldWidths s.params mode).length) (hfity : fits s y (Config.frameBytes mode))
    (happart : apart y (Config.frameBytes mode) fd (fieldWidths s.params mode).length)
    (hf : f < (fieldWidths s.params mode).length)
    (hbad : 2 ^ fieldWidth s.params mode f ≤ (s.dmem.readWord (fd + f)).toNat) :
    exec (.pack mode) s = .next (endedError s .errVal 0) := by
  show execPack mode s = _
  unfold execPack
  rw [(argIs_spec hfd).1]
  exact runChecked_inOut_badVal hfd hy hfitfd hfity happart fun h => hbad.not_gt (readWord_of_fieldsFit h hf)

/-! ### CB_CONSTRUCT -/

/-- The word at `a` is an index below `top`. -/
abbrev legalIndex (m : Memory) (a top : Nat) : Prop := 0 ≤ m.readI16 a ∧ m.readI16 a < top

/-- The checks of the three codebook indices at `ix` and the three gain indices at `gx`, stage by stage. -/
def cbValues (m : Memory) (lMem lT ix gx w0 w1 w2 : Nat) : List (Option CmdError) :=
  [checkVal 2 (legalIndex m ix (stageSize lMem lT w0)), checkVal 3 (legalIndex m gx 32),
    checkVal 2 (legalIndex m (ix + 1) (stageSize lMem lT w1)), checkVal 3 (legalIndex m (gx + 1) 16),
    checkVal 2 (legalIndex m (ix + 2) (stageSize lMem lT w2)), checkVal 3 (legalIndex m (gx + 2) 8)]

theorem exec_cbConstruct_badVal {s : State} (dir : CbDir) {h lMem ix gx o lT w0 w1 w2 : Nat} (hh : argIs s 0 h)
    (hlMem : argIs s 1 lMem) (hix : argIs s 2 ix) (hgx : argIs s 3 gx) (ho : argIs s 4 o) (hlT : argIs s 5 lT)
    (hw : widthsAre s w0 w1 w2) (hpos : 1 ≤ lT) (hle : lT ≤ 80) (hlTMem : lT ≤ lMem)
    (hmax : lMem ≤ s.params.cbLmemMax) (hfith : fits s h lMem) (hfitix : fits s ix 3) (hfitgx : fits s gx 3)
    (hfito : fits s o lT) (hoh : apart o lT h lMem) (hoix : apart o lT ix 3) (hogx : apart o lT gx 3) {k : ArgNo}
    (huniform : ∀ c ∈ cbValues s.dmem lMem lT ix gx w0 w1 w2, c = none ∨ c = some (valError k))
    (hbad : ∃ c ∈ cbValues s.dmem lMem lT ix gx w0 w1 w2, c ≠ none) :
    exec (.cbConstruct dir) s = .next (endedError s .errVal k) := by
  obtain ⟨hw0, hw1, hw2⟩ := stageWidth_of_widthsAre hw
  show execCbConstruct dir s = _
  unfold execCbConstruct
  simp only [(argIs_spec hh).1, (argIs_spec hlMem).1, (argIs_spec hix).1, (argIs_spec hgx).1, (argIs_spec ho).1,
    (argIs_spec hlT).1, hw0, hw1, hw2]
  have hpairh : pairConflict (s.input 0 lMem) (s.output 4 lT) = none := pair_input_output hh ho (.inl hoh)
  have hpairix : pairConflict (s.input 2 3) (s.output 4 lT) = none := pair_input_output hix ho (.inl hoix)
  have hpairgx : pairConflict (s.input 3 3) (s.output 4 lT) = none := pair_input_output hgx ho (.inl hogx)
  exact runChecked_badVal
    (by simp [checkArg_of_argIs hh, checkArg_of_argIs hix, checkArg_of_argIs hgx, checkArg_of_argIs ho,
      checkLMem_of_argIs hlMem hlTMem hmax, checkLT_of_argIs hlT hpos hle, checkWidths_pass ⟨_, _, _, hw⟩])
    (by simp [input_fits hh hfith, input_fits hix hfitix, input_fits hgx hfitgx, output_fits ho hfito])
    (by simp [pair_input_input, hpairh, hpairix, hpairgx]) huniform hbad

/-- Settles O44: each command's values are checked for one register, CB_CONSTRUCT's once the other's are legal. -/
theorem valueErrors : Obligations.ValueErrors := by
  unfold Obligations.ValueErrors
  refine ⟨⟨?_, ?_, ?_⟩, ?_⟩
  · intro s ix q hix hq hfitix hfitq hqix hbad
    obtain hbad | hbad | hbad := hbad
    · exact exec_lsfDequant_badIndex hix hq hfitix hfitq hqix (i := 0) (by decide) hbad
    · exact exec_lsfDequant_badIndex hix hq hfitix hfitq hqix (i := 1) (by decide) hbad
    · exact exec_lsfDequant_badIndex hix hq hfitix hfitq hqix (i := 2) (by decide) hbad
  · intro s c q ix syn i j hq hkind hix hsyn hfitix hfitsyn hsynix hi hj hbad
    refine exec_specSyn_badIndex hq hkind hix hsyn hfitix hfitsyn hsynix (i := 3 * i + j) (by omega) ?_
    rwa [splitSize, show (3 * i + j) % 3 = j by omega]
  · intro s mode fd y f hfd hy hfitfd hfity happart hf hbad
    exact exec_pack_badField mode hfd hy hfitfd hfity happart hf hbad
  · intro s dir h lMem ix gx o lT w0 w1 w2 hh hlMem hix hgx ho hlT hw hpos hle hlTMem hmax hfith hfitix hfitgx hfito
      hoh hoix hogx size legal idxOk gidxOk
    have hend (k : ArgNo) := exec_cbConstruct_badVal dir hh hlMem hix hgx ho hlT hw hpos hle hlTMem hmax hfith hfitix
      hfitgx hfito hoh hoix hogx (k := k)
    have hlegal : (∀ c ∈ cbValues s.dmem lMem lT ix gx w0 w1 w2, c = none) → idxOk ∧ gidxOk := by
      simp only [cbValues, List.forall_mem_cons, checkVal_eq_none, decide_eq_true_eq]
      exact fun ⟨h0, k0, h1, k1, h2, k2, _⟩ => ⟨⟨h0, h1, h2⟩, k0, k1, k2⟩
    have hsome (hbad : ¬ (idxOk ∧ gidxOk)) : ∃ c ∈ cbValues s.dmem lMem lT ix gx w0 w1 w2, c ≠ none := by
      by_contra hall
      exact hbad (hlegal fun c hc => not_not.1 fun hne => hall ⟨c, hc, hne⟩)
    have hpass (j : ArgNo) (k : ArgNo) {p : Prop} [Decidable p] (hp : p) :
        checkVal j p = none ∨ checkVal j p = some (valError k) := .inl (checkVal_eq_none.2 (decide_eq_true hp))
    refine ⟨fun hidx hgidx => hend 2 ?_ (hsome fun h => hidx h.1), fun hidx hgidx => hend 3 ?_ (hsome fun h => hgidx h.2)⟩
    · obtain ⟨hgidx0, hgidx1, hgidx2⟩ := hgidx
      simp only [cbValues, List.forall_mem_cons]
      exact ⟨checkVal_uniform 2 _, hpass 3 2 hgidx0, checkVal_uniform 2 _, hpass 3 2 hgidx1, checkVal_uniform 2 _,
        hpass 3 2 hgidx2, nofun⟩
    · obtain ⟨hidx0, hidx1, hidx2⟩ := hidx
      simp only [cbValues, List.forall_mem_cons]
      exact ⟨hpass 2 3 hidx0, checkVal_uniform 3 _, hpass 2 3 hidx1, checkVal_uniform 3 _, hpass 2 3 hidx2,
        checkVal_uniform 3 _, nofun⟩

end Sys2Proof.Machine
end

section
/-! A command depends on its arguments, the data memory and the context it names alone (70_reset_and_hazards.md R528;
20_memory.md R100): from two states that agree on these, each operation of the state keeps them alike, and every check
ends the same. -/

namespace Sys2Proof.Machine

/-- `r` with the parameters, the arguments and the data memory of `s`. -/
def State.withInputs (r s : State) : State := { r with params := s.params, args := s.args, dmem := s.dmem }

theorem withInputs_of_agree {r s : State} (hparams : s.params = r.params) (hargs : s.args = r.args)
    (hdmem : s.dmem = r.dmem) : r.withInputs s = r := by
  unfold State.withInputs
  rw [hparams, hargs, hdmem]

/-- The states `b` and `b'` a command builds from `s` and `r` hold the same results, as far as it writes them. -/
structure Alike (i : Instr) (s r b b' : State) : Prop where
  params : b.params = b'.params
  dmem : b.dmem = b'.dmem
  ctx : ∀ c, ctxNamed i = some c → b.ctxAt c.toNat = b'.ctxAt c.toNat
  res0 : b.res0 = b'.res0 ∨ b.res0 = s.res0 ∧ b'.res0 = r.res0
  res1 : b.res1 = b'.res1 ∨ b.res1 = s.res1 ∧ b'.res1 = r.res1
  unstable : s.status.unstable = r.status.unstable → b.status.unstable = b'.status.unstable
  biterr : s.status.biterr = r.status.biterr → b.status.biterr = b'.status.biterr
  noiseonly : s.status.noiseonly = r.status.noiseonly → b.status.noiseonly = b'.status.noiseonly

/-- Two ends alike: the same error, each over its own state, or a success over states alike. -/
def AlikeEnds (i : Instr) (s r : State) (o o' : StepOutcome) : Prop :=
  (∃ e, o = .next (raise e s) ∧ o' = .next (raise e (r.withInputs s))) ∨
  ∃ b b', Alike i s r b b' ∧ o = .next (complete b) ∧ o' = .next (complete b')

section
variable {i : Instr} {s r b b' : State}

/-! ### The operations of the state -/

theorem alike_self (hctx : ∀ c, ctxNamed i = some c → s.ctxAt c.toNat = (r.withInputs s).ctxAt c.toNat) :
    Alike i s r s (r.withInputs s) where
  params := rfl
  dmem := rfl
  ctx := hctx
  res0 := .inr ⟨rfl, rfl⟩
  res1 := .inr ⟨rfl, rfl⟩
  unstable := id
  biterr := id
  noiseonly := id

namespace Alike

theorem writeVec (h : Alike i s r b b') (a : Nat) (l : List Int) : Alike i s r (b.writeVec a l) (b'.writeVec a l) :=
  { h with dmem := congrArg (·.writeVec a l) h.dmem }

theorem setRes0 (h : Alike i s r b b') (v : Int) : Alike i s r (b.setRes0 v) (b'.setRes0 v) :=
  { h with res0 := .inl rfl }

theorem setRes1 (h : Alike i s r b b') (v : Int) : Alike i s r (b.setRes1 v) (b'.setRes1 v) :=
  { h with res1 := .inl rfl }

theorem setCtx (h : Alike i s r b b') (c : Nat) (v : Option Ctx) : Alike i s r (b.setCtx c v) (b'.setCtx c v) :=
  { h with
    ctx := fun d hd => by
      rw [ctxAt_setCtx, ctxAt_setCtx, h.params, h.ctx d hd] }

theorem setUnstable (h : Alike i s r b b') : Alike i s r b.setUnstable b'.setUnstable :=
  { h with unstable := fun _ => rfl }

theorem setBiterr (h : Alike i s r b b') : Alike i s r b.setBiterr b'.setBiterr :=
  { h with biterr := fun _ => rfl }

theorem setNoiseonly (h : Alike i s r b b') : Alike i s r b.setNoiseonly b'.setNoiseonly :=
  { h with noiseonly := fun _ => rfl }

theorem updateIf (h : Alike i s r b b') {f : State → State} (hf : Alike i s r (f b) (f b')) (p : Bool) :
    Alike i s r (b.updateIf p f) (b'.updateIf p f) := by
  cases p
  · exact h
  · exact hf

theorem setUnstableIf (h : Alike i s r b b') (p : Bool) :
    Alike i s r (b.updateIf p State.setUnstable) (b'.updateIf p State.setUnstable) := h.updateIf h.setUnstable p

theorem setBiterrIf (h : Alike i s r b b') (p : Bool) :
    Alike i s r (b.updateIf p State.setBiterr) (b'.updateIf p State.setBiterr) := h.updateIf h.setBiterr p

theorem setNoiseonlyIf (h : Alike i s r b b') (p : Bool) :
    Alike i s r (b.updateIf p State.setNoiseonly) (b'.updateIf p State.setNoiseonly) := h.updateIf h.setNoiseonly p

end Alike

/-! ### The ends -/

theorem alikeEnds_raise (e : CmdError) : AlikeEnds i s r (.next (raise e s)) (.next (raise e (r.withInputs s))) :=
  .inl ⟨e, rfl, rfl⟩

theorem alikeEnds_complete (h : Alike i s r b b') : AlikeEnds i s r (.next (complete b)) (.next (complete b')) :=
  .inr ⟨b, b', h, rfl, rfl⟩

theorem alikeEnds_runChecked {args vals : List (Option CmdError)} {regions : List Region} (h : Alike i s r b b') :
    AlikeEnds i s r (runChecked s args regions vals b) (runChecked (r.withInputs s) args regions vals b') := by
  unfold runChecked
  rw [show (r.withInputs s).params = s.params from rfl]
  split
  · exact alikeEnds_raise _
  · exact alikeEnds_complete h

theorem alikeEnds_withCtx {c : BitVec 4} {kind : Option CtxKind} {k k' : Ctx → StepOutcome}
    (hc : s.ctxAt c.toNat = (r.withInputs s).ctxAt c.toNat) (h : ∀ x, AlikeEnds i s r (k x) (k' x)) :
    AlikeEnds i s r (withCtx s c kind k) (withCtx (r.withInputs s) c kind k') := by
  unfold withCtx
  rw [← hc]
  split
  · exact alikeEnds_raise _
  · split
    · exact h _
    · exact alikeEnds_raise _

/-! ### The opcode map -/

variable (hctx : ∀ c, ctxNamed i = some c → s.ctxAt c.toNat = (r.withInputs s).ctxAt c.toNat)
include hctx

theorem exec_alike : AlikeEnds i s r (exec i s) (exec i (r.withInputs s)) := by
  have hself := alike_self hctx
  cases i with
  | nop => exact alikeEnds_complete hself
  | sat16 | abs16 | abs32 | adds16 | subs16 | adds32 | subs32 | mul16 | shift32 | shift16 | normw16 | normw32
  | normu32 | sizebits => exact alikeEnds_complete (hself.setRes0 _)
  | vmaxabs16 => exact alikeEnds_runChecked ((hself.setRes0 _).setRes1 _)
  | dotsc => exact alikeEnds_runChecked (hself.setRes0 _)
  | vscale | vmul | filtMa | filtAr | bwexp | lsf2a | lsfDequant | lsfInterp | cbConstruct =>
    exact alikeEnds_runChecked (hself.writeVec _ _)
  | autocorr | a2lsf | lsfStab | pack => exact alikeEnds_runChecked ((hself.writeVec _ _).setRes0 _)
  | levinson =>
    exact alikeEnds_runChecked ((((hself.writeVec _ _).writeVec _ _).setUnstableIf _).setRes0 _)
  | lsfQuant => exact alikeEnds_runChecked ((hself.writeVec _ _).writeVec _ _)
  | acbSearch | bcbSearch =>
    exact alikeEnds_runChecked ((((hself.writeVec _ _).writeVec _ _).setRes0 _).setRes1 _)
  | gainQuant stg =>
    show AlikeEnds _ s r (execGainQuant stg s) (execGainQuant stg (r.withInputs s))
    unfold execGainQuant
    split
    · exact alikeEnds_raise _
    · exact alikeEnds_runChecked ((hself.setRes0 _).setRes1 _)
  | gainDequant stg =>
    show AlikeEnds _ s r (execGainDequant stg s) (execGainDequant stg (r.withInputs s))
    unfold execGainDequant
    split
    · exact alikeEnds_raise _
    · exact alikeEnds_runChecked (hself.setRes0 _)
  | hpFilt c =>
    exact alikeEnds_withCtx (hctx c rfl) fun x => alikeEnds_runChecked ((hself.writeVec _ _).setCtx _ _)
  | specAna c =>
    exact alikeEnds_withCtx (hctx c rfl) fun x => alikeEnds_runChecked
      (((((((hself.writeVec _ _).writeVec _ _).writeVec _ _).setCtx _ _).setRes0 _).setRes1 _).setUnstableIf _)
  | specSyn c =>
    exact alikeEnds_withCtx (hctx c rfl) fun x =>
      alikeEnds_runChecked (((hself.writeVec _ _).setCtx _ _).setRes0 _)
  | plcGood c =>
    exact alikeEnds_withCtx (hctx c rfl) fun x =>
      alikeEnds_runChecked ((((hself.writeVec _ _).setCtx _ _).setRes0 _).setRes1 _)
  | plcLost c =>
    exact alikeEnds_withCtx (hctx c rfl) fun x => alikeEnds_runChecked
      ((((((hself.writeVec _ _).writeVec _ _).setCtx _ _).setRes0 _).setRes1 _).setNoiseonlyIf _)
  | unpack c =>
    refine alikeEnds_withCtx (hctx c rfl) fun x => ?_
    dsimp only
    rw [show (r.withInputs s).argU32 1 = s.argU32 1 from rfl]
    split
    · exact alikeEnds_complete (hself.setBiterr.setRes0 _)
    split
    · exact alikeEnds_raise _
    · exact alikeEnds_runChecked (((hself.writeVec _ _).setRes0 _).setBiterrIf _)
  | chOpen c kind mode =>
    show AlikeEnds _ s r (execChOpen c kind mode s) (execChOpen c kind mode (r.withInputs s))
    unfold execChOpen
    rw [← hctx c rfl, show (r.withInputs s).params = s.params from rfl]
    split
    · exact alikeEnds_complete (hself.setCtx _ _)
    · exact alikeEnds_raise _
  | chClose c =>
    exact alikeEnds_withCtx (hctx c rfl) fun x => alikeEnds_complete (hself.setCtx _ _)

end

/-- Settles O46: both states end alike, and under way no flag is set yet. -/
theorem resultsAreDetermined : Obligations.ResultsAreDetermined := by
  unfold Obligations.ResultsAreDetermined
  intro i s s' t t' hparams hargs hdmem hctx ht ht'
  have hinputs : s'.withInputs s = s' := withInputs_of_agree hparams hargs hdmem
  have hends : AlikeEnds i s s' (exec i s) (exec i (s'.withInputs s)) := exec_alike (by rwa [hinputs])
  rw [hinputs, ht, ht'] at hends
  have hflags (hbusy : s.status.busy = true) (hbusy' : s'.status.busy = true) (hinv : statusInv s)
      (hinv' : statusInv s') : s.status.unstable = s'.status.unstable ∧ s.status.biterr = s'.status.biterr ∧
        s.status.noiseonly = s'.status.noiseonly := by
    obtain ⟨-, -, hunstable, hbiterr, hnoiseonly⟩ := hinv.1 hbusy
    obtain ⟨-, -, hunstable', hbiterr', hnoiseonly'⟩ := hinv'.1 hbusy'
    exact ⟨hunstable.trans hunstable'.symm, hbiterr.trans hbiterr'.symm, hnoiseonly.trans hnoiseonly'.symm⟩
  obtain ⟨e, hend, hend'⟩ | ⟨b, b', halike, hend, hend'⟩ := hends
  · rw [hinputs] at hend'
    obtain rfl := Host.Outcome.next.inj hend
    obtain rfl := Host.Outcome.next.inj hend'
    exact ⟨⟨hdmem, hctx, rfl, rfl, .inr ⟨rfl, rfl⟩, .inr ⟨rfl, rfl⟩⟩, hflags⟩
  · obtain rfl := Host.Outcome.next.inj hend
    obtain rfl := Host.Outcome.next.inj hend'
    refine ⟨⟨halike.dmem, halike.ctx, rfl, rfl, halike.res0, halike.res1⟩, fun hbusy hbusy' hinv hinv' => ?_⟩
    obtain ⟨hunstable, hbiterr, hnoiseonly⟩ := hflags hbusy hbusy' hinv hinv'
    exact ⟨halike.unstable hunstable, halike.biterr hbiterr, halike.noiseonly hnoiseonly⟩

end Sys2Proof.Machine
end
